-- ==== Sys2Proof/Word.lean ====
section
/-! DEFINITION. The word types of the block and the shape of its sparse tables. -/

namespace Sys2Proof

/-- A 32-bit word: descriptor words, device registers, management values (R15, R70, R90). -/
abbrev Word32 := BitVec 32

/-- A byte of descriptor memory or of a packet payload (R60, R61). -/
abbrev Byte := BitVec 8

/-- A sparse table with natural keys. Its one canonical form has strictly rising keys (`Machine.mapWf`). -/
abbrev Table (β : Type) := List (Nat × β)

end Sys2Proof
end

