-- ==== Sys2Proof/Config.lean ====
section
/-! DEFINITION. The parameters of the block (R10) and the free values that stand for unsupplied draws (R17).
The parameters are one record of plain data, carried by State and changed by no step; a claim about every
state is therefore a claim about every parameter set. -/

namespace Sys2Proof

/-- The two rings (R7, R20). -/
inductive Ring where
  | tx
  | rx
deriving DecidableEq, Repr

/-- Link speed in megabits (R116). -/
inductive Speed where
  | s10
  | s100
deriving DecidableEq, Repr

/-- Link duplex (R116). -/
inductive Duplex where
  | half
  | full
deriving DecidableEq, Repr

/-- A link mode: a pair (speed, duplex) (R116, R221). -/
structure Mode where
  speed : Speed
  duplex : Duplex
deriving DecidableEq, Repr

/-- Byte order of a descriptor word in memory, `DESC_BYTE_ORDER` (R72). -/
inductive ByteOrder where
  | little
  | big
deriving DecidableEq, Repr

/-- `DEVICE_TX_ORDER` (R281): whether the transmit engine may complete any device-owned slot or only the next one. -/
inductive TxOrder where
  | any
  | inOrder
deriving DecidableEq, Repr

/-- Allocation mode of `Alloc` (R79): blocking in process context, nonblocking elsewhere. -/
inductive AllocMode where
  | blocking
  | nonblocking
deriving DecidableEq, Repr

/-- A bit field of a 32-bit word: least significant bit and width (R98). -/
structure Field where
  lo : Nat
  w : Nat
deriving DecidableEq, Repr

/-- `DESC_PROFILE` (R91, R93, R95): word offsets, byte order, address width and the FLAGS fields.
One-bit fields are given by their bit number; `OWN` is one field for both formats (R92, R99). -/
structure DescProfile where
  flagsOffset : Nat
  addrOffset : Nat
  byteOrder : ByteOrder
  addrBits : Nat
  own : Nat
  sop : Nat
  eop : Nat
  csEn : Nat
  csStuff : Field
  csStart : Field
  txSize : Field
  overflow : Nat
  rxSize : Field
  rxCsum : Field
deriving DecidableEq, Repr

/-- `STATUS_PROFILE` (R107): the three masks of the device status word. -/
structure StatusProfile where
  fatalMask : Word32
  txDoneMask : Word32
  rxDoneMask : Word32
deriving DecidableEq, Repr

/-- `MGMT_PROFILE` and `MGMT_WIDTH` (R74, R109): register numbers, then bit numbers register by register. -/
structure MgmtProfile where
  width : Nat
  control : Nat
  status : Nat
  advertise : Nat
  partner : Nat
  tcvrConfig : Nat
  anEnable : Nat
  anRestart : Nat
  speed100 : Nat
  fullDuplex : Nat
  anComplete : Nat
  linkStatus : Nat
  advBase : Word32
  a10h : Nat
  a10f : Nat
  a100h : Nat
  a100f : Nat
  p10h : Nat
  p10f : Nat
  p100h : Nat
  p100f : Nat
  tcvrDisable : Nat
deriving DecidableEq, Repr

/-- `MAC_PROFILE` (R115): the two bits of the MAC transmit-configuration register the block uses. -/
structure MacProfile where
  txEnable : Nat
  fullDuplex : Nat
deriving DecidableEq, Repr

/-- The filter flags of `SET_MCAST` (R264): "promiscuous/all-multicast register bits". -/
structure FilterFlags where
  promiscuous : Bool
  allMulticast : Bool
deriving DecidableEq, Repr

/-- The argument record of `SET_MCAST` (R120, R264): a list of addresses, which the block does not interpret, and flags. -/
structure FilterRequest where
  addresses : List Nat
  flags : FilterFlags
deriving DecidableEq, Repr

/-- One write to an opaque register group: the register's index in the group and the value (R264). -/
abbrev RegWrite := Nat × Word32

/-- A value of `FIXED_PARAMS_PROGRAM` (R339): a word, or the base address of a ring, which creation fixes later than the
parameters (R51). -/
inductive FixedVal where
  | word (v : Word32)
  | ringBase (r : Ring)
deriving DecidableEq, Repr

/-- One write of `FIXED_PARAMS_PROGRAM`: the register's index in the group and the value (R339). Whether the device needs the ring
bases programmed is open; a list includes them where it does (log entry 36). -/
abbrev FixedWrite := Nat × FixedVal

/-- The parameters of R10, with `FIXED_PARAMS_PROGRAM` (R339), `DEVICE_TX_ORDER` (R281) and the part of
`FILTER_PROGRAM` (R264) that is supplied as a table; arguments outside the table go to `Config.filterProgram`. -/
structure Params where
  nTx : Nat
  nRx : Nat
  kMax : Nat
  txLowWater : Nat
  rxMinFrame : Nat
  rxCopyThreshold : Nat
  rxBufSize : Nat
  arbTicks : Nat
  lupDiagTicks : Nat
  ftwSettleOffTick : Nat
  ftwSettleOnTick : Nat
  ftwLimitTick : Nat
  anRestartPollBudget : Nat
  macDrainPollBudget : Nat
  advertised : List Mode
  desc : DescProfile
  status : StatusProfile
  mgmt : MgmtProfile
  mac : MacProfile
  deviceTxOrder : TxOrder
  fixedParamsProgram : List FixedWrite
  filterTable : List (FilterRequest × List RegWrite)
deriving DecidableEq, Repr

namespace Config

/-- Free answer of the interrupt-delivery collaborator (R260, R292), for the n-th unsupplied draw. -/
opaque freeIrqAcquire : Nat → Bool

/-- Free answer of the ring-memory collaborator (R130, R293): a base address or `none` for fail. -/
opaque freeRingMemory : Ring → Nat → Nat → Option Nat

/-- Free answer of `Alloc` (R79, R293), given the mode, the size and the draw number. -/
opaque freeAlloc : AllocMode → Nat → Nat → Option Nat

/-- Free answer of `DmaMap` (R77, R293), given the buffer and the draw number: a handle and a device address. -/
opaque freeDmaMap : Nat → Nat → Option (Nat × Nat)

/-- Free value of a management read (R74, R288), given the register number and the draw number. -/
opaque freeMgmtRead : Nat → Nat → Word32

/-- Free answer of the transceiver probe (R289): `true` is `Known`. -/
opaque freeTcvrKnown : Nat → Bool

/-- Free payload byte (R282, U8), given the draw number and the byte's place in the buffer. -/
opaque freePayload : Nat → Nat → Byte

/-- Free value of the bits that no field covers in a FLAGS word the receive engine writes (R103, U1), given the draw number. -/
opaque freeRxReserved : Nat → Word32

/-- The part of the parameter `FILTER_PROGRAM` (R264) that the parameter table does not list. -/
opaque filterProgram : FilterRequest → List RegWrite

/-- The parameter `RX_CSUM_VALID(csum, buf, len)` (R190): whether a delivered packet's checksum is valid. That `buf` is the
buffer's number and not its bytes is a DESIGN CHOICE, unsafe (log entry 23). -/
opaque rxCsumValid : Nat → Nat → Nat → Bool

end Config

end Sys2Proof
end

