-- ==== Sys2Proof/Syntax.lean ====
section
/-! DEFINITION. The block's operations and agent steps as one inductive, a constructor for each of the 28 rows of
the opcode table (R120), with the operand types of their argument records. -/

namespace Sys2Proof

/-- The three host execution contexts (R314). -/
inductive Context where
  | process
  | interrupt
  | timer
deriving DecidableEq, Repr

/-- The `autoneg` argument of `RECONFIGURE_LINK` as a caller may give it (R229: `an ∉ {enabled, disabled}` is possible). -/
inductive AutonegArg where
  | enabled
  | disabled
  | other
deriving DecidableEq, Repr

/-- The `duplex` argument of `RECONFIGURE_LINK` as a caller may give it (R229). -/
inductive DuplexArg where
  | half
  | full
  | other
deriving DecidableEq, Repr

/-- The checksum request of a packet (R150): `none`, or `partial(start, stuff)`. -/
inductive CsRequest where
  | none
  | offsets (start stuff : Nat)
deriving DecidableEq, Repr

/-- One fragment of a transmit packet: a caller's buffer and the fragment's length (R150). -/
structure Fragment where
  buf : Nat
  len : Nat
deriving DecidableEq, Repr

/-- A transmit packet (R150): its fragments 1..K in order and its checksum request. -/
structure Packet where
  frags : List Fragment
  cs : CsRequest
deriving DecidableEq, Repr

/-- The environment steps that may fall between two micro-steps of a host operation (R14, R280 to R290). -/
inductive AgentStep where
  | envVisible (addr : Nat)
  | devTxDone (slot : Nat)
  | devRxDone (slot len : Nat) (ov : Bool) (csum : Nat)
  | devStatus (bits : Word32)
  | macDrained
deriving DecidableEq, Repr

/-- The operations and agent steps of the opcode map (R120), in its order. -/
inductive Instr where
  | ringAlloc (ring : Ring) (capacity : Nat)
  | ringNextFree
  | ringPublish (ring : Ring) (slot : Nat) (addr flags : Word32)
  | ringTryReclaim (ring : Ring) (slot : Nat)
  | ringReset (ring : Ring)
  | transmit (pkt : Packet)
  | txReclaim
  | rxReclaim
  | rxPost (slot handle : Nat)
  | rxRecycle (slot : Nat)
  | irq
  | linkBegin
  | linkTick
  | linkCommit (mode : Mode)
  | linkForce (perm : Fin 4)
  | reconfigureLink (autoneg : AutonegArg) (speed : Nat) (duplex : DuplexArg)
  | openAdapter
  | closeAdapter
  | txTimeout
  | setMcast (req : FilterRequest)
  | resetInit (ctx : Context)
  | envVisible (addr : Nat)
  | devTxDone (slot : Nat)
  | devRxDone (slot len : Nat) (ov : Bool) (csum : Nat)
  | devStatus (bits : Word32)
  | macDrained
  | timerFire
  | watchdogFire
deriving DecidableEq, Repr

end Sys2Proof
end

