-- ==== Sys2Proof/WellFormed.lean ====
section
/-! DEFINITION. Well-formed instructions: every operand fits its place in the argument record. The ranges that depend on
the parameters (slots, lengths) are checked by the meanings, which have them. -/

namespace Sys2Proof

/-- A natural that a 32-bit record word holds. -/
def fits32 (n : Nat) : Bool := decide (n < 2 ^ 32)

/-- A natural that two record words hold. -/
def fits64 (n : Nat) : Bool := decide (n < 2 ^ 64)

/-- A checksum request whose offsets fit their words. -/
def CsRequest.wellFormed : CsRequest → Bool
  | .none => true
  | .offsets start stuff => fits32 start && fits32 stuff

/-- A packet whose counts, buffers and lengths fit their words. -/
def Packet.wellFormed (p : Packet) : Bool :=
  fits32 p.frags.length && p.frags.all (fun f => fits32 f.buf && fits32 f.len) && p.cs.wellFormed

/-- Every operand fits its place in the argument record. -/
def Instr.wellFormed : Instr → Bool
  | .ringAlloc _ capacity => fits32 capacity
  | .ringNextFree => true
  | .ringPublish _ slot _ _ => fits32 slot
  | .ringTryReclaim _ slot => fits32 slot
  | .ringReset _ => true
  | .transmit pkt => pkt.wellFormed
  | .txReclaim => true
  | .rxReclaim => true
  | .rxPost slot handle => fits32 slot && fits32 handle
  | .rxRecycle slot => fits32 slot
  | .irq => true
  | .linkBegin => true
  | .linkTick => true
  | .linkCommit _ => true
  | .linkForce _ => true
  | .reconfigureLink _ speed _ => fits32 speed
  | .openAdapter => true
  | .closeAdapter => true
  | .txTimeout => true
  | .setMcast req => fits32 req.addresses.length && req.addresses.all fits64
  | .resetInit _ => true
  | .envVisible addr => fits32 addr
  | .devTxDone slot => fits32 slot
  | .devRxDone slot len _ csum => fits32 slot && fits32 len && fits32 csum
  | .devStatus _ => true
  | .macDrained => true
  | .timerFire => true
  | .watchdogFire => true

end Sys2Proof
end

