-- ==== Sys2Proof/Decode.lean ====
section
/-! DEFINITION. The opcode map (R120), the decoder of a command record, total on any bytes, and the encoder.
A record is the code byte and then the argument record as 32-bit little-endian words in the order of R120's argument
column, of each of which only the bits its operand takes are read (log entry 1). Bytes past the record are handed back, not read. -/

namespace Sys2Proof

/-- Who may take an operation (R120, R124). -/
inductive OpClass where
  | inbound
  | internal
  | agent
deriving DecidableEq, Repr

/-- The class column of the opcode map (R120). -/
def Instr.opClass : Instr → OpClass
  | .ringAlloc _ _ => .internal
  | .ringNextFree => .internal
  | .ringPublish _ _ _ _ => .internal
  | .ringTryReclaim _ _ => .internal
  | .ringReset _ => .internal
  | .transmit _ => .inbound
  | .txReclaim => .internal
  | .rxReclaim => .internal
  | .rxPost _ _ => .internal
  | .rxRecycle _ => .internal
  | .irq => .inbound
  | .linkBegin => .internal
  | .linkTick => .inbound
  | .linkCommit _ => .internal
  | .linkForce _ => .internal
  | .reconfigureLink _ _ _ => .inbound
  | .openAdapter => .inbound
  | .closeAdapter => .inbound
  | .txTimeout => .inbound
  | .setMcast _ => .inbound
  | .resetInit _ => .internal
  | .envVisible _ => .agent
  | .devTxDone _ => .agent
  | .devRxDone _ _ _ _ => .agent
  | .devStatus _ => .agent
  | .macDrained => .agent
  | .timerFire => .agent
  | .watchdogFire => .agent

/-- The 8-bit code of an operation (R120). -/
def Instr.code : Instr → Byte
  | .ringAlloc _ _ => 0x01#8
  | .ringNextFree => 0x02#8
  | .ringPublish _ _ _ _ => 0x03#8
  | .ringTryReclaim _ _ => 0x04#8
  | .ringReset _ => 0x05#8
  | .transmit _ => 0x10#8
  | .txReclaim => 0x11#8
  | .rxReclaim => 0x20#8
  | .rxPost _ _ => 0x21#8
  | .rxRecycle _ => 0x22#8
  | .irq => 0x30#8
  | .linkBegin => 0x40#8
  | .linkTick => 0x41#8
  | .linkCommit _ => 0x42#8
  | .linkForce _ => 0x43#8
  | .reconfigureLink _ _ _ => 0x44#8
  | .openAdapter => 0x50#8
  | .closeAdapter => 0x51#8
  | .txTimeout => 0x52#8
  | .setMcast _ => 0x53#8
  | .resetInit _ => 0x54#8
  | .envVisible _ => 0x80#8
  | .devTxDone _ => 0x81#8
  | .devRxDone _ _ _ _ => 0x82#8
  | .devStatus _ => 0x83#8
  | .macDrained => 0x84#8
  | .timerFire => 0x85#8
  | .watchdogFire => 0x86#8

/-- Why bytes are no command. -/
inductive DecodeError where
  /-- The code is not in the opcode map: "spells no operation" (R123). -/
  | unknownCode (code : Byte)
deriving DecidableEq, Repr

/-! ### Writing and reading one word -/

/-- The four bytes of a record word, least significant first. -/
def putWord (n : Nat) : List Byte :=
  [BitVec.ofNat 8 n, BitVec.ofNat 8 (n / 256), BitVec.ofNat 8 (n / 65536), BitVec.ofNat 8 (n / 16777216)]

/-- The record word that bytes begin with; a byte that is not there counts as 0. -/
def wordAt (bs : List Byte) : Nat :=
  (bs.getD 0 0).toNat + 256 * (bs.getD 1 0).toNat + 65536 * (bs.getD 2 0).toNat + 16777216 * (bs.getD 3 0).toNat

/-- Reads one record word and goes on with the rest. -/
def withWord {α : Type} (bs : List Byte) (k : Nat → List Byte → α) : α := k (wordAt bs) (bs.drop 4)

/-! ### Operand words -/

/-- The word of a truth value. -/
def boolWord (b : Bool) : Nat := if b then 1 else 0

/-- Reads a truth value: whether the word has its bit 0. -/
def withBool {α : Type} (bs : List Byte) (k : Bool → List Byte → α) : α :=
  withWord bs fun n rest => k (n % 2 == 1) rest

/-- The word of a ring. -/
def ringWord : Ring → Nat
  | .tx => 0
  | .rx => 1

/-- Reads a ring, from bit 0 of its word. -/
def withRing {α : Type} (bs : List Byte) (k : Ring → List Byte → α) : α :=
  withBool bs fun b rest => k (if b then .rx else .tx) rest

/-- The word of an execution context. -/
def contextWord : Context → Nat
  | .process => 0
  | .interrupt => 1
  | .timer => 2

/-- Reads an execution context, from bits 1 and 0 of its word. -/
def withContext {α : Type} (bs : List Byte) (k : Context → List Byte → α) : α :=
  withWord bs fun n rest =>
    k (if n / 2 % 2 = 1 then .timer else if n % 2 = 1 then .interrupt else .process) rest

/-- The word of a mode: bit 1 the speed, bit 0 the duplex. -/
def modeWord : Mode → Nat
  | ⟨.s10, .half⟩ => 0
  | ⟨.s10, .full⟩ => 1
  | ⟨.s100, .half⟩ => 2
  | ⟨.s100, .full⟩ => 3

/-- Reads a mode, from bits 1 and 0 of its word. -/
def withMode {α : Type} (bs : List Byte) (k : Mode → List Byte → α) : α :=
  withWord bs fun n rest =>
    k ⟨if n / 2 % 2 = 1 then .s100 else .s10, if n % 2 = 1 then .full else .half⟩ rest

/-- Reads a permutation index, from bits 1 and 0 of its word. -/
def withPerm {α : Type} (bs : List Byte) (k : Fin 4 → List Byte → α) : α :=
  withWord bs fun n rest => k (Fin.ofNat 4 n) rest

/-- The word of a requested negotiation mode. -/
def autonegWord : AutonegArg → Nat
  | .enabled => 0
  | .disabled => 1
  | .other => 2

/-- Reads a requested negotiation mode; R229 answers one that is neither. -/
def withAutoneg {α : Type} (bs : List Byte) (k : AutonegArg → List Byte → α) : α :=
  withWord bs fun n rest => k (if n = 0 then .enabled else if n = 1 then .disabled else .other) rest

/-- The word of a requested duplex. -/
def duplexArgWord : DuplexArg → Nat
  | .half => 0
  | .full => 1
  | .other => 2

/-- Reads a requested duplex; R229 answers one that is neither. -/
def withDuplexArg {α : Type} (bs : List Byte) (k : DuplexArg → List Byte → α) : α :=
  withWord bs fun n rest => k (if n = 0 then .half else if n = 1 then .full else .other) rest

/-- The words of a checksum request: kind, start, stuff. -/
def csBytes : CsRequest → List Byte
  | .none => putWord 0
  | .offsets start stuff => putWord 1 ++ putWord start ++ putWord stuff

/-- Reads a checksum request, whose kind is bit 0 of its word. -/
def withCs {α : Type} (bs : List Byte) (k : CsRequest → List Byte → α) : α :=
  withBool bs fun some rest =>
    if some then withWord rest fun start r => withWord r fun stuff r' => k (.offsets start stuff) r' else k .none rest

/-- The words of a fragment list, without its count. -/
def fragsBytes : List Fragment → List Byte
  | [] => []
  | f :: fs => putWord f.buf ++ putWord f.len ++ fragsBytes fs

/-- Reads `n` fragments; the list ends where the record does. -/
def withFrags {α : Type} : Nat → List Byte → (List Fragment → List Byte → α) → α
  | 0, bs, k => k [] bs
  | _ + 1, [], k => k [] []
  | n + 1, b :: bs, k =>
    withWord (b :: bs) fun buf r => withWord r fun len r' => withFrags n r' fun fs r'' => k (⟨buf, len⟩ :: fs) r''

/-- The words of an address list, without its count: low word, high word. -/
def addressesBytes : List Nat → List Byte
  | [] => []
  | a :: as => putWord (a % 2 ^ 32) ++ putWord (a / 2 ^ 32) ++ addressesBytes as

/-- Reads `n` addresses; the list ends where the record does. -/
def withAddresses {α : Type} : Nat → List Byte → (List Nat → List Byte → α) → α
  | 0, bs, k => k [] bs
  | _ + 1, [], k => k [] []
  | n + 1, b :: bs, k =>
    withWord (b :: bs) fun lo r => withWord r fun hi r' =>
      withAddresses n r' fun as r'' => k ((lo + 2 ^ 32 * hi) :: as) r''

/-! ### The decoder -/

/-- Reads the argument record of the operation with this code (R120). -/
def decodeArgs (code : Nat) (bs : List Byte) : Except DecodeError (Instr × List Byte) :=
  match code with
  | 0x01 => withRing bs fun r b => withWord b fun n b => .ok (.ringAlloc r n, b)
  | 0x02 => .ok (.ringNextFree, bs)
  | 0x03 => withRing bs fun r b => withWord b fun n b => withWord b fun a b => withWord b fun f b =>
      .ok (.ringPublish r n (BitVec.ofNat 32 a) (BitVec.ofNat 32 f), b)
  | 0x04 => withRing bs fun r b => withWord b fun n b => .ok (.ringTryReclaim r n, b)
  | 0x05 => withRing bs fun r b => .ok (.ringReset r, b)
  | 0x10 => withWord bs fun n b => withFrags n b fun fs b => withCs b fun cs b => .ok (.transmit ⟨fs, cs⟩, b)
  | 0x11 => .ok (.txReclaim, bs)
  | 0x20 => .ok (.rxReclaim, bs)
  | 0x21 => withWord bs fun n b => withWord b fun h b => .ok (.rxPost n h, b)
  | 0x22 => withWord bs fun n b => .ok (.rxRecycle n, b)
  | 0x30 => .ok (.irq, bs)
  | 0x40 => .ok (.linkBegin, bs)
  | 0x41 => .ok (.linkTick, bs)
  | 0x42 => withMode bs fun m b => .ok (.linkCommit m, b)
  | 0x43 => withPerm bs fun p b => .ok (.linkForce p, b)
  | 0x44 => withAutoneg bs fun an b => withWord b fun sp b => withDuplexArg b fun dx b =>
      .ok (.reconfigureLink an sp dx, b)
  | 0x50 => .ok (.openAdapter, bs)
  | 0x51 => .ok (.closeAdapter, bs)
  | 0x52 => .ok (.txTimeout, bs)
  | 0x53 => withWord bs fun n b => withAddresses n b fun as b => withBool b fun p b => withBool b fun m b =>
      .ok (.setMcast ⟨as, ⟨p, m⟩⟩, b)
  | 0x54 => withContext bs fun c b => .ok (.resetInit c, b)
  | 0x80 => withWord bs fun a b => .ok (.envVisible a, b)
  | 0x81 => withWord bs fun n b => .ok (.devTxDone n, b)
  | 0x82 => withWord bs fun n b => withWord b fun l b => withBool b fun ov b => withWord b fun c b =>
      .ok (.devRxDone n l ov c, b)
  | 0x83 => withWord bs fun v b => .ok (.devStatus (BitVec.ofNat 32 v), b)
  | 0x84 => .ok (.macDrained, bs)
  | 0x85 => .ok (.timerFire, bs)
  | 0x86 => .ok (.watchdogFire, bs)
  | other => .error (.unknownCode (BitVec.ofNat 8 other))

/-- The decoder: the instruction the bytes begin with and the bytes after its record. Bytes that are not there count as 0. -/
def decode (bs : List Byte) : Except DecodeError (Instr × List Byte) := decodeArgs (bs.headD 0).toNat bs.tail

/-! ### The encoder -/

/-- The argument record of an instruction (R120). -/
def encodeArgs : Instr → List Byte
  | .ringAlloc r n => putWord (ringWord r) ++ putWord n
  | .ringNextFree => []
  | .ringPublish r n a f => putWord (ringWord r) ++ putWord n ++ putWord a.toNat ++ putWord f.toNat
  | .ringTryReclaim r n => putWord (ringWord r) ++ putWord n
  | .ringReset r => putWord (ringWord r)
  | .transmit pkt => putWord pkt.frags.length ++ fragsBytes pkt.frags ++ csBytes pkt.cs
  | .txReclaim => []
  | .rxReclaim => []
  | .rxPost n h => putWord n ++ putWord h
  | .rxRecycle n => putWord n
  | .irq => []
  | .linkBegin => []
  | .linkTick => []
  | .linkCommit m => putWord (modeWord m)
  | .linkForce p => putWord p.val
  | .reconfigureLink an sp dx => putWord (autonegWord an) ++ putWord sp ++ putWord (duplexArgWord dx)
  | .openAdapter => []
  | .closeAdapter => []
  | .txTimeout => []
  | .setMcast req => putWord req.addresses.length ++ addressesBytes req.addresses ++
      putWord (boolWord req.flags.promiscuous) ++ putWord (boolWord req.flags.allMulticast)
  | .resetInit c => putWord (contextWord c)
  | .envVisible a => putWord a
  | .devTxDone n => putWord n
  | .devRxDone n l ov c => putWord n ++ putWord l ++ putWord (boolWord ov) ++ putWord c
  | .devStatus v => putWord v.toNat
  | .macDrained => []
  | .timerFire => []
  | .watchdogFire => []

/-- The command record of an instruction: its code, then its argument record. -/
def encode (i : Instr) : List Byte := i.code :: encodeArgs i

/-! ### The host's numbering of an instruction's bits -/

/-- The first `n` bytes of a number, least significant first. -/
def bytesOfNat : Nat → Nat → List Byte
  | 0, _ => []
  | n + 1, w => BitVec.ofNat 8 w :: bytesOfNat n (w / 256)

/-- The record whose first `nbits / 8` bytes are those of `w` and whose operand words above them are zero. Sixteen zero
bytes are as many as the longest record of zero operands needs. -/
def tableBytes (nbits w : Nat) : List Byte := bytesOfNat (nbits / 8) w ++ List.replicate 16 0#8

/-- The instruction the decoder reads from a table word. -/
def decodeTableWord (nbits w : Nat) : Option Instr :=
  match decode (tableBytes nbits w) with
  | .ok (i, _) => some i
  | .error _ => none

end Sys2Proof
end

