-- ==== Sys2Proof/Machine/Defaults.lean ====
section
/-! DEFINITION. The parameter values State.reset carries. The spec leaves most of them OPEN (R10); a claim that rests on
one of these values says so. They are the common assumptions of the spec's own vectors with the candidate profiles
of its file 93 (log entries 2 and 3). -/

namespace Sys2Proof.Machine

/-- The candidate descriptor profile `HME-GK` with the byte order of a PCI host (R91, R93, R95). PRESUMED (log entry 2). -/
def hmeGk : DescProfile where
  flagsOffset := 0
  addrOffset := 4
  byteOrder := .little
  addrBits := 32
  own := 31
  sop := 30
  eop := 29
  csEn := 28
  csStuff := ⟨20, 8⟩
  csStart := ⟨14, 6⟩
  txSize := ⟨0, 14⟩
  overflow := 30
  rxSize := ⟨16, 14⟩
  rxCsum := ⟨0, 16⟩

/-- The candidate management profile `MII-GK` (R109). PRESUMED (log entry 2). -/
def miiGk : MgmtProfile where
  width := 16
  control := 0
  status := 1
  advertise := 4
  partner := 5
  tcvrConfig := 0x17
  anEnable := 12
  anRestart := 9
  speed100 := 13
  fullDuplex := 8
  anComplete := 5
  linkStatus := 2
  advBase := 0x0001#32
  a10h := 5
  a10f := 6
  a100h := 7
  a100f := 8
  p10h := 5
  p10f := 6
  p100h := 7
  p100f := 8
  tcvrDisable := 7

/-- The candidate status masks of file 93, section 3.3 (R107). PRESUMED (log entry 2). -/
def statusGk : StatusProfile where
  fatalMask := 0xFC7EFEFC#32
  txDoneMask := 0x02000000#32
  rxDoneMask := 0x00010000#32

/-- Two distinct bits for the MAC transmit configuration (R115). DESIGN CHOICE (log entry 3). -/
def macBits : MacProfile where
  txEnable := 0
  fullDuplex := 9

/-- The parameter set of State.reset: the tick literals and the minimum frame of the source (R10), the sizes and budgets
the spec's vectors assume (log entry 3). -/
def defaultParams : Params where
  nTx := 8
  nRx := 4
  kMax := 3
  txLowWater := 3
  rxMinFrame := 60
  rxCopyThreshold := 256
  rxBufSize := 1536
  arbTicks := 10
  lupDiagTicks := 10
  ftwSettleOffTick := 1
  ftwSettleOnTick := 2
  ftwLimitTick := 4
  anRestartPollBudget := 2
  macDrainPollBudget := 3
  advertised := [⟨.s100, .full⟩, ⟨.s100, .half⟩, ⟨.s10, .full⟩, ⟨.s10, .half⟩]
  desc := hmeGk
  status := statusGk
  mgmt := miiGk
  mac := macBits
  deviceTxOrder := .any
  fixedParamsProgram := []
  filterTable := []

end Sys2Proof.Machine
end

