-- ==== Sys2Proof/Machine/State.lean ====
section
/-! DEFINITION. The state of the block (R20) as plain data, the reasons a step can stop, and the state at creation. -/

namespace Sys2Proof.Machine

/-! ### Reasons a step stops -/

/-- The faults of R301. A raised fault is recorded in `State.fault` with the state it stopped in (R49); every later attempt
to step answers `Host.Outcome.fault`. All are safe: the run stops where the spec says it stops. -/
inductive Fault where
  /-- R63: a host descriptor write to a slot whose FLAGS shows OWN in the host's view while that ring's DMA is on. -/
  | hostWroteDeviceOwned (r : Ring) (slot : Nat)
  /-- R77: `DmaUnmap` of a handle that is not live. -/
  | doubleUnmap (handle : Nat)
  /-- R134: ring reset with its DMA engine on. -/
  | resetWhileDmaOn (r : Ring)
  /-- R183: a receive completion without overflow that reports more bytes than the buffer holds. -/
  | rxLengthExceedsBuffer (slot len : Nat)
deriving DecidableEq, Repr

/-- The refusals: R302's by their names, then the model's own (log entries 8, 9, 10, 11 and 33). A refusal leaves the state unchanged.
All are safe: the model gives no meaning where the spec gives none. -/
inductive Refusal where
  /-- Raised only by an arm of `exec` that has no meaning yet. -/
  | notModelled (mnemonic : String)
  /-- R130. -/
  | badCapacity
  /-- R130. -/
  | ringAlreadyAllocated
  /-- R132. -/
  | publishWithoutOwn
  /-- R151. -/
  | badFragmentCount
  /-- R151. -/
  | badFragmentLength
  /-- R151. -/
  | checksumOffsetRange
  /-- R223. -/
  | linkBeginNotIdle
  /-- R123: a code that is not in the opcode map. -/
  | unknownCode
  /-- R123: an internal operation invoked by a caller. -/
  | internalCodeFromCaller
  /-- R73: an access that is not an aligned whole word. -/
  | misalignedAccess
  /-- R12, R99: a parameter set that fails the construction checks. -/
  | badParameters
  /-- R302: an agent step taken once a fault is recorded. -/
  | agentAfterFault
  /-- R280 to R291: an agent step that is not enabled in this state cannot be taken. -/
  | agentNotEnabled
  /-- R286: `IRQ` never runs while interrupt delivery is not acquired. -/
  | irqNotAcquired
  /-- R82, R310: an entry while another host operation holds the lock is not scheduled. -/
  | lockHeld
  /-- R345: creation met a ring without memory, so there is no block to run anything on. -/
  | notCreated
  /-- R345, R348: a descriptor access before the ring has its memory; there is no address to access. -/
  | ringNotAllocated (r : Ring)
  /-- R132, R133, R180, R181: a slot operand outside `0..N-1`. -/
  | slotOutOfRange (r : Ring) (slot : Nat)
  /-- R180: the handle operand of `RX_POST` is not a live mapping. -/
  | handleNotLive (handle : Nat)
  /-- R161, R181, R185, R186: a slot the walk reaches has no shadow entry; no run reaches this (R55 items 2 and 4). -/
  | shadowMissing (r : Ring) (slot : Nat)
  /-- R124: a step taken by an invoker of the wrong class, other than R123's case. -/
  | wrongInvoker
deriving DecidableEq, Repr

/-! ### The groups of the state record -/

/-- R21. -/
inductive AdapterState where
  | closed
  | running
  | notReady
deriving DecidableEq, Repr

/-- A transmit shadow entry `InFlight` (R26). A slot with no entry is `Free`. -/
structure TxEntry where
  pkt : Nat
  frag : Nat
  handle : Nat
  len : Nat
  eop : Bool
  pktLen : Nat
deriving DecidableEq, Repr

/-- A receive shadow entry `Posted` (R29). A slot with no entry is `Empty`. -/
structure RxEntry where
  buf : Nat
  handle : Nat
deriving DecidableEq, Repr

/-- The transmit ring (R23 to R27, R51). -/
structure TxState where
  /-- `tx_base` (R51): `none` until `RING_ALLOC tx` succeeds. -/
  base : Option Nat
  /-- R24. -/
  head : Nat
  /-- R25. -/
  tail : Nat
  /-- R26. -/
  shadow : Table TxEntry
  /-- R27. -/
  stopped : Bool
deriving DecidableEq, Repr

/-- The receive ring (R28, R29, R51). -/
structure RxState where
  /-- `rx_base` (R51): `none` until `RING_ALLOC rx` succeeds. -/
  base : Option Nat
  /-- R28. -/
  cursor : Nat
  /-- R29. -/
  shadow : Table RxEntry
deriving DecidableEq, Repr

/-- R30. -/
inductive LinkFsm where
  | idle
  | arbitrationWait
  | linkUpWait
  | forcedTryWait
  | asleep
deriving DecidableEq, Repr

/-- The link state (R30 to R36). -/
structure LinkState where
  /-- R30. -/
  state : LinkFsm
  /-- R31. -/
  tick : Nat
  /-- R32: `true` is `enabled`. -/
  autoneg : Bool
  /-- R33. -/
  speedReq : Speed
  /-- R33. -/
  duplexReq : Duplex
  /-- R34. -/
  perm : Fin 4
  /-- R35. -/
  committed : Option Mode
  /-- R36. -/
  up : Bool
deriving DecidableEq, Repr

/-- The statistics counters (R38): 64-bit, wrapping. -/
structure Counters where
  rxPackets : BitVec 64
  rxBytes : BitVec 64
  rxDropped : BitVec 64
  rxErrors : BitVec 64
  txPackets : BitVec 64
  txBytes : BitVec 64
  txDropped : BitVec 64
  txErrors : BitVec 64
deriving DecidableEq, Repr

/-- The device registers the block reads or writes (R39 to R43). -/
structure DevState where
  /-- R39. -/
  status : Word32
  /-- R40. -/
  intArmed : Bool
  /-- R41. -/
  txDmaOn : Bool
  /-- R41. -/
  rxDmaOn : Bool
  /-- R42. -/
  macTxcfg : Word32
  /-- R43. -/
  macEnableSeen : Bool
deriving DecidableEq, Repr

/-- A pending host descriptor write (R45). -/
structure WbEntry where
  addr : Nat
  val : Word32
  epoch : Nat
deriving DecidableEq, Repr

/-- A live DMA mapping (R46): the buffer and its device address. -/
structure MapEntry where
  buf : Nat
  da : Nat
deriving DecidableEq, Repr

/-! ### The event trace -/

/-- The device registers by name (R71, R317); the two opaque groups carry the index of the register in the group. -/
inductive MmioReg where
  | status
  | intMask
  | macTxcfg
  | doorbell
  | txrxCtrl
  | fixedParams (idx : Nat)
  | filter (idx : Nat)
deriving DecidableEq, Repr

/-- A value written to a device register: a word or one of the symbolic values of R71. -/
inductive RegVal where
  | word (v : Word32)
  | armed
  | masked
  | kick
  | quiesce
  | enable
deriving DecidableEq, Repr

/-- The diagnostics of `Log(kind)` (R50). -/
inductive LogKind where
  | anRestartNoAck
  | anCommitFailed
  | anTimeout
  | linkStillDown
  | cableProblem
  | forcedCommitFailed
  | fatalError
  | linkTypeUnknown
  | rxRefillFailed
deriving DecidableEq, Repr

/-- The event kinds of R50. -/
inductive Event where
  | mmioW (reg : MmioReg) (v : RegVal)
  | mmioR (reg : MmioReg) (v : Word32)
  | mgmtW (reg : Nat) (v : Word32)
  | mgmtR (reg : Nat) (v : Word32)
  | descW (addr : Nat) (v : Word32)
  | barrier
  | devSees (addr : Nat) (v : Word32)
  | map (buf handle : Nat)
  | unmap (handle : Nat)
  | syncCpu (handle n : Nat)
  | syncDev (handle n : Nat)
  | allocOk (buf : Nat)
  | allocFail
  | freeBuf (buf : Nat)
  | deliver (buf len csum : Nat)
  | txComplete (pkt : Nat)
  | queueStop
  | queueWake
  | linkUp (mode : Option Mode)
  | forcedLinkUp (mode : Mode)
  | log (kind : LogKind)
  | filterProgram (req : FilterRequest)
  | irqAcquire
  | irqRelease
deriving DecidableEq, Repr

/-! ### Outcomes of host operations -/

/-- The operation outcomes of R300. -/
inductive OpOutcome where
  | ok
  | accepted
  | busy
  | droppedMapping
  | full
  | notReady
  | resourceExhausted
  | linkTypeUnknown
  | validationError
  | notMine
  | handled
  | alreadyOpen
  | irqUnavailable
  | slot (i : Nat)
  | desc (flags addr : Word32)
  | commitOk
  | commitFailed
deriving DecidableEq, Repr

/-! ### The model's own inputs -/

/-- Who puts a command (R120, R124). -/
inductive Invoker where
  | caller
  | block
  | agent
deriving DecidableEq, Repr

/-- A command waiting to be taken: its invoker and its record's bytes (R120, log entry 1). -/
structure Command where
  invoker : Invoker
  bytes : List Byte
deriving DecidableEq, Repr

/-- The draws the environment has supplied, oldest first, one list for each primitive that draws (R17).
When a list is empty the draw is a free value of `Config`. -/
structure Draws where
  irqAcquire : List Bool
  ringMemory : List (Option Nat)
  alloc : List (Option Nat)
  dmaMap : List (Option (Nat × Nat))
  mgmtRead : List Word32
  tcvrKnown : List Bool
  payload : List (List Byte)
  rxReserved : List Word32
deriving DecidableEq, Repr

/-- The state of the block (R20) and the model's own inputs and bookkeeping. -/
structure State where
  /-- The parameters (R10): configuration, changed by no step. -/
  params : Params
  /-- R21. -/
  adapter : AdapterState
  /-- R22. -/
  irqAcquired : Bool
  /-- R23 to R27. -/
  tx : TxState
  /-- R28, R29. -/
  rx : RxState
  /-- R30 to R36. -/
  link : LinkState
  /-- R37. -/
  timerArmed : Bool
  /-- R38. -/
  counters : Counters
  /-- R39 to R43. -/
  dev : DevState
  /-- R44: descriptor memory as the device sees it, byte by byte; an unlisted byte is 0. -/
  mem : List Host.Cell
  /-- R45: the host's pending descriptor writes in program order. -/
  wb : List WbEntry
  /-- R45: the barrier epoch. -/
  epoch : Nat
  /-- R46: the host buffers the block holds. -/
  liveBuffers : Table Unit
  /-- R46: the DMA mappings the block holds, by handle. -/
  liveMaps : Table MapEntry
  /-- R47: the transmit packets accepted and not yet completed or released. -/
  pkts : Table Packet
  /-- R60 (2), R76: buffer memory as the host sees it, the known leading bytes of each buffer; other bytes are unknown and never
  read. -/
  bufMem : Table (List Byte)
  /-- R78, R81: the leading bytes the device has written to each buffer; a host read shows them only after a synchronisation. -/
  dmaMem : Table (List Byte)
  /-- R78: by device address, how many leading bytes of the buffer mapped there the host may read until the next
  `DmaSyncForDevice` or publish. -/
  syncWindows : Table Nat
  /-- R49. -/
  fault : Option Fault
  /-- R345: creation met a ring without memory; there is no block. -/
  absent : Bool
  /-- R50. -/
  trace : List Event
  /-- R82, R310: the lock and the context of the operation that holds it; `none` is a free lock. -/
  lock : Option Context
  /-- R300: the outcome of the last host operation. The model's own field. -/
  outcome : Option OpOutcome
  /-- The number of packets accepted so far; it names the next packet (R26, R47). The model's own field. -/
  nextPkt : Nat
  /-- The commands waiting to be taken. The model's own field (R53, R120). -/
  queue : List Command
  /-- The environment's interleaving: the agent steps that fall before each coming micro-step (R14). The model's own field. -/
  sched : List (List AgentStep)
  /-- The draws supplied (R17). The model's own field. -/
  draws : Draws
  /-- The number of free values drawn so far by host operations. The model's own field. -/
  drawCount : Nat
  /-- The number of payloads drawn so far by the receive engine. The model's own field. -/
  payloadCount : Nat
deriving DecidableEq, Repr

/-- The block as it comes into existence with these parameters (R345, R346 column "creation", R347), before its creation has
run `RING_ALLOC tx, N_TX` and `RING_ALLOC rx, N_RX`, which wait as its first two commands. `mac_txcfg`, which R42
leaves unspecified, is 0 (log entry 4). -/
def State.create (p : Params) : State where
  params := p
  adapter := .closed
  irqAcquired := false
  tx := ⟨none, 0, 0, [], true⟩
  rx := ⟨none, 0, []⟩
  link := ⟨.asleep, 0, true, .s100, .full, 0, none, false⟩
  timerArmed := false
  counters := ⟨0, 0, 0, 0, 0, 0, 0, 0⟩
  dev := ⟨0, false, false, false, 0, false⟩
  mem := []
  wb := []
  epoch := 0
  liveBuffers := []
  liveMaps := []
  pkts := []
  bufMem := []
  dmaMem := []
  syncWindows := []
  fault := none
  absent := false
  trace := []
  lock := none
  outcome := none
  nextPkt := 0
  queue := [⟨.block, encode (.ringAlloc .tx p.nTx)⟩, ⟨.block, encode (.ringAlloc .rx p.nRx)⟩]
  sched := []
  draws := ⟨[], [], [], [], [], [], [], []⟩
  drawCount := 0
  payloadCount := 0

/-- The machine right after reset: creation with the parameters of `defaultParams` (R345, R346). -/
def State.reset : State := State.create defaultParams

end Sys2Proof.Machine
end

