-- ==== Sys2Proof/Machine/Maps.lean ====
section
/-! DEFINITION. Sparse tables in canonical form, and descriptor memory as one of them: bytes, and the aligned 32-bit words
made of them in the byte order of the profile (R44, R60, R61, R72). -/

namespace Sys2Proof.Machine

/-! ### Tables -/

/-- The value at a key, if the table lists it. -/
def mapGet {β : Type} : Table β → Nat → Option β
  | [], _ => none
  | (k, v) :: t, key => if key = k then some v else mapGet t key

/-- Lists a value at a key, in its place in the rising order of keys. -/
def mapSet {β : Type} : Table β → Nat → β → Table β
  | [], key, val => [(key, val)]
  | (k, v) :: t, key, val =>
    if key < k then (key, val) :: (k, v) :: t
    else if key = k then (key, val) :: t
    else (k, v) :: mapSet t key val

/-- Takes a key out of the table. -/
def mapErase {β : Type} : Table β → Nat → Table β
  | [], _ => []
  | (k, v) :: t, key => if key = k then mapErase t key else (k, v) :: mapErase t key

/-- Whether the table lists the key. -/
def mapHas {β : Type} (t : Table β) (key : Nat) : Bool := (mapGet t key).isSome

/-- Every key of the table is above `lo`. -/
def keysAbove {β : Type} (lo : Nat) (t : Table β) : Bool := t.all fun e => decide (lo < e.1)

/-- The canonical form of a table: strictly rising keys. -/
def mapWf {β : Type} : Table β → Bool
  | [] => true
  | e :: t => keysAbove e.1 t && mapWf t

/-! ### Bytes of descriptor memory -/

/-- What an unlisted byte of descriptor memory reads as: descriptors are created neutral, FLAGS = 0 and ADDR = 0 (R23, R44, R104). -/
def unlistedByte : Byte := 0#8

/-- Reads one byte. -/
def readByte (m : List Host.Cell) (a : Nat) : Byte := (mapGet m a).getD unlistedByte

/-- Writes one byte. Writing what an unlisted byte reads as removes the entry. -/
def writeByte (m : List Host.Cell) (a : Nat) (b : Byte) : List Host.Cell :=
  if b = unlistedByte then mapErase m a else mapSet m a b

/-- The canonical form of descriptor memory: rising addresses, and no entry that an unlisted address would read as. -/
def memWf (m : List Host.Cell) : Bool := mapWf m && m.all fun e => decide (e.2 ≠ unlistedByte)

/-! ### Words of descriptor memory -/

/-- A word from its four bytes, the first the least significant. -/
def joinBytes (b0 b1 b2 b3 : Byte) : Word32 := b3 ++ b2 ++ b1 ++ b0

/-- Byte `i` of a word, 0 the least significant. -/
def wordByte (v : Word32) (i : Nat) : Byte := (v >>> (8 * i)).setWidth 8

/-- Reads the word at an address in the given byte order (R72). -/
def readWord (o : ByteOrder) (m : List Host.Cell) (a : Nat) : Word32 :=
  match o with
  | .little => joinBytes (readByte m a) (readByte m (a + 1)) (readByte m (a + 2)) (readByte m (a + 3))
  | .big => joinBytes (readByte m (a + 3)) (readByte m (a + 2)) (readByte m (a + 1)) (readByte m a)

/-- Writes the word at an address in the given byte order (R72). -/
def writeWord (o : ByteOrder) (m : List Host.Cell) (a : Nat) (v : Word32) : List Host.Cell :=
  match o with
  | .little =>
    writeByte (writeByte (writeByte (writeByte m a (wordByte v 0)) (a + 1) (wordByte v 1))
      (a + 2) (wordByte v 2)) (a + 3) (wordByte v 3)
  | .big =>
    writeByte (writeByte (writeByte (writeByte m a (wordByte v 3)) (a + 1) (wordByte v 2))
      (a + 2) (wordByte v 1)) (a + 3) (wordByte v 0)

end Sys2Proof.Machine
end

