-- ==== Sys2Proof/Machine/Operands.lean ====
section
/-! DEFINITION. Operand forms: bit fields, the descriptor formats, management and MAC values, modes and permutations,
descriptor addresses, and the construction checks of the parameters (R11, R12, R90 to R116, R222). -/

namespace Sys2Proof.Machine

/-! ### Bit fields (R98) -/

/-- `2^w - 1` as a word. -/
def fieldMask (w : Nat) : Word32 := BitVec.ofNat 32 (2 ^ w - 1)

/-- `get_f(x)` (R98). -/
def getField (f : Field) (x : Word32) : Nat := ((x >>> f.lo) &&& fieldMask f.w).toNat

/-- `put_f(x, v)` (R98). -/
def putField (f : Field) (x : Word32) (v : Nat) : Word32 :=
  (x &&& ~~~(fieldMask f.w <<< f.lo)) ||| ((BitVec.ofNat 32 v &&& fieldMask f.w) <<< f.lo)

/-- The one-bit field at a bit number. -/
def bitField (n : Nat) : Field := ⟨n, 1⟩

/-- `get_f(x) = 1` for a one-bit field. -/
def getBit (n : Nat) (x : Word32) : Bool := getField (bitField n) x == 1

/-- `put_f(x, b)` for a one-bit field. -/
def putBit (n : Nat) (x : Word32) (b : Bool) : Word32 := putField (bitField n) x (if b then 1 else 0)

/-- The largest value of a field (R11). -/
def fieldMax (f : Field) : Nat := 2 ^ f.w - 1

/-! ### Descriptors (R90 to R106) -/

/-- Bytes of a descriptor (R61, R91). -/
def descBytes : Nat := 8

/-- The two words of a descriptor (R90). -/
inductive DescWord where
  | flags
  | addr
deriving DecidableEq, Repr

/-- The offset of a descriptor word (R91). -/
def wordOffset (d : DescProfile) : DescWord → Nat
  | .flags => d.flagsOffset
  | .addr => d.addrOffset

/-- `flags_addr(r, i)` and `addr_addr(r, i)` for the ring at `base`. -/
def descWordAddr (d : DescProfile) (base slot : Nat) (w : DescWord) : Nat :=
  base + descBytes * slot + wordOffset d w

/-- `get_OWN(x) = 1` (R92). -/
def owned (d : DescProfile) (x : Word32) : Bool := getBit d.own x

/-- The fields of the transmit FLAGS format (R93). -/
def txFields (d : DescProfile) : List Field :=
  [bitField d.own, bitField d.sop, bitField d.eop, bitField d.csEn, d.csStuff, d.csStart, d.txSize]

/-- The fields of the receive FLAGS format (R95). -/
def rxFields (d : DescProfile) : List Field := [bitField d.own, bitField d.overflow, d.rxSize, d.rxCsum]

/-- The bits of a FLAGS word that none of these fields covers: its reserved bits (R103). -/
def reservedMask : List Field → Word32
  | [] => BitVec.allOnes 32
  | f :: fs => reservedMask fs &&& ~~~(fieldMask f.w <<< f.lo)

/-- `enc_tx(sop, eop, cs, size)` (R100). -/
def encTx (d : DescProfile) (sop eop : Bool) (cs : CsRequest) (size : Nat) : Word32 :=
  putBit d.own 0 true ||| putBit d.sop 0 sop ||| putBit d.eop 0 eop ||| putField d.txSize 0 size |||
  match cs with
  | .none => 0
  | .offsets start stuff =>
    putBit d.csEn 0 true ||| putField d.csStart 0 start ||| putField d.csStuff 0 stuff

/-- `enc_rx_post` (R101). -/
def encRxPost (p : Params) : Word32 := putBit p.desc.own 0 true ||| putField p.desc.rxSize 0 p.rxBufSize

/-- The FLAGS word the device writes when it completes a receive slot (R282): `OWN = 0`. Its reserved bits are those of
`reserved`, which the device is free to choose (R103, U1, log entry 34). -/
def encRxDone (d : DescProfile) (reserved : Word32) (len : Nat) (ov : Bool) (csum : Nat) : Word32 :=
  putField d.rxSize (putBit d.overflow (putField d.rxCsum (reserved &&& reservedMask (rxFields d)) csum) ov) len

/-- `zext_32(da)` (R105). -/
def encAddr (da : Nat) : Word32 := BitVec.ofNat 32 da

/-! ### Modes and permutations (R116, R221, R222) -/

/-- The permutation list `PERM` (R222). -/
def permMode : Fin 4 → Mode
  | 0 => ⟨.s100, .full⟩
  | 1 => ⟨.s100, .half⟩
  | 2 => ⟨.s10, .full⟩
  | 3 => ⟨.s10, .half⟩

/-- `index(sp, dx)` (R222). -/
def modeIndex (m : Mode) : Fin 4 :=
  match m.speed, m.duplex with
  | .s100, .full => 0
  | .s100, .half => 1
  | .s10, .full => 2
  | .s10, .half => 3

/-! ### Management values (R109 to R111) -/

/-- The `MGMT_WIDTH` low bits of a management value (R74). -/
def mgmtTrunc (g : MgmtProfile) (v : Word32) : Word32 := v &&& fieldMask g.width

/-- `enc_an_start` (R110). -/
def encAnStart (g : MgmtProfile) : Word32 := putBit g.anEnable 0 true ||| putBit g.anRestart 0 true

/-- `enc_forced(sp, dx)` (R110). -/
def encForced (g : MgmtProfile) (m : Mode) : Word32 :=
  putBit g.speed100 0 (m.speed == .s100) ||| putBit g.fullDuplex 0 (m.duplex == .full)

/-- `enc_adv(M)` (R110). -/
def encAdv (g : MgmtProfile) (ms : List Mode) : Word32 :=
  g.advBase ||| putBit g.a10h 0 (ms.contains ⟨.s10, .half⟩) ||| putBit g.a10f 0 (ms.contains ⟨.s10, .full⟩) |||
    putBit g.a100h 0 (ms.contains ⟨.s100, .half⟩) ||| putBit g.a100f 0 (ms.contains ⟨.s100, .full⟩)

/-- `enc_tcvr(v, d)` (R110). -/
def encTcvr (g : MgmtProfile) (v : Word32) (disable : Bool) : Word32 := putBit g.tcvrDisable v disable

/-- `restart_acked(v)` (R111). -/
def restartAcked (g : MgmtProfile) (v : Word32) : Bool := !getBit g.anRestart v

/-- `an_complete(v)` (R111). -/
def anComplete (g : MgmtProfile) (v : Word32) : Bool := getBit g.anComplete v

/-- `link_ok(v)` (R111). -/
def linkOk (g : MgmtProfile) (v : Word32) : Bool := getBit g.linkStatus v

/-- The bit of `PARTNER` that stands for a mode (R109). -/
def partnerBit (g : MgmtProfile) : Mode → Nat
  | ⟨.s10, .half⟩ => g.p10h
  | ⟨.s10, .full⟩ => g.p10f
  | ⟨.s100, .half⟩ => g.p100h
  | ⟨.s100, .full⟩ => g.p100f

/-- `m ∈ partner_modes(v)` (R111). -/
def partnerHas (g : MgmtProfile) (v : Word32) (m : Mode) : Bool := getBit (partnerBit g m) v

/-- The negotiated mode (R227): the first permutation in `ADVERTISED_MODES ∩ partner_modes(pv)`. -/
def resolveMode (p : Params) (pv : Word32) : Option Mode :=
  ([0, 1, 2, 3].map permMode).find? fun m => p.advertised.contains m && partnerHas p.mgmt pv m

/-! ### Construction checks (R12, R99) -/

/-- A power of two. -/
def isPow2 (n : Nat) : Bool := decide (0 < n) && n &&& (n - 1) == 0

/-- Two fields share no bit. -/
def disjointFields (f g : Field) : Bool :=
  decide (f.w = 0) || decide (g.w = 0) || decide (f.lo + f.w ≤ g.lo) || decide (g.lo + g.w ≤ f.lo)

/-- The fields of a format are pairwise disjoint and lie within bits 31:0 (R99). -/
def fieldsDisjoint : List Field → Bool
  | [] => true
  | f :: fs => decide (f.lo + f.w ≤ 32) && fs.all (disjointFields f) && fieldsDisjoint fs

/-- The descriptor profile is well-formed (R91, R99). -/
def descValid (d : DescProfile) : Bool :=
  (d.flagsOffset == 0 && d.addrOffset == 4 || d.flagsOffset == 4 && d.addrOffset == 0) &&
    decide (d.addrBits ≤ 32) && fieldsDisjoint (txFields d) && fieldsDisjoint (rxFields d)

/-- The status masks are non-zero and pairwise disjoint (R12, R107). -/
def statusValid (m : StatusProfile) : Bool :=
  m.fatalMask != 0 && m.txDoneMask != 0 && m.rxDoneMask != 0 && m.fatalMask &&& m.txDoneMask == 0 &&
    m.fatalMask &&& m.rxDoneMask == 0 && m.txDoneMask &&& m.rxDoneMask == 0

/-- The parameter checks of R12, R99, R107, R109 and R115. -/
def paramsValid (p : Params) : Bool :=
  isPow2 p.nTx && decide (2 ≤ p.nTx) && isPow2 p.nRx && decide (2 ≤ p.nRx) && decide (1 ≤ p.kMax) &&
    decide (p.rxMinFrame ≤ p.rxBufSize) && decide (p.rxBufSize ≤ fieldMax p.desc.rxSize) &&
    decide (1 ≤ p.anRestartPollBudget) && decide (1 ≤ p.macDrainPollBudget) && !p.advertised.isEmpty &&
    descValid p.desc && statusValid p.status && decide (1 ≤ p.mgmt.width) && decide (p.mgmt.width ≤ 32) &&
    p.mac.txEnable != p.mac.fullDuplex && decide (p.mac.txEnable < 32) && decide (p.mac.fullDuplex < 32)

/-- The parameter set R12 allows but flags: no packet of `K_MAX` fragments can ever be accepted. -/
def paramsFlagged (p : Params) : Bool := !decide (p.kMax + 1 ≤ p.nTx - 1)

end Sys2Proof.Machine
end

