-- ==== Sys2Proof/Machine/Flags.lean ====
section
/-! DEFINITION. What the block's words and cursors say of its state: the status classes, the occupancy of the transmit ring,
who owns a slot, the MAC's two bits, the interrupt's due condition, and the numeric codes of the outcomes. -/

namespace Sys2Proof.Machine

/-! ### Status word (R107, R108) -/

/-- `fatal(s)` (R108). -/
def isFatal (m : StatusProfile) (v : Word32) : Bool := v &&& m.fatalMask != 0

/-- `txdone(s)` (R108). -/
def isTxDone (m : StatusProfile) (v : Word32) : Bool := v &&& m.txDoneMask != 0

/-- `rxdone(s)` (R108). -/
def isRxDone (m : StatusProfile) (v : Word32) : Bool := v &&& m.rxDoneMask != 0

/-- The interrupt is due (R285). -/
def irqDue (s : State) : Bool := s.irqAcquired && s.dev.intArmed && s.dev.status != 0

/-! ### Rings -/

/-- The capacity of a ring (R23, R28). -/
def capacity (p : Params) : Ring → Nat
  | .tx => p.nTx
  | .rx => p.nRx

/-- The base address of a ring, once allocated (R51). -/
def ringBase (s : State) : Ring → Option Nat
  | .tx => s.tx.base
  | .rx => s.rx.base

/-- `dma_on(r)` (R63). -/
def dmaOn (s : State) : Ring → Bool
  | .tx => s.dev.txDmaOn
  | .rx => s.dev.rxDmaOn

/-- `occupied = (head - tail) mod N_TX` (R135), for any two slots. -/
def occupiedOf (n head tail : Nat) : Nat := (head + n - tail) % n

/-- The occupancy of the transmit ring (R25, R135). -/
def occupied (s : State) : Nat := occupiedOf s.params.nTx s.tx.head s.tx.tail

/-- `free = N_TX - 1 - occupied` (R135). -/
def freeSlots (s : State) : Nat := s.params.nTx - 1 - occupied s

/-- Slot `i` is in the cyclic interval `[tail, head)` (R55 item 2). -/
def outstanding (s : State) (i : Nat) : Bool :=
  decide (occupiedOf s.params.nTx i s.tx.tail < occupied s)

/-! ### The two views of descriptor memory -/

/-- The latest pending write to an address in program order (R62). -/
def wbLast : List WbEntry → Nat → Option Word32
  | [], _ => none
  | e :: es, a =>
    match wbLast es a with
    | some v => some v
    | none => if e.addr = a then some e.val else none

/-- The word the device sees (R68). -/
def deviceView (s : State) (a : Nat) : Word32 := readWord s.params.desc.byteOrder s.mem a

/-- The word the host sees: its own latest pending write, or else memory (R62). -/
def hostView (s : State) (a : Nat) : Word32 := (wbLast s.wb a).getD (deviceView s a)

/-- Slot `i` of the ring at `base` is device-owned in memory (R48). -/
def deviceOwns (s : State) (base slot : Nat) : Bool :=
  owned s.params.desc (deviceView s (descWordAddr s.params.desc base slot .flags))

/-- Slot `i` of the ring at `base` shows `OWN = 1` in the host's view (R63). -/
def hostSeesOwned (s : State) (base slot : Nat) : Bool :=
  owned s.params.desc (hostView s (descWordAddr s.params.desc base slot .flags))

/-! ### MAC transmit configuration (R42, R43, R115) -/

/-- `get_TX_ENABLE(v) = 1`. -/
def macTxEnable (p : Params) (v : Word32) : Bool := getBit p.mac.txEnable v

/-- `put_TX_ENABLE(v, b)`. -/
def putTxEnable (p : Params) (v : Word32) (b : Bool) : Word32 := putBit p.mac.txEnable v b

/-- `put_FULL_DUPLEX(v, b)`. -/
def putFullDuplex (p : Params) (v : Word32) (b : Bool) : Word32 := putBit p.mac.fullDuplex v b

/-- What a read of `MAC_TXCFG` returns: `TX_ENABLE` replaced by `mac_enable_seen` (R71). -/
def macReadValue (s : State) : Word32 := putTxEnable s.params s.dev.macTxcfg s.dev.macEnableSeen

/-! ### Outcome codes (R300) -/

/-- The numeric code of an outcome. -/
def outcomeCode : OpOutcome → Nat
  | .ok => 0
  | .accepted => 1
  | .busy => 2
  | .droppedMapping => 3
  | .full => 4
  | .notReady => 5
  | .resourceExhausted => 6
  | .linkTypeUnknown => 7
  | .validationError => 8
  | .notMine => 9
  | .handled => 10
  | .alreadyOpen => 11
  | .irqUnavailable => 12
  | .slot _ => 13
  | .desc _ _ => 14
  | .commitOk => 15
  | .commitFailed => 16

/-- The checksum-valid flag of a delivered packet (R190): the parameter predicate applied to what `Deliver` carries. -/
def deliveredValid : Event → Option Bool
  | .deliver buf len csum => some (Config.rxCsumValid csum buf len)
  | _ => none

end Sys2Proof.Machine
end

