-- ==== Sys2Proof/Machine/Env.lean ====
section
/-! DEFINITION. The steps of the environment agents (R13, R14, R280 to R290) as functions on the state: when a step is enabled
and what it writes. They run as commands of their own and between the micro-steps of host operations. -/

namespace Sys2Proof.Machine

/-- `Emit(e)` (R50). -/
def emitted (e : Event) (s : State) : State := { s with trace := s.trace ++ [e] }

/-! ### Visibility (R64, R280) -/

/-- The earliest pending write to an address. -/
def wbFirst : List WbEntry → Nat → Option WbEntry
  | [], _ => none
  | e :: es, a => if e.addr = a then some e else wbFirst es a

/-- The pending writes without the earliest one to an address. -/
def wbDropFirst : List WbEntry → Nat → List WbEntry
  | [], _ => []
  | e :: es, a => if e.addr = a then es else e :: wbDropFirst es a

/-- No pending write has an earlier epoch. -/
def leastEpoch (wb : List WbEntry) (m : Nat) : Bool := wb.all fun e => decide (m ≤ e.epoch)

/-- A pending write reaches memory: `st.mem[a] <- v; Emit(DevSees(a, v))`. -/
def writeVisible (a : Nat) (v : Word32) (s : State) : State :=
  emitted (.devSees a v) { s with mem := writeWord s.params.desc.byteOrder s.mem a v }

/-- `ENV_VISIBLE a` (R280), when it is enabled. -/
def stepVisible (a : Nat) (s : State) : Option State :=
  match wbFirst s.wb a with
  | none => none
  | some e =>
    if leastEpoch s.wb e.epoch then some (writeVisible a e.val { s with wb := wbDropFirst s.wb a }) else none

/-- The visibility steps of a list of pending writes, in program order. -/
def drainList : List WbEntry → State → State
  | [], s => s
  | e :: es, s => drainList es (writeVisible e.addr e.val s)

/-- Every pending write becomes visible, in program order: what is left of the `hold` of R67 when the scheduled steps are taken. -/
def drain (s : State) : State := { drainList s.wb s with wb := [] }

/-! ### Transmit engine (R281) -/

/-- The device-owned slot nearest after `tail` in ring order, looking at `n` slots from `i`. -/
def nextDeviceOwned (s : State) (base : Nat) : Nat → Nat → Option Nat
  | 0, _ => none
  | n + 1, i =>
    if deviceOwns s base i then some i else nextDeviceOwned s base n ((i + 1) % s.params.nTx)

/-- The first slot of the packet of `e`, which stands in `slot` (R26). -/
def firstSlotOf (s : State) (slot : Nat) (e : TxEntry) : Nat := (slot + s.params.nTx - (e.frag - 1)) % s.params.nTx

/-- The first slot of the packet a slot belongs to is or has been device-owned (R281): it shows `OWN` in memory; or the packet is
published (the slot lies before `head`) and the first slot's FLAGS write is no longer pending, or the reclaim has taken that slot,
whose entry is then gone or another packet's. A slot of no packet waits for none (log entry 22). -/
def firstSlotPublished (s : State) (base slot : Nat) : Bool :=
  match mapGet s.tx.shadow slot with
  | none => true
  | some e =>
    deviceOwns s base (firstSlotOf s slot e) ||
      outstanding s slot &&
        ((mapGet s.tx.shadow (firstSlotOf s slot e)).map (·.pkt) != some e.pkt ||
          (wbFirst s.wb (descWordAddr s.params.desc base (firstSlotOf s slot e) .flags)).isNone)

/-- What `DEVICE_TX_ORDER` lets the transmit engine complete (R281). -/
def txOrderAllows (s : State) (base slot : Nat) : Bool :=
  match s.params.deviceTxOrder with
  | .any => true
  | .inOrder => nextDeviceOwned s base s.params.nTx s.tx.tail == some slot && firstSlotPublished s base slot

/-- `DEV_TX_DONE slot` (R281), when it is enabled: the device clears `OWN` and nothing else. -/
def stepTxDone (slot : Nat) (s : State) : Option State :=
  match s.tx.base with
  | none => none
  | some base =>
    if s.dev.txDmaOn && decide (slot < s.params.nTx) && deviceOwns s base slot && txOrderAllows s base slot then
      let a := descWordAddr s.params.desc base slot .flags
      some { s with mem := writeWord s.params.desc.byteOrder s.mem a
                             (putBit s.params.desc.own (deviceView s a) false) }
    else none

/-! ### Receive engine (R282) -/

/-- `n` payload bytes from place `i` on: those supplied, then free ones (U8). -/
def payloadBytes (given : List Byte) (draw : Nat) : Nat → Nat → List Byte
  | 0, _ => []
  | n + 1, i =>
    match given with
    | b :: rest => b :: payloadBytes rest draw n (i + 1)
    | [] => Config.freePayload draw i :: payloadBytes [] draw n (i + 1)

/-- The buffers that transmit fragments in flight are mapped from (R26). -/
def txBuffers (s : State) : List Nat := s.tx.shadow.filterMap fun e => (mapGet s.liveMaps e.2.handle).map (·.buf)

/-- The buffer the receive engine writes at a device address: of the live mappings there, that with the lowest handle whose buffer
the block holds and no transmit fragment lies in (R283, log entry 12). -/
def bufAt (s : State) (da : Nat) : Option Nat :=
  (s.liveMaps.find? fun e => e.2.da == da && mapHas s.liveBuffers e.2.buf && !(txBuffers s).contains e.2.buf).map
    fun e => e.2.buf

/-- The bytes of a buffer after its first bytes are overwritten. -/
def overwritePrefix (new old : List Byte) : List Byte := new ++ old.drop new.length

/-- Writes the first `n` drawn payload bytes to the buffer mapped at a device address (R282), where the host does not see them yet
(R78). With no such buffer, the bytes go nowhere the block holds. -/
def writePayload (da n : Nat) (s : State) : State :=
  let drawn := payloadBytes (s.draws.payload.headD []) s.payloadCount n 0
  let dmaMem :=
    match bufAt s da with
    | none => s.dmaMem
    | some b => mapSet s.dmaMem b (overwritePrefix drawn ((mapGet s.dmaMem b).getD []))
  { s with dmaMem := dmaMem, draws := { s.draws with payload := s.draws.payload.tail }, payloadCount := s.payloadCount + 1 }

/-- The value drawn for the reserved bits of a FLAGS word the receive engine writes (R103, U1): the one supplied, or else a free one. -/
def drawnRxReserved (s : State) : Word32 := s.draws.rxReserved.headD (Config.freeRxReserved s.payloadCount)

/-- The receive engine writes the FLAGS word of a slot (R282) with these reserved bits, which are now drawn. -/
def writeRxFlags (base slot len : Nat) (ov : Bool) (csum : Nat) (reserved : Word32) (s : State) : State :=
  { s with
    mem := writeWord s.params.desc.byteOrder s.mem (descWordAddr s.params.desc base slot .flags)
      (encRxDone s.params.desc reserved len ov csum)
    draws := { s.draws with rxReserved := s.draws.rxReserved.tail } }

/-- `DEV_RX_DONE slot, len, ov, csum` (R282), when it is enabled: the payload, then the FLAGS word with `OWN = 0`. -/
def stepRxDone (slot len : Nat) (ov : Bool) (csum : Nat) (s : State) : Option State :=
  match s.rx.base with
  | none => none
  | some base =>
    if s.dev.rxDmaOn && decide (slot < s.params.nRx) && deviceOwns s base slot &&
        decide (len ≤ fieldMax s.params.desc.rxSize) && decide (csum ≤ fieldMax s.params.desc.rxCsum) then
      let da := (deviceView s (descWordAddr s.params.desc base slot .addr)).toNat
      some (writeRxFlags base slot len ov csum (drawnRxReserved s) (writePayload da (min len s.params.rxBufSize) s))
    else none

/-! ### Status logic and MAC (R284, R290) -/

/-- `DEV_STATUS bits` (R284), when it is enabled. -/
def stepStatus (bits : Word32) (s : State) : Option State :=
  if s.adapter ≠ .closed ∧ bits ≠ 0 then some { s with dev := { s.dev with status := s.dev.status ||| bits } }
  else none

/-- `MAC_DRAINED` (R290), when it is enabled. -/
def stepMacDrained (s : State) : Option State :=
  if !macTxEnable s.params s.dev.macTxcfg && s.dev.macEnableSeen then
    some { s with dev := { s.dev with macEnableSeen := false } }
  else none

/-! ### Interleaving (R14) -/

/-- One agent step, when it is enabled. -/
def agentStep : AgentStep → State → Option State
  | .envVisible a, s => stepVisible a s
  | .devTxDone slot, s => stepTxDone slot s
  | .devRxDone slot len ov csum, s => stepRxDone slot len ov csum s
  | .devStatus bits, s => stepStatus bits s
  | .macDrained, s => stepMacDrained s

/-- The agent steps of a list in turn; one that is not enabled is not taken. -/
def agentSteps : List AgentStep → State → State
  | [], s => s
  | a :: rest, s => agentSteps rest ((agentStep a s).getD s)

/-- The agent steps the schedule puts before the next micro-step (R14). -/
def interleave (s : State) : State :=
  match s.sched with
  | [] => s
  | steps :: rest => agentSteps steps { s with sched := rest }

end Sys2Proof.Machine
end

