-- ==== Sys2Proof/Machine/Ops.lean ====
section
/-! DEFINITION. The primitives of R16 as micro-steps (R14), the loops over them, the draws (R17), faults and refusals
(R301, R302), and the entry into and the return from a host operation (R310, R311). -/

namespace Sys2Proof.Machine

/-! ### Micro-steps -/

/-- Why an operation ends before its last micro-step. -/
inductive Stop where
  /-- A fault was raised; the state holds it (R49, R301). -/
  | faulted
  /-- The invocation has no meaning (R302). -/
  | refused (r : Refusal)
deriving DecidableEq, Repr

/-- A piece of a host operation: it runs on a state and answers a value and a state, or stops. -/
abbrev M := EStateM Stop State

/-- The state as it is. -/
def getState : M State := fun s => .ok s s

/-- An update of the state. -/
def update (f : State → State) : M Unit := fun s => .ok () (f s)

/-- `raise Fault(r)` (R301): the fault is recorded and the run stops in this state. -/
def raise {α : Type} (r : Fault) : M α := fun s => .error .faulted { s with fault := some r }

/-- `refuse(r)` (R302). -/
def refuse {α : Type} (r : Refusal) : M α := fun s => .error (.refused r) s

/-- The point before a micro-step, where the environment may act (R14). -/
def boundary : M Unit := update interleave

/-- `body i` for `n` values of `i` from `i` on. -/
def forRange (body : Nat → M Unit) : Nat → Nat → M Unit
  | 0, _ => pure ()
  | n + 1, i => do
    body i
    forRange body n (i + 1)

/-- `Emit(e)` (R50). -/
def emit (e : Event) : M Unit := do
  boundary
  update (emitted e)

/-! ### Draws (R17) -/

/-- The state after a free value has been drawn. -/
def countDraw (s : State) : State := { s with drawCount := s.drawCount + 1 }

/-- `draw IrqAcquire` (R260, R292). -/
def drawIrqAcquire : M Bool := do
  boundary
  fun s =>
    match s.draws.irqAcquire with
    | v :: rest => .ok v { s with draws := { s.draws with irqAcquire := rest } }
    | [] => .ok (Config.freeIrqAcquire s.drawCount) (countDraw s)

/-- `draw TcvrProbe` (R289): `true` is `Known`. -/
def drawTcvrKnown : M Bool := do
  boundary
  fun s =>
    match s.draws.tcvrKnown with
    | v :: rest => .ok v { s with draws := { s.draws with tcvrKnown := rest } }
    | [] => .ok (Config.freeTcvrKnown s.drawCount) (countDraw s)

/-- The ring memory `[base, base + 8n)` does not meet that of the other ring. -/
def apartFromOther (s : State) (r : Ring) (base n : Nat) : Bool :=
  let other := match r with
    | .tx => Ring.rx
    | .rx => Ring.tx
  match ringBase s other with
  | none => true
  | some b =>
    decide (base + descBytes * n ≤ b) || decide (b + descBytes * capacity s.params other ≤ base)

/-- An `ok` draw of ring memory keeps the contract of R293 and R61: aligned to `8·N`, inside the address space, not the other
ring's. A draw that breaks it counts as `fail` (log entry 7). -/
def checkRingMemory (s : State) (r : Ring) (n : Nat) (base : Nat) : Option Nat :=
  if base % (descBytes * n) = 0 ∧ base + descBytes * n ≤ 2 ^ s.params.desc.addrBits ∧ apartFromOther s r base n then
    some base
  else none

/-- `draw RingMemory(r, capacity)` (R130). -/
def drawRingMemory (r : Ring) (n : Nat) : M (Option Nat) := do
  boundary
  fun s =>
    match s.draws.ringMemory with
    | v :: rest => .ok (v.bind (checkRingMemory s r n)) { s with draws := { s.draws with ringMemory := rest } }
    | [] => .ok ((Config.freeRingMemory r n s.drawCount).bind (checkRingMemory s r n)) (countDraw s)

/-- The raw answer of `Alloc`. -/
def drawAlloc (mode : AllocMode) (size : Nat) : M (Option Nat) := fun s =>
  match s.draws.alloc with
  | v :: rest => .ok v { s with draws := { s.draws with alloc := rest } }
  | [] => .ok (Config.freeAlloc mode size s.drawCount) (countDraw s)

/-- The raw answer of `DmaMap`. -/
def drawDmaMap (buf : Nat) : M (Option (Nat × Nat)) := fun s =>
  match s.draws.dmaMap with
  | v :: rest => .ok v { s with draws := { s.draws with dmaMap := rest } }
  | [] => .ok (Config.freeDmaMap buf s.drawCount) (countDraw s)

/-- The raw answer of a management read. -/
def drawMgmtRead (reg : Nat) : M Word32 := fun s =>
  match s.draws.mgmtRead with
  | v :: rest => .ok v { s with draws := { s.draws with mgmtRead := rest } }
  | [] => .ok (Config.freeMgmtRead reg s.drawCount) (countDraw s)

/-! ### Descriptor memory (R62, R63, R66, R73) -/

/-- The address of a descriptor word. A ring without memory, a slot outside it and a misaligned address are refused
(R73, R348, log entries 8 and 9). -/
def descAddr (r : Ring) (slot : Nat) (w : DescWord) : M Nat := fun s =>
  match ringBase s r with
  | none => .error (.refused (.ringNotAllocated r)) s
  | some base =>
    let a := descWordAddr s.params.desc base slot w
    if capacity s.params r ≤ slot then .error (.refused (.slotOutOfRange r slot)) s
    else if a % 4 ≠ 0 then .error (.refused .misalignedAccess) s
    else .ok a s

/-- `MemRead(a, 4)` (R62) of a word of descriptor `slot`. -/
def memRead (r : Ring) (slot : Nat) (w : DescWord) : M Word32 := do
  boundary
  let a ← descAddr r slot w
  let s ← getState
  pure (hostView s a)

/-- A host descriptor write enters the visibility buffer (R63). -/
def pushWrite (a : Nat) (v : Word32) (s : State) : State :=
  emitted (.descW a v) { s with wb := s.wb ++ [⟨a, v, s.epoch⟩] }

/-- `MemWrite(a, 4, v)` (R63) to a word of descriptor `slot`. -/
def memWrite (r : Ring) (slot : Nat) (w : DescWord) (v : Word32) : M Unit := do
  boundary
  let a ← descAddr r slot w
  let f ← descAddr r slot .flags
  let s ← getState
  if owned s.params.desc (hostView s f) && dmaOn s r then raise (.hostWroteDeviceOwned r slot)
  else update (pushWrite a v)

/-- `WMB()` (R66). -/
def wmb : M Unit := do
  boundary
  update fun s => emitted .barrier { s with epoch := s.epoch + 1 }

/-! ### Device registers (R67, R70, R71) -/

/-- What a write to a device register does to the device (R40 to R43, R71). The `FIXED_PARAMS` and `FILTER` groups and the
doorbell hold nothing the block reads. -/
def regEffect (reg : MmioReg) (v : RegVal) (s : State) : State :=
  match reg, v with
  | .intMask, .armed => { s with dev := { s.dev with intArmed := true } }
  | .intMask, .masked => { s with dev := { s.dev with intArmed := false } }
  | .txrxCtrl, .quiesce => { s with dev := { s.dev with txDmaOn := false, rxDmaOn := false } }
  | .txrxCtrl, .enable => { s with dev := { s.dev with txDmaOn := true, rxDmaOn := true } }
  | .macTxcfg, .word w =>
    { s with dev := { s.dev with macTxcfg := w, macEnableSeen := macTxEnable s.params w || s.dev.macEnableSeen } }
  | _, _ => s

/-- `MmioWrite(reg, v)` (R70), performed once every pending descriptor write is visible (R67). -/
def mmioWrite (reg : MmioReg) (v : RegVal) : M Unit := do
  boundary
  update fun s => emitted (.mmioW reg v) (regEffect reg v (drain s))

/-- `MmioRead(STATUS)` (R39, R71): returns the pending bits and clears them. -/
def mmioReadStatus : M Word32 := do
  boundary
  fun s => .ok s.dev.status (emitted (.mmioR .status s.dev.status) { s with dev := { s.dev with status := 0 } })

/-- `MmioRead(MAC_TXCFG)` (R71). -/
def mmioReadMac : M Word32 := do
  boundary
  fun s => .ok (macReadValue s) (emitted (.mmioR .macTxcfg (macReadValue s)) s)

/-! ### Management registers (R74) -/

/-- `MgmtRead(r)` (R74, R288). -/
def mgmtRead (reg : Nat) : M Word32 := do
  boundary
  let raw ← drawMgmtRead reg
  let s ← getState
  let v := mgmtTrunc s.params.mgmt raw
  update (emitted (.mgmtR reg v))
  pure v

/-- `MgmtWrite(r, v)` (R74). -/
def mgmtWrite (reg : Nat) (v : Word32) : M Unit := emit (.mgmtW reg v)

/-! ### Buffers and mappings (R77 to R79) -/

/-- An `ok` answer of `DmaMap` keeps the contract of R77 and R293: a handle that is not live, a device address that is
4-aligned and below `2^ADDR_BITS`. An answer that breaks it counts as `fail` (log entry 7). -/
def checkMap (s : State) (d : Nat × Nat) : Option (Nat × Nat) :=
  if mapHas s.liveMaps d.1 = false ∧ d.2 < 2 ^ s.params.desc.addrBits ∧ d.2 % 4 = 0 then some d else none

/-- `DmaMap(buf)` (R77): the handle and the device address, or `none` for fail. -/
def dmaMap (buf : Nat) : M (Option (Nat × Nat)) := do
  boundary
  let raw ← drawDmaMap buf
  let s ← getState
  match raw.bind (checkMap s) with
  | none => pure none
  | some d => do
    update fun s => emitted (.map buf d.1) { s with liveMaps := mapSet s.liveMaps d.1 ⟨buf, d.2⟩ }
    pure (some d)

/-- The host's view of buffer memory once the device's writes to the first `n` bytes of buffer `b` are visible to it (R78). -/
def showBytes (dma : Table (List Byte)) (b n : Nat) (buf : Table (List Byte)) : Table (List Byte) :=
  match mapGet dma b with
  | none => buf
  | some bytes => mapSet buf b (overwritePrefix (bytes.take n) ((mapGet buf b).getD []))

/-- The host's view of buffer memory once all the device has written to buffer `b` is visible to it (R77). -/
def showAll (dma : Table (List Byte)) (b : Nat) (buf : Table (List Byte)) : Table (List Byte) :=
  showBytes dma b ((mapGet dma b).getD []).length buf

/-- `DmaSyncForCpu` of the first `n` bytes of the buffer of `h` (R78): the device's writes there become visible, and the host may
read them. -/
def openWindow (h n : Nat) (s : State) : State :=
  { s with
    bufMem := match mapGet s.liveMaps h with
      | none => s.bufMem
      | some m => showBytes s.dmaMem m.buf n s.bufMem
    syncWindows := match mapGet s.liveMaps h with
      | none => s.syncWindows
      | some m => mapSet s.syncWindows m.da n }

/-- The host may no longer read the buffer at a device address: it is the device's again (R78). -/
def closeWindow (da : Nat) (s : State) : State := { s with syncWindows := mapErase s.syncWindows da }

/-- `DmaSyncForDevice` of the buffer of `h` (R78). -/
def returnWindow (h : Nat) (s : State) : State :=
  { s with
    syncWindows := match mapGet s.liveMaps h with
      | none => s.syncWindows
      | some m => mapErase s.syncWindows m.da }

/-- The mapping `m` of handle `h` is released (R77): the host may read the whole buffer from now on. -/
def releaseMap (h : Nat) (m : MapEntry) (s : State) : State :=
  { s with
    bufMem := showAll s.dmaMem m.buf s.bufMem
    syncWindows := mapErase s.syncWindows m.da
    liveMaps := mapErase s.liveMaps h }

/-- `DmaUnmap(h)` (R77). -/
def dmaUnmap (h : Nat) : M Unit := do
  boundary
  let s ← getState
  match mapGet s.liveMaps h with
  | none => raise (.doubleUnmap h)
  | some m => update fun s => emitted (.unmap h) (releaseMap h m s)

/-- `DmaSyncForCpu(h, n)` (R78). -/
def dmaSyncForCpu (h n : Nat) : M Unit := do
  boundary
  update fun s => emitted (.syncCpu h n) (openWindow h n s)

/-- `DmaSyncForDevice(h, n)` (R78): the synchronised bytes are the device's again. -/
def dmaSyncForDevice (h n : Nat) : M Unit := do
  boundary
  update fun s => emitted (.syncDev h n) (returnWindow h s)

/-- An `ok` answer of `Alloc` is a buffer that is not in `live_buffers` (R293); another answer counts as `fail` (log entry 7). A
buffer that a transmit fragment in flight is mapped from is accepted, so it may come to stand in a slot of each ring (R137; DESIGN
CHOICE, log entry 35). -/
def checkAlloc (s : State) (b : Nat) : Option Nat := if mapHas s.liveBuffers b then none else some b

/-- `Alloc(size, mode)` (R79). The contents of a fresh buffer are unknown. -/
def alloc (size : Nat) (mode : AllocMode) : M (Option Nat) := do
  boundary
  let raw ← drawAlloc mode size
  let s ← getState
  match raw.bind (checkAlloc s) with
  | none => do
    update (emitted .allocFail)
    pure none
  | some b => do
    update fun s => emitted (.allocOk b)
      { s with
        liveBuffers := mapSet s.liveBuffers b ()
        bufMem := mapErase s.bufMem b
        dmaMem := mapErase s.dmaMem b }
    pure (some b)

/-- `Free(buf)` (R79). -/
def freeBuf (b : Nat) : M Unit := do
  boundary
  update fun s => emitted (.freeBuf b) { s with
    liveBuffers := mapErase s.liveBuffers b
    bufMem := mapErase s.bufMem b
    dmaMem := mapErase s.dmaMem b }

/-- What the host reads of the first `n` bytes of the buffer of `h` (R78): those inside its window; other bytes are unknown. -/
def readPayload (h n : Nat) (s : State) : List Byte :=
  match mapGet s.liveMaps h with
  | none => []
  | some m => ((mapGet s.bufMem m.buf).getD []).take (min n ((mapGet s.syncWindows m.da).getD 0))

/-- `sb[0 .. n-1] <- ob[0 .. n-1]` (R186), `ob` being the buffer of `h`, of the bytes the model knows. -/
def copyPayload (sb h n : Nat) (s : State) : State := { s with bufMem := mapSet s.bufMem sb (readPayload h n s) }

/-- `st.live_buffers.remove(buf)` (R185, R186): ownership passes to the host stack. -/
def releaseBuf (b : Nat) (s : State) : State := { s with liveBuffers := mapErase s.liveBuffers b }

/-! ### Counters (R38) -/

/-- An update of the counters. -/
def count (f : Counters → Counters) : M Unit := update fun s => { s with counters := f s.counters }

/-- `n` as a counter increment: 64-bit, wrapping. -/
def inc (n : Nat) : BitVec 64 := BitVec.ofNat 64 n

/-! ### Entry, return, faults and refusals of a whole operation -/

/-- Entry (R310): the lock is taken and the context fixed; nothing is saved and nothing else changes. -/
def enter (ctx : Context) (s : State) : State := { s with lock := some ctx }

/-- Return (R311): the lock is released, nothing is restored; the operation's outcome is what its caller sees (R300). -/
def leave (o : OpOutcome) (s : State) : State := { s with lock := none, outcome := some o }

/-- The end of an operation that a rule of the block invokes: it touches no lock. -/
def conclude (o : OpOutcome) (s : State) : State := { s with outcome := some o }

/-- What an operation that has run answers: the state it returns to, the state a fault stopped it in, or a refusal. -/
def finish (back : OpOutcome → State → State) : EStateM.Result Stop State OpOutcome → Host.Outcome State Fault Refusal
  | .ok o s => .next (back o s)
  | .error .faulted s => .next s
  | .error (.refused r) _ => .refused r

/-- Whether anything can run, `o` being what then happens: after a fault no further step is taken (R49), and with the block not
created (R345) there is nothing to run. -/
def running (s : State) (faulted : Fault → Host.Outcome State Fault Refusal) (o : Host.Outcome State Fault Refusal) :
    Host.Outcome State Fault Refusal :=
  match s.fault with
  | some r => faulted r
  | none => if s.absent then .refused .notCreated else o

/-- A host operation entered from outside (R310 to R312): not while the lock is held. -/
def hostOp (ctx : Context) (body : M OpOutcome) (s : State) : Host.Outcome State Fault Refusal :=
  running s .fault
    (match s.lock with
      | some _ => .refused .lockHeld
      | none => finish leave (body (enter ctx s)))

/-- An internal operation invoked by a rule of the block: it runs inside the invoking operation and touches no lock. -/
def internalOp (body : M OpOutcome) (s : State) : Host.Outcome State Fault Refusal :=
  running s .fault (finish conclude (body s))

/-- An agent step as a command of its own (R302): refused once a fault is recorded, and when it is not enabled. -/
def agentOp (a : AgentStep) (s : State) : Host.Outcome State Fault Refusal :=
  running s (fun _ => .refused .agentAfterFault)
    (match agentStep a s with
      | some s' => .next s'
      | none => .refused .agentNotEnabled)

end Sys2Proof.Machine
end

