-- ==== Sys2Proof/Machine/Link.lean ====
section
/-! DEFINITION. The link negotiation machine but for its tick: starting and forcing a mode, the commit to the MAC, restart and
reconfiguration (R221 to R229, R242). The tick stands in Tick.lean, since it calls Device Reset/Init. -/

namespace Sys2Proof.Machine

/-- An update of the link state. -/
def updateLink (f : LinkState → LinkState) : M Unit := update fun s => { s with link := f s.link }

/-- Enters a waiting state: `state <- S; tick <- 0; timer_armed <- true` (R220, R31, R37). -/
def enterWait (st : LinkFsm) (s : State) : State :=
  { s with link := { s.link with state := st, tick := 0 }, timerArmed := true }

/-- `st.timer_armed <- true`: the paths of R220 marked "arm". -/
def armTimer : M Unit := update fun s => { s with timerArmed := true }

/-- `cancel_timer` (R242). -/
def cancelTimer : M Unit := update fun s => { s with timerArmed := false }

/-! ### Forcing a mode (R225) -/

/-- `LINK_FORCE p` (R225). -/
def linkForce (p : Fin 4) : M Unit := do
  updateLink fun l => { l with perm := p }
  let s ← getState
  mgmtWrite s.params.mgmt.control (encForced s.params.mgmt (permMode p))
  update (enterWait .forcedTryWait)

/-! ### Starting negotiation (R223, R224) -/

/-- The acknowledge poll (R224): whether one of at most `n` reads of `CONTROL` shows the restart acknowledged. -/
def ackPoll : Nat → M Bool
  | 0 => pure false
  | n + 1 => do
    let s ← getState
    let v ← mgmtRead s.params.mgmt.control
    if restartAcked s.params.mgmt v then pure true else ackPoll n

/-- `LINK_BEGIN` (R223). -/
def linkBegin : M Unit := do
  let s ← getState
  if s.link.state ≠ .idle then refuse .linkBeginNotIdle
  else do
    updateLink fun l => { l with tick := 0 }
    if s.link.autoneg then do
      mgmtWrite s.params.mgmt.advertise (encAdv s.params.mgmt s.params.advertised)
      mgmtWrite s.params.mgmt.control (encAnStart s.params.mgmt)
      let acked ← ackPoll s.params.anRestartPollBudget
      if acked then update (enterWait .arbitrationWait)
      else do
        emit (.log .anRestartNoAck)
        linkForce 0
    else linkForce (modeIndex ⟨s.link.speedReq, s.link.duplexReq⟩)

/-! ### Committing a mode to the MAC (R226) -/

/-- The bounded drain poll (R226): the read that shows `TX_ENABLE = 0`, if one of at most `n` does. -/
def drainPoll : Nat → M (Option Word32)
  | 0 => pure none
  | n + 1 => do
    let w ← mmioReadMac
    let s ← getState
    if macTxEnable s.params w then drainPoll n else pure (some w)

/-- `LINK_COMMIT m` (R226): disable, drain, reconfigure, enable. `true` is `CommitOk`. -/
def linkCommit (m : Mode) : M Bool := do
  let v ← mmioReadMac
  let s ← getState
  mmioWrite .macTxcfg (.word (putTxEnable s.params v false))
  let r ← drainPoll s.params.macDrainPollBudget
  match r with
  | none => pure false
  | some w => do
    let w2 := putFullDuplex s.params w (m.duplex == .full)
    mmioWrite .macTxcfg (.word w2)
    mmioWrite .macTxcfg (.word (putTxEnable s.params w2 true))
    updateLink fun l => { l with committed := some m }
    pure true

/-! ### Restart and reconfiguration (R228, R229) -/

/-- `restart_negotiation` (R228). -/
def restartNegotiation : M Unit := do
  cancelTimer
  updateLink fun l => { l with up := false, state := .idle }
  linkBegin

/-- The requested speed as one of the two there are (R229). -/
def validSpeed (n : Nat) : Option Speed := if n = 10 then some .s10 else if n = 100 then some .s100 else none

/-- The requested duplex as one of the two there are (R229). -/
def validDuplex : DuplexArg → Option Duplex
  | .half => some .half
  | .full => some .full
  | .other => none

/-- The request a valid reconfiguration stores (R229): `none` for a `ValidationError`. With autonegotiation enabled, speed and
duplex are neither checked nor stored. -/
def validRequest (an : AutonegArg) (sp : Nat) (dx : DuplexArg) (l : LinkState) : Option LinkState :=
  match an with
  | .other => none
  | .enabled => some { l with autoneg := true }
  | .disabled =>
    match validSpeed sp, validDuplex dx with
    | some speed, some duplex => some { l with autoneg := false, speedReq := speed, duplexReq := duplex }
    | _, _ => none

/-- `RECONFIGURE_LINK an, sp, dx` (R229). -/
def reconfigureLink (an : AutonegArg) (sp : Nat) (dx : DuplexArg) : M OpOutcome := do
  let s ← getState
  match validRequest an sp dx s.link with
  | none => pure .validationError
  | some l =>
    if s.adapter ≠ .running then pure .notReady
    else do
      updateLink fun _ => l
      restartNegotiation
      pure .ok

/-! ### Meanings -/

/-- `LINK_BEGIN` (R223); its outcome is `Ok` (R300). -/
def execLinkBegin (s : State) : Host.Outcome State Fault Refusal := internalOp (do linkBegin; pure .ok) s

/-- `LINK_COMMIT` (R226). -/
def execLinkCommit (m : Mode) (s : State) : Host.Outcome State Fault Refusal :=
  internalOp (do
    let done ← linkCommit m
    if done then pure .commitOk else pure .commitFailed) s

/-- `LINK_FORCE` (R225); its outcome is `Ok` (R300). -/
def execLinkForce (p : Fin 4) (s : State) : Host.Outcome State Fault Refusal := internalOp (do linkForce p; pure .ok) s

/-- `RECONFIGURE_LINK` (R229), in process context (R314). -/
def execReconfigureLink (an : AutonegArg) (sp : Nat) (dx : DuplexArg) (s : State) : Host.Outcome State Fault Refusal :=
  hostOp .process (reconfigureLink an sp dx) s

end Sys2Proof.Machine
end

