-- ==== Sys2Proof/Machine/Ring.lean ====
section
/-! DEFINITION. The ring primitives (R130 to R139). -/

namespace Sys2Proof.Machine

/-! ### `RING_ALLOC` (R130) -/

/-- The base of a ring is fixed, its cursors are 0 and its shadow is empty (R130). -/
def setAllocated (r : Ring) (base : Nat) (s : State) : State :=
  match r with
  | .tx => { s with tx := { s.tx with base := some base, head := 0, tail := 0, shadow := [] } }
  | .rx => { s with rx := { s.rx with base := some base, cursor := 0, shadow := [] } }

/-- A neutral descriptor written directly to memory (R104, R130). -/
def neutralInMem (base slot : Nat) (s : State) : State :=
  let put (w : DescWord) (m : List Host.Cell) :=
    writeWord s.params.desc.byteOrder m (descWordAddr s.params.desc base slot w) 0
  { s with mem := put .addr (put .flags s.mem) }

/-- The block is not created (R345). -/
def markAbsent (s : State) : State := { s with absent := true }

/-- `RING_ALLOC r, capacity` (R130). Without memory for the ring the block is not created (R345). -/
def ringAlloc (r : Ring) (n : Nat) : M OpOutcome := do
  let s ← getState
  if !isPow2 n || decide (n < 2) || n != capacity s.params r then refuse .badCapacity
  else if (ringBase s r).isSome then refuse .ringAlreadyAllocated
  else do
    let d ← drawRingMemory r n
    match d with
    | none => do
      update markAbsent
      pure .resourceExhausted
    | some base => do
      forRange (fun i => update (neutralInMem base i)) n 0
      update (setAllocated r base)
      pure .ok

/-! ### `RING_NEXT_FREE` (R131) -/

/-- `RING_NEXT_FREE` (R131). -/
def ringNextFree : M OpOutcome := do
  let s ← getState
  if occupied s = s.params.nTx - 1 then pure .full else pure (.slot s.tx.head)

/-! ### `RING_PUBLISH` (R132) -/

/-- `RING_PUBLISH r, slot, a, f` (R132): address, barrier, flags. The buffer at `a` is the device's from then on (R78). -/
def ringPublish (r : Ring) (slot : Nat) (a f : Word32) : M Unit := do
  let s ← getState
  if owned s.params.desc f then do
    memWrite r slot .addr a
    wmb
    memWrite r slot .flags f
    update (closeWindow a.toNat)
  else refuse .publishWithoutOwn

/-! ### `RING_TRY_RECLAIM` (R133) -/

/-- `RING_TRY_RECLAIM r, slot` (R133): the two words if `OWN` is clear, `none` for `NotReady`. -/
def ringTryReclaim (r : Ring) (slot : Nat) : M (Option (Word32 × Word32)) := do
  let f ← memRead r slot .flags
  let s ← getState
  if owned s.params.desc f then pure none
  else do
    let a ← memRead r slot .addr
    pure (some (f, a))

/-! ### `RING_RESET` (R134) -/

/-- Takes a transmit slot's entry out of the shadow. -/
def clearTxSlot (slot : Nat) (s : State) : State := { s with tx := { s.tx with shadow := mapErase s.tx.shadow slot } }

/-- Takes a receive slot's entry out of the shadow. -/
def clearRxSlot (slot : Nat) (s : State) : State := { s with rx := { s.rx with shadow := mapErase s.rx.shadow slot } }

/-- `st.pkts.remove(pkt)`. -/
def removePkt (pkt : Nat) (s : State) : State := { s with pkts := mapErase s.pkts pkt }

/-- The release of one transmit slot (R134). -/
def releaseTxSlot (slot : Nat) : M Unit := do
  let s ← getState
  match mapGet s.tx.shadow slot with
  | none => pure ()
  | some e => do
    dmaUnmap e.handle
    update fun s => clearTxSlot slot (if e.eop then removePkt e.pkt s else s)

/-- The release of one receive slot (R134). -/
def releaseRxSlot (slot : Nat) : M Unit := do
  let s ← getState
  match mapGet s.rx.shadow slot with
  | none => pure ()
  | some e => do
    dmaUnmap e.handle
    freeBuf e.buf
    update (clearRxSlot slot)

/-- The release of one slot. -/
def releaseSlot : Ring → Nat → M Unit
  | .tx, slot => releaseTxSlot slot
  | .rx, slot => releaseRxSlot slot

/-- The neutral rewrite of one slot (R134). -/
def neutralSlot (r : Ring) (slot : Nat) : M Unit := do
  memWrite r slot .addr 0
  memWrite r slot .flags 0

/-- The cursors of a ring go to 0 (R134). -/
def zeroCursors (r : Ring) (s : State) : State :=
  match r with
  | .tx => { s with tx := { s.tx with head := 0, tail := 0 } }
  | .rx => { s with rx := { s.rx with cursor := 0 } }

/-- `RING_RESET r` (R134). -/
def ringReset (r : Ring) : M Unit := do
  let s ← getState
  if dmaOn s r then raise (.resetWhileDmaOn r)
  else do
    forRange (releaseSlot r) (capacity s.params r) 0
    forRange (neutralSlot r) (capacity s.params r) 0
    update (zeroCursors r)

/-! ### The end of an operation that has reset the rings (R55 item 3) -/

/-- A transmit slot that is not outstanding and still device-owned in memory: the pending write to its FLAGS word becomes visible
(R64, R280). -/
def showFreeSlot (base slot : Nat) (s : State) : State :=
  if deviceOwns s base slot && !outstanding s slot then
    (stepVisible (descWordAddr s.params.desc base slot .flags) s).getD s
  else s

/-- `showFreeSlot` for `n` slots from slot `i` on. -/
def showFreeSlots (base : Nat) : Nat → Nat → State → State
  | 0, _, s => s
  | n + 1, i, s => showFreeSlots base n (i + 1) (showFreeSlot base i s)

/-- Every transmit slot that is not outstanding is host-owned in memory (R55 item 3), as far as visibility steps make it so. -/
def freeSlotsShown (s : State) : State :=
  match s.tx.base with
  | none => s
  | some base => showFreeSlots base s.params.nTx 0 s

/-- The last micro-step of an operation that has reset the rings: it returns once R55 item 3 holds in memory. The visibility steps
are the environment's (R64), and other writes may stay pending (R346, log entry 32). -/
def awaitFreeSlots : M Unit := do
  boundary
  update freeSlotsShown

/-! ### Meanings -/

/-- `RING_ALLOC` (R130). -/
def execRingAlloc (r : Ring) (n : Nat) (s : State) : Host.Outcome State Fault Refusal :=
  internalOp (ringAlloc r n) s

/-- `RING_NEXT_FREE` (R131). -/
def execRingNextFree (s : State) : Host.Outcome State Fault Refusal := internalOp ringNextFree s

/-- `RING_PUBLISH` (R132); its outcome is `Ok` (R300). -/
def execRingPublish (r : Ring) (slot : Nat) (a f : Word32) (s : State) : Host.Outcome State Fault Refusal :=
  internalOp (do ringPublish r slot a f; pure .ok) s

/-- `RING_TRY_RECLAIM` (R133). -/
def execRingTryReclaim (r : Ring) (slot : Nat) (s : State) : Host.Outcome State Fault Refusal :=
  internalOp (do
    let d ← ringTryReclaim r slot
    match d with
    | none => pure .notReady
    | some (f, a) => pure (.desc f a)) s

/-- `RING_RESET` (R134); its outcome is `Ok` (R300). -/
def execRingReset (r : Ring) (s : State) : Host.Outcome State Fault Refusal :=
  internalOp (do ringReset r; pure .ok) s

end Sys2Proof.Machine
end

