-- ==== Sys2Proof/Machine/Receive.lean ====
section
/-! DEFINITION. The receive path: posting a slot (R180, R181) and the reclaim walk (R182 to R189). -/

namespace Sys2Proof.Machine

/-! ### Giving a slot to the device -/

/-- `RX_POST slot, h` (R180). -/
def rxPost (slot h : Nat) : M Unit := do
  let s ← getState
  match mapGet s.liveMaps h with
  | none => refuse (.handleNotLive h)
  | some m => ringPublish .rx slot (encAddr m.da) (encRxPost s.params)

/-- `RX_RECYCLE slot` (R181). -/
def rxRecycle (slot : Nat) : M Unit := do
  let s ← getState
  match mapGet s.rx.shadow slot with
  | none => if capacity s.params .rx ≤ slot then refuse (.slotOutOfRange .rx slot) else refuse (.shadowMissing .rx slot)
  | some e => rxPost slot e.handle

/-! ### The visit of a completed slot -/

/-- `DROP_ERROR(c)` (R184). -/
def dropError (c : Nat) : M Unit := do
  count fun k => { k with rxErrors := k.rxErrors + 1, rxDropped := k.rxDropped + 1 }
  rxRecycle c

/-- The drop that an allocation or mapping failure ends in (R187). -/
def dropNoMemory (c : Nat) : M Unit := do
  count fun k => { k with rxDropped := k.rxDropped + 1 }
  rxRecycle c

/-- A packet is delivered: ownership of its buffer passes up, and it is counted (R185, R186, R190, R193). -/
def deliver (b len csum : Nat) : M Unit := do
  update (releaseBuf b)
  emit (.deliver b len csum)
  count fun k => { k with rxPackets := k.rxPackets + 1, rxBytes := k.rxBytes + inc len }

/-- Enters a slot into the receive shadow (R29). -/
def setRxSlot (slot : Nat) (e : RxEntry) (s : State) : State :=
  { s with rx := { s.rx with shadow := mapSet s.rx.shadow slot e } }

/-- `ZERO_COPY(c, len, csum)` (R185) of the slot posted with `e`. -/
def zeroCopy (c len csum : Nat) (e : RxEntry) : M Unit := do
  let s ← getState
  let nb ← alloc s.params.rxBufSize .nonblocking
  match nb with
  | none => dropNoMemory c
  | some b => do
    let m ← dmaMap b
    match m with
    | none => do
      freeBuf b
      dropNoMemory c
    | some d => do
      update (setRxSlot c ⟨b, d.1⟩)
      rxPost c d.1
      dmaUnmap e.handle
      deliver e.buf len csum

/-- `COPY_OUT(c, len, csum)` (R186) of the slot posted with `e`. -/
def copyOut (c len csum : Nat) (e : RxEntry) : M Unit := do
  let nb ← alloc len .nonblocking
  match nb with
  | none => dropNoMemory c
  | some b => do
    dmaSyncForCpu e.handle len
    update (copyPayload b e.handle len)
    dmaSyncForDevice e.handle len
    rxPost c e.handle
    deliver b len csum

/-- `VISIT(c, len, ov, csum)` (R183). -/
def visit (c len : Nat) (ov : Bool) (csum : Nat) : M Unit := do
  let s ← getState
  if s.params.rxBufSize < len ∧ ov = false then raise (.rxLengthExceedsBuffer c len)
  else if len < s.params.rxMinFrame ∨ ov = true then dropError c
  else match mapGet s.rx.shadow c with
    | none => refuse (.shadowMissing .rx c)
    | some e => if s.params.rxCopyThreshold < len then zeroCopy c len csum e else copyOut c len csum e

/-! ### The walk -/

/-- `st.rx.cursor <- (c + 1) mod N_RX` (R188). -/
def advanceCursor (c : Nat) (s : State) : State := { s with rx := { s.rx with cursor := (c + 1) % s.params.nRx } }

/-- The walk (R182) with a budget of `n` visits. -/
def receiveWalk : Nat → M Unit
  | 0 => pure ()
  | n + 1 => do
    let s ← getState
    let d ← ringTryReclaim .rx s.rx.cursor
    match d with
    | none => pure ()
    | some (f, _) => do
      visit s.rx.cursor (getField s.params.desc.rxSize f) (getBit s.params.desc.overflow f)
        (getField s.params.desc.rxCsum f)
      update (advanceCursor s.rx.cursor)
      receiveWalk n

/-- `RX_RECLAIM` (R182, R189). -/
def rxReclaim : M Unit := do
  let s ← getState
  receiveWalk s.params.nRx

/-! ### Meanings -/

/-- `RX_RECLAIM` (R182); its outcome is `Ok` (R300). -/
def execRxReclaim (s : State) : Host.Outcome State Fault Refusal := internalOp (do rxReclaim; pure .ok) s

/-- `RX_POST` (R180); its outcome is `Ok` (R300). -/
def execRxPost (slot h : Nat) (s : State) : Host.Outcome State Fault Refusal :=
  internalOp (do rxPost slot h; pure .ok) s

/-- `RX_RECYCLE` (R181); its outcome is `Ok` (R300). -/
def execRxRecycle (slot : Nat) (s : State) : Host.Outcome State Fault Refusal :=
  internalOp (do rxRecycle slot; pure .ok) s

end Sys2Proof.Machine
end

