-- ==== Sys2Proof/Machine/Transmit.lean ====
section
/-! DEFINITION. The transmit path: enqueue (R150 to R160) and reclaim (R161, R162). -/

namespace Sys2Proof.Machine

/-! ### Enqueue -/

/-- A fragment with its mapping. -/
structure Mapped where
  frag : Fragment
  handle : Nat
  da : Nat
deriving DecidableEq, Repr

/-- `Σ len_j` (R156). -/
def packetLen (fs : List Fragment) : Nat := (fs.map (·.len)).sum

/-- What R151 finds wrong with a packet, first finding first. -/
def validatePacket (p : Params) (pkt : Packet) : Option Refusal :=
  if pkt.frags.length < 1 ∨ p.kMax < pkt.frags.length then some .badFragmentCount
  else if pkt.frags.any fun f => decide (f.len < 1) || decide (fieldMax p.desc.txSize < f.len) then
    some .badFragmentLength
  else match pkt.cs with
    | .none => none
    | .offsets start stuff =>
      if fieldMax p.desc.csStart < start ∨ fieldMax p.desc.csStuff < stuff then some .checksumOffsetRange else none

/-- Unmaps fragments, the newest mapping first (R155). -/
def unmapAll : List Mapped → M Unit
  | [] => pure ()
  | m :: ms => do
    dmaUnmap m.handle
    unmapAll ms

/-- The mapping phase (R155): the mapped fragments in order, or `none` after unwinding. `done` is newest first. A buffer that stands
in a slot already, or in two fragments, is mapped again: that no buffer is in two slots (R137) is left to the caller (DESIGN CHOICE,
log entry 35). -/
def mapFragments : List Fragment → List Mapped → M (Option (List Mapped))
  | [], done => pure (some done.reverse)
  | f :: fs, done => do
    let r ← dmaMap f.buf
    match r with
    | none => do
      unmapAll done
      pure none
    | some d => mapFragments fs (⟨f, d.1, d.2⟩ :: done)

/-- `s_j = (head + j - 1) mod N_TX` (R156). -/
def fragSlot (s : State) (j : Nat) : Nat := (s.tx.head + j - 1) % s.params.nTx

/-- Enters a slot into the transmit shadow (R26). -/
def setTxSlot (slot : Nat) (e : TxEntry) (s : State) : State :=
  { s with tx := { s.tx with shadow := mapSet s.tx.shadow slot e } }

/-- Writes the descriptor of fragment `j` of `k` (R156, R157): shadow entry, then publish. Fragment 1 carries `SOP` and the
checksum request, the last fragment `EOP`. -/
def publishFragment (cs : CsRequest) (k total j : Nat) (m : Mapped) : M Unit := do
  let s ← getState
  update (setTxSlot (fragSlot s j) ⟨s.nextPkt, j, m.handle, m.frag.len, j == k, total⟩)
  ringPublish .tx (fragSlot s j) (encAddr m.da)
    (encTx s.params.desc (j == 1) (j == k) (if j == 1 then cs else .none) m.frag.len)

/-- Fragments `j..K` in order (R156). -/
def publishFrom (k total : Nat) : Nat → List Mapped → M Unit
  | _, [] => pure ()
  | j, m :: ms => do
    publishFragment .none k total j m
    publishFrom k total (j + 1) ms

/-- Fragments 2..K, then fragment 1 (R156, R157). -/
def publishPacket (pkt : Packet) : List Mapped → M Unit
  | [] => pure ()
  | m :: ms => do
    publishFrom pkt.frags.length (packetLen pkt.frags) 2 ms
    publishFragment pkt.cs pkt.frags.length (packetLen pkt.frags) 1 m

/-- `st.tx.head <- (head + K) mod N_TX; st.pkts[pkt] <- pkt` (R158). -/
def advanceHead (pkt : Packet) (s : State) : State :=
  { s with
    tx := { s.tx with head := (s.tx.head + pkt.frags.length) % s.params.nTx }
    pkts := mapSet s.pkts s.nextPkt pkt
    nextPkt := s.nextPkt + 1 }

/-- The transmit queue is stopped or started (R27). -/
def setStopped (b : Bool) (s : State) : State := { s with tx := { s.tx with stopped := b } }

/-- Backpressure (R159). -/
def backpressure : M Unit := do
  let s ← getState
  if freeSlots s < s.params.txLowWater then do
    update (setStopped true)
    emit .queueStop
  else pure ()

/-- `TRANSMIT pkt` (R150 to R160). -/
def transmit (pkt : Packet) : M OpOutcome := do
  let s ← getState
  match validatePacket s.params pkt with
  | some r => refuse r
  | none =>
    if s.adapter ≠ .running then pure .busy
    else if s.tx.stopped then pure .busy
    else if freeSlots s < pkt.frags.length + 1 then pure .busy
    else do
      let r ← mapFragments pkt.frags []
      match r with
      | none => do
        count fun c => { c with txDropped := c.txDropped + 1 }
        pure .droppedMapping
      | some ms => do
        publishPacket pkt ms
        update (advanceHead pkt)
        backpressure
        mmioWrite .doorbell .kick
        pure .accepted

/-! ### Reclaim -/

/-- `st.tx.tail <- (t + 1) mod N_TX` (R161). -/
def advanceTail (t : Nat) (s : State) : State := { s with tx := { s.tx with tail := (t + 1) % s.params.nTx } }

/-- The reclaim of the completed slot `t` (R161). -/
def reclaimSlot (t : Nat) (e : TxEntry) : M Unit := do
  dmaUnmap e.handle
  if e.eop then do
    count fun c => { c with txPackets := c.txPackets + 1, txBytes := c.txBytes + inc e.pktLen }
    update (removePkt e.pkt)
    emit (.txComplete e.pkt)
  else pure ()
  update fun s => advanceTail t (clearTxSlot t s)

/-- The reclaim walk (R161), over at most `n` slots. -/
def reclaimWalk : Nat → M Unit
  | 0 => pure ()
  | n + 1 => do
    let s ← getState
    if s.tx.tail = s.tx.head then pure ()
    else do
      let d ← ringTryReclaim .tx s.tx.tail
      match d with
      | none => pure ()
      | some _ => do
        let s' ← getState
        match mapGet s'.tx.shadow s.tx.tail with
        | none => refuse (.shadowMissing .tx s.tx.tail)
        | some e => do
          reclaimSlot s.tx.tail e
          reclaimWalk n

/-- Queue wake (R162). -/
def queueWake : M Unit := do
  let s ← getState
  if s.tx.stopped = true ∧ s.adapter = .running ∧ s.params.txLowWater ≤ freeSlots s then do
    update (setStopped false)
    emit .queueWake
  else pure ()

/-- `TX_RECLAIM` (R161, R162). A walk reclaims at most `occupied ≤ N_TX - 1` slots, so `N_TX` bounds it. -/
def txReclaim : M Unit := do
  let s ← getState
  reclaimWalk s.params.nTx
  queueWake

/-! ### Meanings -/

/-- `TRANSMIT` (R150), in process context (R314). -/
def execTransmit (pkt : Packet) (s : State) : Host.Outcome State Fault Refusal := hostOp .process (transmit pkt) s

/-- `TX_RECLAIM` (R161); its outcome is `Ok` (R300). -/
def execTxReclaim (s : State) : Host.Outcome State Fault Refusal := internalOp (do txReclaim; pure .ok) s

end Sys2Proof.Machine
end

