-- ==== Sys2Proof/Machine/Reset.lean ====
section
/-! DEFINITION. Device Reset/Init (R330 to R344). -/

namespace Sys2Proof.Machine

/-- The allocation mode of a context (R79, R314, R330). -/
def allocMode : Context → AllocMode
  | .process => .blocking
  | .interrupt => .nonblocking
  | .timer => .nonblocking

/-- An update of the adapter state (R21). -/
def setAdapter (a : AdapterState) : M Unit := update fun s => { s with adapter := a }

/-- Writes a list of registers of an opaque group (R264, R339). -/
def writeGroup (reg : Nat → MmioReg) : List RegWrite → M Unit
  | [] => pure ()
  | w :: ws => do
    mmioWrite (reg w.1) (.word w.2)
    writeGroup reg ws

/-- The word of a `FIXED_PARAMS_PROGRAM` value, once both rings have their memory (R51, R339). -/
def fixedWord (s : State) : FixedVal → Word32
  | .word v => v
  | .ringBase r => encAddr ((ringBase s r).getD 0)

/-- The writes of `FIXED_PARAMS_PROGRAM` (R339). -/
def fixedWrites (s : State) : List RegWrite := s.params.fixedParamsProgram.map fun w => (w.1, fixedWord s w.2)

/-- The refill of `n` receive slots from slot `i` on (R334): `false` once an allocation or a mapping fails. -/
def refill (mode : AllocMode) : Nat → Nat → M Bool
  | 0, _ => pure true
  | n + 1, i => do
    let s ← getState
    let b ← alloc s.params.rxBufSize mode
    match b with
    | none => pure false
    | some buf => do
      let m ← dmaMap buf
      match m with
      | none => do
        freeBuf buf
        pure false
      | some d => do
        update (setRxSlot i ⟨buf, d.1⟩)
        rxPost i d.1
        refill mode n (i + 1)

/-- `NOT_READY` (R330, R335). -/
def notReady : M Unit := do
  setAdapter .notReady
  updateLink fun l => { l with state := .idle }
  armTimer

/-- Steps 1 to 3 (R331 to R333): cancel, quiesce, release. -/
def resetRelease : M Unit := do
  cancelTimer
  updateLink fun l => { l with state := .idle, up := false }
  mmioWrite .txrxCtrl .quiesce
  mmioWrite .intMask .masked
  ringReset .tx
  ringReset .rx
  update (setStopped true)

/-- Steps 6 to 9 (R339 to R342): fixed parameters, MAC, DMA on, interrupts, queue, link. -/
def resetStart : M Unit := do
  let s ← getState
  writeGroup .fixedParams (fixedWrites s)
  let v ← mmioReadMac
  mmioWrite .macTxcfg (.word (putFullDuplex s.params (putTxEnable s.params v true) false))
  mmioWrite .txrxCtrl .enable
  mmioWrite .intMask .armed
  update (setStopped false)
  emit .queueWake
  setAdapter .running
  restartNegotiation

/-- `RESET_INIT ctx` (R330). -/
def resetInit (ctx : Context) : M OpOutcome := do
  resetRelease
  let s ← getState
  let filled ← refill (allocMode ctx) s.params.nRx 0
  if filled then do
    let known ← drawTcvrKnown
    if known then do
      resetStart
      pure .ok
    else do
      emit (.log .linkTypeUnknown)
      notReady
      pure .linkTypeUnknown
  else do
    ringReset .rx
    emit (.log .rxRefillFailed)
    notReady
    pure .resourceExhausted

/-- Device Reset/Init as the last thing an operation does (R344): its outcome is seen by no caller (R304). -/
def resetAndReturn (ctx : Context) : M Unit := do
  let _ ← resetInit ctx
  awaitFreeSlots

/-- `RESET_INIT` (R330). -/
def execResetInit (ctx : Context) (s : State) : Host.Outcome State Fault Refusal := internalOp (resetInit ctx) s

end Sys2Proof.Machine
end

