-- ==== Sys2Proof/Machine/Lifecycle.lean ====
section
/-! DEFINITION. The lifecycle and configuration operations (R260 to R264). -/

namespace Sys2Proof.Machine

/-- `TEARDOWN` (R262). -/
def teardown : M Unit := do
  cancelTimer
  mmioWrite .txrxCtrl .quiesce
  mmioWrite .intMask .masked
  ringReset .tx
  ringReset .rx
  update (setStopped true)
  updateLink fun l => { l with state := .asleep, tick := 0, up := false }
  update fun s => { s with irqAcquired := false }
  emit .irqRelease
  setAdapter .closed

/-- `OPEN` (R260, R261). -/
def openAdapter : M OpOutcome := do
  let s ← getState
  if s.adapter ≠ .closed then pure .alreadyOpen
  else do
    let granted ← drawIrqAcquire
    if granted then do
      update fun s => { s with irqAcquired := true }
      emit .irqAcquire
      let o ← resetInit .process
      if o = .ok then pure .ok
      else do
        teardown
        awaitFreeSlots
        pure o
    else pure .irqUnavailable

/-- `CLOSE` (R262). -/
def closeAdapter : M OpOutcome := do
  let s ← getState
  if s.adapter = .closed then pure .ok
  else do
    teardown
    awaitFreeSlots
    pure .ok

/-- `TX_TIMEOUT` (R263). -/
def txTimeout : M OpOutcome := do
  let s ← getState
  if s.adapter = .closed then pure .ok
  else do
    resetAndReturn .process
    pure .ok

/-- The parameter `FILTER_PROGRAM` (R264): the parameter table, and the free part outside it. -/
def filterProgram (p : Params) (req : FilterRequest) : List RegWrite :=
  match p.filterTable.find? fun e => e.1 == req with
  | some e => e.2
  | none => Config.filterProgram req

/-- `SET_MCAST addresses, flags` (R264). -/
def setMcast (req : FilterRequest) : M OpOutcome := do
  let s ← getState
  if s.adapter = .closed then pure .ok
  else do
    emit (.filterProgram req)
    writeGroup .filter (filterProgram s.params req)
    pure .ok

/-! ### Meanings -/

/-- `OPEN` (R260), in process context (R314). -/
def execOpen (s : State) : Host.Outcome State Fault Refusal := hostOp .process openAdapter s

/-- `CLOSE` (R262), in process context (R314). -/
def execClose (s : State) : Host.Outcome State Fault Refusal := hostOp .process closeAdapter s

/-- `TX_TIMEOUT` (R263), in process context (R314). -/
def execTxTimeout (s : State) : Host.Outcome State Fault Refusal := hostOp .process txTimeout s

/-- `SET_MCAST` (R264), in process context (R314). -/
def execSetMcast (req : FilterRequest) (s : State) : Host.Outcome State Fault Refusal := hostOp .process (setMcast req) s

end Sys2Proof.Machine
end

