-- ==== Sys2Proof/Machine/Tick.lean ====
section
/-! DEFINITION. The tick of the link negotiation machine (R230 to R241). -/

namespace Sys2Proof.Machine

/-- `Emit(Log(k)); LINK_FORCE 0`: the fall through to forced mode (R231, R232). -/
def fallToForced (k : LogKind) : M Unit := do
  emit (.log k)
  linkForce 0

/-- Whether the mode is found and its commit succeeds (R231). -/
def commitResolved : Option Mode → M Bool
  | none => pure false
  | some m => linkCommit m

/-- Arbitration-wait (R231, R232). -/
def tickArbitration : M Unit := do
  let s ← getState
  let v ← mgmtRead s.params.mgmt.status
  if anComplete s.params.mgmt v then do
    let pv ← mgmtRead s.params.mgmt.partner
    let done ← commitResolved (resolveMode s.params pv)
    if done then update (enterWait .linkUpWait) else fallToForced .anCommitFailed
  else if s.params.arbTicks ≤ s.link.tick then fallToForced .anTimeout
  else armTimer

/-- Link-up-wait (R233, R234). -/
def tickLinkUp : M Unit := do
  let s ← getState
  let v ← mgmtRead s.params.mgmt.status
  if linkOk s.params.mgmt v then do
    updateLink fun l => { l with up := true }
    emit (.linkUp s.link.committed)
    updateLink fun l => { l with state := .asleep }
  else if s.params.lupDiagTicks ≤ s.link.tick then do
    emit (.log .linkStillDown)
    updateLink fun l => { l with tick := 0 }
    armTimer
  else armTimer

/-- The transceiver disable bit is set or cleared (R235, R236). -/
def toggleTransceiver (disable : Bool) : M Unit := do
  let s ← getState
  let v ← mgmtRead s.params.mgmt.tcvrConfig
  mgmtWrite s.params.mgmt.tcvrConfig (encTcvr s.params.mgmt v disable)
  armTimer

/-- Forced-try-wait once the link is seen up (R237). -/
def forcedUp : M Unit := do
  let s ← getState
  let done ← linkCommit (permMode s.link.perm)
  if done then pure () else emit (.log .forcedCommitFailed)
  updateLink fun l => { l with up := true }
  emit (.forcedLinkUp (permMode s.link.perm))
  updateLink fun l => { l with state := .asleep }

/-- Forced-try-wait with the link down (R238, R239). -/
def forcedDown : M Unit := do
  let s ← getState
  if s.params.ftwLimitTick ≤ s.link.tick then
    if s.link.perm = 3 then do
      emit (.log .cableProblem)
      resetAndReturn .timer
    else linkForce (s.link.perm + 1)
  else armTimer

/-- Forced-try-wait (R235 to R239). -/
def tickForced : M Unit := do
  let s ← getState
  if s.link.tick = s.params.ftwSettleOffTick then toggleTransceiver true
  else if s.link.tick = s.params.ftwSettleOnTick then toggleTransceiver false
  else do
    let v ← mgmtRead s.params.mgmt.status
    if linkOk s.params.mgmt v then forcedUp else forcedDown

/-- `st.link.tick <- st.link.tick + 1` (R230). -/
def countTick : M Unit := updateLink fun l => { l with tick := l.tick + 1 }

/-- `LINK_TICK` (R230). -/
def linkTick : M Unit := do
  let s ← getState
  match s.adapter with
  | .closed => pure ()
  | .notReady => do
    resetAndReturn .timer
  | .running =>
    match s.link.state with
    | .idle => pure ()
    | .asleep => pure ()
    | .arbitrationWait => do countTick; tickArbitration
    | .linkUpWait => do countTick; tickLinkUp
    | .forcedTryWait => do countTick; tickForced

/-- One firing of the negotiation timer (R230, R287): `timer_armed <- false; LINK_TICK`. -/
def timerFiring : M OpOutcome := do
  cancelTimer
  linkTick
  pure .ok

/-- `LINK_TICK` (R230), in timer context (R314); its outcome is `Ok` (R300). The command is one firing of the timer, which has
cleared `timer_armed` (log entry 24). -/
def execLinkTick (s : State) : Host.Outcome State Fault Refusal := hostOp .timer timerFiring s

end Sys2Proof.Machine
end

