-- ==== Sys2Proof/Machine/Agents.lean ====
section
/-! DEFINITION. The agent steps as commands of their own (R280 to R291). -/

namespace Sys2Proof.Machine

/-- `ENV_VISIBLE a` (R280). -/
def execEnvVisible (a : Nat) (s : State) : Host.Outcome State Fault Refusal := agentOp (.envVisible a) s

/-- `DEV_TX_DONE slot` (R281). -/
def execDevTxDone (slot : Nat) (s : State) : Host.Outcome State Fault Refusal := agentOp (.devTxDone slot) s

/-- `DEV_RX_DONE slot, len, ov, csum` (R282). -/
def execDevRxDone (slot len : Nat) (ov : Bool) (csum : Nat) (s : State) : Host.Outcome State Fault Refusal :=
  agentOp (.devRxDone slot len ov csum) s

/-- `DEV_STATUS bits` (R284). -/
def execDevStatus (bits : Word32) (s : State) : Host.Outcome State Fault Refusal := agentOp (.devStatus bits) s

/-- `MAC_DRAINED` (R290). -/
def execMacDrained (s : State) : Host.Outcome State Fault Refusal := agentOp .macDrained s

/-- An agent step that runs a host operation (R287, R291): refused once a fault is recorded and when it is not enabled. -/
def agentEntry (enabled : Bool) (ctx : Context) (body : M OpOutcome) (s : State) : Host.Outcome State Fault Refusal :=
  running s (fun _ => .refused .agentAfterFault) (if enabled then hostOp ctx body s else .refused .agentNotEnabled)

/-- `TIMER_FIRE` (R287): `timer_armed <- false; LINK_TICK`, under the lock. -/
def execTimerFire (s : State) : Host.Outcome State Fault Refusal :=
  agentEntry s.timerArmed .timer timerFiring s

/-- `WATCHDOG_FIRE` (R291): runs `TX_TIMEOUT`. -/
def execWatchdogFire (s : State) : Host.Outcome State Fault Refusal :=
  agentEntry (s.adapter != .closed) .process txTimeout s

end Sys2Proof.Machine
end

