-- ==== Sys2Proof/Machine/Completion.lean ====
section
/-! DEFINITION. The completion/interrupt handler (R210 to R218). -/

namespace Sys2Proof.Machine

/-- `IRQ` (R210 to R217). -/
def irqHandler : M OpOutcome := do
  let v ← mmioReadStatus
  let s ← getState
  if v = 0 then pure .notMine
  else if s.adapter ≠ .running then pure .handled
  else if isFatal s.params.status v then do
    emit (.log .fatalError)
    resetAndReturn .interrupt
    pure .handled
  else do
    if isTxDone s.params.status v then txReclaim else pure ()
    if isRxDone s.params.status v then rxReclaim else pure ()
    pure .handled

/-- `IRQ` (R210), in interrupt context (R314). It never runs while interrupt delivery is not acquired (R286). -/
def execIrq (s : State) : Host.Outcome State Fault Refusal :=
  running s .fault (if s.irqAcquired then hostOp .interrupt irqHandler s else .refused .irqNotAcquired)

end Sys2Proof.Machine
end

