-- ==== Sys2Proof/Machine/Dispatch.lean ====
section
/-! DEFINITION. One arm for each operation of the opcode map (R120). -/

namespace Sys2Proof.Machine

def exec (i : Instr) (s : State) : Host.Outcome State Fault Refusal :=
  match i with
  | .ringAlloc r n => Sys2Proof.Machine.execRingAlloc r n s
  | .ringNextFree => Sys2Proof.Machine.execRingNextFree s
  | .ringPublish r slot a f => Sys2Proof.Machine.execRingPublish r slot a f s
  | .ringTryReclaim r slot => Sys2Proof.Machine.execRingTryReclaim r slot s
  | .ringReset r => Sys2Proof.Machine.execRingReset r s
  | .transmit pkt => Sys2Proof.Machine.execTransmit pkt s
  | .txReclaim => Sys2Proof.Machine.execTxReclaim s
  | .rxReclaim => Sys2Proof.Machine.execRxReclaim s
  | .rxPost slot h => Sys2Proof.Machine.execRxPost slot h s
  | .rxRecycle slot => Sys2Proof.Machine.execRxRecycle slot s
  | .irq => Sys2Proof.Machine.execIrq s
  | .linkBegin => Sys2Proof.Machine.execLinkBegin s
  | .linkTick => Sys2Proof.Machine.execLinkTick s
  | .linkCommit m => Sys2Proof.Machine.execLinkCommit m s
  | .linkForce p => Sys2Proof.Machine.execLinkForce p s
  | .reconfigureLink an sp dx => Sys2Proof.Machine.execReconfigureLink an sp dx s
  | .openAdapter => Sys2Proof.Machine.execOpen s
  | .closeAdapter => Sys2Proof.Machine.execClose s
  | .txTimeout => Sys2Proof.Machine.execTxTimeout s
  | .setMcast req => Sys2Proof.Machine.execSetMcast req s
  | .resetInit ctx => Sys2Proof.Machine.execResetInit ctx s
  | .envVisible a => Sys2Proof.Machine.execEnvVisible a s
  | .devTxDone slot => Sys2Proof.Machine.execDevTxDone slot s
  | .devRxDone slot len ov csum => Sys2Proof.Machine.execDevRxDone slot len ov csum s
  | .devStatus bits => Sys2Proof.Machine.execDevStatus bits s
  | .macDrained => Sys2Proof.Machine.execMacDrained s
  | .timerFire => Sys2Proof.Machine.execTimerFire s
  | .watchdogFire => Sys2Proof.Machine.execWatchdogFire s

end Sys2Proof.Machine
end

