-- ==== Sys2Proof/Machine/Fetch.lean ====
section
/-! DEFINITION. How the next command is taken: its record is decoded, and its invoker must be one that may take it
(R120, R123, R124). -/

namespace Sys2Proof.Machine

/-- The invoker entitled to an operation of a class (R120). -/
def rightfulInvoker : OpClass → Invoker
  | .inbound => .caller
  | .internal => .block
  | .agent => .agent

/-- Why an invoker may not take an operation, if it may not: R123 for an internal operation invoked from outside the block,
R124 otherwise. -/
def invokerProblem (who : Invoker) (i : Instr) : Option Refusal :=
  if who = rightfulInvoker i.opClass then none
  else if i.opClass = .internal then some .internalCodeFromCaller
  else some .wrongInvoker

/-- The refusal that bytes which decode to nothing meet (R123). -/
def decodeRefusal : DecodeError → Refusal
  | .unknownCode _ => .unknownCode

/-- The instruction a command stands for, once its invoker is found entitled to it. -/
def commandInstr (c : Command) : Except Refusal Instr :=
  match decode c.bytes with
  | .error e => .error (decodeRefusal e)
  | .ok (i, _) =>
    match invokerProblem c.invoker i with
    | some r => .error r
    | none => .ok i

/-- The command whose record is a table word, put by the invoker entitled to it. -/
def tableCommand (nbits w : Nat) : Command where
  invoker :=
    match decodeTableWord nbits w with
    | some i => rightfulInvoker i.opClass
    | none => .caller
  bytes := tableBytes nbits w

/-- A command put in front of those that wait. -/
def putFirst (c : Command) (s : State) : State := { s with queue := c :: s.queue }

/-- The state once the first waiting command is taken. -/
def dropFirst (s : State) : State := { s with queue := s.queue.tail }

end Sys2Proof.Machine
end

