-- ==== Sys2Proof/Machine/Step.lean ====
section
/-! DEFINITION. One step of the machine: the first waiting command is taken. -/

namespace Sys2Proof.Machine

/-- What a step answers, once the parameters are found to pass the construction checks: a parameter set that fails them
is refused, not run (R12, R99). -/
def admitted (s : State) (o : Host.Outcome State Fault Refusal) : Host.Outcome State Fault Refusal :=
  if paramsValid s.params then o else .refused .badParameters

/-- With no command waiting the block is idle and nothing changes (R320), unless a fault is recorded, after which there are no
further steps (R49), or there is no block (R345). -/
def idle (s : State) : Host.Outcome State Fault Refusal := running s .fault (.next s)

/-- A command is taken: the operation its record stands for runs (R120), or the record is refused (R123, R124). -/
def take (c : Command) (s : State) : Host.Outcome State Fault Refusal :=
  match commandInstr c with
  | .error r => .refused r
  | .ok i => exec i s

/-- One step: the first waiting command is taken. -/
def step (s : State) : Host.Outcome State Fault Refusal :=
  match s.queue with
  | [] => admitted s (idle s)
  | c :: _ => admitted s (take c (dropFirst s))

/-- The state with a table word as its next command (log entry 6). -/
def State.withFetchWord (s : State) (nbits w : Nat) : State := putFirst (tableCommand nbits w) s

end Sys2Proof.Machine
end

