-- ==== Sys2Proof/Safety.lean ====
section
/-! DEFINITION. What counts as a safe state, in the terms the statements use: the invariants R55 and its neighbours ask for,
what the environment can change while an operation runs, and what it means that an operation completes. -/

namespace Sys2Proof.Machine

/-! ### Running -/

/-- There is a block and no fault is recorded: a safe run never leaves these states (R49, R301, R345). -/
def Alive (s : State) : Prop := s.fault = none ∧ s.absent = false

/-- A host operation may start: the block is alive and the lock is free (R82, R310). -/
def Ready (s : State) : Prop := Alive s ∧ s.lock = none

/-! ### The host's side of the state -/

/-- An event as far as the host causes it: visibility events are the environment's, and so is the value a register read gives. -/
def hostEvent : Event → Option Event
  | .devSees _ _ => none
  | .mmioR reg _ => some (.mmioR reg 0)
  | e => some e

/-- The events of the trace that the host causes, in order. -/
def hostTrace (s : State) : List Event := s.trace.filterMap hostEvent

/-- The state without what agent steps write (R280 to R290): descriptor memory, pending writes, payloads (and what the host sees of
them), the draws of the receive engine, pending status bits and the MAC's drain; and without the schedule that says when they act. -/
def hostSide (s : State) : State :=
  { s with
    mem := []
    wb := []
    bufMem := []
    dmaMem := []
    sched := []
    trace := hostTrace s
    draws := { s.draws with payload := [], rxReserved := [] }
    payloadCount := 0
    dev := { s.dev with status := 0, macEnableSeen := false } }

/-- The operation answers a next state; however agent steps fall between its micro-steps, the host's side of that state is
that of `u`; and when none falls there, the state is `u`. -/
def Completes (i : Instr) (s u : State) : Prop :=
  ∃ t, exec i s = .next t ∧ hostSide t = hostSide u ∧ (s.sched = [] → t = u)

/-! ### Canonical form -/

/-- Every table of the state is in its one canonical form. -/
def Canonical (s : State) : Prop :=
  memWf s.mem = true ∧ mapWf s.tx.shadow = true ∧ mapWf s.rx.shadow = true ∧ mapWf s.liveBuffers = true ∧
    mapWf s.liveMaps = true ∧ mapWf s.pkts = true ∧ mapWf s.bufMem = true ∧ mapWf s.dmaMem = true ∧
    mapWf s.syncWindows = true

/-! ### Rings -/

/-- Every cursor is a slot of its ring (R24, R25, R28). -/
def CursorsInRange (s : State) : Prop :=
  s.tx.head < s.params.nTx ∧ s.tx.tail < s.params.nTx ∧ s.rx.cursor < s.params.nRx

/-- A ring that has memory lies where R51, R61 and R293 allow: aligned to its own size and inside the address space. -/
def BaseAllowed (p : Params) (r : Ring) (base : Nat) : Prop :=
  base % (descBytes * capacity p r) = 0 ∧ base + descBytes * capacity p r ≤ 2 ^ p.desc.addrBits

/-- The memory of the two rings does not meet. -/
def BasesApart (p : Params) (tx rx : Nat) : Prop :=
  tx + descBytes * capacity p .tx ≤ rx ∨ rx + descBytes * capacity p .rx ≤ tx

/-- The rings' memory is laid out as R51, R61 and R293 require. -/
def LaidOut (s : State) : Prop :=
  (∀ b, s.tx.base = some b → BaseAllowed s.params .tx b) ∧
    (∀ b, s.rx.base = some b → BaseAllowed s.params .rx b) ∧
    ∀ b b', s.tx.base = some b → s.rx.base = some b' → BasesApart s.params b b'

/-- The pending writes are in program order: epochs never fall, none is beyond the epoch in force, and every address is that of
a word (R45, R73). -/
def WritesOrdered (s : State) : Prop :=
  s.wb.Pairwise (fun e e' => e.epoch ≤ e'.epoch) ∧ ∀ e ∈ s.wb, e.epoch ≤ s.epoch ∧ e.addr % 4 = 0

/-- The handles of the shadow entries of both rings. -/
def shadowHandles (s : State) : List Nat := s.tx.shadow.map (·.2.handle) ++ s.rx.shadow.map (·.2.handle)

/-- R55, items 1, 2, 4 and 5, with R47: the transmit shadow lists exactly the outstanding slots, the receive shadow only slots of
its ring and all of them while the adapter is running, each live handle stands in exactly one shadow entry, and a packet is
held only while its last fragment is in flight. -/
def ShadowsConsistent (s : State) : Prop :=
  CursorsInRange s ∧
    (∀ i, mapHas s.tx.shadow i = true ↔ i < s.params.nTx ∧ outstanding s i = true) ∧
    (∀ i, mapHas s.rx.shadow i = true → i < s.params.nRx) ∧
    (s.adapter = .running → ∀ i, i < s.params.nRx → mapHas s.rx.shadow i = true) ∧
    (shadowHandles s).Nodup ∧ (∀ h, h ∈ shadowHandles s ↔ mapHas s.liveMaps h = true) ∧
    ∀ k, mapHas s.pkts k = true → ∃ slot e, mapGet s.tx.shadow slot = some e ∧ e.eop = true ∧ e.pkt = k

/-- R55, item 3: every transmit slot outside `[tail, head)` is the host's, in memory and in the host's view. -/
def FreeSlotsHostOwned (s : State) : Prop :=
  ∀ base i, s.tx.base = some base → i < s.params.nTx → outstanding s i = false →
    deviceOwns s base i = false ∧ hostSeesOwned s base i = false

/-- What keeps it so when writes become visible: no write to the FLAGS word of an outstanding slot is pending (the kick of R160 made
it visible), and one to that of any other slot clears `OWN` (R134). -/
def TxWritesSettled (s : State) : Prop :=
  ∀ base i, s.tx.base = some base → i < s.params.nTx →
    ∀ w ∈ s.wb, w.addr = descWordAddr s.params.desc base i .flags →
      outstanding s i = false ∧ owned s.params.desc w.val = false

/-- The buffer stands in a receive slot (R29). -/
def RingBuffer (s : State) (b : Nat) : Prop := ∃ i e, mapGet s.rx.shadow i = some e ∧ e.buf = b

/-- The block holds exactly the receive buffers, each in one slot (R46, R346). -/
def BuffersHeld (s : State) : Prop :=
  (s.rx.shadow.map (·.2.buf)).Nodup ∧ ∀ b, mapHas s.liveBuffers b = true ↔ RingBuffer s b

/-- What the ring operations of an opened adapter rest on: both rings have memory, laid out as they must be, the tables are
canonical and the shadows consistent. -/
def RingsReady (s : State) : Prop :=
  paramsValid s.params = true ∧ s.tx.base.isSome = true ∧ s.rx.base.isSome = true ∧ LaidOut s ∧ WritesOrdered s ∧
    Canonical s ∧ ShadowsConsistent s

/-- The word at `a` is not in the memory of the ring of `n` descriptors at `base`. -/
def OutsideRing (base n a : Nat) : Prop := a + 4 ≤ base ∨ base + descBytes * n ≤ a

/-- The word at `a` is in neither ring's memory. -/
def OutsideRings (s : State) (a : Nat) : Prop :=
  (∀ b, s.tx.base = some b → OutsideRing b s.params.nTx a) ∧ ∀ b, s.rx.base = some b → OutsideRing b s.params.nRx a

/-! ### Buffer payload (R78) -/

/-- The host's view of buffer memory once these mappings are released, in this order (R77). -/
def shownOnRelease (s : State) (handles : List Nat) : Table (List Byte) :=
  handles.foldl (fun buf h => match mapGet s.liveMaps h with
    | none => buf
    | some m => showAll s.dmaMem m.buf buf) s.bufMem

/-- What the host may read of mapped buffers once these mappings are released. -/
def windowsOnRelease (s : State) (handles : List Nat) : Table Nat :=
  handles.foldl (fun w h => match mapGet s.liveMaps h with
    | none => w
    | some m => mapErase w m.da) s.syncWindows

/-! ### Transmit -/

/-- A packet R151 finds nothing wrong with. -/
def PacketValid (p : Params) (pkt : Packet) : Prop :=
  1 ≤ pkt.frags.length ∧ pkt.frags.length ≤ p.kMax ∧
    (∀ f ∈ pkt.frags, 1 ≤ f.len ∧ f.len ≤ 2 ^ p.desc.txSize.w - 1) ∧
    ∀ start stuff, pkt.cs = .offsets start stuff →
      start ≤ 2 ^ p.desc.csStart.w - 1 ∧ stuff ≤ 2 ^ p.desc.csStuff.w - 1

/-- Answers `DmaMap` may give from this state on (R77, R293): fresh handles, and device addresses that are 4-aligned and below
`2^ADDR_BITS`. -/
def MappingsAllowed (s : State) (maps : List (Nat × Nat)) : Prop :=
  (maps.map (·.1)).Nodup ∧
    ∀ d ∈ maps, mapHas s.liveMaps d.1 = false ∧ d.2 < 2 ^ s.params.desc.addrBits ∧ d.2 % 4 = 0

/-- The FLAGS word of fragment `j` (from 0) of a packet (R156, R157): `SOP` and the checksum request on the first fragment only,
`EOP` on the last only. -/
def fragmentFlags (p : Params) (pkt : Packet) (j : Nat) : Word32 :=
  encTx p.desc (j == 0) (j + 1 == pkt.frags.length) (if j = 0 then pkt.cs else .none)
    (pkt.frags.getD j ⟨0, 0⟩).len

/-- The slot of fragment `j` (from 0) of the next packet. -/
def fragmentSlot (s : State) (j : Nat) : Nat := (s.tx.head + j) % s.params.nTx

/-- The events of publishing fragment `j` (from 0) mapped at `maps` (R132, R156, R157). -/
def fragmentEvents (s : State) (base : Nat) (pkt : Packet) (maps : List (Nat × Nat)) (j : Nat) : List Event :=
  [.descW (base + 8 * fragmentSlot s j + s.params.desc.addrOffset) (BitVec.ofNat 32 (maps.getD j (0, 0)).2), .barrier,
    .descW (base + 8 * fragmentSlot s j + s.params.desc.flagsOffset) (fragmentFlags s.params pkt j)]

/-- The shadow entry of fragment `j` (from 0) of the next packet (R156, R157). -/
def fragmentEntry (s : State) (pkt : Packet) (maps : List (Nat × Nat)) (j : Nat) : TxEntry where
  pkt := s.nextPkt
  frag := j + 1
  handle := (maps.getD j (0, 0)).1
  len := (pkt.frags.getD j ⟨0, 0⟩).len
  eop := j + 1 == pkt.frags.length
  pktLen := (pkt.frags.map (·.len)).sum

/-- The slots a transmit reclaim takes from this state (R161): the entries of the slots from `tail` on that the host sees as its own, up
to `head` or to the first slot it sees as the device's. -/
def Reclaimable (s : State) (base : Nat) (entries : List TxEntry) : Prop :=
  entries.length ≤ (s.tx.head + s.params.nTx - s.tx.tail) % s.params.nTx ∧
    (∀ j e, entries[j]? = some e → hostSeesOwned s base ((s.tx.tail + j) % s.params.nTx) = false ∧
      mapGet s.tx.shadow ((s.tx.tail + j) % s.params.nTx) = some e) ∧
    (entries.length = (s.tx.head + s.params.nTx - s.tx.tail) % s.params.nTx ∨
      hostSeesOwned s base ((s.tx.tail + entries.length) % s.params.nTx) = true)

/-- The slots from `tail` on, as many as there are entries. -/
def reclaimedSlots (s : State) (entries : List TxEntry) : List Nat :=
  (List.range entries.length).map fun j => (s.tx.tail + j) % s.params.nTx

/-- The state after those entries are reclaimed, before the queue is woken (R161). -/
def reclaimed (s : State) (entries : List TxEntry) : State :=
  { s with
    tx := { s.tx with
      tail := (s.tx.tail + entries.length) % s.params.nTx
      shadow := (reclaimedSlots s entries).foldl mapErase s.tx.shadow }
    liveMaps := (entries.map (·.handle)).foldl mapErase s.liveMaps
    bufMem := shownOnRelease s (entries.map (·.handle))
    syncWindows := windowsOnRelease s (entries.map (·.handle))
    pkts := ((entries.filter (·.eop)).map (·.pkt)).foldl mapErase s.pkts
    counters := { s.counters with
      txPackets := s.counters.txPackets + BitVec.ofNat 64 (entries.filter (·.eop)).length
      txBytes := s.counters.txBytes + BitVec.ofNat 64 ((entries.filter (·.eop)).map (·.pktLen)).sum }
    trace := s.trace ++ entries.flatMap fun e =>
      .unmap e.handle :: if e.eop then [.txComplete e.pkt] else [] }

/-- The queue wake at the end of a reclaim (R162). -/
def woken (s : State) : State :=
  if s.tx.stopped = true ∧ s.adapter = .running ∧ s.params.txLowWater ≤ freeSlots s then
    { s with tx := { s.tx with stopped := false }, trace := s.trace ++ [.queueWake] }
  else s

/-! ### Receive -/

/-- The host sees the receive slot at the cursor completed with this length, overflow flag and checksum, and the slot after it still
the device's, so that a walk visits exactly this slot (R182). The slot is posted with `e`, whose mapping is live at `da`. -/
def OneCompleted (s : State) (base len : Nat) (ov : Bool) (csum : Nat) (e : RxEntry) (da : Nat) : Prop :=
  paramsValid s.params = true ∧ LaidOut s ∧ WritesOrdered s ∧ s.rx.base = some base ∧ s.rx.cursor < s.params.nRx ∧
    mapGet s.rx.shadow s.rx.cursor = some e ∧ mapGet s.liveMaps e.handle = some ⟨e.buf, da⟩ ∧
    hostSeesOwned s base s.rx.cursor = false ∧
    hostSeesOwned s base ((s.rx.cursor + 1) % s.params.nRx) = true ∧
    getField s.params.desc.rxSize (hostView s (descWordAddr s.params.desc base s.rx.cursor .flags)) = len ∧
    getBit s.params.desc.overflow (hostView s (descWordAddr s.params.desc base s.rx.cursor .flags)) = ov ∧
    getField s.params.desc.rxCsum (hostView s (descWordAddr s.params.desc base s.rx.cursor .flags)) = csum

/-- The receive slot at the cursor given to the device at address `da`, and the cursor moved on (R180, R188). -/
def republished (s : State) (base da : Nat) : State :=
  { s with
    rx := { s.rx with cursor := (s.rx.cursor + 1) % s.params.nRx }
    wb := s.wb ++
      [⟨base + 8 * s.rx.cursor + s.params.desc.addrOffset, BitVec.ofNat 32 da, s.epoch⟩,
        ⟨base + 8 * s.rx.cursor + s.params.desc.flagsOffset, encRxPost s.params, s.epoch + 1⟩]
    epoch := s.epoch + 1
    syncWindows := mapErase s.syncWindows (BitVec.ofNat 32 da).toNat
    trace := s.trace ++
      [.descW (base + 8 * s.rx.cursor + s.params.desc.addrOffset) (BitVec.ofNat 32 da), .barrier,
        .descW (base + 8 * s.rx.cursor + s.params.desc.flagsOffset) (encRxPost s.params)] }

/-! ### Link -/

/-- The tick literals the source gives (R10). -/
def SourceTicks (p : Params) : Prop :=
  p.arbTicks = 10 ∧ p.lupDiagTicks = 10 ∧ p.ftwSettleOffTick = 1 ∧ p.ftwSettleOnTick = 2 ∧ p.ftwLimitTick = 4

/-- The tick counter between operations (R31, R245): never above 10, and in a waiting state below the tick that ends it. -/
def TickBounded (s : State) : Prop :=
  s.link.tick ≤ 10 ∧
    match s.link.state with
    | .arbitrationWait => s.link.tick < 10
    | .linkUpWait => s.link.tick < 10
    | .forcedTryWait => s.link.tick < 4
    | .idle => True
    | .asleep => True

/-- The link state is one in which the machine polls (R220). -/
def waiting : LinkFsm → Bool
  | .arbitrationWait => true
  | .linkUpWait => true
  | .forcedTryWait => true
  | .idle => false
  | .asleep => false

/-- What a link operation leaves alone: everything but the link state, the timer, the MAC's transmit configuration, the trace and the
bookkeeping; and, with no agent step in between, no word of descriptor memory as the host sees it changes. -/
def LinkFrame (s t : State) : Prop :=
  t.params = s.params ∧ t.adapter = s.adapter ∧ t.irqAcquired = s.irqAcquired ∧ t.tx = s.tx ∧ t.rx = s.rx ∧
    t.counters = s.counters ∧ t.dev.intArmed = s.dev.intArmed ∧ t.dev.txDmaOn = s.dev.txDmaOn ∧
    t.dev.rxDmaOn = s.dev.rxDmaOn ∧ t.liveBuffers = s.liveBuffers ∧ t.liveMaps = s.liveMaps ∧ t.pkts = s.pkts ∧
    t.nextPkt = s.nextPkt ∧
    t.bufMem = s.bufMem ∧ t.syncWindows = s.syncWindows ∧
    (s.sched = [] → (∀ w ∈ s.wb, w.addr % 4 = 0) → ∀ a, a % 4 = 0 → hostView t a = hostView s a)

/-- A forced mode was committed to the MAC and then reported (R226, R237): the mode is latched, the MAC enabled with its duplex, and
the last thing the host did before the report was to enable the MAC. -/
def ForcedCommitted (s t : State) : Prop :=
  t.link = { s.link with
      tick := s.link.tick + 1, up := true, state := .asleep, committed := some (permMode s.link.perm) } ∧
    getBit s.params.mac.txEnable t.dev.macTxcfg = true ∧
    getBit s.params.mac.fullDuplex t.dev.macTxcfg = decide ((permMode s.link.perm).duplex = .full) ∧
    ∃ l, hostTrace t = l ++ [.mmioW .macTxcfg (.word t.dev.macTxcfg), .forcedLinkUp (permMode s.link.perm)]

/-- The commit of a forced mode failed, which is logged before the report (R226, R237); the latched mode is as before. -/
def ForcedCommitFailed (s t : State) : Prop :=
  t.link = { s.link with tick := s.link.tick + 1, up := true, state := .asleep } ∧
    getBit s.params.mac.txEnable t.dev.macTxcfg = false ∧
    ∃ l, hostTrace t = l ++ [.log .forcedCommitFailed, .forcedLinkUp (permMode s.link.perm)]

/-- R55, item 6: when the timer is armed. -/
def TimerConsistent (s : State) : Prop :=
  match s.adapter with
  | .running => s.timerArmed = waiting s.link.state
  | .notReady => s.link.state = .idle ∧ s.timerArmed = true
  | .closed => s.timerArmed = false

/-! ### Reset and close (R346) -/

/-- Every descriptor word of the transmit ring is neutral in the host's view (R104). -/
def TxNeutral (t : State) : Prop :=
  ∀ base i w, t.tx.base = some base → i < t.params.nTx → hostView t (descWordAddr t.params.desc base i w) = 0

/-- Every descriptor word of the receive ring is neutral in the host's view (R104). -/
def RxNeutral (t : State) : Prop :=
  ∀ base i w, t.rx.base = some base → i < t.params.nRx → hostView t (descWordAddr t.params.desc base i w) = 0

/-- Every receive slot is posted with a live mapping (R338). -/
def RxPosted (t : State) : Prop :=
  ∀ i, i < t.params.nRx → ∃ e m, mapGet t.rx.shadow i = some e ∧ mapGet t.liveMaps e.handle = some m ∧ m.buf = e.buf

/-- Every receive slot shows the posted FLAGS word in the host's view (R338). -/
def RxGiven (t : State) : Prop :=
  ∀ base i, t.rx.base = some base → i < t.params.nRx →
    hostView t (descWordAddr t.params.desc base i .flags) = encRxPost t.params

/-- What a reset or a close keeps of the state it began in: the parameters, the rings' memory, the counters, the link request and
the mode last committed (R346), and every word outside the rings. -/
def ResetKeeps (s t : State) : Prop :=
  t.params = s.params ∧ t.tx.base = s.tx.base ∧ t.rx.base = s.rx.base ∧ t.counters = s.counters ∧
    t.link.autoneg = s.link.autoneg ∧ t.link.speedReq = s.link.speedReq ∧ t.link.duplexReq = s.link.duplexReq ∧
    t.link.committed = s.link.committed ∧ t.link.up = false ∧ t.nextPkt = s.nextPkt ∧
    ∀ a, a % 4 = 0 → OutsideRings s a → hostView t a = hostView s a

/-- Both rings start over: cursors 0, no transmit slot in flight, no packet held, and each live handle in one shadow entry (R346). -/
def RingsRestarted (t : State) : Prop :=
  t.tx.head = 0 ∧ t.tx.tail = 0 ∧ t.tx.shadow = [] ∧ t.rx.cursor = 0 ∧ t.pkts = [] ∧ TxNeutral t ∧
    (shadowHandles t).Nodup ∧ ∀ h, h ∈ shadowHandles t ↔ mapHas t.liveMaps h = true

/-- The column "`RESET_INIT` ok" of R346, for a reset that began in `s` and ended in `t`. -/
def ResetSucceeded (s t : State) : Prop :=
  ResetKeeps s t ∧ RingsRestarted t ∧ RxPosted t ∧ (s.sched = [] → RxGiven t) ∧ t.adapter = .running ∧
    t.irqAcquired = s.irqAcquired ∧ t.tx.stopped = false ∧ t.link.tick = 0 ∧ t.timerArmed = true ∧
    ((s.link.autoneg = true ∧ t.link.state = .arbitrationWait ∧ t.link.perm = s.link.perm) ∨
      (s.link.autoneg = true ∧ t.link.state = .forcedTryWait ∧ t.link.perm = 0) ∨
      (s.link.autoneg = false ∧ t.link.state = .forcedTryWait ∧
        permMode t.link.perm = ⟨s.link.speedReq, s.link.duplexReq⟩)) ∧
    t.dev.intArmed = true ∧ t.dev.txDmaOn = true ∧ t.dev.rxDmaOn = true ∧
    (∀ b, t.dev.macTxcfg.getLsbD b =
      if b = s.params.mac.txEnable then true else if b = s.params.mac.fullDuplex then false
      else s.dev.macTxcfg.getLsbD b) ∧
    t.dev.macEnableSeen = true ∧ t.wb = [] ∧
    ∀ b, mapHas t.liveBuffers b = true ↔ mapHas s.liveBuffers b = true ∧ ¬RingBuffer s b ∨ RingBuffer t b

/-- The column "`RESET_INIT` failed" of R346, for a reset that began in `s` and ended in `t`; `refilled` says whether the failure is
the probe's, with the receive ring posted, or the refill's, with it neutral. -/
def ResetFailed (refilled : Bool) (s t : State) : Prop :=
  ResetKeeps s t ∧ RingsRestarted t ∧ t.adapter = .notReady ∧ t.irqAcquired = s.irqAcquired ∧ t.tx.stopped = true ∧
    t.link.state = .idle ∧ t.link.tick = s.link.tick ∧ t.link.perm = s.link.perm ∧ t.timerArmed = true ∧
    t.dev.intArmed = false ∧ t.dev.txDmaOn = false ∧ t.dev.rxDmaOn = false ∧ t.dev.macTxcfg = s.dev.macTxcfg ∧
    (∀ b, mapHas t.liveBuffers b = true ↔ mapHas s.liveBuffers b = true ∧ ¬RingBuffer s b ∨ RingBuffer t b) ∧
    if refilled then RxPosted t ∧ RxGiven t else t.rx.shadow = [] ∧ t.liveMaps = [] ∧ RxNeutral t

/-- Buffers and mappings that a refill beginning in `s` may be granted (R77, R79, R293): fresh ones, the receive ring's own buffers having
been freed, and device addresses that are 4-aligned and below `2^ADDR_BITS`. -/
def RefillGranted (s : State) (bufs : List Nat) (maps : List (Nat × Nat)) : Prop :=
  bufs.Nodup ∧ (∀ b ∈ bufs, mapHas s.liveBuffers b = true → RingBuffer s b) ∧ (maps.map (·.1)).Nodup ∧
    ∀ d ∈ maps, d.2 < 2 ^ s.params.desc.addrBits ∧ d.2 % 4 = 0

/-- The supplied draws decide that a Device Reset/Init beginning in `s` ends with this outcome (R334 to R337): every allocation and mapping
of the refill is granted and the transceiver known; the same with the transceiver unknown; or the refill meets an allocation or a
mapping that fails. -/
def DrawsDecide (s : State) (o : OpOutcome) : Prop :=
  ∃ (bufs : List Nat) (maps : List (Nat × Nat)) (as : List (Option Nat)) (ms : List (Option (Nat × Nat))),
    s.draws.alloc = bufs.map some ++ as ∧ s.draws.dmaMap = maps.map some ++ ms ∧ RefillGranted s bufs maps ∧
      (bufs.length = s.params.nRx ∧ maps.length = s.params.nRx ∧
          (o = .ok ∧ s.draws.tcvrKnown.head? = some true ∨
            o = .linkTypeUnknown ∧ s.draws.tcvrKnown.head? = some false) ∨
        o = .resourceExhausted ∧
          (bufs.length < s.params.nRx ∧ maps.length = bufs.length ∧ as.head? = some none ∨
            bufs.length ≤ s.params.nRx ∧ bufs.length = maps.length + 1 ∧ ms.head? = some none))

/-- A Device Reset/Init ended with this outcome, as the draws decide where enough of them are supplied. -/
def ResetEnded (o : OpOutcome) (s t : State) : Prop :=
  (o = .ok ∧ ResetSucceeded s t ∨ o = .resourceExhausted ∧ ResetFailed false s t ∨
      o = .linkTypeUnknown ∧ ResetFailed true s t) ∧
    ∀ o', DrawsDecide s o' → o = o'

/-- The column "`CLOSE`" of R346, for a teardown that began in `s` and ended in `t`. -/
def TornDown (s t : State) : Prop :=
  ResetKeeps s t ∧ RingsRestarted t ∧ t.adapter = .closed ∧ t.irqAcquired = false ∧ t.tx.stopped = true ∧
    t.rx.shadow = [] ∧ t.liveMaps = [] ∧ RxNeutral t ∧ t.link.state = .asleep ∧ t.link.tick = 0 ∧
    t.link.perm = s.link.perm ∧ t.timerArmed = false ∧ t.dev.intArmed = false ∧ t.dev.txDmaOn = false ∧
    t.dev.rxDmaOn = false ∧ t.dev.macTxcfg = s.dev.macTxcfg ∧
    ∀ b, mapHas t.liveBuffers b = true ↔ mapHas s.liveBuffers b = true ∧ ¬RingBuffer s b

/-! ### Configuration -/

/-- What no step changes: the parameters, and a ring's memory once it has some (R51). -/
def ConfigKept (s t : State) : Prop :=
  t.params = s.params ∧ (s.tx.base.isSome = true → t.tx.base = s.tx.base) ∧
    (s.rx.base.isSome = true → t.rx.base = s.rx.base)

/-- The bits of the MAC's transmit configuration other than `TX_ENABLE` and `FULL_DUPLEX` (R42, R115). -/
def OpaqueBitsKept (s t : State) : Prop :=
  ∀ b, b ≠ s.params.mac.txEnable → b ≠ s.params.mac.fullDuplex →
    t.dev.macTxcfg.getLsbD b = s.dev.macTxcfg.getLsbD b

end Sys2Proof.Machine
end

