-- ==== Sys2Proof/Certificates/Slice0/Obligations.lean ====
section
/-! DEFINITION. The statements for the provers: the rules of the spec over the model. -/

open Sys2Proof Sys2Proof.Machine

/-! ### Records and configuration -/

/-- Every well-formed instruction decodes from its own record, whatever follows the record, with every operand at every value the
record admits. The layout of the argument record is the model's choice (log entry 1); the codes are R120's. -/
def Obligations.DecodeEncodeRoundTrip : Prop :=
  ∀ (i : Instr) (rest : List Byte), i.wellFormed = true → decode (encode i ++ rest) = .ok (i, rest)

/-- Table words of several families decode to the instructions whose codes R120 gives. The operand words are zero; which operand
value a zero word stands for (10 and half, process, slot 0, no overflow) is the model's numbering (DESIGN CHOICE, log entry 1). -/
def Obligations.TableWordsDecode : Prop :=
  decodeTableWord 8 0x02 = some .ringNextFree ∧ decodeTableWord 8 0x11 = some .txReclaim ∧
    decodeTableWord 8 0x22 = some (.rxRecycle 0) ∧ decodeTableWord 8 0x30 = some .irq ∧
    decodeTableWord 8 0x42 = some (.linkCommit ⟨.s10, .half⟩) ∧ decodeTableWord 8 0x54 = some (.resetInit .process) ∧
    decodeTableWord 8 0x82 = some (.devRxDone 0 0 false 0) ∧ decodeTableWord 8 0x55 = none

/-- A record whose code is none of R120's is refused, whoever puts it, and so is an internal code put by a caller, whatever follows it
(R123). -/
def Obligations.CodesOutsideTheMapAreRefused : Prop :=
  (∀ (s : State) (who : Invoker) (code : Byte) (rest : List Byte) (q : List Command),
      paramsValid s.params = true → s.queue = ⟨who, code :: rest⟩ :: q →
      code ∉ [0x01#8, 0x02#8, 0x03#8, 0x04#8, 0x05#8, 0x10#8, 0x11#8, 0x20#8, 0x21#8, 0x22#8, 0x30#8, 0x40#8, 0x41#8,
        0x42#8, 0x43#8, 0x44#8, 0x50#8, 0x51#8, 0x52#8, 0x53#8, 0x54#8, 0x80#8, 0x81#8, 0x82#8, 0x83#8, 0x84#8,
        0x85#8, 0x86#8] → step s = .refused .unknownCode) ∧
    ∀ (s : State) (i : Instr) (rest : List Byte) (q : List Command), paramsValid s.params = true →
      i.opClass = .internal → s.queue = ⟨.caller, i.code :: rest⟩ :: q →
      step s = .refused .internalCodeFromCaller

/-- When the first waiting record is that of a well-formed instruction and its invoker may take it, a step is exec of that
instruction at the state without that record; nothing else is added around it. -/
def Obligations.StepRunsDecoded : Prop :=
  ∀ (s : State) (who : Invoker) (i : Instr) (rest : List Byte) (q : List Command), paramsValid s.params = true →
    i.wellFormed = true → who = rightfulInvoker i.opClass → s.queue = ⟨who, encode i ++ rest⟩ :: q →
    step s = exec i { s with queue := q }

/-- A parameter set that breaks one of the constraints of R12, or whose formats are not well-formed (R99), is refused by every step. -/
def Obligations.BadParametersAreRefused : Prop :=
  ∀ s : State, step s ≠ .refused .badParameters →
    (∃ k, s.params.nTx = 2 ^ k) ∧ 2 ≤ s.params.nTx ∧ (∃ k, s.params.nRx = 2 ^ k) ∧ 2 ≤ s.params.nRx ∧
      1 ≤ s.params.kMax ∧ s.params.rxMinFrame ≤ s.params.rxBufSize ∧
      s.params.rxBufSize ≤ 2 ^ s.params.desc.rxSize.w - 1 ∧
      s.params.status.fatalMask &&& s.params.status.txDoneMask = 0 ∧
      s.params.status.fatalMask &&& s.params.status.rxDoneMask = 0 ∧
      s.params.status.txDoneMask &&& s.params.status.rxDoneMask = 0 ∧
      1 ≤ s.params.anRestartPollBudget ∧ 1 ≤ s.params.macDrainPollBudget ∧ s.params.advertised ≠ [] ∧
      s.params.desc.addrBits ≤ 32 ∧
      (txFields s.params.desc).Pairwise (fun f g => f.w = 0 ∨ g.w = 0 ∨ f.lo + f.w ≤ g.lo ∨ g.lo + g.w ≤ f.lo) ∧
      (rxFields s.params.desc).Pairwise (fun f g => f.w = 0 ∨ g.w = 0 ∨ f.lo + f.w ≤ g.lo ∨ g.lo + g.w ≤ f.lo) ∧
      (∀ f ∈ txFields s.params.desc ++ rxFields s.params.desc, f.lo + f.w ≤ 32)

/-! ### Words -/

/-- The transmit FLAGS word (R100): every field reads back what was asked for, and every bit of no field is 0. -/
def Obligations.TransmitFlagsReadBack : Prop :=
  ∀ (d : DescProfile) (sop eop : Bool) (cs : CsRequest) (size : Nat), descValid d = true → size ≤ fieldMax d.txSize →
    (∀ start stuff, cs = .offsets start stuff → start ≤ fieldMax d.csStart ∧ stuff ≤ fieldMax d.csStuff) →
    owned d (encTx d sop eop cs size) = true ∧ getBit d.sop (encTx d sop eop cs size) = sop ∧
      getBit d.eop (encTx d sop eop cs size) = eop ∧ getField d.txSize (encTx d sop eop cs size) = size ∧
      (cs = .none → getBit d.csEn (encTx d sop eop cs size) = false ∧
        getField d.csStart (encTx d sop eop cs size) = 0 ∧ getField d.csStuff (encTx d sop eop cs size) = 0) ∧
      (∀ start stuff, cs = .offsets start stuff → getBit d.csEn (encTx d sop eop cs size) = true ∧
        getField d.csStart (encTx d sop eop cs size) = start ∧ getField d.csStuff (encTx d sop eop cs size) = stuff) ∧
      ∀ b, (∀ f ∈ txFields d, b < f.lo ∨ f.lo + f.w ≤ b) → (encTx d sop eop cs size).getLsbD b = false

/-- The receive FLAGS words: what the host posts shows OWN and the buffer's capacity and nothing else (R101); what the device writes on
completion shows the length, the overflow flag and the checksum with OWN clear (R282), and reads back so (R102), whatever value it gives
the bits that no field covers (R103, log entry 34), which are those drawn. -/
def Obligations.ReceiveFlagsReadBack : Prop :=
  ∀ p : Params, paramsValid p = true →
    (owned p.desc (encRxPost p) = true ∧ getField p.desc.rxSize (encRxPost p) = p.rxBufSize ∧
      ∀ b, b ≠ p.desc.own → b < p.desc.rxSize.lo ∨ p.desc.rxSize.lo + p.desc.rxSize.w ≤ b →
        (encRxPost p).getLsbD b = false) ∧
    ∀ (x : Word32) (len : Nat) (ov : Bool) (csum : Nat), len ≤ fieldMax p.desc.rxSize → csum ≤ fieldMax p.desc.rxCsum →
      owned p.desc (encRxDone p.desc x len ov csum) = false ∧
        getField p.desc.rxSize (encRxDone p.desc x len ov csum) = len ∧
        getBit p.desc.overflow (encRxDone p.desc x len ov csum) = ov ∧
        getField p.desc.rxCsum (encRxDone p.desc x len ov csum) = csum ∧
        ∀ b, (∀ f ∈ rxFields p.desc, b < f.lo ∨ f.lo + f.w ≤ b) →
          (encRxDone p.desc x len ov csum).getLsbD b = x.getLsbD b

/-! ### Descriptor memory and the pending writes -/

/-- The visibility step (R64, R280): the earliest pending write to an address, of the least pending epoch, reaches memory and is reported;
every other visibility step is refused. -/
def Obligations.VisibilityStep : Prop :=
  (∀ (s : State) (pre post : List WbEntry) (e : WbEntry), Alive s → s.wb = pre ++ e :: post →
      (∀ w ∈ pre, w.addr ≠ e.addr) → (∀ w ∈ s.wb, e.epoch ≤ w.epoch) →
      exec (.envVisible e.addr) s = .next { s with
        wb := pre ++ post
        mem := writeWord s.params.desc.byteOrder s.mem e.addr e.val
        trace := s.trace ++ [.devSees e.addr e.val] }) ∧
    (∀ (s : State) (a : Nat), Alive s → (∀ w ∈ s.wb, w.addr ≠ a) →
      exec (.envVisible a) s = .refused .agentNotEnabled) ∧
    ∀ (s : State) (pre post : List WbEntry) (e w : WbEntry), Alive s → s.wb = pre ++ e :: post →
      (∀ x ∈ pre, x.addr ≠ e.addr) → w ∈ s.wb → w.epoch < e.epoch →
      exec (.envVisible e.addr) s = .refused .agentNotEnabled

/-! ### Agents -/

/-- The transmit engine completes a slot (R281): the device-owned word loses `OWN` and keeps every other bit; no other byte of
memory and nothing else changes. A slot that is host-owned, or one met with the engine off, cannot be completed. With `any` every
device-owned slot completes. With `in_order` one completes that no device-owned slot from `tail` on comes before, once the first slot of its
packet has been device-owned, be it reclaimed since; and none that a device-owned slot comes before, nor while the write that gives the
first slot to the device is pending (log entry 22). -/
def Obligations.DevTxDoneClearsOwn : Prop :=
  (∀ (s : State) (base slot : Nat), Alive s → s.tx.base = some base → s.dev.txDmaOn = true →
      slot < s.params.nTx → deviceOwns s base slot = true → txOrderAllows s base slot = true →
      exec (.devTxDone slot) s = .next { s with
        mem := writeWord s.params.desc.byteOrder s.mem (base + 8 * slot + s.params.desc.flagsOffset)
          (putField ⟨s.params.desc.own, 1⟩ (deviceView s (base + 8 * slot + s.params.desc.flagsOffset)) 0) }) ∧
    (∀ (s : State) (base slot : Nat), Alive s → s.tx.base = some base →
      s.dev.txDmaOn = false ∨ deviceOwns s base slot = false →
      exec (.devTxDone slot) s = .refused .agentNotEnabled) ∧
    (∀ (s : State) (base slot : Nat), s.params.deviceTxOrder = .any → txOrderAllows s base slot = true) ∧
    (∀ (s : State) (base slot : Nat) (e : TxEntry), s.params.deviceTxOrder = .inOrder → CursorsInRange s →
      slot < s.params.nTx → deviceOwns s base slot = true →
      (∀ j, j < occupiedOf s.params.nTx slot s.tx.tail →
        deviceOwns s base ((s.tx.tail + j) % s.params.nTx) = false) →
      mapGet s.tx.shadow slot = some e → outstanding s slot = true →
      (∀ f, mapGet s.tx.shadow ((slot + s.params.nTx - (e.frag - 1)) % s.params.nTx) = some f → f.pkt = e.pkt →
        ∀ w ∈ s.wb, w.addr ≠ base + 8 * ((slot + s.params.nTx - (e.frag - 1)) % s.params.nTx) + s.params.desc.flagsOffset) →
      txOrderAllows s base slot = true) ∧
    (∀ (s : State) (base slot j : Nat), Alive s → s.params.deviceTxOrder = .inOrder → CursorsInRange s →
      s.tx.base = some base → j < occupiedOf s.params.nTx slot s.tx.tail →
      deviceOwns s base ((s.tx.tail + j) % s.params.nTx) = true →
      exec (.devTxDone slot) s = .refused .agentNotEnabled) ∧
    ∀ (s : State) (base slot : Nat) (e f : TxEntry) (w : WbEntry), Alive s → s.params.deviceTxOrder = .inOrder →
      s.tx.base = some base → mapGet s.tx.shadow slot = some e →
      mapGet s.tx.shadow ((slot + s.params.nTx - (e.frag - 1)) % s.params.nTx) = some f → f.pkt = e.pkt →
      deviceOwns s base ((slot + s.params.nTx - (e.frag - 1)) % s.params.nTx) = false → w ∈ s.wb →
      w.addr = base + 8 * ((slot + s.params.nTx - (e.frag - 1)) % s.params.nTx) + s.params.desc.flagsOffset →
      exec (.devTxDone slot) s = .refused .agentNotEnabled

/-- The receive engine completes a slot (R282): the payload goes to the buffer mapped at the posted address, its first
`min(len, RX_BUF_SIZE)` bytes, where the host does not see them until it synchronises (R78), and then the FLAGS word is written with
`OWN = 0` and the drawn reserved bits (R103, log entry 34); nothing else changes. With no receive buffer mapped there, only the FLAGS word
is written. -/
def Obligations.DevRxDoneFillsTheBuffer : Prop :=
  (∀ (s : State) (base slot len buf : Nat) (ov : Bool) (csum : Nat) (bytes : List Byte) (rest : List (List Byte)),
      Alive s → s.rx.base = some base → s.dev.rxDmaOn = true → slot < s.params.nRx →
      deviceOwns s base slot = true → len ≤ fieldMax s.params.desc.rxSize → csum ≤ fieldMax s.params.desc.rxCsum →
      s.draws.payload = bytes :: rest → min len s.params.rxBufSize ≤ bytes.length →
      bufAt s (deviceView s (base + 8 * slot + s.params.desc.addrOffset)).toNat = some buf →
      exec (.devRxDone slot len ov csum) s = .next { s with
        mem := writeWord s.params.desc.byteOrder s.mem (base + 8 * slot + s.params.desc.flagsOffset)
          (encRxDone s.params.desc (drawnRxReserved s) len ov csum)
        dmaMem := mapSet s.dmaMem buf (bytes.take (min len s.params.rxBufSize) ++
          ((mapGet s.dmaMem buf).getD []).drop (min len s.params.rxBufSize))
        draws := { s.draws with payload := rest, rxReserved := s.draws.rxReserved.tail }
        payloadCount := s.payloadCount + 1 }) ∧
    (∀ (s : State) (base slot len : Nat) (ov : Bool) (csum : Nat), Alive s → s.rx.base = some base →
      s.dev.rxDmaOn = true → slot < s.params.nRx → deviceOwns s base slot = true →
      len ≤ fieldMax s.params.desc.rxSize → csum ≤ fieldMax s.params.desc.rxCsum →
      bufAt s (deviceView s (base + 8 * slot + s.params.desc.addrOffset)).toNat = none →
      exec (.devRxDone slot len ov csum) s = .next { s with
        mem := writeWord s.params.desc.byteOrder s.mem (base + 8 * slot + s.params.desc.flagsOffset)
          (encRxDone s.params.desc (drawnRxReserved s) len ov csum)
        draws := { s.draws with payload := s.draws.payload.tail, rxReserved := s.draws.rxReserved.tail }
        payloadCount := s.payloadCount + 1 }) ∧
    ∀ (s : State) (base slot len : Nat) (ov : Bool) (csum : Nat), Alive s → s.rx.base = some base →
      s.dev.rxDmaOn = false ∨ deviceOwns s base slot = false →
      exec (.devRxDone slot len ov csum) s = .refused .agentNotEnabled

/-- What the DMA engines never do (R283): write an ADDR word or any byte but those of one FLAGS word, write a host-owned descriptor,
write with their engine off, set `OWN`, write a buffer that a transmit fragment in flight is mapped from, or (the transmit engine) write any
buffer. By the model's choice they also write no buffer that the block does not hold (DESIGN CHOICE, log entry 12), and the host does not see
payload by their doing (DESIGN CHOICE, log entry 18). -/
def Obligations.EnginesKeepToTheirDescriptors : Prop :=
  (∀ (s t : State) (slot : Nat), paramsValid s.params = true → exec (.devTxDone slot) s = .next t →
      ∃ base, s.tx.base = some base ∧ s.dev.txDmaOn = true ∧ deviceOwns s base slot = true ∧
        deviceOwns t base slot = false ∧ t.bufMem = s.bufMem ∧ t.dmaMem = s.dmaMem ∧
        ∀ a, a < base + 8 * slot + s.params.desc.flagsOffset ∨ base + 8 * slot + s.params.desc.flagsOffset + 4 ≤ a →
          readByte t.mem a = readByte s.mem a) ∧
    ∀ (s t : State) (slot len : Nat) (ov : Bool) (csum : Nat), paramsValid s.params = true →
      exec (.devRxDone slot len ov csum) s = .next t →
      ∃ base, s.rx.base = some base ∧ s.dev.rxDmaOn = true ∧ deviceOwns s base slot = true ∧
        deviceOwns t base slot = false ∧ t.bufMem = s.bufMem ∧
        (∀ i e m, mapGet s.tx.shadow i = some e → mapGet s.liveMaps e.handle = some m →
          mapGet t.dmaMem m.buf = mapGet s.dmaMem m.buf) ∧
        (∀ b, mapHas s.liveBuffers b = false → mapGet t.dmaMem b = mapGet s.dmaMem b) ∧
        ∀ a, a < base + 8 * slot + s.params.desc.flagsOffset ∨ base + 8 * slot + s.params.desc.flagsOffset + 4 ≤ a →
          readByte t.mem a = readByte s.mem a

/-- `DEV_STATUS` (R284) sets bits of the pending status and nothing else, whenever the adapter is not closed; `MAC_DRAINED` (R290, R43) happens once
the host has cleared `TX_ENABLE`, and reads of the register show the bit 0 from then on. Neither is taken otherwise. -/
def Obligations.StatusAndDrainSteps : Prop :=
  ((∀ (s : State) (bits : Word32), Alive s → s.adapter ≠ .closed → bits ≠ 0 →
        exec (.devStatus bits) s = .next { s with dev := { s.dev with status := s.dev.status ||| bits } }) ∧
      ∀ (s : State) (bits : Word32), Alive s → s.adapter = .closed ∨ bits = 0 →
        exec (.devStatus bits) s = .refused .agentNotEnabled) ∧
    (∀ s : State, Alive s → getField ⟨s.params.mac.txEnable, 1⟩ s.dev.macTxcfg = 0 → s.dev.macEnableSeen = true →
        exec .macDrained s = .next { s with dev := { s.dev with macEnableSeen := false } }) ∧
      ∀ s : State, Alive s → getField ⟨s.params.mac.txEnable, 1⟩ s.dev.macTxcfg ≠ 0 ∨ s.dev.macEnableSeen = false →
        exec .macDrained s = .refused .agentNotEnabled

/-- No fault is recorded at creation, and once one is recorded nothing happens any more (R49): every agent step is refused, every other
operation answers the fault, and no step answers a next state, so it is never cleared. -/
def Obligations.NothingRunsAfterAFault : Prop :=
  (∀ p : Params, (State.create p).fault = none) ∧ ∀ (s : State) (r : Fault), s.fault = some r →
    (∀ i : Instr, exec i s = if i.opClass = .agent then .refused .agentAfterFault else .fault r) ∧ ∀ t, step s ≠ .next t

/-! ### Ring primitives -/

/-- `RING_ALLOC` (R130): with an `ok` draw of ring memory where R51, R61 and R293 allow it, the ring has that base, its cursors are 0, its
shadow is empty, and every one of its descriptors is neutral in memory; with a `fail` draw there is no block (R345) and nothing else changes. A capacity that is
no power of two or below 2, and a ring that has memory already, are refused. -/
def Obligations.RingAllocGivesANeutralRing : Prop :=
  ((∀ (r : Ring) (s : State) (base : Nat) (rest : List (Option Nat)), Alive s → paramsValid s.params = true →
        ringBase s r = none → s.draws.ringMemory = some base :: rest → BaseAllowed s.params r base →
        (r = .tx → ∀ b, s.rx.base = some b → BasesApart s.params base b) →
        (r = .rx → ∀ b, s.tx.base = some b → BasesApart s.params b base) →
        ∃ t, exec (.ringAlloc r (capacity s.params r)) s = .next t ∧ t.outcome = some .ok ∧ ringBase t r = some base ∧
          (r = .tx → t.tx = { s.tx with base := some base, head := 0, tail := 0, shadow := [] } ∧ t.rx = s.rx) ∧
          (r = .rx → t.rx = { s.rx with base := some base, cursor := 0, shadow := [] } ∧ t.tx = s.tx) ∧
          (∀ i, i < capacity s.params r →
            deviceView t (base + 8 * i + s.params.desc.flagsOffset) = 0 ∧
            deviceView t (base + 8 * i + s.params.desc.addrOffset) = 0) ∧
          t.link = s.link ∧ t.counters = s.counters ∧ t.adapter = s.adapter ∧ t.liveMaps = s.liveMaps ∧
          t.liveBuffers = s.liveBuffers ∧ t.pkts = s.pkts ∧ t.timerArmed = s.timerArmed ∧
          t.irqAcquired = s.irqAcquired ∧ t.dev.macTxcfg = s.dev.macTxcfg ∧ hostTrace t = hostTrace s ∧
          t.bufMem = s.bufMem ∧ t.syncWindows = s.syncWindows ∧ t.absent = s.absent ∧
          (s.sched = [] → ∀ a, a < base ∨ base + 8 * capacity s.params r ≤ a → readByte t.mem a = readByte s.mem a)) ∧
      ∀ (r : Ring) (s : State) (rest : List (Option Nat)), Alive s → paramsValid s.params = true →
        ringBase s r = none → s.draws.ringMemory = none :: rest →
        Completes (.ringAlloc r (capacity s.params r)) s
          { s with draws := { s.draws with ringMemory := rest }, absent := true, outcome := some .resourceExhausted }) ∧
    (∀ (r : Ring) (n : Nat) (s : State), Alive s → (¬∃ k, n = 2 ^ k) ∨ n < 2 →
        exec (.ringAlloc r n) s = .refused .badCapacity) ∧
      ∀ (r : Ring) (s : State), Alive s → paramsValid s.params = true → (ringBase s r).isSome = true →
        exec (.ringAlloc r (capacity s.params r)) s = .refused .ringAlreadyAllocated

/-- `RING_NEXT_FREE` (R131) answers `Full` exactly when `N_TX - 1` slots are occupied and the slot at `head` otherwise, and writes nothing. -/
def Obligations.RingNextFreeAnswers : Prop :=
  ∀ s : State, Alive s →
    ((s.tx.head + s.params.nTx - s.tx.tail) % s.params.nTx = s.params.nTx - 1 →
      exec .ringNextFree s = .next { s with outcome := some .full }) ∧
    ((s.tx.head + s.params.nTx - s.tx.tail) % s.params.nTx ≠ s.params.nTx - 1 →
      exec .ringNextFree s = .next { s with outcome := some (.slot s.tx.head) })

/-- `RING_PUBLISH` (R132). A FLAGS word without `OWN` is refused. A slot that the host sees device-owned while its engine is on, once the
agent steps before the first write are taken, raises `HostWroteDeviceOwned` and nothing is written (R63). Otherwise, however the environment
interleaves, the ADDR word is written, then the barrier, then the FLAGS word one epoch later; the buffer at that address is no longer the
host's to read (R78); no other word is written and nothing else of the host changes. -/
def Obligations.RingPublishWritesInOrder : Prop :=
  (∀ (r : Ring) (slot : Nat) (a f : Word32) (s : State), Alive s → owned s.params.desc f = false →
      exec (.ringPublish r slot a f) s = .refused .publishWithoutOwn) ∧
    (∀ (r : Ring) (slot base : Nat) (a f : Word32) (s : State), Alive s → paramsValid s.params = true →
      LaidOut s → ringBase s r = some base → slot < capacity s.params r → owned s.params.desc f = true →
      hostSeesOwned (interleave s) base slot = true → dmaOn s r = true →
      exec (.ringPublish r slot a f) s = .next { interleave s with fault := some (.hostWroteDeviceOwned r slot) }) ∧
    ∀ (r : Ring) (slot base : Nat) (a f : Word32) (s : State), Alive s → paramsValid s.params = true →
      LaidOut s → (∀ w ∈ s.wb, w.addr % 4 = 0) → ringBase s r = some base → slot < capacity s.params r →
      owned s.params.desc f = true → hostSeesOwned (interleave s) base slot = false ∨ dmaOn s r = false →
      Completes (.ringPublish r slot a f) s { s with
        wb := s.wb ++ [⟨base + 8 * slot + s.params.desc.addrOffset, a, s.epoch⟩,
          ⟨base + 8 * slot + s.params.desc.flagsOffset, f, s.epoch + 1⟩]
        epoch := s.epoch + 1
        syncWindows := mapErase s.syncWindows a.toNat
        trace := s.trace ++ [.descW (base + 8 * slot + s.params.desc.addrOffset) a, .barrier,
          .descW (base + 8 * slot + s.params.desc.flagsOffset) f]
        outcome := some .ok }

/-- `RING_TRY_RECLAIM` (R133), under every interleaving: it answers `NotReady` when its read of the FLAGS word shows `OWN`, and otherwise that
word and the ADDR word read after it; it writes nothing and emits nothing, so all that changes but the outcome is what agent steps change. -/
def Obligations.RingTryReclaimReadsOnly : Prop :=
  ∀ (r : Ring) (slot base : Nat) (s : State) (f : Word32), Alive s → paramsValid s.params = true →
    LaidOut s → ringBase s r = some base → slot < capacity s.params r →
    f = hostView (interleave s) (base + 8 * slot + s.params.desc.flagsOffset) →
    (owned s.params.desc f = true →
      exec (.ringTryReclaim r slot) s = .next { interleave s with outcome := some .notReady }) ∧
    (owned s.params.desc f = false →
      exec (.ringTryReclaim r slot) s = .next { interleave (interleave s) with
        outcome := some (.desc f
          (hostView (interleave (interleave s)) (base + 8 * slot + s.params.desc.addrOffset))) })

/-- `RING_RESET` (R134) with the engine on raises `ResetWhileDmaOn` and writes nothing; with it off, however the environment
interleaves, it empties the shadow, takes the cursors to 0, leaves every descriptor of the ring neutral in the host's view, drops every handle
of the ring, frees the receive ring's buffers, and changes no counter and nothing of the other ring; with no agent step in between, every
descriptor word outside the ring, those of the other ring among them, reads as before. -/
def Obligations.RingResetEmptiesTheRing : Prop :=
  (∀ (r : Ring) (s : State), Alive s → dmaOn s r = true →
      exec (.ringReset r) s = .next { s with fault := some (.resetWhileDmaOn r) }) ∧
    ∀ (r : Ring) (s : State) (base : Nat), Alive s → RingsReady s → dmaOn s r = false →
      ringBase s r = some base →
      ∃ t, exec (.ringReset r) s = .next t ∧ t.fault = none ∧ t.outcome = some .ok ∧
        (r = .tx → t.tx = { s.tx with head := 0, tail := 0, shadow := [] } ∧ t.rx = s.rx ∧ t.pkts = []) ∧
        (r = .rx → t.rx = { s.rx with cursor := 0, shadow := [] } ∧ t.tx = s.tx ∧ t.pkts = s.pkts) ∧
        (∀ i, i < capacity s.params r → hostView t (base + 8 * i + s.params.desc.flagsOffset) = 0 ∧
          hostView t (base + 8 * i + s.params.desc.addrOffset) = 0) ∧
        (∀ h, mapHas t.liveMaps h = true ↔ h ∈ shadowHandles t) ∧
        (r = .tx → t.liveBuffers = s.liveBuffers) ∧
        (r = .rx → ∀ b, mapHas t.liveBuffers b = true ↔ mapHas s.liveBuffers b = true ∧ ¬RingBuffer s b) ∧
        (∀ b, (∀ h m, mapGet s.liveMaps h = some m → m.buf ≠ b) → ¬RingBuffer s b →
          mapGet t.bufMem b = mapGet s.bufMem b) ∧
        (∀ a, a % 4 = 0 → OutsideRings s a → hostView t a = hostView s a) ∧
        (s.sched = [] → ∀ a, a % 4 = 0 → OutsideRing base (capacity s.params r) a → hostView t a = hostView s a) ∧
        t.counters = s.counters ∧ t.link = s.link ∧ t.adapter = s.adapter ∧ t.timerArmed = s.timerArmed ∧
        t.irqAcquired = s.irqAcquired ∧ t.nextPkt = s.nextPkt ∧ t.dev.macTxcfg = s.dev.macTxcfg ∧
        t.dev.intArmed = s.dev.intArmed ∧ t.dev.txDmaOn = s.dev.txDmaOn ∧ t.dev.rxDmaOn = s.dev.rxDmaOn


/-! ### Transmit -/

/-- A malformed packet is refused before anything else is looked at (R151). A well-formed one is turned away with `Busy`, and nothing changes and
nothing is emitted, when the adapter is not running (R152), the queue is stopped (R153) or fewer than `K + 1` slots are free (R154). -/
def Obligations.TransmitTurnsPacketsAway : Prop :=
  (∀ (s : State) (pkt : Packet), Ready s →
      (pkt.frags.length < 1 ∨ s.params.kMax < pkt.frags.length →
        exec (.transmit pkt) s = .refused .badFragmentCount) ∧
      (1 ≤ pkt.frags.length → pkt.frags.length ≤ s.params.kMax →
        (∃ f ∈ pkt.frags, f.len < 1 ∨ 2 ^ s.params.desc.txSize.w - 1 < f.len) →
        exec (.transmit pkt) s = .refused .badFragmentLength) ∧
      (1 ≤ pkt.frags.length → pkt.frags.length ≤ s.params.kMax →
        (∀ f ∈ pkt.frags, 1 ≤ f.len ∧ f.len ≤ 2 ^ s.params.desc.txSize.w - 1) →
        (∃ start stuff, pkt.cs = .offsets start stuff ∧
          (2 ^ s.params.desc.csStart.w - 1 < start ∨ 2 ^ s.params.desc.csStuff.w - 1 < stuff)) →
        exec (.transmit pkt) s = .refused .checksumOffsetRange)) ∧
    ∀ (s : State) (pkt : Packet), Ready s → PacketValid s.params pkt →
      s.adapter ≠ .running ∨ s.tx.stopped = true ∨ freeSlots s < pkt.frags.length + 1 →
      exec (.transmit pkt) s = .next { s with outcome := some .busy }

/-- `TRANSMIT` whose mapping of a fragment fails (R155), under every interleaving: the fragments mapped before it are unmapped, newest
first, so that the host may read their buffers again (R77), `tx_dropped` is counted, and nothing else changes: no descriptor is
written, no cursor moves. -/
def Obligations.TransmitDropsOnMappingFailure : Prop :=
  ∀ (s : State) (pkt : Packet) (maps : List (Nat × Nat)) (rest : List (Option (Nat × Nat))), Ready s →
    PacketValid s.params pkt → s.adapter = .running → s.tx.stopped = false → pkt.frags.length + 1 ≤ freeSlots s →
    mapWf s.liveMaps = true → MappingsAllowed s maps → maps.length < pkt.frags.length →
    s.draws.dmaMap = maps.map some ++ none :: rest →
    Completes (.transmit pkt) s { s with
      counters := { s.counters with txDropped := s.counters.txDropped + 1 }
      draws := { s.draws with dmaMap := rest }
      bufMem := (pkt.frags.zip maps).reverse.foldl (fun m fd => showAll s.dmaMem fd.1.buf m) s.bufMem
      syncWindows := maps.reverse.foldl (fun w d => mapErase w d.2) s.syncWindows
      trace := s.trace ++ (pkt.frags.zip maps).map (fun fd => .map fd.1.buf fd.2.1) ++
        maps.reverse.map (fun d => .unmap d.1)
      outcome := some .droppedMapping }

/-- `TRANSMIT` of a packet of any number of fragments that finds the adapter running, the queue started, room, its slots host-owned and every
mapping granted (R155 to R160), under every interleaving: it is accepted; the trace shows the mappings, then fragments 2 to K published in
order, then fragment 1, each ADDR word before a barrier before its FLAGS word, then the doorbell; the shadow gets one entry for each fragment and
keeps every other; head moves by K; backpressure stops the queue below the low-water mark; one slot at least stays free (R165). -/
def Obligations.TransmitPublishesInOrder : Prop :=
  ∀ (s : State) (base : Nat) (pkt : Packet) (maps : List (Nat × Nat)) (rest : List (Option (Nat × Nat))), Ready s →
    paramsValid s.params = true → CursorsInRange s → LaidOut s → (∀ w ∈ s.wb, w.addr % 4 = 0) →
    s.tx.base = some base → PacketValid s.params pkt → s.adapter = .running → s.tx.stopped = false →
    pkt.frags.length + 1 ≤ freeSlots s → (∀ j, j < pkt.frags.length → hostSeesOwned s base (fragmentSlot s j) = false) →
    MappingsAllowed s maps → maps.length = pkt.frags.length → s.draws.dmaMap = maps.map some ++ rest →
    ∃ t, exec (.transmit pkt) s = .next t ∧ t.fault = none ∧ t.lock = none ∧ t.outcome = some .accepted ∧
      t.tx.head = (s.tx.head + pkt.frags.length) % s.params.nTx ∧ t.tx.tail = s.tx.tail ∧ t.tx.base = s.tx.base ∧
      (∀ j, j < pkt.frags.length → mapGet t.tx.shadow (fragmentSlot s j) = some (fragmentEntry s pkt maps j)) ∧
      (∀ i, (∀ j, j < pkt.frags.length → i ≠ fragmentSlot s j) → mapGet t.tx.shadow i = mapGet s.tx.shadow i) ∧
      t.liveMaps = (pkt.frags.zip maps).foldl (fun m fd => mapSet m fd.2.1 ⟨fd.1.buf, fd.2.2⟩) s.liveMaps ∧
      t.pkts = mapSet s.pkts s.nextPkt pkt ∧ t.nextPkt = s.nextPkt + 1 ∧
      occupied t = occupied s + pkt.frags.length ∧ 1 ≤ freeSlots t ∧
      (t.tx.stopped = true ↔ freeSlots t < s.params.txLowWater) ∧ t.wb = [] ∧
      hostTrace t = hostTrace s ++ (pkt.frags.zip maps).map (fun fd => .map fd.1.buf fd.2.1) ++
        (List.range' 1 (pkt.frags.length - 1) ++ [0]).flatMap (fragmentEvents s base pkt maps) ++
        (if t.tx.stopped then [.queueStop] else []) ++ [.mmioW .doorbell .kick] ∧
      (s.sched = [] → (∀ j, j < pkt.frags.length →
        deviceView t (base + 8 * fragmentSlot s j + s.params.desc.flagsOffset) = fragmentFlags s.params pkt j ∧
        deviceView t (base + 8 * fragmentSlot s j + s.params.desc.addrOffset) =
          BitVec.ofNat 32 (maps.getD j (0, 0)).2) ∧
        ∀ a, a % 4 = 0 → (∀ j, j < pkt.frags.length →
          a ≠ base + 8 * fragmentSlot s j + s.params.desc.flagsOffset ∧
          a ≠ base + 8 * fragmentSlot s j + s.params.desc.addrOffset) → hostView t a = hostView s a) ∧
      t.counters = s.counters ∧ t.link = s.link ∧ t.rx = s.rx ∧ t.adapter = s.adapter ∧ t.timerArmed = s.timerArmed ∧
      t.irqAcquired = s.irqAcquired ∧ t.liveBuffers = s.liveBuffers ∧ t.dev.macTxcfg = s.dev.macTxcfg ∧
      t.bufMem = s.bufMem ∧ t.syncWindows = maps.foldl (fun w d => mapErase w d.2) s.syncWindows ∧
      t.dev.intArmed = s.dev.intArmed ∧ t.dev.txDmaOn = s.dev.txDmaOn ∧ t.dev.rxDmaOn = s.dev.rxDmaOn

/-- `TX_RECLAIM` with no agent step in between (R161, R162): the completed slots from `tail` on are reclaimed in ring order up to the first that the
host sees device-owned; each mapping is released, after which the host may read its buffer (R77), each packet whose last fragment goes is counted and reported, the queue is woken when
room is back, and nothing else changes, no descriptor word among it. -/
def Obligations.TxReclaimWalksInOrder : Prop :=
  ∀ (s : State) (base : Nat) (entries : List TxEntry), Alive s → paramsValid s.params = true → s.sched = [] →
    CursorsInRange s → LaidOut s → s.tx.base = some base → Reclaimable s base entries →
    (entries.map (·.handle)).Nodup → (∀ e ∈ entries, mapHas s.liveMaps e.handle = true) →
    exec .txReclaim s = .next { woken (reclaimed s entries) with outcome := some .ok }

/-! ### Receive -/

/-- `RX_POST` (R180), under every interleaving: the slot's ADDR word gets the device address of the mapping, then the barrier, then the
FLAGS word shows `OWN` and the buffer's capacity; a handle that is not live is refused (log entry 9). `RX_RECYCLE` (R181) posts the slot again with
the buffer it holds; its shadow entry stays and no synchronisation happens. -/
def Obligations.RxPostAndRecycleGiveTheSlotAway : Prop :=
  ((∀ (s : State) (base slot h buf da : Nat), Alive s → paramsValid s.params = true → LaidOut s →
        (∀ w ∈ s.wb, w.addr % 4 = 0) → s.rx.base = some base → slot < s.params.nRx →
        hostSeesOwned s base slot = false ∨ s.dev.rxDmaOn = false → mapGet s.liveMaps h = some ⟨buf, da⟩ →
        Completes (.rxPost slot h) s { s with
          wb := s.wb ++ [⟨base + 8 * slot + s.params.desc.addrOffset, BitVec.ofNat 32 da, s.epoch⟩,
            ⟨base + 8 * slot + s.params.desc.flagsOffset, encRxPost s.params, s.epoch + 1⟩]
          epoch := s.epoch + 1
          syncWindows := mapErase s.syncWindows (BitVec.ofNat 32 da).toNat
          trace := s.trace ++ [.descW (base + 8 * slot + s.params.desc.addrOffset) (BitVec.ofNat 32 da), .barrier,
            .descW (base + 8 * slot + s.params.desc.flagsOffset) (encRxPost s.params)]
          outcome := some .ok }) ∧
      ∀ (s : State) (slot h : Nat), Alive s → mapHas s.liveMaps h = false →
        exec (.rxPost slot h) s = .refused (.handleNotLive h)) ∧
    ∀ (s : State) (base slot da : Nat) (e : RxEntry), Alive s → paramsValid s.params = true → LaidOut s →
      (∀ w ∈ s.wb, w.addr % 4 = 0) → s.rx.base = some base → slot < s.params.nRx →
      hostSeesOwned s base slot = false ∨ s.dev.rxDmaOn = false → mapGet s.rx.shadow slot = some e →
      mapGet s.liveMaps e.handle = some ⟨e.buf, da⟩ →
      Completes (.rxRecycle slot) s { s with
        wb := s.wb ++ [⟨base + 8 * slot + s.params.desc.addrOffset, BitVec.ofNat 32 da, s.epoch⟩,
          ⟨base + 8 * slot + s.params.desc.flagsOffset, encRxPost s.params, s.epoch + 1⟩]
        epoch := s.epoch + 1
        syncWindows := mapErase s.syncWindows (BitVec.ofNat 32 da).toNat
        trace := s.trace ++ [.descW (base + 8 * slot + s.params.desc.addrOffset) (BitVec.ofNat 32 da), .barrier,
          .descW (base + 8 * slot + s.params.desc.flagsOffset) (encRxPost s.params)]
        outcome := some .ok }

/-- `RX_RECLAIM` that finds the slot at the cursor device-owned, once the agent steps before its read are taken, changes nothing and
emits nothing of its own (R182, R191). -/
def Obligations.RxReclaimIdle : Prop :=
  ∀ (s : State) (base : Nat), Alive s → paramsValid s.params = true → LaidOut s →
    s.rx.base = some base → s.rx.cursor < s.params.nRx → hostSeesOwned (interleave s) base s.rx.cursor = true →
    exec .rxReclaim s = .next { interleave s with outcome := some .ok }

/-- `RX_RECLAIM` of one slot with no agent step in between. A short length or overflow counts one error and one drop (R184); a packet for which no memory
or no mapping is granted counts one drop and no error (R187). The same buffer is posted to the same slot, the cursor moves on, and
nothing is delivered (R188). -/
def Obligations.RxDropsWhatItCannotDeliver : Prop :=
  (∀ (s : State) (base len da csum : Nat) (ov : Bool) (e : RxEntry), Alive s → s.sched = [] →
      OneCompleted s base len ov csum e da → len < s.params.rxMinFrame ∨ ov = true →
      exec .rxReclaim s = .next { republished s base da with
        counters := { s.counters with rxErrors := s.counters.rxErrors + 1, rxDropped := s.counters.rxDropped + 1 }
        outcome := some .ok }) ∧
    (∀ (s : State) (base len da csum : Nat) (e : RxEntry) (rest : List (Option Nat)), Alive s → s.sched = [] →
        OneCompleted s base len false csum e da → s.params.rxMinFrame ≤ len → len ≤ s.params.rxBufSize →
        s.draws.alloc = none :: rest →
        exec .rxReclaim s = .next { republished { s with trace := s.trace ++ [.allocFail] } base da with
          draws := { s.draws with alloc := rest }
          counters := { s.counters with rxDropped := s.counters.rxDropped + 1 }
          outcome := some .ok }) ∧
      ∀ (s : State) (base len da csum b : Nat) (e : RxEntry) (rest : List (Option Nat))
        (rest' : List (Option (Nat × Nat))), Alive s → s.sched = [] →
        OneCompleted s base len false csum e da → s.params.rxMinFrame ≤ len → s.params.rxCopyThreshold < len →
        len ≤ s.params.rxBufSize → s.draws.alloc = some b :: rest → mapHas s.liveBuffers b = false →
        mapWf s.liveBuffers = true → s.draws.dmaMap = none :: rest' →
        exec .rxReclaim s = .next { republished { s with trace := s.trace ++ [.allocOk b, .freeBuf b] } base da with
          draws := { s.draws with alloc := rest, dmaMap := rest' }
          bufMem := mapErase (mapErase s.bufMem b) b
          dmaMem := mapErase (mapErase s.dmaMem b) b
          counters := { s.counters with rxDropped := s.counters.rxDropped + 1 }
          outcome := some .ok }

/-- `RX_RECLAIM` of one slot completed with a length from the minimum frame to the copy threshold (R186, R188, R193), with no agent step in between and a
small buffer granted: the first `len` bytes the device has written become visible to the host between the two synchronisations (R78) and are
copied, the slot is posted again unchanged, the copy is delivered with the length and the checksum, and one packet of `len` bytes is
counted. -/
def Obligations.RxCopiesSmallPacketsOut : Prop :=
  ∀ (s : State) (base len da csum b : Nat) (e : RxEntry) (rest : List (Option Nat)), Alive s → s.sched = [] →
    OneCompleted s base len false csum e da → s.params.rxMinFrame ≤ len → len ≤ s.params.rxCopyThreshold →
    len ≤ s.params.rxBufSize → s.draws.alloc = some b :: rest → mapHas s.liveBuffers b = false → b ≠ e.buf →
    mapWf s.liveBuffers = true →
    ∃ t, exec .rxReclaim s = .next t ∧ t.outcome = some .ok ∧ t.fault = none ∧
      t.trace = s.trace ++ [.allocOk b, .syncCpu e.handle len, .syncDev e.handle len] ++
        [.descW (base + 8 * s.rx.cursor + s.params.desc.addrOffset) (BitVec.ofNat 32 da), .barrier,
          .descW (base + 8 * s.rx.cursor + s.params.desc.flagsOffset) (encRxPost s.params)] ++ [.deliver b len csum] ∧
      mapGet t.bufMem b = some ((overwritePrefix (((mapGet s.dmaMem e.buf).getD []).take len)
        ((mapGet s.bufMem e.buf).getD [])).take len) ∧
      mapGet t.bufMem e.buf = mapGet (showBytes s.dmaMem e.buf len s.bufMem) e.buf ∧
      (∀ x, x ≠ b → x ≠ e.buf → mapGet t.bufMem x = mapGet s.bufMem x) ∧ t.dmaMem = mapErase s.dmaMem b ∧
      t.syncWindows = mapErase (mapErase s.syncWindows da) (BitVec.ofNat 32 da).toNat ∧
      t.counters = { s.counters with
        rxPackets := s.counters.rxPackets + 1, rxBytes := s.counters.rxBytes + BitVec.ofNat 64 len } ∧
      t.rx = { s.rx with cursor := (s.rx.cursor + 1) % s.params.nRx } ∧ t.liveMaps = s.liveMaps ∧
      t.liveBuffers = s.liveBuffers ∧ t.wb = (republished s base da).wb ∧ t.mem = s.mem ∧ t.tx = s.tx ∧
      t.link = s.link ∧ t.pkts = s.pkts ∧ t.adapter = s.adapter ∧ t.irqAcquired = s.irqAcquired ∧
      t.timerArmed = s.timerArmed ∧ t.dev = s.dev

/-- `RX_RECLAIM` of one slot completed with a length above the copy threshold (R185, R188, R193), with no agent step in between and a replacement granted
and mapped: the slot is posted with the replacement before the original is unmapped, which shows the host all the device wrote to it
(R77); the original is delivered, trimmed to `len`, and its ownership passes up. -/
def Obligations.RxHandsLargePacketsUp : Prop :=
  ∀ (s : State) (base len da csum b h da' : Nat) (e : RxEntry) (rest : List (Option Nat))
    (rest' : List (Option (Nat × Nat))), Alive s → s.sched = [] → OneCompleted s base len false csum e da →
    s.params.rxMinFrame ≤ len → s.params.rxCopyThreshold < len → len ≤ s.params.rxBufSize →
    s.draws.alloc = some b :: rest → mapHas s.liveBuffers b = false → s.draws.dmaMap = some (h, da') :: rest' →
    MappingsAllowed s [(h, da')] →
    ∃ t, exec .rxReclaim s = .next t ∧ t.outcome = some .ok ∧ t.fault = none ∧
      t.trace = s.trace ++ [.allocOk b, .map b h] ++
        [.descW (base + 8 * s.rx.cursor + s.params.desc.addrOffset) (BitVec.ofNat 32 da'), .barrier,
          .descW (base + 8 * s.rx.cursor + s.params.desc.flagsOffset) (encRxPost s.params)] ++
        [.unmap e.handle, .deliver e.buf len csum] ∧
      t.rx = { s.rx with
        cursor := (s.rx.cursor + 1) % s.params.nRx, shadow := mapSet s.rx.shadow s.rx.cursor ⟨b, h⟩ } ∧
      t.liveMaps = mapErase (mapSet s.liveMaps h ⟨b, da'⟩) e.handle ∧
      t.liveBuffers = mapErase (mapSet s.liveBuffers b ()) e.buf ∧
      t.counters = { s.counters with
        rxPackets := s.counters.rxPackets + 1, rxBytes := s.counters.rxBytes + BitVec.ofNat 64 len } ∧
      t.wb = (republished s base da').wb ∧ t.mem = s.mem ∧
      t.bufMem = showAll (mapErase s.dmaMem b) e.buf (mapErase s.bufMem b) ∧ t.dmaMem = mapErase s.dmaMem b ∧
      t.syncWindows = mapErase (mapErase s.syncWindows da') da ∧ t.tx = s.tx ∧
      t.link = s.link ∧ t.pkts = s.pkts ∧ t.adapter = s.adapter ∧ t.irqAcquired = s.irqAcquired ∧
      t.timerArmed = s.timerArmed ∧ t.dev = s.dev

/-- A completion that reports more bytes than the buffer holds, without overflow, raises `RxLengthExceedsBuffer` before anything is
written (R183, R301). -/
def Obligations.RxFaultsOnOversize : Prop :=
  ∀ (s : State) (base len da csum : Nat) (e : RxEntry), Alive s → s.sched = [] →
    OneCompleted s base len false csum e da → s.params.rxBufSize < len →
    exec .rxReclaim s = .next { s with fault := some (.rxLengthExceedsBuffer s.rx.cursor len) }

/-- What every receive walk does, under every interleaving and with any number of visits (R188, R189, R192, R193): the cursor moves on by the number
of visits, at most `N_RX`; each visit counts one packet or one drop; and every slot that was posted still is. -/
def Obligations.RxWalkAccounts : Prop :=
  ∀ s t : State, Alive s → paramsValid s.params = true → s.rx.cursor < s.params.nRx →
    exec .rxReclaim s = .next t → t.fault = none →
    ∃ n, n ≤ s.params.nRx ∧ t.rx.cursor = (s.rx.cursor + n) % s.params.nRx ∧
      t.counters.rxPackets - s.counters.rxPackets + (t.counters.rxDropped - s.counters.rxDropped) =
        BitVec.ofNat 64 n ∧
      (∀ i, mapHas s.rx.shadow i = true → mapHas t.rx.shadow i = true) ∧
      t.tx = s.tx ∧ t.link = s.link ∧ t.counters.txPackets = s.counters.txPackets

/-! ### Link -/

/-- `LINK_FORCE` (R225), under every interleaving: the permutation is latched, `CONTROL` is written with the forced mode, and the machine waits in
forced-try-wait from tick 0 with the timer armed. -/
def Obligations.LinkForceEntersForcedMode : Prop :=
  ∀ (p : Fin 4) (s : State), Alive s →
    Completes (.linkForce p) s { s with
      link := { s.link with perm := p, state := .forcedTryWait, tick := 0 }
      timerArmed := true
      trace := s.trace ++ [.mgmtW s.params.mgmt.control (encForced s.params.mgmt (permMode p))]
      outcome := some .ok }

/-- `LINK_BEGIN` (R223, R224), under every interleaving: refused outside idle; with autonegotiation disabled the requested mode is forced; with it
enabled the advertisement and the restart are written, `CONTROL` is polled at most the budget's times and only until the restart is
acknowledged, and without acknowledge the machine falls to forced mode 0 with a logged fallback. -/
def Obligations.LinkBeginStartsNegotiation : Prop :=
  (∀ s : State, Alive s → s.link.state ≠ .idle → exec .linkBegin s = .refused .linkBeginNotIdle) ∧
    (∀ (s : State) (p : Fin 4), Alive s → s.link.state = .idle → s.link.autoneg = false →
      permMode p = ⟨s.link.speedReq, s.link.duplexReq⟩ →
      Completes .linkBegin s { s with
        link := { s.link with perm := p, state := .forcedTryWait, tick := 0 }
        timerArmed := true
        trace := s.trace ++
          [.mgmtW s.params.mgmt.control (encForced s.params.mgmt ⟨s.link.speedReq, s.link.duplexReq⟩)]
        outcome := some .ok }) ∧
    (∀ (s : State) (nacks rest : List Word32) (v : Word32), Alive s → s.link.state = .idle →
      s.link.autoneg = true → s.draws.mgmtRead = nacks ++ v :: rest → nacks.length < s.params.anRestartPollBudget →
      (∀ x ∈ nacks, restartAcked s.params.mgmt (mgmtTrunc s.params.mgmt x) = false) →
      restartAcked s.params.mgmt (mgmtTrunc s.params.mgmt v) = true →
      Completes .linkBegin s { s with
        link := { s.link with state := .arbitrationWait, tick := 0 }
        timerArmed := true
        draws := { s.draws with mgmtRead := rest }
        trace := s.trace ++ [.mgmtW s.params.mgmt.advertise (encAdv s.params.mgmt s.params.advertised),
          .mgmtW s.params.mgmt.control (encAnStart s.params.mgmt)] ++
          (nacks ++ [v]).map (fun x => .mgmtR s.params.mgmt.control (mgmtTrunc s.params.mgmt x))
        outcome := some .ok }) ∧
    ∀ (s : State) (nacks rest : List Word32), Alive s → s.link.state = .idle → s.link.autoneg = true →
      s.draws.mgmtRead = nacks ++ rest → nacks.length = s.params.anRestartPollBudget →
      (∀ x ∈ nacks, restartAcked s.params.mgmt (mgmtTrunc s.params.mgmt x) = false) →
      Completes .linkBegin s { s with
        link := { s.link with perm := 0, state := .forcedTryWait, tick := 0 }
        timerArmed := true
        draws := { s.draws with mgmtRead := rest }
        trace := s.trace ++ [.mgmtW s.params.mgmt.advertise (encAdv s.params.mgmt s.params.advertised),
          .mgmtW s.params.mgmt.control (encAnStart s.params.mgmt)] ++
          nacks.map (fun x => .mgmtR s.params.mgmt.control (mgmtTrunc s.params.mgmt x)) ++
          [.log .anRestartNoAck, .mgmtW s.params.mgmt.control (encForced s.params.mgmt ⟨.s100, .full⟩)]
        outcome := some .ok }

/-- `LINK_COMMIT` (R226) always ends, whatever the MAC does meanwhile: committed, with the transmitter enabled and the duplex as asked, or
failed, with the transmitter disabled, the duplex bit and the latched mode as before; every opaque bit is carried through. With no
agent step in between, a MAC already drained gives the strict sequence disable, drain, reconfigure, enable; one that does not drain gives
as many polls as the budget and a failure. -/
def Obligations.LinkCommitIsAllOrNothing : Prop :=
  (∀ (s : State) (m : Mode), Alive s → paramsValid s.params = true →
      ∃ t, exec (.linkCommit m) s = .next t ∧ t.fault = none ∧ OpaqueBitsKept s t ∧
        (t.outcome = some .commitOk ∧ t.link = { s.link with committed := some m } ∧
            getBit s.params.mac.txEnable t.dev.macTxcfg = true ∧
            getBit s.params.mac.fullDuplex t.dev.macTxcfg = decide (m.duplex = .full) ∧ t.dev.macEnableSeen = true ∨
          t.outcome = some .commitFailed ∧ t.link = s.link ∧ getBit s.params.mac.txEnable t.dev.macTxcfg = false ∧
            getBit s.params.mac.fullDuplex t.dev.macTxcfg = getBit s.params.mac.fullDuplex s.dev.macTxcfg) ∧
        t.timerArmed = s.timerArmed ∧ LinkFrame s t) ∧
    (∀ (s : State) (m : Mode) (v : Word32), Alive s → paramsValid s.params = true → s.sched = [] →
      s.wb = [] → s.dev.macEnableSeen = false → v = putBit s.params.mac.txEnable s.dev.macTxcfg false →
      exec (.linkCommit m) s = .next { s with
        dev := { s.dev with
          macTxcfg := putBit s.params.mac.txEnable (putBit s.params.mac.fullDuplex v (m.duplex == .full)) true
          macEnableSeen := true }
        link := { s.link with committed := some m }
        trace := s.trace ++ [.mmioR .macTxcfg v, .mmioW .macTxcfg (.word v), .mmioR .macTxcfg v,
          .mmioW .macTxcfg (.word (putBit s.params.mac.fullDuplex v (m.duplex == .full))),
          .mmioW .macTxcfg
            (.word (putBit s.params.mac.txEnable (putBit s.params.mac.fullDuplex v (m.duplex == .full)) true))]
        outcome := some .commitOk }) ∧
    ∀ (s : State) (m : Mode) (v : Word32), Alive s → paramsValid s.params = true → s.sched = [] →
      s.wb = [] → s.dev.macEnableSeen = true → v = putBit s.params.mac.txEnable s.dev.macTxcfg true →
      exec (.linkCommit m) s = .next { s with
        dev := { s.dev with macTxcfg := putBit s.params.mac.txEnable v false }
        trace := s.trace ++ [.mmioR .macTxcfg v, .mmioW .macTxcfg (.word (putBit s.params.mac.txEnable v false))] ++
          List.replicate s.params.macDrainPollBudget (.mmioR .macTxcfg v)
        outcome := some .commitFailed }

/-- A tick in arbitration-wait that commits nothing (R231, R232), under every interleaving: before the budget it only counts and arms the timer; with the
budget spent, or with negotiation complete and no common mode, forced mode 0 is entered within the same tick. -/
def Obligations.ArbitrationTickWaitsOrFallsThrough : Prop :=
  (∀ (s : State) (v : Word32) (rest : List Word32), Ready s → s.adapter = .running →
      s.link.state = .arbitrationWait → s.draws.mgmtRead = v :: rest →
      anComplete s.params.mgmt (mgmtTrunc s.params.mgmt v) = false → s.link.tick + 1 < s.params.arbTicks →
      Completes .linkTick s { s with
        link := { s.link with tick := s.link.tick + 1 }
        timerArmed := true
        draws := { s.draws with mgmtRead := rest }
        trace := s.trace ++ [.mgmtR s.params.mgmt.status (mgmtTrunc s.params.mgmt v)]
        outcome := some .ok }) ∧
    (∀ (s : State) (v : Word32) (rest : List Word32), Ready s → s.adapter = .running →
      s.link.state = .arbitrationWait → s.draws.mgmtRead = v :: rest →
      anComplete s.params.mgmt (mgmtTrunc s.params.mgmt v) = false → s.params.arbTicks ≤ s.link.tick + 1 →
      Completes .linkTick s { s with
        link := { s.link with perm := 0, state := .forcedTryWait, tick := 0 }
        timerArmed := true
        draws := { s.draws with mgmtRead := rest }
        trace := s.trace ++ [.mgmtR s.params.mgmt.status (mgmtTrunc s.params.mgmt v), .log .anTimeout,
          .mgmtW s.params.mgmt.control (encForced s.params.mgmt ⟨.s100, .full⟩)]
        outcome := some .ok }) ∧
    ∀ (s : State) (v pv : Word32) (rest : List Word32), Ready s → s.adapter = .running →
      s.link.state = .arbitrationWait → s.draws.mgmtRead = v :: pv :: rest →
      anComplete s.params.mgmt (mgmtTrunc s.params.mgmt v) = true →
      (∀ m ∈ s.params.advertised, partnerHas s.params.mgmt (mgmtTrunc s.params.mgmt pv) m = false) →
      Completes .linkTick s { s with
        link := { s.link with perm := 0, state := .forcedTryWait, tick := 0 }
        timerArmed := true
        draws := { s.draws with mgmtRead := rest }
        trace := s.trace ++ [.mgmtR s.params.mgmt.status (mgmtTrunc s.params.mgmt v),
          .mgmtR s.params.mgmt.partner (mgmtTrunc s.params.mgmt pv), .log .anCommitFailed,
          .mgmtW s.params.mgmt.control (encForced s.params.mgmt ⟨.s100, .full⟩)]
        outcome := some .ok }

/-- A tick in arbitration-wait that sees negotiation complete with a common mode (R227, R231), whatever the MAC does meanwhile: the first mode of the
permutation list that both sides have is committed and the machine waits for the link, or the commit failed and forced mode 0 is entered; with
no agent step in between and a drained MAC it is committed. -/
def Obligations.ArbitrationTickCommitsTheBestMode : Prop :=
  ∀ (s : State) (v pv : Word32) (rest : List Word32) (p : Fin 4), Ready s → paramsValid s.params = true →
    s.adapter = .running → s.link.state = .arbitrationWait → s.draws.mgmtRead = v :: pv :: rest →
    anComplete s.params.mgmt (mgmtTrunc s.params.mgmt v) = true →
    permMode p ∈ s.params.advertised → partnerHas s.params.mgmt (mgmtTrunc s.params.mgmt pv) (permMode p) = true →
    (∀ q, q < p → permMode q ∈ s.params.advertised →
      partnerHas s.params.mgmt (mgmtTrunc s.params.mgmt pv) (permMode q) = false) →
    ∃ t, exec .linkTick s = .next t ∧ t.fault = none ∧ t.lock = none ∧ t.outcome = some .ok ∧ t.timerArmed = true ∧
      (t.link = { s.link with state := .linkUpWait, tick := 0, committed := some (permMode p) } ∧
          getBit s.params.mac.fullDuplex t.dev.macTxcfg = decide ((permMode p).duplex = .full) ∨
        t.link = { s.link with state := .forcedTryWait, tick := 0, perm := 0 }) ∧
      (s.sched = [] → s.dev.macEnableSeen = false → t.link.state = .linkUpWait) ∧
      OpaqueBitsKept s t ∧ LinkFrame s t

/-- A tick is one firing of the timer, which disarms it (R230, R287). It does nothing else while the adapter is closed, and in idle and
asleep (R230, R240). In link-up-wait (R233, R234), under every interleaving, a
link seen up is reported with the committed mode and the machine sleeps with the timer disarmed (R241), and one seen down keeps it polling, with a diagnostic and the
count from 0 again every `LUP_DIAG_TICKS` ticks. -/
def Obligations.LinkUpTickReportsOrWaits : Prop :=
  (∀ s : State, Ready s →
      s.adapter = .closed ∨ s.adapter = .running ∧ (s.link.state = .idle ∨ s.link.state = .asleep) →
      exec .linkTick s = .next { s with timerArmed := false, outcome := some .ok }) ∧
    (∀ (s : State) (v : Word32) (rest : List Word32), Ready s → s.adapter = .running →
      s.link.state = .linkUpWait → s.draws.mgmtRead = v :: rest →
      linkOk s.params.mgmt (mgmtTrunc s.params.mgmt v) = true →
      Completes .linkTick s { s with
        link := { s.link with tick := s.link.tick + 1, up := true, state := .asleep }
        timerArmed := false
        draws := { s.draws with mgmtRead := rest }
        trace := s.trace ++ [.mgmtR s.params.mgmt.status (mgmtTrunc s.params.mgmt v), .linkUp s.link.committed]
        outcome := some .ok }) ∧
    (∀ (s : State) (v : Word32) (rest : List Word32), Ready s → s.adapter = .running →
      s.link.state = .linkUpWait → s.draws.mgmtRead = v :: rest →
      linkOk s.params.mgmt (mgmtTrunc s.params.mgmt v) = false → s.link.tick + 1 < s.params.lupDiagTicks →
      Completes .linkTick s { s with
        link := { s.link with tick := s.link.tick + 1 }
        timerArmed := true
        draws := { s.draws with mgmtRead := rest }
        trace := s.trace ++ [.mgmtR s.params.mgmt.status (mgmtTrunc s.params.mgmt v)]
        outcome := some .ok }) ∧
    ∀ (s : State) (v : Word32) (rest : List Word32), Ready s → s.adapter = .running →
      s.link.state = .linkUpWait → s.draws.mgmtRead = v :: rest →
      linkOk s.params.mgmt (mgmtTrunc s.params.mgmt v) = false → s.params.lupDiagTicks ≤ s.link.tick + 1 →
      Completes .linkTick s { s with
        link := { s.link with tick := 0 }
        timerArmed := true
        draws := { s.draws with mgmtRead := rest }
        trace := s.trace ++ [.mgmtR s.params.mgmt.status (mgmtTrunc s.params.mgmt v), .log .linkStillDown]
        outcome := some .ok }

/-- A tick in forced-try-wait (R235, R236, R238), under every interleaving: the first settle tick sets the transceiver's disable bit and the second clears it,
keeping the register's other bits; later, a link seen down is waited for until the limit tick, at which the next permutation is forced. -/
def Obligations.ForcedTickSettlesThenSteps : Prop :=
  (∀ (s : State) (v : Word32) (rest : List Word32) (disable : Bool), Ready s → s.adapter = .running →
      s.link.state = .forcedTryWait → s.draws.mgmtRead = v :: rest →
      (disable = true → s.link.tick + 1 = s.params.ftwSettleOffTick) →
      (disable = false → s.link.tick + 1 ≠ s.params.ftwSettleOffTick ∧ s.link.tick + 1 = s.params.ftwSettleOnTick) →
      Completes .linkTick s { s with
        link := { s.link with tick := s.link.tick + 1 }
        timerArmed := true
        draws := { s.draws with mgmtRead := rest }
        trace := s.trace ++ [.mgmtR s.params.mgmt.tcvrConfig (mgmtTrunc s.params.mgmt v),
          .mgmtW s.params.mgmt.tcvrConfig
            (putBit s.params.mgmt.tcvrDisable (mgmtTrunc s.params.mgmt v) disable)]
        outcome := some .ok }) ∧
    (∀ (s : State) (v : Word32) (rest : List Word32), Ready s → s.adapter = .running →
      s.link.state = .forcedTryWait → s.draws.mgmtRead = v :: rest →
      s.link.tick + 1 ≠ s.params.ftwSettleOffTick → s.link.tick + 1 ≠ s.params.ftwSettleOnTick →
      linkOk s.params.mgmt (mgmtTrunc s.params.mgmt v) = false → s.link.tick + 1 < s.params.ftwLimitTick →
      Completes .linkTick s { s with
        link := { s.link with tick := s.link.tick + 1 }
        timerArmed := true
        draws := { s.draws with mgmtRead := rest }
        trace := s.trace ++ [.mgmtR s.params.mgmt.status (mgmtTrunc s.params.mgmt v)]
        outcome := some .ok }) ∧
    ∀ (s : State) (v : Word32) (rest : List Word32) (p : Fin 4), Ready s → s.adapter = .running →
      s.link.state = .forcedTryWait → s.draws.mgmtRead = v :: rest →
      s.link.tick + 1 ≠ s.params.ftwSettleOffTick → s.link.tick + 1 ≠ s.params.ftwSettleOnTick →
      linkOk s.params.mgmt (mgmtTrunc s.params.mgmt v) = false → s.params.ftwLimitTick ≤ s.link.tick + 1 →
      p.val = s.link.perm.val + 1 →
      Completes .linkTick s { s with
        link := { s.link with perm := p, tick := 0 }
        timerArmed := true
        draws := { s.draws with mgmtRead := rest }
        trace := s.trace ++ [.mgmtR s.params.mgmt.status (mgmtTrunc s.params.mgmt v),
          .mgmtW s.params.mgmt.control (encForced s.params.mgmt (permMode p))]
        outcome := some .ok }

/-- A tick in forced-try-wait that sees the link up (R237), whatever the MAC does meanwhile: the forced mode is reported and the machine sleeps with the
timer disarmed (R241); the mode was committed, with the MAC enabled in its duplex, or the commit failed, which is logged, and the latched
mode is as before. With no agent step in between and a drained MAC it was committed. -/
def Obligations.ForcedTickReportsTheMode : Prop :=
  ∀ (s : State) (v : Word32) (rest : List Word32), Ready s → paramsValid s.params = true → s.adapter = .running →
    s.link.state = .forcedTryWait → s.draws.mgmtRead = v :: rest →
    s.link.tick + 1 ≠ s.params.ftwSettleOffTick → s.link.tick + 1 ≠ s.params.ftwSettleOnTick →
    linkOk s.params.mgmt (mgmtTrunc s.params.mgmt v) = true →
    ∃ t, exec .linkTick s = .next t ∧ t.fault = none ∧ t.lock = none ∧ t.outcome = some .ok ∧
      t.timerArmed = false ∧ (ForcedCommitted s t ∨ ForcedCommitFailed s t) ∧
      (s.sched = [] → s.dev.macEnableSeen = false → ForcedCommitted s t) ∧ OpaqueBitsKept s t ∧ LinkFrame s t

/-- A tick runs Device Reset/Init in timer context (R230, R239), under every interleaving and for every draw: on an adapter that is not ready it is the
delayed retry; in forced-try-wait with the link down at the limit and no permutation left it is logged and the process restarts.
The tick itself answers `Ok` however the reset ends (R304). -/
def Obligations.TickRunsTheReset : Prop :=
  (∀ s : State, Ready s → RingsReady s → s.adapter = .notReady →
      ∃ t o, exec .linkTick s = .next t ∧ t.fault = none ∧ t.lock = none ∧ t.outcome = some .ok ∧ ResetEnded o s t) ∧
    ∀ (s : State) (v : Word32) (rest : List Word32), Ready s → RingsReady s → s.adapter = .running →
      s.link.state = .forcedTryWait → s.draws.mgmtRead = v :: rest →
      s.link.tick + 1 ≠ s.params.ftwSettleOffTick → s.link.tick + 1 ≠ s.params.ftwSettleOnTick →
      linkOk s.params.mgmt (mgmtTrunc s.params.mgmt v) = false → s.params.ftwLimitTick ≤ s.link.tick + 1 →
      s.link.perm = 3 →
      ∃ t o, exec .linkTick s = .next t ∧ t.fault = none ∧ t.lock = none ∧ t.outcome = some .ok ∧
        ResetEnded o { s with link := { s.link with tick := s.link.tick + 1 } } t ∧
        hostTrace s ++ [.mgmtR s.params.mgmt.status (mgmtTrunc s.params.mgmt v), .log .cableProblem] <+: hostTrace t

/-- `RECONFIGURE_LINK` (R229), under every interleaving: a bad combination is a validation error before anything else and changes nothing; a good one on
an adapter that is not running is `NotReady` and changes nothing; with autonegotiation disabled the request is stored and forced at once, from any
link state and bypassing arbitration; with it enabled speed and duplex are neither checked nor stored and negotiation restarts, which ends in
arbitration-wait at the first acknowledge within the poll budget, or in forced mode 0 without one. -/
def Obligations.ReconfigureValidatesThenRestarts : Prop :=
  (∀ (s : State) (an : AutonegArg) (sp : Nat) (dx : DuplexArg), Ready s →
      an = .other ∨ an = .disabled ∧ (sp ≠ 10 ∧ sp ≠ 100 ∨ dx = .other) →
      exec (.reconfigureLink an sp dx) s = .next { s with outcome := some .validationError }) ∧
    (∀ (s : State) (an : AutonegArg) (sp : Nat) (dx : DuplexArg), Ready s →
      an = .enabled ∨ an = .disabled ∧ (sp = 10 ∨ sp = 100) ∧ dx ≠ .other → s.adapter ≠ .running →
      exec (.reconfigureLink an sp dx) s = .next { s with outcome := some .notReady }) ∧
    (∀ (s : State) (p : Fin 4), Ready s → s.adapter = .running →
      Completes (.reconfigureLink .disabled (if (permMode p).speed = .s10 then 10 else 100)
          (if (permMode p).duplex = .half then .half else .full)) s { s with
        link := { s.link with
          autoneg := false
          speedReq := (permMode p).speed
          duplexReq := (permMode p).duplex
          perm := p
          state := .forcedTryWait
          tick := 0
          up := false }
        timerArmed := true
        trace := s.trace ++ [.mgmtW s.params.mgmt.control (encForced s.params.mgmt (permMode p))]
        outcome := some .ok }) ∧
    (∀ (s : State) (sp : Nat) (dx : DuplexArg) (nacks rest : List Word32) (v : Word32), Ready s →
      s.adapter = .running → s.draws.mgmtRead = nacks ++ v :: rest → nacks.length < s.params.anRestartPollBudget →
      (∀ x ∈ nacks, restartAcked s.params.mgmt (mgmtTrunc s.params.mgmt x) = false) →
      restartAcked s.params.mgmt (mgmtTrunc s.params.mgmt v) = true →
      Completes (.reconfigureLink .enabled sp dx) s { s with
        link := { s.link with autoneg := true, state := .arbitrationWait, tick := 0, up := false }
        timerArmed := true
        draws := { s.draws with mgmtRead := rest }
        trace := s.trace ++ [.mgmtW s.params.mgmt.advertise (encAdv s.params.mgmt s.params.advertised),
          .mgmtW s.params.mgmt.control (encAnStart s.params.mgmt)] ++
          (nacks ++ [v]).map (fun x => .mgmtR s.params.mgmt.control (mgmtTrunc s.params.mgmt x))
        outcome := some .ok }) ∧
    ∀ (s : State) (sp : Nat) (dx : DuplexArg) (nacks rest : List Word32), Ready s → s.adapter = .running →
      s.draws.mgmtRead = nacks ++ rest → nacks.length = s.params.anRestartPollBudget →
      (∀ x ∈ nacks, restartAcked s.params.mgmt (mgmtTrunc s.params.mgmt x) = false) →
      Completes (.reconfigureLink .enabled sp dx) s { s with
        link := { s.link with autoneg := true, perm := 0, state := .forcedTryWait, tick := 0, up := false }
        timerArmed := true
        draws := { s.draws with mgmtRead := rest }
        trace := s.trace ++ [.mgmtW s.params.mgmt.advertise (encAdv s.params.mgmt s.params.advertised),
          .mgmtW s.params.mgmt.control (encAnStart s.params.mgmt)] ++
          nacks.map (fun x => .mgmtR s.params.mgmt.control (mgmtTrunc s.params.mgmt x)) ++
          [.log .anRestartNoAck, .mgmtW s.params.mgmt.control (encForced s.params.mgmt ⟨.s100, .full⟩)]
        outcome := some .ok }

/-- `TIMER_FIRE` (R287): refused while the timer is disarmed; otherwise the tick of a state with the timer disarmed. So a tick that sees the link up
leaves the timer disarmed, under every interleaving (R241). -/
def Obligations.TimerFireDisarmsThenTicks : Prop :=
  (∀ s : State, Alive s → s.timerArmed = false → exec .timerFire s = .refused .agentNotEnabled) ∧
    (∀ s : State, Ready s → s.timerArmed = true → exec .timerFire s = exec .linkTick { s with timerArmed := false }) ∧
    ∀ (s : State) (v : Word32) (rest : List Word32), Ready s → s.timerArmed = true → s.adapter = .running →
      s.link.state = .linkUpWait → s.draws.mgmtRead = v :: rest →
      linkOk s.params.mgmt (mgmtTrunc s.params.mgmt v) = true →
      Completes .timerFire s { s with
        link := { s.link with tick := s.link.tick + 1, up := true, state := .asleep }
        timerArmed := false
        draws := { s.draws with mgmtRead := rest }
        trace := s.trace ++ [.mgmtR s.params.mgmt.status (mgmtTrunc s.params.mgmt v), .linkUp s.link.committed]
        outcome := some .ok }

/-! ### Interrupt -/

/-- `IRQ` (R210 to R212, R216, R286), under every interleaving: it never runs while delivery is not acquired; a status read as 0 is `NotMine`
and nothing but the read; on an adapter that is not ready, and for unclassified bits alone, the status is read, cleared and discarded. -/
def Obligations.IrqWithNothingToDo : Prop :=
  (∀ s : State, Alive s → s.irqAcquired = false → exec .irq s = .refused .irqNotAcquired) ∧
    (∀ s u : State, Ready s → s.irqAcquired = true → u = interleave s → u.dev.status = 0 →
      exec .irq s = .next { u with trace := u.trace ++ [.mmioR .status 0], outcome := some .notMine }) ∧
    ∀ s u : State, Ready s → s.irqAcquired = true → u = interleave s → u.dev.status ≠ 0 →
      s.adapter ≠ .running ∨ isFatal s.params.status u.dev.status = false ∧
        isTxDone s.params.status u.dev.status = false ∧ isRxDone s.params.status u.dev.status = false →
      exec .irq s = .next { u with
        dev := { u.dev with status := 0 }
        trace := u.trace ++ [.mmioR .status u.dev.status]
        outcome := some .handled }

/-- `IRQ` with a fatal bit (R213, R307), under every interleaving and for every draw: Device Reset/Init runs in interrupt context and nothing else
of the status word is processed, so no counter moves; the handler answers `Handled` however the reset ends. -/
def Obligations.IrqFatalDominates : Prop :=
  ∀ s : State, Ready s → RingsReady s → s.irqAcquired = true → s.adapter = .running →
    isFatal s.params.status s.dev.status = true →
    ∃ t o v, exec .irq s = .next t ∧ t.fault = none ∧ t.lock = none ∧ t.outcome = some .handled ∧ ResetEnded o s t ∧
      isFatal s.params.status v = true ∧ hostTrace s ++ [.mmioR .status 0, .log .fatalError] <+: hostTrace t ∧
      Event.mmioR .status v ∈ t.trace

/-- `IRQ` with completion bits and no fatal bit (R214, R215, R307), with no agent step in between: with transmit bits the transmit ring is reclaimed;
then, with receive bits, alone or beside them, the receive ring is walked; here the walk meets one short or overflowed packet, which is
dropped and its slot posted again. -/
def Obligations.IrqReclaimsThenReceives : Prop :=
  (∀ (s : State) (base : Nat) (entries : List TxEntry), Ready s → s.irqAcquired = true → s.adapter = .running →
      paramsValid s.params = true → s.sched = [] → CursorsInRange s → LaidOut s → s.tx.base = some base →
      Reclaimable s base entries → (entries.map (·.handle)).Nodup →
      (∀ e ∈ entries, mapHas s.liveMaps e.handle = true) → isFatal s.params.status s.dev.status = false →
      isTxDone s.params.status s.dev.status = true → isRxDone s.params.status s.dev.status = false →
      exec .irq s = .next { woken (reclaimed { s with
        dev := { s.dev with status := 0 }
        trace := s.trace ++ [.mmioR .status s.dev.status] } entries) with outcome := some .handled }) ∧
    (∀ (s : State) (base len da csum : Nat) (ov : Bool) (e : RxEntry), Ready s → s.irqAcquired = true →
      s.adapter = .running → s.sched = [] → OneCompleted s base len ov csum e da →
      len < s.params.rxMinFrame ∨ ov = true → isFatal s.params.status s.dev.status = false →
      isTxDone s.params.status s.dev.status = false → isRxDone s.params.status s.dev.status = true →
      exec .irq s = .next { republished { s with
          dev := { s.dev with status := 0 }
          trace := s.trace ++ [.mmioR .status s.dev.status] } base da with
        counters := { s.counters with rxErrors := s.counters.rxErrors + 1, rxDropped := s.counters.rxDropped + 1 }
        outcome := some .handled }) ∧
    ∀ (s : State) (base rbase len da csum : Nat) (ov : Bool) (e : RxEntry) (entries : List TxEntry), Ready s →
      s.irqAcquired = true → s.adapter = .running → s.sched = [] → CursorsInRange s → s.tx.base = some base →
      Reclaimable s base entries → (entries.map (·.handle)).Nodup →
      (∀ x ∈ entries, mapHas s.liveMaps x.handle = true ∧ x.handle ≠ e.handle) →
      OneCompleted s rbase len ov csum e da → len < s.params.rxMinFrame ∨ ov = true →
      isFatal s.params.status s.dev.status = false → isTxDone s.params.status s.dev.status = true →
      isRxDone s.params.status s.dev.status = true →
      ∃ t, exec .irq s = .next t ∧ t.outcome = some .handled ∧ t.dev = { s.dev with status := 0 } ∧
        t.tx = (woken (reclaimed s entries)).tx ∧ t.rx = { s.rx with cursor := (s.rx.cursor + 1) % s.params.nRx } ∧
        t.trace = s.trace ++ [.mmioR .status s.dev.status] ++
          (woken (reclaimed { s with trace := [] } entries)).trace ++
          (republished { s with trace := [] } rbase da).trace ∧
        t.counters = { (reclaimed s entries).counters with
          rxErrors := s.counters.rxErrors + 1, rxDropped := s.counters.rxDropped + 1 } ∧
        t.liveMaps = (reclaimed s entries).liveMaps ∧ t.pkts = (reclaimed s entries).pkts ∧
        t.wb = (republished s rbase da).wb ∧ t.mem = s.mem ∧ t.liveBuffers = s.liveBuffers ∧
        t.bufMem = (reclaimed s entries).bufMem ∧ t.dmaMem = s.dmaMem ∧
        t.syncWindows = mapErase (reclaimed s entries).syncWindows (BitVec.ofNat 32 da).toNat ∧ t.link = s.link ∧ t.adapter = s.adapter ∧ t.timerArmed = s.timerArmed ∧ t.irqAcquired = s.irqAcquired

/-! ### Lifecycle -/

/-- `OPEN` (R260, R261, R309): an adapter that is not closed answers `AlreadyOpen` and nothing changes; without interrupt delivery nothing but the
outcome changes; with it, under every interleaving and for every draw, the reset succeeds and the adapter runs, or it fails, everything is
torn down again and the reset's outcome is returned; which of them, the draws decide (R334 to R337). -/
def Obligations.OpenIsAllOrNothing : Prop :=
  (∀ s : State, Ready s → s.adapter ≠ .closed → exec .openAdapter s = .next { s with outcome := some .alreadyOpen }) ∧
    (∀ (s : State) (rest : List Bool), Ready s → s.adapter = .closed → s.draws.irqAcquire = false :: rest →
      Completes .openAdapter s
        { s with draws := { s.draws with irqAcquire := rest }, outcome := some .irqUnavailable }) ∧
    ∀ (s : State) (rest : List Bool), Ready s → RingsReady s → s.adapter = .closed →
      s.draws.irqAcquire = true :: rest →
      ∃ t, exec .openAdapter s = .next t ∧ t.fault = none ∧ t.lock = none ∧
        hostTrace s ++ [.irqAcquire] <+: hostTrace t ∧
        (t.outcome = some .ok ∧ ResetSucceeded { s with irqAcquired := true } t ∨
          (t.outcome = some .resourceExhausted ∨ t.outcome = some .linkTypeUnknown) ∧ TornDown s t ∧
            (hostTrace t).getLast? = some .irqRelease) ∧
        ∀ o : OpOutcome, DrawsDecide s o → t.outcome = some o

/-- `CLOSE` (R262): on a closed adapter nothing changes; otherwise, under every interleaving, the timer is cancelled, the hardware quiesced and masked
before the rings are emptied, every receive buffer the rings held is freed, and the adapter is closed as R346 says. -/
def Obligations.CloseTearsDown : Prop :=
  (∀ s : State, Ready s → s.adapter = .closed → exec .closeAdapter s = .next { s with outcome := some .ok }) ∧
    ∀ s : State, Ready s → RingsReady s → s.adapter ≠ .closed →
      ∃ t, exec .closeAdapter s = .next t ∧ t.fault = none ∧ t.lock = none ∧ t.outcome = some .ok ∧ TornDown s t ∧
        hostTrace s ++ [.mmioW .txrxCtrl .quiesce, .mmioW .intMask .masked] <+: hostTrace t ∧
        (hostTrace t).getLast? = some .irqRelease

/-- `TX_TIMEOUT` and `WATCHDOG_FIRE` (R263, R291): on a closed adapter the one does nothing and the other is not enabled; otherwise both run Device
Reset/Init in process context, under every interleaving and for every draw, and answer `Ok` however it ends (R304). -/
def Obligations.TimeoutRunsTheReset : Prop :=
  (∀ s : State, Ready s → s.adapter = .closed → exec .txTimeout s = .next { s with outcome := some .ok }) ∧
    (∀ s : State, Alive s → s.adapter = .closed → exec .watchdogFire s = .refused .agentNotEnabled) ∧
    ∀ (i : Instr) (s : State), i = .txTimeout ∨ i = .watchdogFire → Ready s → RingsReady s → s.adapter ≠ .closed →
      ∃ t o, exec i s = .next t ∧ t.fault = none ∧ t.lock = none ∧ t.outcome = some .ok ∧ ResetEnded o s t

/-- `SET_MCAST` (R264): on a closed adapter nothing changes; otherwise, under every interleaving, the request is reported and the writes that
the parameter `FILTER_PROGRAM` lists for it are performed in order, each after the pending descriptor writes; nothing else changes. -/
def Obligations.SetMcastProgramsTheFilter : Prop :=
  (∀ (s : State) (req : FilterRequest), Ready s → s.adapter = .closed →
      exec (.setMcast req) s = .next { s with outcome := some .ok }) ∧
    ∀ (s : State) (req : FilterRequest), Ready s → s.adapter ≠ .closed →
      Completes (.setMcast req) s { (filterProgram s.params req).foldl
        (fun u w => emitted (.mmioW (.filter w.1) (.word w.2)) (drain u))
        { s with trace := s.trace ++ [.filterProgram req] } with outcome := some .ok }

/-- `RESET_INIT` (R330 to R342, R346) in any context, under every interleaving and for every draw: it ends, without a fault, in the column of R346 that its outcome
names, which the draws decide where enough of them are supplied: every allocation and mapping granted and the transceiver known give
`Ok`, a failed one `ResourceExhausted`, an unknown transceiver `LinkTypeUnknown`; it begins by quiescing and masking; a success ends with the fixed parameters written, ring bases among them where the list names them
(R339), the MAC and the engines enabled, the interrupt armed, the queue woken and negotiation begun; status bits already pending stay pending. -/
def Obligations.ResetInitEndsAsTheTableSays : Prop :=
  ∀ (ctx : Context) (s : State), Alive s → RingsReady s →
    ∃ t o, exec (.resetInit ctx) s = .next t ∧ t.fault = none ∧ t.lock = s.lock ∧ t.outcome = some o ∧ ResetEnded o s t ∧
      hostTrace s ++ [.mmioW .txrxCtrl .quiesce, .mmioW .intMask .masked] <+: hostTrace t ∧
      (o = .ok → ∃ l l', hostTrace t = l ++
        (fixedWrites s).map (fun w => .mmioW (.fixedParams w.1) (.word w.2)) ++
        [.mmioR .macTxcfg 0, .mmioW .macTxcfg (.word t.dev.macTxcfg), .mmioW .txrxCtrl .enable, .mmioW .intMask .armed,
          .queueWake] ++ l') ∧
      s.dev.status &&& t.dev.status = s.dev.status

/-! ### Invariants -/

/-- Every step keeps every table of the state in its canonical form: descriptor memory, shadows, buffers, mappings, packets and payloads. -/
def Obligations.StepKeepsCanonicalForm : Prop := ∀ s t : State, Canonical s → step s = .next t → Canonical t

/-- Every step keeps the rings' geometry: cursors are slots of their rings (R24, R25, R28), the rings' memory lies where R51, R61 and R293 allow, and the
pending writes stay in program order, to aligned words, and within the epoch in force (R45, R73). -/
def Obligations.StepKeepsRingGeometry : Prop :=
  ∀ s t : State, CursorsInRange s → LaidOut s → WritesOrdered s → step s = .next t →
    CursorsInRange t ∧ LaidOut t ∧ WritesOrdered t

/-- No step changes the parameters or the memory of a ring that has some (R51), takes an event back from the trace (R50), or, unless it
ends in a fault, leaves the lock taken that was free (R311). -/
def Obligations.StepKeepsConfiguration : Prop :=
  ∀ s t : State, step s = .next t →
    ConfigKept s t ∧ s.trace <+: t.trace ∧ (s.lock = none → t.fault = none → t.lock = none)

/-- No step changes a bit of the MAC's transmit configuration other than `TX_ENABLE` and `FULL_DUPLEX` (R42, R115). -/
def Obligations.StepKeepsOpaqueMacBits : Prop := ∀ s t : State, step s = .next t → OpaqueBitsKept s t

/-- Every step keeps the tick counter within the bounds of R31 and R245, with the tick literals of the source. -/
def Obligations.StepKeepsTicksBounded : Prop :=
  ∀ s t : State, SourceTicks s.params → TickBounded s → step s = .next t → TickBounded t

/-- Every operation that a caller, the device, the timer or the watchdog starts, and every agent step, keeps R55, item 6, when it ends without a fault: the
timer is armed exactly while the machine polls or a failed reset waits for its retry. -/
def Obligations.OperationsKeepTheTimerConsistent : Prop :=
  ∀ (i : Instr) (s t : State), i.opClass ≠ .internal → TimerConsistent s → exec i s = .next t → t.fault = none → TimerConsistent t

/-- Every operation that a caller, the device, the timer or the watchdog starts, and every agent step, keeps, when it ends without a fault: R55, items 1,
2 and 5 and the first half of item 4 (every slot posted while the adapter runs; the count of host-owned receive slots is not stated), and
the bookkeeping of packets (R47); item 3, in both views of memory, for which an operation that has reset the rings waits (log entry 32), with
the pending writes that bear on it; and that the block holds exactly the receive buffers (R46). -/
def Obligations.OperationsKeepTheShadowsConsistent : Prop :=
  ∀ (i : Instr) (s t : State), i.opClass ≠ .internal → paramsValid s.params = true → Canonical s →
    ShadowsConsistent s → exec i s = .next t → t.fault = none →
    ShadowsConsistent t ∧
      (LaidOut s → WritesOrdered s → FreeSlotsHostOwned s → TxWritesSettled s →
        FreeSlotsHostOwned t ∧ TxWritesSettled t) ∧
      (BuffersHeld s → BuffersHeld t)

/-- The state right after reset (R347): the adapter closed, delivery not acquired, the mask masked, the engines off, the timer disarmed, the link
asleep at tick 0, and no fault; and it meets the invariants. -/
def Obligations.ResetStateMeetsTheInvariants : Prop :=
  State.reset.adapter = .closed ∧ State.reset.irqAcquired = false ∧ State.reset.dev.intArmed = false ∧
    State.reset.dev.txDmaOn = false ∧ State.reset.dev.rxDmaOn = false ∧ State.reset.timerArmed = false ∧
    State.reset.link.state = .asleep ∧ State.reset.link.tick = 0 ∧ Ready State.reset ∧
    paramsValid State.reset.params = true ∧ Canonical State.reset ∧ CursorsInRange State.reset ∧
    LaidOut State.reset ∧ WritesOrdered State.reset ∧ SourceTicks State.reset.params ∧ TickBounded State.reset ∧
    TimerConsistent State.reset ∧ ShadowsConsistent State.reset ∧ FreeSlotsHostOwned State.reset ∧
    TxWritesSettled State.reset ∧ BuffersHeld State.reset

/-- Creation (R345), from any valid parameters: the first two steps run `RING_ALLOC tx, N_TX` and `RING_ALLOC rx, N_RX`; with ring memory granted where R51, R61
and R293 allow it, both rings are then ready and nothing is left to take, and the block is as R347 says: the adapter closed, delivery not
acquired, the mask masked, the engines off, the timer disarmed, the link asleep at tick 0. -/
def Obligations.CreationAllocatesBothRings : Prop :=
  ∀ (p : Params) (tx rx : Nat) (d : Draws) (rest : List (Option Nat)), paramsValid p = true → fits32 p.nTx = true →
    fits32 p.nRx = true → d.ringMemory = some tx :: some rx :: rest → BaseAllowed p .tx tx → BaseAllowed p .rx rx →
    BasesApart p tx rx →
    ∃ t u, step { State.create p with draws := d } = .next t ∧ t.outcome = some .ok ∧ step t = .next u ∧
      u.outcome = some .ok ∧ u.tx.base = some tx ∧ u.rx.base = some rx ∧ u.queue = [] ∧ RingsReady u ∧ Ready u ∧
      FreeSlotsHostOwned u ∧ TxWritesSettled u ∧ BuffersHeld u ∧
      u.adapter = .closed ∧ u.irqAcquired = false ∧ u.dev.intArmed = false ∧ u.dev.txDmaOn = false ∧
      u.dev.rxDmaOn = false ∧ u.timerArmed = false ∧ u.link.state = .asleep ∧ u.link.tick = 0

/-- Creation that meets a ring without memory leaves no block (R345): `RING_ALLOC` answers `ResourceExhausted`, for either ring, and from
then on every operation and every agent step is refused and no step is taken. -/
def Obligations.CreationFailureLeavesNoBlock : Prop :=
  (∀ (p : Params) (d : Draws) (rest : List (Option Nat)), paramsValid p = true → fits32 p.nTx = true →
      d.ringMemory = none :: rest →
      ∃ t, step { State.create p with draws := d } = .next t ∧ t.outcome = some .resourceExhausted ∧
        t.absent = true ∧ t.fault = none) ∧
    (∀ (p : Params) (tx : Nat) (d : Draws) (rest : List (Option Nat)), paramsValid p = true → fits32 p.nTx = true →
      fits32 p.nRx = true → d.ringMemory = some tx :: none :: rest → BaseAllowed p .tx tx →
      ∃ t u, step { State.create p with draws := d } = .next t ∧ step t = .next u ∧
        u.outcome = some .resourceExhausted ∧ u.absent = true ∧ u.fault = none) ∧
    ∀ s : State, s.fault = none → s.absent = true →
      (∀ i : Instr, exec i s = .refused .notCreated) ∧ ∀ t, step s ≠ .next t
end

