-- ==== Sys2Proof/Laws/Monad.lean ====
section
/-! SUPPORT. How a piece of a host operation runs: the equations that take the micro-step programs apart, and the rule that carries
a relation between states through a program. -/

-- One theorem at a time: checked together they ask for more threads than the check allows.
set_option Elab.async false

namespace Sys2Proof.Laws

open Sys2Proof.Machine

/-! ### Running a program -/

@[simp] theorem run_bind {α β : Type} (m : M α) (f : α → M β) (s : State) :
    (m >>= f) s = match m s with
      | .ok a t => f a t
      | .error e t => .error e t := by
  show EStateM.bind m f s = _
  unfold EStateM.bind
  cases m s <;> rfl

@[simp] theorem run_map {α β : Type} (m : M α) (f : α → β) (s : State) :
    (f <$> m) s = match m s with
      | .ok a t => .ok (f a) t
      | .error e t => .error e t := by
  show EStateM.map f m s = _
  unfold EStateM.map
  cases m s <;> rfl

@[simp] theorem run_pure {α : Type} (a : α) (s : State) : (pure a : M α) s = .ok a s := rfl

@[simp] theorem run_getState (s : State) : getState s = .ok s s := rfl

@[simp] theorem run_update (f : State → State) (s : State) : update f s = .ok () (f s) := rfl

@[simp] theorem run_raise {α : Type} (r : Fault) (s : State) :
    (raise r : M α) s = .error .faulted { s with fault := some r } := rfl

@[simp] theorem run_refuse {α : Type} (r : Refusal) (s : State) :
    (refuse r : M α) s = .error (.refused r) s := rfl

@[simp] theorem run_boundary (s : State) : boundary s = .ok () (interleave s) := rfl

@[simp] theorem run_ite {α : Type} (c : Prop) [Decidable c] (m n : M α) (s : State) :
    (if c then m else n) s = if c then m s else n s := by split <;> rfl

@[simp] theorem interleave_nil (s : State) (h : s.sched = []) : interleave s = s := by
  simp [interleave, h]

/-! ### Carrying a relation through a program -/

/-- Every state the program ends in, normally or not, is related to the state it began in. -/
def Keeps (R : State → State → Prop) {α : Type} (m : M α) : Prop :=
  ∀ s, match m s with
    | .ok _ t => R s t
    | .error _ t => R s t

/-- A relation that can be carried along: it holds of no change and composes. -/
structure Carried (R : State → State → Prop) : Prop where
  refl : ∀ s, R s s
  trans : ∀ {s t u}, R s t → R t u → R s u

theorem Keeps.pure {R : State → State → Prop} (hR : Carried R) {α : Type} (a : α) : Keeps R (pure a : M α) :=
  fun s => hR.refl s

theorem Keeps.getState {R : State → State → Prop} (hR : Carried R) : Keeps R getState := fun s => hR.refl s

theorem Keeps.refuse {R : State → State → Prop} (hR : Carried R) {α : Type} (r : Refusal) :
    Keeps R (Machine.refuse r : M α) := fun s => hR.refl s

theorem Keeps.raise {R : State → State → Prop} {α : Type} (r : Fault) (h : ∀ s, R s { s with fault := some r }) :
    Keeps R (Machine.raise r : M α) := fun s => h s

theorem Keeps.update {R : State → State → Prop} {f : State → State} (h : ∀ s, R s (f s)) :
    Keeps R (Machine.update f) := fun s => h s

theorem Keeps.bind {R : State → State → Prop} (hR : Carried R) {α β : Type} {m : M α} {f : α → M β}
    (hm : Keeps R m) (hf : ∀ a, Keeps R (f a)) : Keeps R (m >>= f) := by
  intro s
  have h := hm s
  rw [run_bind]
  cases hms : m s with
  | error e t => simpa [hms] using h
  | ok a t =>
    rw [hms] at h
    have h' := hf a t
    cases hft : f a t <;> rw [hft] at h' <;> simpa [hft] using hR.trans h h'

/-- The reading rule: what follows `getState` may use the state read. -/
theorem Keeps.read {R : State → State → Prop} {β : Type} {f : State → M β}
    (hf : ∀ s, match f s s with
      | .ok _ t => R s t
      | .error _ t => R s t) : Keeps R (Machine.getState >>= f) := fun s => hf s

theorem Keeps.ite {R : State → State → Prop} {α : Type} {c : Prop} [Decidable c] {m n : M α}
    (hm : Keeps R m) (hn : Keeps R n) : Keeps R (if c then m else n) := by
  split
  · exact hm
  · exact hn

theorem Keeps.forRange {R : State → State → Prop} (hR : Carried R) {body : Nat → M Unit}
    (h : ∀ i, Keeps R (body i)) : ∀ n i, Keeps R (Machine.forRange body n i)
  | 0, _ => Keeps.pure hR ()
  | n + 1, i => Keeps.bind hR (h i) fun _ => Keeps.forRange hR h n (i + 1)

end Sys2Proof.Laws
end

