-- ==== Sys2Proof/Laws/State.lean ====
section
/-! SUPPORT. One lemma for each field and each named update of the state, so that no proof unfolds a record update. -/

-- One theorem at a time: checked together they ask for more threads than the check allows.
set_option Elab.async false

namespace Sys2Proof.Laws

open Sys2Proof.Machine

variable (s : State)

/-! ### `emitted` -/

@[simp] theorem emitted_params (e : Event) : (emitted e s).params = s.params := rfl
@[simp] theorem emitted_adapter (e : Event) : (emitted e s).adapter = s.adapter := rfl
@[simp] theorem emitted_irqAcquired (e : Event) : (emitted e s).irqAcquired = s.irqAcquired := rfl
@[simp] theorem emitted_tx (e : Event) : (emitted e s).tx = s.tx := rfl
@[simp] theorem emitted_rx (e : Event) : (emitted e s).rx = s.rx := rfl
@[simp] theorem emitted_link (e : Event) : (emitted e s).link = s.link := rfl
@[simp] theorem emitted_timerArmed (e : Event) : (emitted e s).timerArmed = s.timerArmed := rfl
@[simp] theorem emitted_counters (e : Event) : (emitted e s).counters = s.counters := rfl
@[simp] theorem emitted_dev (e : Event) : (emitted e s).dev = s.dev := rfl
@[simp] theorem emitted_mem (e : Event) : (emitted e s).mem = s.mem := rfl
@[simp] theorem emitted_wb (e : Event) : (emitted e s).wb = s.wb := rfl
@[simp] theorem emitted_epoch (e : Event) : (emitted e s).epoch = s.epoch := rfl
@[simp] theorem emitted_liveBuffers (e : Event) : (emitted e s).liveBuffers = s.liveBuffers := rfl
@[simp] theorem emitted_liveMaps (e : Event) : (emitted e s).liveMaps = s.liveMaps := rfl
@[simp] theorem emitted_pkts (e : Event) : (emitted e s).pkts = s.pkts := rfl
@[simp] theorem emitted_bufMem (e : Event) : (emitted e s).bufMem = s.bufMem := rfl
@[simp] theorem emitted_dmaMem (e : Event) : (emitted e s).dmaMem = s.dmaMem := rfl
@[simp] theorem emitted_syncWindows (e : Event) : (emitted e s).syncWindows = s.syncWindows := rfl
@[simp] theorem emitted_fault (e : Event) : (emitted e s).fault = s.fault := rfl
@[simp] theorem emitted_absent (e : Event) : (emitted e s).absent = s.absent := rfl
@[simp] theorem emitted_trace (e : Event) : (emitted e s).trace = s.trace ++ [e] := rfl
@[simp] theorem emitted_lock (e : Event) : (emitted e s).lock = s.lock := rfl
@[simp] theorem emitted_outcome (e : Event) : (emitted e s).outcome = s.outcome := rfl
@[simp] theorem emitted_nextPkt (e : Event) : (emitted e s).nextPkt = s.nextPkt := rfl
@[simp] theorem emitted_queue (e : Event) : (emitted e s).queue = s.queue := rfl
@[simp] theorem emitted_sched (e : Event) : (emitted e s).sched = s.sched := rfl
@[simp] theorem emitted_draws (e : Event) : (emitted e s).draws = s.draws := rfl
@[simp] theorem emitted_drawCount (e : Event) : (emitted e s).drawCount = s.drawCount := rfl
@[simp] theorem emitted_payloadCount (e : Event) : (emitted e s).payloadCount = s.payloadCount := rfl

/-! ### `pushWrite` -/

@[simp] theorem pushWrite_params (a : Nat) (v : Word32) : (pushWrite a v s).params = s.params := rfl
@[simp] theorem pushWrite_adapter (a : Nat) (v : Word32) : (pushWrite a v s).adapter = s.adapter := rfl
@[simp] theorem pushWrite_irqAcquired (a : Nat) (v : Word32) : (pushWrite a v s).irqAcquired = s.irqAcquired := rfl
@[simp] theorem pushWrite_tx (a : Nat) (v : Word32) : (pushWrite a v s).tx = s.tx := rfl
@[simp] theorem pushWrite_rx (a : Nat) (v : Word32) : (pushWrite a v s).rx = s.rx := rfl
@[simp] theorem pushWrite_link (a : Nat) (v : Word32) : (pushWrite a v s).link = s.link := rfl
@[simp] theorem pushWrite_timerArmed (a : Nat) (v : Word32) : (pushWrite a v s).timerArmed = s.timerArmed := rfl
@[simp] theorem pushWrite_counters (a : Nat) (v : Word32) : (pushWrite a v s).counters = s.counters := rfl
@[simp] theorem pushWrite_dev (a : Nat) (v : Word32) : (pushWrite a v s).dev = s.dev := rfl
@[simp] theorem pushWrite_mem (a : Nat) (v : Word32) : (pushWrite a v s).mem = s.mem := rfl
@[simp] theorem pushWrite_wb (a : Nat) (v : Word32) : (pushWrite a v s).wb = s.wb ++ [⟨a, v, s.epoch⟩] := rfl
@[simp] theorem pushWrite_epoch (a : Nat) (v : Word32) : (pushWrite a v s).epoch = s.epoch := rfl
@[simp] theorem pushWrite_liveBuffers (a : Nat) (v : Word32) : (pushWrite a v s).liveBuffers = s.liveBuffers := rfl
@[simp] theorem pushWrite_liveMaps (a : Nat) (v : Word32) : (pushWrite a v s).liveMaps = s.liveMaps := rfl
@[simp] theorem pushWrite_pkts (a : Nat) (v : Word32) : (pushWrite a v s).pkts = s.pkts := rfl
@[simp] theorem pushWrite_bufMem (a : Nat) (v : Word32) : (pushWrite a v s).bufMem = s.bufMem := rfl
@[simp] theorem pushWrite_dmaMem (a : Nat) (v : Word32) : (pushWrite a v s).dmaMem = s.dmaMem := rfl
@[simp] theorem pushWrite_syncWindows (a : Nat) (v : Word32) : (pushWrite a v s).syncWindows = s.syncWindows := rfl
@[simp] theorem pushWrite_fault (a : Nat) (v : Word32) : (pushWrite a v s).fault = s.fault := rfl
@[simp] theorem pushWrite_absent (a : Nat) (v : Word32) : (pushWrite a v s).absent = s.absent := rfl
@[simp] theorem pushWrite_trace (a : Nat) (v : Word32) : (pushWrite a v s).trace = s.trace ++ [.descW a v] := rfl
@[simp] theorem pushWrite_lock (a : Nat) (v : Word32) : (pushWrite a v s).lock = s.lock := rfl
@[simp] theorem pushWrite_outcome (a : Nat) (v : Word32) : (pushWrite a v s).outcome = s.outcome := rfl
@[simp] theorem pushWrite_nextPkt (a : Nat) (v : Word32) : (pushWrite a v s).nextPkt = s.nextPkt := rfl
@[simp] theorem pushWrite_queue (a : Nat) (v : Word32) : (pushWrite a v s).queue = s.queue := rfl
@[simp] theorem pushWrite_sched (a : Nat) (v : Word32) : (pushWrite a v s).sched = s.sched := rfl
@[simp] theorem pushWrite_draws (a : Nat) (v : Word32) : (pushWrite a v s).draws = s.draws := rfl
@[simp] theorem pushWrite_drawCount (a : Nat) (v : Word32) : (pushWrite a v s).drawCount = s.drawCount := rfl
@[simp] theorem pushWrite_payloadCount (a : Nat) (v : Word32) : (pushWrite a v s).payloadCount = s.payloadCount := rfl

/-! ### `writeVisible` -/

@[simp] theorem writeVisible_params (a : Nat) (v : Word32) : (writeVisible a v s).params = s.params := rfl
@[simp] theorem writeVisible_adapter (a : Nat) (v : Word32) : (writeVisible a v s).adapter = s.adapter := rfl
@[simp] theorem writeVisible_irqAcquired (a : Nat) (v : Word32) :
    (writeVisible a v s).irqAcquired = s.irqAcquired := rfl
@[simp] theorem writeVisible_tx (a : Nat) (v : Word32) : (writeVisible a v s).tx = s.tx := rfl
@[simp] theorem writeVisible_rx (a : Nat) (v : Word32) : (writeVisible a v s).rx = s.rx := rfl
@[simp] theorem writeVisible_link (a : Nat) (v : Word32) : (writeVisible a v s).link = s.link := rfl
@[simp] theorem writeVisible_timerArmed (a : Nat) (v : Word32) : (writeVisible a v s).timerArmed = s.timerArmed := rfl
@[simp] theorem writeVisible_counters (a : Nat) (v : Word32) : (writeVisible a v s).counters = s.counters := rfl
@[simp] theorem writeVisible_dev (a : Nat) (v : Word32) : (writeVisible a v s).dev = s.dev := rfl
@[simp] theorem writeVisible_mem (a : Nat) (v : Word32) :
    (writeVisible a v s).mem = writeWord s.params.desc.byteOrder s.mem a v := rfl
@[simp] theorem writeVisible_wb (a : Nat) (v : Word32) : (writeVisible a v s).wb = s.wb := rfl
@[simp] theorem writeVisible_epoch (a : Nat) (v : Word32) : (writeVisible a v s).epoch = s.epoch := rfl
@[simp] theorem writeVisible_liveBuffers (a : Nat) (v : Word32) :
    (writeVisible a v s).liveBuffers = s.liveBuffers := rfl
@[simp] theorem writeVisible_liveMaps (a : Nat) (v : Word32) : (writeVisible a v s).liveMaps = s.liveMaps := rfl
@[simp] theorem writeVisible_pkts (a : Nat) (v : Word32) : (writeVisible a v s).pkts = s.pkts := rfl
@[simp] theorem writeVisible_bufMem (a : Nat) (v : Word32) : (writeVisible a v s).bufMem = s.bufMem := rfl
@[simp] theorem writeVisible_dmaMem (a : Nat) (v : Word32) : (writeVisible a v s).dmaMem = s.dmaMem := rfl
@[simp] theorem writeVisible_syncWindows (a : Nat) (v : Word32) :
    (writeVisible a v s).syncWindows = s.syncWindows := rfl
@[simp] theorem writeVisible_fault (a : Nat) (v : Word32) : (writeVisible a v s).fault = s.fault := rfl
@[simp] theorem writeVisible_absent (a : Nat) (v : Word32) : (writeVisible a v s).absent = s.absent := rfl
@[simp] theorem writeVisible_trace (a : Nat) (v : Word32) :
    (writeVisible a v s).trace = s.trace ++ [.devSees a v] := rfl
@[simp] theorem writeVisible_lock (a : Nat) (v : Word32) : (writeVisible a v s).lock = s.lock := rfl
@[simp] theorem writeVisible_outcome (a : Nat) (v : Word32) : (writeVisible a v s).outcome = s.outcome := rfl
@[simp] theorem writeVisible_nextPkt (a : Nat) (v : Word32) : (writeVisible a v s).nextPkt = s.nextPkt := rfl
@[simp] theorem writeVisible_queue (a : Nat) (v : Word32) : (writeVisible a v s).queue = s.queue := rfl
@[simp] theorem writeVisible_sched (a : Nat) (v : Word32) : (writeVisible a v s).sched = s.sched := rfl
@[simp] theorem writeVisible_draws (a : Nat) (v : Word32) : (writeVisible a v s).draws = s.draws := rfl
@[simp] theorem writeVisible_drawCount (a : Nat) (v : Word32) : (writeVisible a v s).drawCount = s.drawCount := rfl
@[simp] theorem writeVisible_payloadCount (a : Nat) (v : Word32) :
    (writeVisible a v s).payloadCount = s.payloadCount := rfl

/-! ### `countDraw` -/

@[simp] theorem countDraw_params : (countDraw s).params = s.params := rfl
@[simp] theorem countDraw_adapter : (countDraw s).adapter = s.adapter := rfl
@[simp] theorem countDraw_irqAcquired : (countDraw s).irqAcquired = s.irqAcquired := rfl
@[simp] theorem countDraw_tx : (countDraw s).tx = s.tx := rfl
@[simp] theorem countDraw_rx : (countDraw s).rx = s.rx := rfl
@[simp] theorem countDraw_link : (countDraw s).link = s.link := rfl
@[simp] theorem countDraw_timerArmed : (countDraw s).timerArmed = s.timerArmed := rfl
@[simp] theorem countDraw_counters : (countDraw s).counters = s.counters := rfl
@[simp] theorem countDraw_dev : (countDraw s).dev = s.dev := rfl
@[simp] theorem countDraw_mem : (countDraw s).mem = s.mem := rfl
@[simp] theorem countDraw_wb : (countDraw s).wb = s.wb := rfl
@[simp] theorem countDraw_epoch : (countDraw s).epoch = s.epoch := rfl
@[simp] theorem countDraw_liveBuffers : (countDraw s).liveBuffers = s.liveBuffers := rfl
@[simp] theorem countDraw_liveMaps : (countDraw s).liveMaps = s.liveMaps := rfl
@[simp] theorem countDraw_pkts : (countDraw s).pkts = s.pkts := rfl
@[simp] theorem countDraw_bufMem : (countDraw s).bufMem = s.bufMem := rfl
@[simp] theorem countDraw_dmaMem : (countDraw s).dmaMem = s.dmaMem := rfl
@[simp] theorem countDraw_syncWindows : (countDraw s).syncWindows = s.syncWindows := rfl
@[simp] theorem countDraw_fault : (countDraw s).fault = s.fault := rfl
@[simp] theorem countDraw_absent : (countDraw s).absent = s.absent := rfl
@[simp] theorem countDraw_trace : (countDraw s).trace = s.trace := rfl
@[simp] theorem countDraw_lock : (countDraw s).lock = s.lock := rfl
@[simp] theorem countDraw_outcome : (countDraw s).outcome = s.outcome := rfl
@[simp] theorem countDraw_nextPkt : (countDraw s).nextPkt = s.nextPkt := rfl
@[simp] theorem countDraw_queue : (countDraw s).queue = s.queue := rfl
@[simp] theorem countDraw_sched : (countDraw s).sched = s.sched := rfl
@[simp] theorem countDraw_draws : (countDraw s).draws = s.draws := rfl
@[simp] theorem countDraw_drawCount : (countDraw s).drawCount = s.drawCount + 1 := rfl
@[simp] theorem countDraw_payloadCount : (countDraw s).payloadCount = s.payloadCount := rfl

/-! ### `enter` -/

@[simp] theorem enter_params (c : Context) : (enter c s).params = s.params := rfl
@[simp] theorem enter_adapter (c : Context) : (enter c s).adapter = s.adapter := rfl
@[simp] theorem enter_irqAcquired (c : Context) : (enter c s).irqAcquired = s.irqAcquired := rfl
@[simp] theorem enter_tx (c : Context) : (enter c s).tx = s.tx := rfl
@[simp] theorem enter_rx (c : Context) : (enter c s).rx = s.rx := rfl
@[simp] theorem enter_link (c : Context) : (enter c s).link = s.link := rfl
@[simp] theorem enter_timerArmed (c : Context) : (enter c s).timerArmed = s.timerArmed := rfl
@[simp] theorem enter_counters (c : Context) : (enter c s).counters = s.counters := rfl
@[simp] theorem enter_dev (c : Context) : (enter c s).dev = s.dev := rfl
@[simp] theorem enter_mem (c : Context) : (enter c s).mem = s.mem := rfl
@[simp] theorem enter_wb (c : Context) : (enter c s).wb = s.wb := rfl
@[simp] theorem enter_epoch (c : Context) : (enter c s).epoch = s.epoch := rfl
@[simp] theorem enter_liveBuffers (c : Context) : (enter c s).liveBuffers = s.liveBuffers := rfl
@[simp] theorem enter_liveMaps (c : Context) : (enter c s).liveMaps = s.liveMaps := rfl
@[simp] theorem enter_pkts (c : Context) : (enter c s).pkts = s.pkts := rfl
@[simp] theorem enter_bufMem (c : Context) : (enter c s).bufMem = s.bufMem := rfl
@[simp] theorem enter_dmaMem (c : Context) : (enter c s).dmaMem = s.dmaMem := rfl
@[simp] theorem enter_syncWindows (c : Context) : (enter c s).syncWindows = s.syncWindows := rfl
@[simp] theorem enter_fault (c : Context) : (enter c s).fault = s.fault := rfl
@[simp] theorem enter_absent (c : Context) : (enter c s).absent = s.absent := rfl
@[simp] theorem enter_trace (c : Context) : (enter c s).trace = s.trace := rfl
@[simp] theorem enter_lock (c : Context) : (enter c s).lock = some c := rfl
@[simp] theorem enter_outcome (c : Context) : (enter c s).outcome = s.outcome := rfl
@[simp] theorem enter_nextPkt (c : Context) : (enter c s).nextPkt = s.nextPkt := rfl
@[simp] theorem enter_queue (c : Context) : (enter c s).queue = s.queue := rfl
@[simp] theorem enter_sched (c : Context) : (enter c s).sched = s.sched := rfl
@[simp] theorem enter_draws (c : Context) : (enter c s).draws = s.draws := rfl
@[simp] theorem enter_drawCount (c : Context) : (enter c s).drawCount = s.drawCount := rfl
@[simp] theorem enter_payloadCount (c : Context) : (enter c s).payloadCount = s.payloadCount := rfl

/-! ### `leave` -/

@[simp] theorem leave_params (o : OpOutcome) : (leave o s).params = s.params := rfl
@[simp] theorem leave_adapter (o : OpOutcome) : (leave o s).adapter = s.adapter := rfl
@[simp] theorem leave_irqAcquired (o : OpOutcome) : (leave o s).irqAcquired = s.irqAcquired := rfl
@[simp] theorem leave_tx (o : OpOutcome) : (leave o s).tx = s.tx := rfl
@[simp] theorem leave_rx (o : OpOutcome) : (leave o s).rx = s.rx := rfl
@[simp] theorem leave_link (o : OpOutcome) : (leave o s).link = s.link := rfl
@[simp] theorem leave_timerArmed (o : OpOutcome) : (leave o s).timerArmed = s.timerArmed := rfl
@[simp] theorem leave_counters (o : OpOutcome) : (leave o s).counters = s.counters := rfl
@[simp] theorem leave_dev (o : OpOutcome) : (leave o s).dev = s.dev := rfl
@[simp] theorem leave_mem (o : OpOutcome) : (leave o s).mem = s.mem := rfl
@[simp] theorem leave_wb (o : OpOutcome) : (leave o s).wb = s.wb := rfl
@[simp] theorem leave_epoch (o : OpOutcome) : (leave o s).epoch = s.epoch := rfl
@[simp] theorem leave_liveBuffers (o : OpOutcome) : (leave o s).liveBuffers = s.liveBuffers := rfl
@[simp] theorem leave_liveMaps (o : OpOutcome) : (leave o s).liveMaps = s.liveMaps := rfl
@[simp] theorem leave_pkts (o : OpOutcome) : (leave o s).pkts = s.pkts := rfl
@[simp] theorem leave_bufMem (o : OpOutcome) : (leave o s).bufMem = s.bufMem := rfl
@[simp] theorem leave_dmaMem (o : OpOutcome) : (leave o s).dmaMem = s.dmaMem := rfl
@[simp] theorem leave_syncWindows (o : OpOutcome) : (leave o s).syncWindows = s.syncWindows := rfl
@[simp] theorem leave_fault (o : OpOutcome) : (leave o s).fault = s.fault := rfl
@[simp] theorem leave_absent (o : OpOutcome) : (leave o s).absent = s.absent := rfl
@[simp] theorem leave_trace (o : OpOutcome) : (leave o s).trace = s.trace := rfl
@[simp] theorem leave_lock (o : OpOutcome) : (leave o s).lock = none := rfl
@[simp] theorem leave_outcome (o : OpOutcome) : (leave o s).outcome = some o := rfl
@[simp] theorem leave_nextPkt (o : OpOutcome) : (leave o s).nextPkt = s.nextPkt := rfl
@[simp] theorem leave_queue (o : OpOutcome) : (leave o s).queue = s.queue := rfl
@[simp] theorem leave_sched (o : OpOutcome) : (leave o s).sched = s.sched := rfl
@[simp] theorem leave_draws (o : OpOutcome) : (leave o s).draws = s.draws := rfl
@[simp] theorem leave_drawCount (o : OpOutcome) : (leave o s).drawCount = s.drawCount := rfl
@[simp] theorem leave_payloadCount (o : OpOutcome) : (leave o s).payloadCount = s.payloadCount := rfl

/-! ### `conclude` -/

@[simp] theorem conclude_params (o : OpOutcome) : (conclude o s).params = s.params := rfl
@[simp] theorem conclude_adapter (o : OpOutcome) : (conclude o s).adapter = s.adapter := rfl
@[simp] theorem conclude_irqAcquired (o : OpOutcome) : (conclude o s).irqAcquired = s.irqAcquired := rfl
@[simp] theorem conclude_tx (o : OpOutcome) : (conclude o s).tx = s.tx := rfl
@[simp] theorem conclude_rx (o : OpOutcome) : (conclude o s).rx = s.rx := rfl
@[simp] theorem conclude_link (o : OpOutcome) : (conclude o s).link = s.link := rfl
@[simp] theorem conclude_timerArmed (o : OpOutcome) : (conclude o s).timerArmed = s.timerArmed := rfl
@[simp] theorem conclude_counters (o : OpOutcome) : (conclude o s).counters = s.counters := rfl
@[simp] theorem conclude_dev (o : OpOutcome) : (conclude o s).dev = s.dev := rfl
@[simp] theorem conclude_mem (o : OpOutcome) : (conclude o s).mem = s.mem := rfl
@[simp] theorem conclude_wb (o : OpOutcome) : (conclude o s).wb = s.wb := rfl
@[simp] theorem conclude_epoch (o : OpOutcome) : (conclude o s).epoch = s.epoch := rfl
@[simp] theorem conclude_liveBuffers (o : OpOutcome) : (conclude o s).liveBuffers = s.liveBuffers := rfl
@[simp] theorem conclude_liveMaps (o : OpOutcome) : (conclude o s).liveMaps = s.liveMaps := rfl
@[simp] theorem conclude_pkts (o : OpOutcome) : (conclude o s).pkts = s.pkts := rfl
@[simp] theorem conclude_bufMem (o : OpOutcome) : (conclude o s).bufMem = s.bufMem := rfl
@[simp] theorem conclude_dmaMem (o : OpOutcome) : (conclude o s).dmaMem = s.dmaMem := rfl
@[simp] theorem conclude_syncWindows (o : OpOutcome) : (conclude o s).syncWindows = s.syncWindows := rfl
@[simp] theorem conclude_fault (o : OpOutcome) : (conclude o s).fault = s.fault := rfl
@[simp] theorem conclude_absent (o : OpOutcome) : (conclude o s).absent = s.absent := rfl
@[simp] theorem conclude_trace (o : OpOutcome) : (conclude o s).trace = s.trace := rfl
@[simp] theorem conclude_lock (o : OpOutcome) : (conclude o s).lock = s.lock := rfl
@[simp] theorem conclude_outcome (o : OpOutcome) : (conclude o s).outcome = some o := rfl
@[simp] theorem conclude_nextPkt (o : OpOutcome) : (conclude o s).nextPkt = s.nextPkt := rfl
@[simp] theorem conclude_queue (o : OpOutcome) : (conclude o s).queue = s.queue := rfl
@[simp] theorem conclude_sched (o : OpOutcome) : (conclude o s).sched = s.sched := rfl
@[simp] theorem conclude_draws (o : OpOutcome) : (conclude o s).draws = s.draws := rfl
@[simp] theorem conclude_drawCount (o : OpOutcome) : (conclude o s).drawCount = s.drawCount := rfl
@[simp] theorem conclude_payloadCount (o : OpOutcome) : (conclude o s).payloadCount = s.payloadCount := rfl

/-! ### `setTxSlot` -/

@[simp] theorem setTxSlot_params (i : Nat) (e : TxEntry) : (setTxSlot i e s).params = s.params := rfl
@[simp] theorem setTxSlot_adapter (i : Nat) (e : TxEntry) : (setTxSlot i e s).adapter = s.adapter := rfl
@[simp] theorem setTxSlot_irqAcquired (i : Nat) (e : TxEntry) : (setTxSlot i e s).irqAcquired = s.irqAcquired := rfl
@[simp] theorem setTxSlot_tx (i : Nat) (e : TxEntry) :
    (setTxSlot i e s).tx = { s.tx with shadow := mapSet s.tx.shadow i e } := rfl
@[simp] theorem setTxSlot_rx (i : Nat) (e : TxEntry) : (setTxSlot i e s).rx = s.rx := rfl
@[simp] theorem setTxSlot_link (i : Nat) (e : TxEntry) : (setTxSlot i e s).link = s.link := rfl
@[simp] theorem setTxSlot_timerArmed (i : Nat) (e : TxEntry) : (setTxSlot i e s).timerArmed = s.timerArmed := rfl
@[simp] theorem setTxSlot_counters (i : Nat) (e : TxEntry) : (setTxSlot i e s).counters = s.counters := rfl
@[simp] theorem setTxSlot_dev (i : Nat) (e : TxEntry) : (setTxSlot i e s).dev = s.dev := rfl
@[simp] theorem setTxSlot_mem (i : Nat) (e : TxEntry) : (setTxSlot i e s).mem = s.mem := rfl
@[simp] theorem setTxSlot_wb (i : Nat) (e : TxEntry) : (setTxSlot i e s).wb = s.wb := rfl
@[simp] theorem setTxSlot_epoch (i : Nat) (e : TxEntry) : (setTxSlot i e s).epoch = s.epoch := rfl
@[simp] theorem setTxSlot_liveBuffers (i : Nat) (e : TxEntry) : (setTxSlot i e s).liveBuffers = s.liveBuffers := rfl
@[simp] theorem setTxSlot_liveMaps (i : Nat) (e : TxEntry) : (setTxSlot i e s).liveMaps = s.liveMaps := rfl
@[simp] theorem setTxSlot_pkts (i : Nat) (e : TxEntry) : (setTxSlot i e s).pkts = s.pkts := rfl
@[simp] theorem setTxSlot_bufMem (i : Nat) (e : TxEntry) : (setTxSlot i e s).bufMem = s.bufMem := rfl
@[simp] theorem setTxSlot_dmaMem (i : Nat) (e : TxEntry) : (setTxSlot i e s).dmaMem = s.dmaMem := rfl
@[simp] theorem setTxSlot_syncWindows (i : Nat) (e : TxEntry) : (setTxSlot i e s).syncWindows = s.syncWindows := rfl
@[simp] theorem setTxSlot_fault (i : Nat) (e : TxEntry) : (setTxSlot i e s).fault = s.fault := rfl
@[simp] theorem setTxSlot_absent (i : Nat) (e : TxEntry) : (setTxSlot i e s).absent = s.absent := rfl
@[simp] theorem setTxSlot_trace (i : Nat) (e : TxEntry) : (setTxSlot i e s).trace = s.trace := rfl
@[simp] theorem setTxSlot_lock (i : Nat) (e : TxEntry) : (setTxSlot i e s).lock = s.lock := rfl
@[simp] theorem setTxSlot_outcome (i : Nat) (e : TxEntry) : (setTxSlot i e s).outcome = s.outcome := rfl
@[simp] theorem setTxSlot_nextPkt (i : Nat) (e : TxEntry) : (setTxSlot i e s).nextPkt = s.nextPkt := rfl
@[simp] theorem setTxSlot_queue (i : Nat) (e : TxEntry) : (setTxSlot i e s).queue = s.queue := rfl
@[simp] theorem setTxSlot_sched (i : Nat) (e : TxEntry) : (setTxSlot i e s).sched = s.sched := rfl
@[simp] theorem setTxSlot_draws (i : Nat) (e : TxEntry) : (setTxSlot i e s).draws = s.draws := rfl
@[simp] theorem setTxSlot_drawCount (i : Nat) (e : TxEntry) : (setTxSlot i e s).drawCount = s.drawCount := rfl
@[simp] theorem setTxSlot_payloadCount (i : Nat) (e : TxEntry) :
    (setTxSlot i e s).payloadCount = s.payloadCount := rfl

/-! ### `clearTxSlot` -/

@[simp] theorem clearTxSlot_params (i : Nat) : (clearTxSlot i s).params = s.params := rfl
@[simp] theorem clearTxSlot_adapter (i : Nat) : (clearTxSlot i s).adapter = s.adapter := rfl
@[simp] theorem clearTxSlot_irqAcquired (i : Nat) : (clearTxSlot i s).irqAcquired = s.irqAcquired := rfl
@[simp] theorem clearTxSlot_tx (i : Nat) :
    (clearTxSlot i s).tx = { s.tx with shadow := mapErase s.tx.shadow i } := rfl
@[simp] theorem clearTxSlot_rx (i : Nat) : (clearTxSlot i s).rx = s.rx := rfl
@[simp] theorem clearTxSlot_link (i : Nat) : (clearTxSlot i s).link = s.link := rfl
@[simp] theorem clearTxSlot_timerArmed (i : Nat) : (clearTxSlot i s).timerArmed = s.timerArmed := rfl
@[simp] theorem clearTxSlot_counters (i : Nat) : (clearTxSlot i s).counters = s.counters := rfl
@[simp] theorem clearTxSlot_dev (i : Nat) : (clearTxSlot i s).dev = s.dev := rfl
@[simp] theorem clearTxSlot_mem (i : Nat) : (clearTxSlot i s).mem = s.mem := rfl
@[simp] theorem clearTxSlot_wb (i : Nat) : (clearTxSlot i s).wb = s.wb := rfl
@[simp] theorem clearTxSlot_epoch (i : Nat) : (clearTxSlot i s).epoch = s.epoch := rfl
@[simp] theorem clearTxSlot_liveBuffers (i : Nat) : (clearTxSlot i s).liveBuffers = s.liveBuffers := rfl
@[simp] theorem clearTxSlot_liveMaps (i : Nat) : (clearTxSlot i s).liveMaps = s.liveMaps := rfl
@[simp] theorem clearTxSlot_pkts (i : Nat) : (clearTxSlot i s).pkts = s.pkts := rfl
@[simp] theorem clearTxSlot_bufMem (i : Nat) : (clearTxSlot i s).bufMem = s.bufMem := rfl
@[simp] theorem clearTxSlot_dmaMem (i : Nat) : (clearTxSlot i s).dmaMem = s.dmaMem := rfl
@[simp] theorem clearTxSlot_syncWindows (i : Nat) : (clearTxSlot i s).syncWindows = s.syncWindows := rfl
@[simp] theorem clearTxSlot_fault (i : Nat) : (clearTxSlot i s).fault = s.fault := rfl
@[simp] theorem clearTxSlot_absent (i : Nat) : (clearTxSlot i s).absent = s.absent := rfl
@[simp] theorem clearTxSlot_trace (i : Nat) : (clearTxSlot i s).trace = s.trace := rfl
@[simp] theorem clearTxSlot_lock (i : Nat) : (clearTxSlot i s).lock = s.lock := rfl
@[simp] theorem clearTxSlot_outcome (i : Nat) : (clearTxSlot i s).outcome = s.outcome := rfl
@[simp] theorem clearTxSlot_nextPkt (i : Nat) : (clearTxSlot i s).nextPkt = s.nextPkt := rfl
@[simp] theorem clearTxSlot_queue (i : Nat) : (clearTxSlot i s).queue = s.queue := rfl
@[simp] theorem clearTxSlot_sched (i : Nat) : (clearTxSlot i s).sched = s.sched := rfl
@[simp] theorem clearTxSlot_draws (i : Nat) : (clearTxSlot i s).draws = s.draws := rfl
@[simp] theorem clearTxSlot_drawCount (i : Nat) : (clearTxSlot i s).drawCount = s.drawCount := rfl
@[simp] theorem clearTxSlot_payloadCount (i : Nat) : (clearTxSlot i s).payloadCount = s.payloadCount := rfl

/-! ### `setRxSlot` -/

@[simp] theorem setRxSlot_params (i : Nat) (e : RxEntry) : (setRxSlot i e s).params = s.params := rfl
@[simp] theorem setRxSlot_adapter (i : Nat) (e : RxEntry) : (setRxSlot i e s).adapter = s.adapter := rfl
@[simp] theorem setRxSlot_irqAcquired (i : Nat) (e : RxEntry) : (setRxSlot i e s).irqAcquired = s.irqAcquired := rfl
@[simp] theorem setRxSlot_tx (i : Nat) (e : RxEntry) : (setRxSlot i e s).tx = s.tx := rfl
@[simp] theorem setRxSlot_rx (i : Nat) (e : RxEntry) :
    (setRxSlot i e s).rx = { s.rx with shadow := mapSet s.rx.shadow i e } := rfl
@[simp] theorem setRxSlot_link (i : Nat) (e : RxEntry) : (setRxSlot i e s).link = s.link := rfl
@[simp] theorem setRxSlot_timerArmed (i : Nat) (e : RxEntry) : (setRxSlot i e s).timerArmed = s.timerArmed := rfl
@[simp] theorem setRxSlot_counters (i : Nat) (e : RxEntry) : (setRxSlot i e s).counters = s.counters := rfl
@[simp] theorem setRxSlot_dev (i : Nat) (e : RxEntry) : (setRxSlot i e s).dev = s.dev := rfl
@[simp] theorem setRxSlot_mem (i : Nat) (e : RxEntry) : (setRxSlot i e s).mem = s.mem := rfl
@[simp] theorem setRxSlot_wb (i : Nat) (e : RxEntry) : (setRxSlot i e s).wb = s.wb := rfl
@[simp] theorem setRxSlot_epoch (i : Nat) (e : RxEntry) : (setRxSlot i e s).epoch = s.epoch := rfl
@[simp] theorem setRxSlot_liveBuffers (i : Nat) (e : RxEntry) : (setRxSlot i e s).liveBuffers = s.liveBuffers := rfl
@[simp] theorem setRxSlot_liveMaps (i : Nat) (e : RxEntry) : (setRxSlot i e s).liveMaps = s.liveMaps := rfl
@[simp] theorem setRxSlot_pkts (i : Nat) (e : RxEntry) : (setRxSlot i e s).pkts = s.pkts := rfl
@[simp] theorem setRxSlot_bufMem (i : Nat) (e : RxEntry) : (setRxSlot i e s).bufMem = s.bufMem := rfl
@[simp] theorem setRxSlot_dmaMem (i : Nat) (e : RxEntry) : (setRxSlot i e s).dmaMem = s.dmaMem := rfl
@[simp] theorem setRxSlot_syncWindows (i : Nat) (e : RxEntry) : (setRxSlot i e s).syncWindows = s.syncWindows := rfl
@[simp] theorem setRxSlot_fault (i : Nat) (e : RxEntry) : (setRxSlot i e s).fault = s.fault := rfl
@[simp] theorem setRxSlot_absent (i : Nat) (e : RxEntry) : (setRxSlot i e s).absent = s.absent := rfl
@[simp] theorem setRxSlot_trace (i : Nat) (e : RxEntry) : (setRxSlot i e s).trace = s.trace := rfl
@[simp] theorem setRxSlot_lock (i : Nat) (e : RxEntry) : (setRxSlot i e s).lock = s.lock := rfl
@[simp] theorem setRxSlot_outcome (i : Nat) (e : RxEntry) : (setRxSlot i e s).outcome = s.outcome := rfl
@[simp] theorem setRxSlot_nextPkt (i : Nat) (e : RxEntry) : (setRxSlot i e s).nextPkt = s.nextPkt := rfl
@[simp] theorem setRxSlot_queue (i : Nat) (e : RxEntry) : (setRxSlot i e s).queue = s.queue := rfl
@[simp] theorem setRxSlot_sched (i : Nat) (e : RxEntry) : (setRxSlot i e s).sched = s.sched := rfl
@[simp] theorem setRxSlot_draws (i : Nat) (e : RxEntry) : (setRxSlot i e s).draws = s.draws := rfl
@[simp] theorem setRxSlot_drawCount (i : Nat) (e : RxEntry) : (setRxSlot i e s).drawCount = s.drawCount := rfl
@[simp] theorem setRxSlot_payloadCount (i : Nat) (e : RxEntry) :
    (setRxSlot i e s).payloadCount = s.payloadCount := rfl

/-! ### `clearRxSlot` -/

@[simp] theorem clearRxSlot_params (i : Nat) : (clearRxSlot i s).params = s.params := rfl
@[simp] theorem clearRxSlot_adapter (i : Nat) : (clearRxSlot i s).adapter = s.adapter := rfl
@[simp] theorem clearRxSlot_irqAcquired (i : Nat) : (clearRxSlot i s).irqAcquired = s.irqAcquired := rfl
@[simp] theorem clearRxSlot_tx (i : Nat) : (clearRxSlot i s).tx = s.tx := rfl
@[simp] theorem clearRxSlot_rx (i : Nat) :
    (clearRxSlot i s).rx = { s.rx with shadow := mapErase s.rx.shadow i } := rfl
@[simp] theorem clearRxSlot_link (i : Nat) : (clearRxSlot i s).link = s.link := rfl
@[simp] theorem clearRxSlot_timerArmed (i : Nat) : (clearRxSlot i s).timerArmed = s.timerArmed := rfl
@[simp] theorem clearRxSlot_counters (i : Nat) : (clearRxSlot i s).counters = s.counters := rfl
@[simp] theorem clearRxSlot_dev (i : Nat) : (clearRxSlot i s).dev = s.dev := rfl
@[simp] theorem clearRxSlot_mem (i : Nat) : (clearRxSlot i s).mem = s.mem := rfl
@[simp] theorem clearRxSlot_wb (i : Nat) : (clearRxSlot i s).wb = s.wb := rfl
@[simp] theorem clearRxSlot_epoch (i : Nat) : (clearRxSlot i s).epoch = s.epoch := rfl
@[simp] theorem clearRxSlot_liveBuffers (i : Nat) : (clearRxSlot i s).liveBuffers = s.liveBuffers := rfl
@[simp] theorem clearRxSlot_liveMaps (i : Nat) : (clearRxSlot i s).liveMaps = s.liveMaps := rfl
@[simp] theorem clearRxSlot_pkts (i : Nat) : (clearRxSlot i s).pkts = s.pkts := rfl
@[simp] theorem clearRxSlot_bufMem (i : Nat) : (clearRxSlot i s).bufMem = s.bufMem := rfl
@[simp] theorem clearRxSlot_dmaMem (i : Nat) : (clearRxSlot i s).dmaMem = s.dmaMem := rfl
@[simp] theorem clearRxSlot_syncWindows (i : Nat) : (clearRxSlot i s).syncWindows = s.syncWindows := rfl
@[simp] theorem clearRxSlot_fault (i : Nat) : (clearRxSlot i s).fault = s.fault := rfl
@[simp] theorem clearRxSlot_absent (i : Nat) : (clearRxSlot i s).absent = s.absent := rfl
@[simp] theorem clearRxSlot_trace (i : Nat) : (clearRxSlot i s).trace = s.trace := rfl
@[simp] theorem clearRxSlot_lock (i : Nat) : (clearRxSlot i s).lock = s.lock := rfl
@[simp] theorem clearRxSlot_outcome (i : Nat) : (clearRxSlot i s).outcome = s.outcome := rfl
@[simp] theorem clearRxSlot_nextPkt (i : Nat) : (clearRxSlot i s).nextPkt = s.nextPkt := rfl
@[simp] theorem clearRxSlot_queue (i : Nat) : (clearRxSlot i s).queue = s.queue := rfl
@[simp] theorem clearRxSlot_sched (i : Nat) : (clearRxSlot i s).sched = s.sched := rfl
@[simp] theorem clearRxSlot_draws (i : Nat) : (clearRxSlot i s).draws = s.draws := rfl
@[simp] theorem clearRxSlot_drawCount (i : Nat) : (clearRxSlot i s).drawCount = s.drawCount := rfl
@[simp] theorem clearRxSlot_payloadCount (i : Nat) : (clearRxSlot i s).payloadCount = s.payloadCount := rfl

/-! ### `removePkt` -/

@[simp] theorem removePkt_params (k : Nat) : (removePkt k s).params = s.params := rfl
@[simp] theorem removePkt_adapter (k : Nat) : (removePkt k s).adapter = s.adapter := rfl
@[simp] theorem removePkt_irqAcquired (k : Nat) : (removePkt k s).irqAcquired = s.irqAcquired := rfl
@[simp] theorem removePkt_tx (k : Nat) : (removePkt k s).tx = s.tx := rfl
@[simp] theorem removePkt_rx (k : Nat) : (removePkt k s).rx = s.rx := rfl
@[simp] theorem removePkt_link (k : Nat) : (removePkt k s).link = s.link := rfl
@[simp] theorem removePkt_timerArmed (k : Nat) : (removePkt k s).timerArmed = s.timerArmed := rfl
@[simp] theorem removePkt_counters (k : Nat) : (removePkt k s).counters = s.counters := rfl
@[simp] theorem removePkt_dev (k : Nat) : (removePkt k s).dev = s.dev := rfl
@[simp] theorem removePkt_mem (k : Nat) : (removePkt k s).mem = s.mem := rfl
@[simp] theorem removePkt_wb (k : Nat) : (removePkt k s).wb = s.wb := rfl
@[simp] theorem removePkt_epoch (k : Nat) : (removePkt k s).epoch = s.epoch := rfl
@[simp] theorem removePkt_liveBuffers (k : Nat) : (removePkt k s).liveBuffers = s.liveBuffers := rfl
@[simp] theorem removePkt_liveMaps (k : Nat) : (removePkt k s).liveMaps = s.liveMaps := rfl
@[simp] theorem removePkt_pkts (k : Nat) : (removePkt k s).pkts = mapErase s.pkts k := rfl
@[simp] theorem removePkt_bufMem (k : Nat) : (removePkt k s).bufMem = s.bufMem := rfl
@[simp] theorem removePkt_dmaMem (k : Nat) : (removePkt k s).dmaMem = s.dmaMem := rfl
@[simp] theorem removePkt_syncWindows (k : Nat) : (removePkt k s).syncWindows = s.syncWindows := rfl
@[simp] theorem removePkt_fault (k : Nat) : (removePkt k s).fault = s.fault := rfl
@[simp] theorem removePkt_absent (k : Nat) : (removePkt k s).absent = s.absent := rfl
@[simp] theorem removePkt_trace (k : Nat) : (removePkt k s).trace = s.trace := rfl
@[simp] theorem removePkt_lock (k : Nat) : (removePkt k s).lock = s.lock := rfl
@[simp] theorem removePkt_outcome (k : Nat) : (removePkt k s).outcome = s.outcome := rfl
@[simp] theorem removePkt_nextPkt (k : Nat) : (removePkt k s).nextPkt = s.nextPkt := rfl
@[simp] theorem removePkt_queue (k : Nat) : (removePkt k s).queue = s.queue := rfl
@[simp] theorem removePkt_sched (k : Nat) : (removePkt k s).sched = s.sched := rfl
@[simp] theorem removePkt_draws (k : Nat) : (removePkt k s).draws = s.draws := rfl
@[simp] theorem removePkt_drawCount (k : Nat) : (removePkt k s).drawCount = s.drawCount := rfl
@[simp] theorem removePkt_payloadCount (k : Nat) : (removePkt k s).payloadCount = s.payloadCount := rfl

/-! ### `setStopped` -/

@[simp] theorem setStopped_params (b : Bool) : (setStopped b s).params = s.params := rfl
@[simp] theorem setStopped_adapter (b : Bool) : (setStopped b s).adapter = s.adapter := rfl
@[simp] theorem setStopped_irqAcquired (b : Bool) : (setStopped b s).irqAcquired = s.irqAcquired := rfl
@[simp] theorem setStopped_tx (b : Bool) : (setStopped b s).tx = { s.tx with stopped := b } := rfl
@[simp] theorem setStopped_rx (b : Bool) : (setStopped b s).rx = s.rx := rfl
@[simp] theorem setStopped_link (b : Bool) : (setStopped b s).link = s.link := rfl
@[simp] theorem setStopped_timerArmed (b : Bool) : (setStopped b s).timerArmed = s.timerArmed := rfl
@[simp] theorem setStopped_counters (b : Bool) : (setStopped b s).counters = s.counters := rfl
@[simp] theorem setStopped_dev (b : Bool) : (setStopped b s).dev = s.dev := rfl
@[simp] theorem setStopped_mem (b : Bool) : (setStopped b s).mem = s.mem := rfl
@[simp] theorem setStopped_wb (b : Bool) : (setStopped b s).wb = s.wb := rfl
@[simp] theorem setStopped_epoch (b : Bool) : (setStopped b s).epoch = s.epoch := rfl
@[simp] theorem setStopped_liveBuffers (b : Bool) : (setStopped b s).liveBuffers = s.liveBuffers := rfl
@[simp] theorem setStopped_liveMaps (b : Bool) : (setStopped b s).liveMaps = s.liveMaps := rfl
@[simp] theorem setStopped_pkts (b : Bool) : (setStopped b s).pkts = s.pkts := rfl
@[simp] theorem setStopped_bufMem (b : Bool) : (setStopped b s).bufMem = s.bufMem := rfl
@[simp] theorem setStopped_dmaMem (b : Bool) : (setStopped b s).dmaMem = s.dmaMem := rfl
@[simp] theorem setStopped_syncWindows (b : Bool) : (setStopped b s).syncWindows = s.syncWindows := rfl
@[simp] theorem setStopped_fault (b : Bool) : (setStopped b s).fault = s.fault := rfl
@[simp] theorem setStopped_absent (b : Bool) : (setStopped b s).absent = s.absent := rfl
@[simp] theorem setStopped_trace (b : Bool) : (setStopped b s).trace = s.trace := rfl
@[simp] theorem setStopped_lock (b : Bool) : (setStopped b s).lock = s.lock := rfl
@[simp] theorem setStopped_outcome (b : Bool) : (setStopped b s).outcome = s.outcome := rfl
@[simp] theorem setStopped_nextPkt (b : Bool) : (setStopped b s).nextPkt = s.nextPkt := rfl
@[simp] theorem setStopped_queue (b : Bool) : (setStopped b s).queue = s.queue := rfl
@[simp] theorem setStopped_sched (b : Bool) : (setStopped b s).sched = s.sched := rfl
@[simp] theorem setStopped_draws (b : Bool) : (setStopped b s).draws = s.draws := rfl
@[simp] theorem setStopped_drawCount (b : Bool) : (setStopped b s).drawCount = s.drawCount := rfl
@[simp] theorem setStopped_payloadCount (b : Bool) : (setStopped b s).payloadCount = s.payloadCount := rfl

/-! ### `advanceTail` -/

@[simp] theorem advanceTail_params (i : Nat) : (advanceTail i s).params = s.params := rfl
@[simp] theorem advanceTail_adapter (i : Nat) : (advanceTail i s).adapter = s.adapter := rfl
@[simp] theorem advanceTail_irqAcquired (i : Nat) : (advanceTail i s).irqAcquired = s.irqAcquired := rfl
@[simp] theorem advanceTail_tx (i : Nat) : (advanceTail i s).tx = { s.tx with tail := (i + 1) % s.params.nTx } := rfl
@[simp] theorem advanceTail_rx (i : Nat) : (advanceTail i s).rx = s.rx := rfl
@[simp] theorem advanceTail_link (i : Nat) : (advanceTail i s).link = s.link := rfl
@[simp] theorem advanceTail_timerArmed (i : Nat) : (advanceTail i s).timerArmed = s.timerArmed := rfl
@[simp] theorem advanceTail_counters (i : Nat) : (advanceTail i s).counters = s.counters := rfl
@[simp] theorem advanceTail_dev (i : Nat) : (advanceTail i s).dev = s.dev := rfl
@[simp] theorem advanceTail_mem (i : Nat) : (advanceTail i s).mem = s.mem := rfl
@[simp] theorem advanceTail_wb (i : Nat) : (advanceTail i s).wb = s.wb := rfl
@[simp] theorem advanceTail_epoch (i : Nat) : (advanceTail i s).epoch = s.epoch := rfl
@[simp] theorem advanceTail_liveBuffers (i : Nat) : (advanceTail i s).liveBuffers = s.liveBuffers := rfl
@[simp] theorem advanceTail_liveMaps (i : Nat) : (advanceTail i s).liveMaps = s.liveMaps := rfl
@[simp] theorem advanceTail_pkts (i : Nat) : (advanceTail i s).pkts = s.pkts := rfl
@[simp] theorem advanceTail_bufMem (i : Nat) : (advanceTail i s).bufMem = s.bufMem := rfl
@[simp] theorem advanceTail_dmaMem (i : Nat) : (advanceTail i s).dmaMem = s.dmaMem := rfl
@[simp] theorem advanceTail_syncWindows (i : Nat) : (advanceTail i s).syncWindows = s.syncWindows := rfl
@[simp] theorem advanceTail_fault (i : Nat) : (advanceTail i s).fault = s.fault := rfl
@[simp] theorem advanceTail_absent (i : Nat) : (advanceTail i s).absent = s.absent := rfl
@[simp] theorem advanceTail_trace (i : Nat) : (advanceTail i s).trace = s.trace := rfl
@[simp] theorem advanceTail_lock (i : Nat) : (advanceTail i s).lock = s.lock := rfl
@[simp] theorem advanceTail_outcome (i : Nat) : (advanceTail i s).outcome = s.outcome := rfl
@[simp] theorem advanceTail_nextPkt (i : Nat) : (advanceTail i s).nextPkt = s.nextPkt := rfl
@[simp] theorem advanceTail_queue (i : Nat) : (advanceTail i s).queue = s.queue := rfl
@[simp] theorem advanceTail_sched (i : Nat) : (advanceTail i s).sched = s.sched := rfl
@[simp] theorem advanceTail_draws (i : Nat) : (advanceTail i s).draws = s.draws := rfl
@[simp] theorem advanceTail_drawCount (i : Nat) : (advanceTail i s).drawCount = s.drawCount := rfl
@[simp] theorem advanceTail_payloadCount (i : Nat) : (advanceTail i s).payloadCount = s.payloadCount := rfl

/-! ### `advanceCursor` -/

@[simp] theorem advanceCursor_params (i : Nat) : (advanceCursor i s).params = s.params := rfl
@[simp] theorem advanceCursor_adapter (i : Nat) : (advanceCursor i s).adapter = s.adapter := rfl
@[simp] theorem advanceCursor_irqAcquired (i : Nat) : (advanceCursor i s).irqAcquired = s.irqAcquired := rfl
@[simp] theorem advanceCursor_tx (i : Nat) : (advanceCursor i s).tx = s.tx := rfl
@[simp] theorem advanceCursor_rx (i : Nat) :
    (advanceCursor i s).rx = { s.rx with cursor := (i + 1) % s.params.nRx } := rfl
@[simp] theorem advanceCursor_link (i : Nat) : (advanceCursor i s).link = s.link := rfl
@[simp] theorem advanceCursor_timerArmed (i : Nat) : (advanceCursor i s).timerArmed = s.timerArmed := rfl
@[simp] theorem advanceCursor_counters (i : Nat) : (advanceCursor i s).counters = s.counters := rfl
@[simp] theorem advanceCursor_dev (i : Nat) : (advanceCursor i s).dev = s.dev := rfl
@[simp] theorem advanceCursor_mem (i : Nat) : (advanceCursor i s).mem = s.mem := rfl
@[simp] theorem advanceCursor_wb (i : Nat) : (advanceCursor i s).wb = s.wb := rfl
@[simp] theorem advanceCursor_epoch (i : Nat) : (advanceCursor i s).epoch = s.epoch := rfl
@[simp] theorem advanceCursor_liveBuffers (i : Nat) : (advanceCursor i s).liveBuffers = s.liveBuffers := rfl
@[simp] theorem advanceCursor_liveMaps (i : Nat) : (advanceCursor i s).liveMaps = s.liveMaps := rfl
@[simp] theorem advanceCursor_pkts (i : Nat) : (advanceCursor i s).pkts = s.pkts := rfl
@[simp] theorem advanceCursor_bufMem (i : Nat) : (advanceCursor i s).bufMem = s.bufMem := rfl
@[simp] theorem advanceCursor_dmaMem (i : Nat) : (advanceCursor i s).dmaMem = s.dmaMem := rfl
@[simp] theorem advanceCursor_syncWindows (i : Nat) : (advanceCursor i s).syncWindows = s.syncWindows := rfl
@[simp] theorem advanceCursor_fault (i : Nat) : (advanceCursor i s).fault = s.fault := rfl
@[simp] theorem advanceCursor_absent (i : Nat) : (advanceCursor i s).absent = s.absent := rfl
@[simp] theorem advanceCursor_trace (i : Nat) : (advanceCursor i s).trace = s.trace := rfl
@[simp] theorem advanceCursor_lock (i : Nat) : (advanceCursor i s).lock = s.lock := rfl
@[simp] theorem advanceCursor_outcome (i : Nat) : (advanceCursor i s).outcome = s.outcome := rfl
@[simp] theorem advanceCursor_nextPkt (i : Nat) : (advanceCursor i s).nextPkt = s.nextPkt := rfl
@[simp] theorem advanceCursor_queue (i : Nat) : (advanceCursor i s).queue = s.queue := rfl
@[simp] theorem advanceCursor_sched (i : Nat) : (advanceCursor i s).sched = s.sched := rfl
@[simp] theorem advanceCursor_draws (i : Nat) : (advanceCursor i s).draws = s.draws := rfl
@[simp] theorem advanceCursor_drawCount (i : Nat) : (advanceCursor i s).drawCount = s.drawCount := rfl
@[simp] theorem advanceCursor_payloadCount (i : Nat) : (advanceCursor i s).payloadCount = s.payloadCount := rfl

/-! ### `advanceHead` -/

@[simp] theorem advanceHead_params (p : Packet) : (advanceHead p s).params = s.params := rfl
@[simp] theorem advanceHead_adapter (p : Packet) : (advanceHead p s).adapter = s.adapter := rfl
@[simp] theorem advanceHead_irqAcquired (p : Packet) : (advanceHead p s).irqAcquired = s.irqAcquired := rfl
@[simp] theorem advanceHead_tx (p : Packet) :
    (advanceHead p s).tx = { s.tx with head := (s.tx.head + p.frags.length) % s.params.nTx } := rfl
@[simp] theorem advanceHead_rx (p : Packet) : (advanceHead p s).rx = s.rx := rfl
@[simp] theorem advanceHead_link (p : Packet) : (advanceHead p s).link = s.link := rfl
@[simp] theorem advanceHead_timerArmed (p : Packet) : (advanceHead p s).timerArmed = s.timerArmed := rfl
@[simp] theorem advanceHead_counters (p : Packet) : (advanceHead p s).counters = s.counters := rfl
@[simp] theorem advanceHead_dev (p : Packet) : (advanceHead p s).dev = s.dev := rfl
@[simp] theorem advanceHead_mem (p : Packet) : (advanceHead p s).mem = s.mem := rfl
@[simp] theorem advanceHead_wb (p : Packet) : (advanceHead p s).wb = s.wb := rfl
@[simp] theorem advanceHead_epoch (p : Packet) : (advanceHead p s).epoch = s.epoch := rfl
@[simp] theorem advanceHead_liveBuffers (p : Packet) : (advanceHead p s).liveBuffers = s.liveBuffers := rfl
@[simp] theorem advanceHead_liveMaps (p : Packet) : (advanceHead p s).liveMaps = s.liveMaps := rfl
@[simp] theorem advanceHead_pkts (p : Packet) : (advanceHead p s).pkts = mapSet s.pkts s.nextPkt p := rfl
@[simp] theorem advanceHead_bufMem (p : Packet) : (advanceHead p s).bufMem = s.bufMem := rfl
@[simp] theorem advanceHead_dmaMem (p : Packet) : (advanceHead p s).dmaMem = s.dmaMem := rfl
@[simp] theorem advanceHead_syncWindows (p : Packet) : (advanceHead p s).syncWindows = s.syncWindows := rfl
@[simp] theorem advanceHead_fault (p : Packet) : (advanceHead p s).fault = s.fault := rfl
@[simp] theorem advanceHead_absent (p : Packet) : (advanceHead p s).absent = s.absent := rfl
@[simp] theorem advanceHead_trace (p : Packet) : (advanceHead p s).trace = s.trace := rfl
@[simp] theorem advanceHead_lock (p : Packet) : (advanceHead p s).lock = s.lock := rfl
@[simp] theorem advanceHead_outcome (p : Packet) : (advanceHead p s).outcome = s.outcome := rfl
@[simp] theorem advanceHead_nextPkt (p : Packet) : (advanceHead p s).nextPkt = s.nextPkt + 1 := rfl
@[simp] theorem advanceHead_queue (p : Packet) : (advanceHead p s).queue = s.queue := rfl
@[simp] theorem advanceHead_sched (p : Packet) : (advanceHead p s).sched = s.sched := rfl
@[simp] theorem advanceHead_draws (p : Packet) : (advanceHead p s).draws = s.draws := rfl
@[simp] theorem advanceHead_drawCount (p : Packet) : (advanceHead p s).drawCount = s.drawCount := rfl
@[simp] theorem advanceHead_payloadCount (p : Packet) : (advanceHead p s).payloadCount = s.payloadCount := rfl

/-! ### `releaseBuf` -/

@[simp] theorem releaseBuf_params (b : Nat) : (releaseBuf b s).params = s.params := rfl
@[simp] theorem releaseBuf_adapter (b : Nat) : (releaseBuf b s).adapter = s.adapter := rfl
@[simp] theorem releaseBuf_irqAcquired (b : Nat) : (releaseBuf b s).irqAcquired = s.irqAcquired := rfl
@[simp] theorem releaseBuf_tx (b : Nat) : (releaseBuf b s).tx = s.tx := rfl
@[simp] theorem releaseBuf_rx (b : Nat) : (releaseBuf b s).rx = s.rx := rfl
@[simp] theorem releaseBuf_link (b : Nat) : (releaseBuf b s).link = s.link := rfl
@[simp] theorem releaseBuf_timerArmed (b : Nat) : (releaseBuf b s).timerArmed = s.timerArmed := rfl
@[simp] theorem releaseBuf_counters (b : Nat) : (releaseBuf b s).counters = s.counters := rfl
@[simp] theorem releaseBuf_dev (b : Nat) : (releaseBuf b s).dev = s.dev := rfl
@[simp] theorem releaseBuf_mem (b : Nat) : (releaseBuf b s).mem = s.mem := rfl
@[simp] theorem releaseBuf_wb (b : Nat) : (releaseBuf b s).wb = s.wb := rfl
@[simp] theorem releaseBuf_epoch (b : Nat) : (releaseBuf b s).epoch = s.epoch := rfl
@[simp] theorem releaseBuf_liveBuffers (b : Nat) : (releaseBuf b s).liveBuffers = mapErase s.liveBuffers b := rfl
@[simp] theorem releaseBuf_liveMaps (b : Nat) : (releaseBuf b s).liveMaps = s.liveMaps := rfl
@[simp] theorem releaseBuf_pkts (b : Nat) : (releaseBuf b s).pkts = s.pkts := rfl
@[simp] theorem releaseBuf_bufMem (b : Nat) : (releaseBuf b s).bufMem = s.bufMem := rfl
@[simp] theorem releaseBuf_dmaMem (b : Nat) : (releaseBuf b s).dmaMem = s.dmaMem := rfl
@[simp] theorem releaseBuf_syncWindows (b : Nat) : (releaseBuf b s).syncWindows = s.syncWindows := rfl
@[simp] theorem releaseBuf_fault (b : Nat) : (releaseBuf b s).fault = s.fault := rfl
@[simp] theorem releaseBuf_absent (b : Nat) : (releaseBuf b s).absent = s.absent := rfl
@[simp] theorem releaseBuf_trace (b : Nat) : (releaseBuf b s).trace = s.trace := rfl
@[simp] theorem releaseBuf_lock (b : Nat) : (releaseBuf b s).lock = s.lock := rfl
@[simp] theorem releaseBuf_outcome (b : Nat) : (releaseBuf b s).outcome = s.outcome := rfl
@[simp] theorem releaseBuf_nextPkt (b : Nat) : (releaseBuf b s).nextPkt = s.nextPkt := rfl
@[simp] theorem releaseBuf_queue (b : Nat) : (releaseBuf b s).queue = s.queue := rfl
@[simp] theorem releaseBuf_sched (b : Nat) : (releaseBuf b s).sched = s.sched := rfl
@[simp] theorem releaseBuf_draws (b : Nat) : (releaseBuf b s).draws = s.draws := rfl
@[simp] theorem releaseBuf_drawCount (b : Nat) : (releaseBuf b s).drawCount = s.drawCount := rfl
@[simp] theorem releaseBuf_payloadCount (b : Nat) : (releaseBuf b s).payloadCount = s.payloadCount := rfl

/-! ### `copyPayload` -/

@[simp] theorem copyPayload_params (sb h n : Nat) : (copyPayload sb h n s).params = s.params := rfl
@[simp] theorem copyPayload_adapter (sb h n : Nat) : (copyPayload sb h n s).adapter = s.adapter := rfl
@[simp] theorem copyPayload_irqAcquired (sb h n : Nat) : (copyPayload sb h n s).irqAcquired = s.irqAcquired := rfl
@[simp] theorem copyPayload_tx (sb h n : Nat) : (copyPayload sb h n s).tx = s.tx := rfl
@[simp] theorem copyPayload_rx (sb h n : Nat) : (copyPayload sb h n s).rx = s.rx := rfl
@[simp] theorem copyPayload_link (sb h n : Nat) : (copyPayload sb h n s).link = s.link := rfl
@[simp] theorem copyPayload_timerArmed (sb h n : Nat) : (copyPayload sb h n s).timerArmed = s.timerArmed := rfl
@[simp] theorem copyPayload_counters (sb h n : Nat) : (copyPayload sb h n s).counters = s.counters := rfl
@[simp] theorem copyPayload_dev (sb h n : Nat) : (copyPayload sb h n s).dev = s.dev := rfl
@[simp] theorem copyPayload_mem (sb h n : Nat) : (copyPayload sb h n s).mem = s.mem := rfl
@[simp] theorem copyPayload_wb (sb h n : Nat) : (copyPayload sb h n s).wb = s.wb := rfl
@[simp] theorem copyPayload_epoch (sb h n : Nat) : (copyPayload sb h n s).epoch = s.epoch := rfl
@[simp] theorem copyPayload_liveBuffers (sb h n : Nat) : (copyPayload sb h n s).liveBuffers = s.liveBuffers := rfl
@[simp] theorem copyPayload_liveMaps (sb h n : Nat) : (copyPayload sb h n s).liveMaps = s.liveMaps := rfl
@[simp] theorem copyPayload_pkts (sb h n : Nat) : (copyPayload sb h n s).pkts = s.pkts := rfl
@[simp] theorem copyPayload_bufMem (sb h n : Nat) :
    (copyPayload sb h n s).bufMem = mapSet s.bufMem sb (readPayload h n s) := rfl
@[simp] theorem copyPayload_dmaMem (sb h n : Nat) : (copyPayload sb h n s).dmaMem = s.dmaMem := rfl
@[simp] theorem copyPayload_syncWindows (sb h n : Nat) : (copyPayload sb h n s).syncWindows = s.syncWindows := rfl
@[simp] theorem copyPayload_fault (sb h n : Nat) : (copyPayload sb h n s).fault = s.fault := rfl
@[simp] theorem copyPayload_absent (sb h n : Nat) : (copyPayload sb h n s).absent = s.absent := rfl
@[simp] theorem copyPayload_trace (sb h n : Nat) : (copyPayload sb h n s).trace = s.trace := rfl
@[simp] theorem copyPayload_lock (sb h n : Nat) : (copyPayload sb h n s).lock = s.lock := rfl
@[simp] theorem copyPayload_outcome (sb h n : Nat) : (copyPayload sb h n s).outcome = s.outcome := rfl
@[simp] theorem copyPayload_nextPkt (sb h n : Nat) : (copyPayload sb h n s).nextPkt = s.nextPkt := rfl
@[simp] theorem copyPayload_queue (sb h n : Nat) : (copyPayload sb h n s).queue = s.queue := rfl
@[simp] theorem copyPayload_sched (sb h n : Nat) : (copyPayload sb h n s).sched = s.sched := rfl
@[simp] theorem copyPayload_draws (sb h n : Nat) : (copyPayload sb h n s).draws = s.draws := rfl
@[simp] theorem copyPayload_drawCount (sb h n : Nat) : (copyPayload sb h n s).drawCount = s.drawCount := rfl
@[simp] theorem copyPayload_payloadCount (sb h n : Nat) :
    (copyPayload sb h n s).payloadCount = s.payloadCount := rfl

/-! ### `enterWait` -/

@[simp] theorem enterWait_params (st : LinkFsm) : (enterWait st s).params = s.params := rfl
@[simp] theorem enterWait_adapter (st : LinkFsm) : (enterWait st s).adapter = s.adapter := rfl
@[simp] theorem enterWait_irqAcquired (st : LinkFsm) : (enterWait st s).irqAcquired = s.irqAcquired := rfl
@[simp] theorem enterWait_tx (st : LinkFsm) : (enterWait st s).tx = s.tx := rfl
@[simp] theorem enterWait_rx (st : LinkFsm) : (enterWait st s).rx = s.rx := rfl
@[simp] theorem enterWait_link (st : LinkFsm) : (enterWait st s).link = { s.link with state := st, tick := 0 } := rfl
@[simp] theorem enterWait_timerArmed (st : LinkFsm) : (enterWait st s).timerArmed = true := rfl
@[simp] theorem enterWait_counters (st : LinkFsm) : (enterWait st s).counters = s.counters := rfl
@[simp] theorem enterWait_dev (st : LinkFsm) : (enterWait st s).dev = s.dev := rfl
@[simp] theorem enterWait_mem (st : LinkFsm) : (enterWait st s).mem = s.mem := rfl
@[simp] theorem enterWait_wb (st : LinkFsm) : (enterWait st s).wb = s.wb := rfl
@[simp] theorem enterWait_epoch (st : LinkFsm) : (enterWait st s).epoch = s.epoch := rfl
@[simp] theorem enterWait_liveBuffers (st : LinkFsm) : (enterWait st s).liveBuffers = s.liveBuffers := rfl
@[simp] theorem enterWait_liveMaps (st : LinkFsm) : (enterWait st s).liveMaps = s.liveMaps := rfl
@[simp] theorem enterWait_pkts (st : LinkFsm) : (enterWait st s).pkts = s.pkts := rfl
@[simp] theorem enterWait_bufMem (st : LinkFsm) : (enterWait st s).bufMem = s.bufMem := rfl
@[simp] theorem enterWait_dmaMem (st : LinkFsm) : (enterWait st s).dmaMem = s.dmaMem := rfl
@[simp] theorem enterWait_syncWindows (st : LinkFsm) : (enterWait st s).syncWindows = s.syncWindows := rfl
@[simp] theorem enterWait_fault (st : LinkFsm) : (enterWait st s).fault = s.fault := rfl
@[simp] theorem enterWait_absent (st : LinkFsm) : (enterWait st s).absent = s.absent := rfl
@[simp] theorem enterWait_trace (st : LinkFsm) : (enterWait st s).trace = s.trace := rfl
@[simp] theorem enterWait_lock (st : LinkFsm) : (enterWait st s).lock = s.lock := rfl
@[simp] theorem enterWait_outcome (st : LinkFsm) : (enterWait st s).outcome = s.outcome := rfl
@[simp] theorem enterWait_nextPkt (st : LinkFsm) : (enterWait st s).nextPkt = s.nextPkt := rfl
@[simp] theorem enterWait_queue (st : LinkFsm) : (enterWait st s).queue = s.queue := rfl
@[simp] theorem enterWait_sched (st : LinkFsm) : (enterWait st s).sched = s.sched := rfl
@[simp] theorem enterWait_draws (st : LinkFsm) : (enterWait st s).draws = s.draws := rfl
@[simp] theorem enterWait_drawCount (st : LinkFsm) : (enterWait st s).drawCount = s.drawCount := rfl
@[simp] theorem enterWait_payloadCount (st : LinkFsm) : (enterWait st s).payloadCount = s.payloadCount := rfl

/-! ### `dropFirst` -/

@[simp] theorem dropFirst_params : (dropFirst s).params = s.params := rfl
@[simp] theorem dropFirst_adapter : (dropFirst s).adapter = s.adapter := rfl
@[simp] theorem dropFirst_irqAcquired : (dropFirst s).irqAcquired = s.irqAcquired := rfl
@[simp] theorem dropFirst_tx : (dropFirst s).tx = s.tx := rfl
@[simp] theorem dropFirst_rx : (dropFirst s).rx = s.rx := rfl
@[simp] theorem dropFirst_link : (dropFirst s).link = s.link := rfl
@[simp] theorem dropFirst_timerArmed : (dropFirst s).timerArmed = s.timerArmed := rfl
@[simp] theorem dropFirst_counters : (dropFirst s).counters = s.counters := rfl
@[simp] theorem dropFirst_dev : (dropFirst s).dev = s.dev := rfl
@[simp] theorem dropFirst_mem : (dropFirst s).mem = s.mem := rfl
@[simp] theorem dropFirst_wb : (dropFirst s).wb = s.wb := rfl
@[simp] theorem dropFirst_epoch : (dropFirst s).epoch = s.epoch := rfl
@[simp] theorem dropFirst_liveBuffers : (dropFirst s).liveBuffers = s.liveBuffers := rfl
@[simp] theorem dropFirst_liveMaps : (dropFirst s).liveMaps = s.liveMaps := rfl
@[simp] theorem dropFirst_pkts : (dropFirst s).pkts = s.pkts := rfl
@[simp] theorem dropFirst_bufMem : (dropFirst s).bufMem = s.bufMem := rfl
@[simp] theorem dropFirst_dmaMem : (dropFirst s).dmaMem = s.dmaMem := rfl
@[simp] theorem dropFirst_syncWindows : (dropFirst s).syncWindows = s.syncWindows := rfl
@[simp] theorem dropFirst_fault : (dropFirst s).fault = s.fault := rfl
@[simp] theorem dropFirst_absent : (dropFirst s).absent = s.absent := rfl
@[simp] theorem dropFirst_trace : (dropFirst s).trace = s.trace := rfl
@[simp] theorem dropFirst_lock : (dropFirst s).lock = s.lock := rfl
@[simp] theorem dropFirst_outcome : (dropFirst s).outcome = s.outcome := rfl
@[simp] theorem dropFirst_nextPkt : (dropFirst s).nextPkt = s.nextPkt := rfl
@[simp] theorem dropFirst_queue : (dropFirst s).queue = s.queue.tail := rfl
@[simp] theorem dropFirst_sched : (dropFirst s).sched = s.sched := rfl
@[simp] theorem dropFirst_draws : (dropFirst s).draws = s.draws := rfl
@[simp] theorem dropFirst_drawCount : (dropFirst s).drawCount = s.drawCount := rfl
@[simp] theorem dropFirst_payloadCount : (dropFirst s).payloadCount = s.payloadCount := rfl

/-! ### `putFirst` -/

@[simp] theorem putFirst_params (c : Command) : (putFirst c s).params = s.params := rfl
@[simp] theorem putFirst_adapter (c : Command) : (putFirst c s).adapter = s.adapter := rfl
@[simp] theorem putFirst_irqAcquired (c : Command) : (putFirst c s).irqAcquired = s.irqAcquired := rfl
@[simp] theorem putFirst_tx (c : Command) : (putFirst c s).tx = s.tx := rfl
@[simp] theorem putFirst_rx (c : Command) : (putFirst c s).rx = s.rx := rfl
@[simp] theorem putFirst_link (c : Command) : (putFirst c s).link = s.link := rfl
@[simp] theorem putFirst_timerArmed (c : Command) : (putFirst c s).timerArmed = s.timerArmed := rfl
@[simp] theorem putFirst_counters (c : Command) : (putFirst c s).counters = s.counters := rfl
@[simp] theorem putFirst_dev (c : Command) : (putFirst c s).dev = s.dev := rfl
@[simp] theorem putFirst_mem (c : Command) : (putFirst c s).mem = s.mem := rfl
@[simp] theorem putFirst_wb (c : Command) : (putFirst c s).wb = s.wb := rfl
@[simp] theorem putFirst_epoch (c : Command) : (putFirst c s).epoch = s.epoch := rfl
@[simp] theorem putFirst_liveBuffers (c : Command) : (putFirst c s).liveBuffers = s.liveBuffers := rfl
@[simp] theorem putFirst_liveMaps (c : Command) : (putFirst c s).liveMaps = s.liveMaps := rfl
@[simp] theorem putFirst_pkts (c : Command) : (putFirst c s).pkts = s.pkts := rfl
@[simp] theorem putFirst_bufMem (c : Command) : (putFirst c s).bufMem = s.bufMem := rfl
@[simp] theorem putFirst_dmaMem (c : Command) : (putFirst c s).dmaMem = s.dmaMem := rfl
@[simp] theorem putFirst_syncWindows (c : Command) : (putFirst c s).syncWindows = s.syncWindows := rfl
@[simp] theorem putFirst_fault (c : Command) : (putFirst c s).fault = s.fault := rfl
@[simp] theorem putFirst_absent (c : Command) : (putFirst c s).absent = s.absent := rfl
@[simp] theorem putFirst_trace (c : Command) : (putFirst c s).trace = s.trace := rfl
@[simp] theorem putFirst_lock (c : Command) : (putFirst c s).lock = s.lock := rfl
@[simp] theorem putFirst_outcome (c : Command) : (putFirst c s).outcome = s.outcome := rfl
@[simp] theorem putFirst_nextPkt (c : Command) : (putFirst c s).nextPkt = s.nextPkt := rfl
@[simp] theorem putFirst_queue (c : Command) : (putFirst c s).queue = c :: s.queue := rfl
@[simp] theorem putFirst_sched (c : Command) : (putFirst c s).sched = s.sched := rfl
@[simp] theorem putFirst_draws (c : Command) : (putFirst c s).draws = s.draws := rfl
@[simp] theorem putFirst_drawCount (c : Command) : (putFirst c s).drawCount = s.drawCount := rfl
@[simp] theorem putFirst_payloadCount (c : Command) : (putFirst c s).payloadCount = s.payloadCount := rfl

/-! ### `closeWindow` -/

@[simp] theorem closeWindow_params (da : Nat) : (closeWindow da s).params = s.params := rfl
@[simp] theorem closeWindow_adapter (da : Nat) : (closeWindow da s).adapter = s.adapter := rfl
@[simp] theorem closeWindow_irqAcquired (da : Nat) : (closeWindow da s).irqAcquired = s.irqAcquired := rfl
@[simp] theorem closeWindow_tx (da : Nat) : (closeWindow da s).tx = s.tx := rfl
@[simp] theorem closeWindow_rx (da : Nat) : (closeWindow da s).rx = s.rx := rfl
@[simp] theorem closeWindow_link (da : Nat) : (closeWindow da s).link = s.link := rfl
@[simp] theorem closeWindow_timerArmed (da : Nat) : (closeWindow da s).timerArmed = s.timerArmed := rfl
@[simp] theorem closeWindow_counters (da : Nat) : (closeWindow da s).counters = s.counters := rfl
@[simp] theorem closeWindow_dev (da : Nat) : (closeWindow da s).dev = s.dev := rfl
@[simp] theorem closeWindow_mem (da : Nat) : (closeWindow da s).mem = s.mem := rfl
@[simp] theorem closeWindow_wb (da : Nat) : (closeWindow da s).wb = s.wb := rfl
@[simp] theorem closeWindow_epoch (da : Nat) : (closeWindow da s).epoch = s.epoch := rfl
@[simp] theorem closeWindow_liveBuffers (da : Nat) : (closeWindow da s).liveBuffers = s.liveBuffers := rfl
@[simp] theorem closeWindow_liveMaps (da : Nat) : (closeWindow da s).liveMaps = s.liveMaps := rfl
@[simp] theorem closeWindow_pkts (da : Nat) : (closeWindow da s).pkts = s.pkts := rfl
@[simp] theorem closeWindow_bufMem (da : Nat) : (closeWindow da s).bufMem = s.bufMem := rfl
@[simp] theorem closeWindow_dmaMem (da : Nat) : (closeWindow da s).dmaMem = s.dmaMem := rfl
@[simp] theorem closeWindow_syncWindows (da : Nat) : (closeWindow da s).syncWindows = mapErase s.syncWindows da := rfl
@[simp] theorem closeWindow_fault (da : Nat) : (closeWindow da s).fault = s.fault := rfl
@[simp] theorem closeWindow_absent (da : Nat) : (closeWindow da s).absent = s.absent := rfl
@[simp] theorem closeWindow_trace (da : Nat) : (closeWindow da s).trace = s.trace := rfl
@[simp] theorem closeWindow_lock (da : Nat) : (closeWindow da s).lock = s.lock := rfl
@[simp] theorem closeWindow_outcome (da : Nat) : (closeWindow da s).outcome = s.outcome := rfl
@[simp] theorem closeWindow_nextPkt (da : Nat) : (closeWindow da s).nextPkt = s.nextPkt := rfl
@[simp] theorem closeWindow_queue (da : Nat) : (closeWindow da s).queue = s.queue := rfl
@[simp] theorem closeWindow_sched (da : Nat) : (closeWindow da s).sched = s.sched := rfl
@[simp] theorem closeWindow_draws (da : Nat) : (closeWindow da s).draws = s.draws := rfl
@[simp] theorem closeWindow_drawCount (da : Nat) : (closeWindow da s).drawCount = s.drawCount := rfl
@[simp] theorem closeWindow_payloadCount (da : Nat) : (closeWindow da s).payloadCount = s.payloadCount := rfl

/-! ### `openWindow` -/

@[simp] theorem openWindow_params (h n : Nat) : (openWindow h n s).params = s.params := rfl
@[simp] theorem openWindow_adapter (h n : Nat) : (openWindow h n s).adapter = s.adapter := rfl
@[simp] theorem openWindow_irqAcquired (h n : Nat) : (openWindow h n s).irqAcquired = s.irqAcquired := rfl
@[simp] theorem openWindow_tx (h n : Nat) : (openWindow h n s).tx = s.tx := rfl
@[simp] theorem openWindow_rx (h n : Nat) : (openWindow h n s).rx = s.rx := rfl
@[simp] theorem openWindow_link (h n : Nat) : (openWindow h n s).link = s.link := rfl
@[simp] theorem openWindow_timerArmed (h n : Nat) : (openWindow h n s).timerArmed = s.timerArmed := rfl
@[simp] theorem openWindow_counters (h n : Nat) : (openWindow h n s).counters = s.counters := rfl
@[simp] theorem openWindow_dev (h n : Nat) : (openWindow h n s).dev = s.dev := rfl
@[simp] theorem openWindow_mem (h n : Nat) : (openWindow h n s).mem = s.mem := rfl
@[simp] theorem openWindow_wb (h n : Nat) : (openWindow h n s).wb = s.wb := rfl
@[simp] theorem openWindow_epoch (h n : Nat) : (openWindow h n s).epoch = s.epoch := rfl
@[simp] theorem openWindow_liveBuffers (h n : Nat) : (openWindow h n s).liveBuffers = s.liveBuffers := rfl
@[simp] theorem openWindow_liveMaps (h n : Nat) : (openWindow h n s).liveMaps = s.liveMaps := rfl
@[simp] theorem openWindow_pkts (h n : Nat) : (openWindow h n s).pkts = s.pkts := rfl
theorem openWindow_bufMem {h : Nat} {m : MapEntry} (hm : mapGet s.liveMaps h = some m) (n : Nat) :
    (openWindow h n s).bufMem = showBytes s.dmaMem m.buf n s.bufMem := by simp [openWindow, hm]
@[simp] theorem openWindow_dmaMem (h n : Nat) : (openWindow h n s).dmaMem = s.dmaMem := rfl
theorem openWindow_syncWindows {h : Nat} {m : MapEntry} (hm : mapGet s.liveMaps h = some m) (n : Nat) :
    (openWindow h n s).syncWindows = mapSet s.syncWindows m.da n := by simp [openWindow, hm]
@[simp] theorem openWindow_fault (h n : Nat) : (openWindow h n s).fault = s.fault := rfl
@[simp] theorem openWindow_absent (h n : Nat) : (openWindow h n s).absent = s.absent := rfl
@[simp] theorem openWindow_trace (h n : Nat) : (openWindow h n s).trace = s.trace := rfl
@[simp] theorem openWindow_lock (h n : Nat) : (openWindow h n s).lock = s.lock := rfl
@[simp] theorem openWindow_outcome (h n : Nat) : (openWindow h n s).outcome = s.outcome := rfl
@[simp] theorem openWindow_nextPkt (h n : Nat) : (openWindow h n s).nextPkt = s.nextPkt := rfl
@[simp] theorem openWindow_queue (h n : Nat) : (openWindow h n s).queue = s.queue := rfl
@[simp] theorem openWindow_sched (h n : Nat) : (openWindow h n s).sched = s.sched := rfl
@[simp] theorem openWindow_draws (h n : Nat) : (openWindow h n s).draws = s.draws := rfl
@[simp] theorem openWindow_drawCount (h n : Nat) : (openWindow h n s).drawCount = s.drawCount := rfl
@[simp] theorem openWindow_payloadCount (h n : Nat) : (openWindow h n s).payloadCount = s.payloadCount := rfl

/-! ### `returnWindow` -/

@[simp] theorem returnWindow_params (h : Nat) : (returnWindow h s).params = s.params := rfl
@[simp] theorem returnWindow_adapter (h : Nat) : (returnWindow h s).adapter = s.adapter := rfl
@[simp] theorem returnWindow_irqAcquired (h : Nat) : (returnWindow h s).irqAcquired = s.irqAcquired := rfl
@[simp] theorem returnWindow_tx (h : Nat) : (returnWindow h s).tx = s.tx := rfl
@[simp] theorem returnWindow_rx (h : Nat) : (returnWindow h s).rx = s.rx := rfl
@[simp] theorem returnWindow_link (h : Nat) : (returnWindow h s).link = s.link := rfl
@[simp] theorem returnWindow_timerArmed (h : Nat) : (returnWindow h s).timerArmed = s.timerArmed := rfl
@[simp] theorem returnWindow_counters (h : Nat) : (returnWindow h s).counters = s.counters := rfl
@[simp] theorem returnWindow_dev (h : Nat) : (returnWindow h s).dev = s.dev := rfl
@[simp] theorem returnWindow_mem (h : Nat) : (returnWindow h s).mem = s.mem := rfl
@[simp] theorem returnWindow_wb (h : Nat) : (returnWindow h s).wb = s.wb := rfl
@[simp] theorem returnWindow_epoch (h : Nat) : (returnWindow h s).epoch = s.epoch := rfl
@[simp] theorem returnWindow_liveBuffers (h : Nat) : (returnWindow h s).liveBuffers = s.liveBuffers := rfl
@[simp] theorem returnWindow_liveMaps (h : Nat) : (returnWindow h s).liveMaps = s.liveMaps := rfl
@[simp] theorem returnWindow_pkts (h : Nat) : (returnWindow h s).pkts = s.pkts := rfl
@[simp] theorem returnWindow_bufMem (h : Nat) : (returnWindow h s).bufMem = s.bufMem := rfl
@[simp] theorem returnWindow_dmaMem (h : Nat) : (returnWindow h s).dmaMem = s.dmaMem := rfl
theorem returnWindow_syncWindows {h : Nat} {m : MapEntry} (hm : mapGet s.liveMaps h = some m) :
    (returnWindow h s).syncWindows = mapErase s.syncWindows m.da := by simp [returnWindow, hm]
@[simp] theorem returnWindow_fault (h : Nat) : (returnWindow h s).fault = s.fault := rfl
@[simp] theorem returnWindow_absent (h : Nat) : (returnWindow h s).absent = s.absent := rfl
@[simp] theorem returnWindow_trace (h : Nat) : (returnWindow h s).trace = s.trace := rfl
@[simp] theorem returnWindow_lock (h : Nat) : (returnWindow h s).lock = s.lock := rfl
@[simp] theorem returnWindow_outcome (h : Nat) : (returnWindow h s).outcome = s.outcome := rfl
@[simp] theorem returnWindow_nextPkt (h : Nat) : (returnWindow h s).nextPkt = s.nextPkt := rfl
@[simp] theorem returnWindow_queue (h : Nat) : (returnWindow h s).queue = s.queue := rfl
@[simp] theorem returnWindow_sched (h : Nat) : (returnWindow h s).sched = s.sched := rfl
@[simp] theorem returnWindow_draws (h : Nat) : (returnWindow h s).draws = s.draws := rfl
@[simp] theorem returnWindow_drawCount (h : Nat) : (returnWindow h s).drawCount = s.drawCount := rfl
@[simp] theorem returnWindow_payloadCount (h : Nat) : (returnWindow h s).payloadCount = s.payloadCount := rfl

/-! ### `releaseMap` -/

@[simp] theorem releaseMap_params (h : Nat) (m : MapEntry) : (releaseMap h m s).params = s.params := rfl
@[simp] theorem releaseMap_adapter (h : Nat) (m : MapEntry) : (releaseMap h m s).adapter = s.adapter := rfl
@[simp] theorem releaseMap_irqAcquired (h : Nat) (m : MapEntry) :
    (releaseMap h m s).irqAcquired = s.irqAcquired := rfl
@[simp] theorem releaseMap_tx (h : Nat) (m : MapEntry) : (releaseMap h m s).tx = s.tx := rfl
@[simp] theorem releaseMap_rx (h : Nat) (m : MapEntry) : (releaseMap h m s).rx = s.rx := rfl
@[simp] theorem releaseMap_link (h : Nat) (m : MapEntry) : (releaseMap h m s).link = s.link := rfl
@[simp] theorem releaseMap_timerArmed (h : Nat) (m : MapEntry) : (releaseMap h m s).timerArmed = s.timerArmed := rfl
@[simp] theorem releaseMap_counters (h : Nat) (m : MapEntry) : (releaseMap h m s).counters = s.counters := rfl
@[simp] theorem releaseMap_dev (h : Nat) (m : MapEntry) : (releaseMap h m s).dev = s.dev := rfl
@[simp] theorem releaseMap_mem (h : Nat) (m : MapEntry) : (releaseMap h m s).mem = s.mem := rfl
@[simp] theorem releaseMap_wb (h : Nat) (m : MapEntry) : (releaseMap h m s).wb = s.wb := rfl
@[simp] theorem releaseMap_epoch (h : Nat) (m : MapEntry) : (releaseMap h m s).epoch = s.epoch := rfl
@[simp] theorem releaseMap_liveBuffers (h : Nat) (m : MapEntry) :
    (releaseMap h m s).liveBuffers = s.liveBuffers := rfl
@[simp] theorem releaseMap_liveMaps (h : Nat) (m : MapEntry) :
    (releaseMap h m s).liveMaps = mapErase s.liveMaps h := rfl
@[simp] theorem releaseMap_pkts (h : Nat) (m : MapEntry) : (releaseMap h m s).pkts = s.pkts := rfl
@[simp] theorem releaseMap_bufMem (h : Nat) (m : MapEntry) :
    (releaseMap h m s).bufMem = showAll s.dmaMem m.buf s.bufMem := rfl
@[simp] theorem releaseMap_dmaMem (h : Nat) (m : MapEntry) : (releaseMap h m s).dmaMem = s.dmaMem := rfl
@[simp] theorem releaseMap_syncWindows (h : Nat) (m : MapEntry) :
    (releaseMap h m s).syncWindows = mapErase s.syncWindows m.da := rfl
@[simp] theorem releaseMap_fault (h : Nat) (m : MapEntry) : (releaseMap h m s).fault = s.fault := rfl
@[simp] theorem releaseMap_absent (h : Nat) (m : MapEntry) : (releaseMap h m s).absent = s.absent := rfl
@[simp] theorem releaseMap_trace (h : Nat) (m : MapEntry) : (releaseMap h m s).trace = s.trace := rfl
@[simp] theorem releaseMap_lock (h : Nat) (m : MapEntry) : (releaseMap h m s).lock = s.lock := rfl
@[simp] theorem releaseMap_outcome (h : Nat) (m : MapEntry) : (releaseMap h m s).outcome = s.outcome := rfl
@[simp] theorem releaseMap_nextPkt (h : Nat) (m : MapEntry) : (releaseMap h m s).nextPkt = s.nextPkt := rfl
@[simp] theorem releaseMap_queue (h : Nat) (m : MapEntry) : (releaseMap h m s).queue = s.queue := rfl
@[simp] theorem releaseMap_sched (h : Nat) (m : MapEntry) : (releaseMap h m s).sched = s.sched := rfl
@[simp] theorem releaseMap_draws (h : Nat) (m : MapEntry) : (releaseMap h m s).draws = s.draws := rfl
@[simp] theorem releaseMap_drawCount (h : Nat) (m : MapEntry) : (releaseMap h m s).drawCount = s.drawCount := rfl
@[simp] theorem releaseMap_payloadCount (h : Nat) (m : MapEntry) :
    (releaseMap h m s).payloadCount = s.payloadCount := rfl

/-! ### `markAbsent` -/

@[simp] theorem markAbsent_params : (markAbsent s).params = s.params := rfl
@[simp] theorem markAbsent_adapter : (markAbsent s).adapter = s.adapter := rfl
@[simp] theorem markAbsent_irqAcquired : (markAbsent s).irqAcquired = s.irqAcquired := rfl
@[simp] theorem markAbsent_tx : (markAbsent s).tx = s.tx := rfl
@[simp] theorem markAbsent_rx : (markAbsent s).rx = s.rx := rfl
@[simp] theorem markAbsent_link : (markAbsent s).link = s.link := rfl
@[simp] theorem markAbsent_timerArmed : (markAbsent s).timerArmed = s.timerArmed := rfl
@[simp] theorem markAbsent_counters : (markAbsent s).counters = s.counters := rfl
@[simp] theorem markAbsent_dev : (markAbsent s).dev = s.dev := rfl
@[simp] theorem markAbsent_mem : (markAbsent s).mem = s.mem := rfl
@[simp] theorem markAbsent_wb : (markAbsent s).wb = s.wb := rfl
@[simp] theorem markAbsent_epoch : (markAbsent s).epoch = s.epoch := rfl
@[simp] theorem markAbsent_liveBuffers : (markAbsent s).liveBuffers = s.liveBuffers := rfl
@[simp] theorem markAbsent_liveMaps : (markAbsent s).liveMaps = s.liveMaps := rfl
@[simp] theorem markAbsent_pkts : (markAbsent s).pkts = s.pkts := rfl
@[simp] theorem markAbsent_bufMem : (markAbsent s).bufMem = s.bufMem := rfl
@[simp] theorem markAbsent_dmaMem : (markAbsent s).dmaMem = s.dmaMem := rfl
@[simp] theorem markAbsent_syncWindows : (markAbsent s).syncWindows = s.syncWindows := rfl
@[simp] theorem markAbsent_fault : (markAbsent s).fault = s.fault := rfl
@[simp] theorem markAbsent_absent : (markAbsent s).absent = true := rfl
@[simp] theorem markAbsent_trace : (markAbsent s).trace = s.trace := rfl
@[simp] theorem markAbsent_lock : (markAbsent s).lock = s.lock := rfl
@[simp] theorem markAbsent_outcome : (markAbsent s).outcome = s.outcome := rfl
@[simp] theorem markAbsent_nextPkt : (markAbsent s).nextPkt = s.nextPkt := rfl
@[simp] theorem markAbsent_queue : (markAbsent s).queue = s.queue := rfl
@[simp] theorem markAbsent_sched : (markAbsent s).sched = s.sched := rfl
@[simp] theorem markAbsent_draws : (markAbsent s).draws = s.draws := rfl
@[simp] theorem markAbsent_drawCount : (markAbsent s).drawCount = s.drawCount := rfl
@[simp] theorem markAbsent_payloadCount : (markAbsent s).payloadCount = s.payloadCount := rfl

end Sys2Proof.Laws
end

