-- ==== Sys2Proof/Laws/Agents.lean ====
section
/-! SUPPORT. What agent steps can do: each leaves the host's side of the state alone, and so do the interleaving and the drain. -/

-- One theorem at a time: checked together they ask for more threads than the check allows.
set_option Elab.async false

namespace Sys2Proof.Laws

open Sys2Proof.Machine

/-! ### The host's side -/

/-- Equal host sides agree on every field that is the host's. -/
theorem hostSide_fields {s t : State} (h : hostSide t = hostSide s) :
    t.params = s.params ∧ t.adapter = s.adapter ∧ t.irqAcquired = s.irqAcquired ∧ t.tx = s.tx ∧ t.rx = s.rx ∧
      t.link = s.link ∧ t.timerArmed = s.timerArmed ∧ t.counters = s.counters ∧
      t.dev.intArmed = s.dev.intArmed ∧ t.dev.txDmaOn = s.dev.txDmaOn ∧ t.dev.rxDmaOn = s.dev.rxDmaOn ∧
      t.dev.macTxcfg = s.dev.macTxcfg ∧ t.epoch = s.epoch ∧ t.liveBuffers = s.liveBuffers ∧
      t.liveMaps = s.liveMaps ∧ t.pkts = s.pkts ∧ t.fault = s.fault ∧ t.lock = s.lock ∧ t.outcome = s.outcome ∧
      t.nextPkt = s.nextPkt ∧ t.queue = s.queue ∧ t.drawCount = s.drawCount ∧ hostTrace t = hostTrace s ∧
      t.syncWindows = s.syncWindows ∧ t.absent = s.absent := by
  simp only [hostSide, State.mk.injEq] at h
  obtain ⟨h1, h2, h3, h4, h5, h6, h7, h8, h9, -, -, h12, h13, h14, h15, -, -, hw, h17, ha, h18, h19, h20, h21, h22, -, -, h25, -⟩ := h
  simp only [DevState.mk.injEq] at h9
  exact ⟨h1, h2, h3, h4, h5, h6, h7, h8, h9.2.1, h9.2.2.1, h9.2.2.2.1, h9.2.2.2.2.1, h12, h13, h14, h15, h17, h19, h20,
    h21, h22, h25, h18, hw, ha⟩

@[simp] theorem hostTrace_emitted (e : Event) (s : State) :
    hostTrace (emitted e s) = hostTrace s ++ (hostEvent e).toList := by
  simp [hostTrace, List.filterMap_append, List.filterMap_cons]
  cases hostEvent e <;> rfl

/-- A pending write that becomes visible is none of the host's doing. -/
theorem writeVisible_hostSide (a : Nat) (v : Word32) (s : State) : hostSide (writeVisible a v s) = hostSide s := by
  have h : hostTrace (writeVisible a v s) = hostTrace s := by simp [hostTrace, hostEvent]
  simp only [hostSide, h]
  rfl

theorem drainList_hostSide (es : List WbEntry) (s : State) : hostSide (drainList es s) = hostSide s := by
  induction es generalizing s with
  | nil => rfl
  | cons e es ih => exact (ih _).trans (writeVisible_hostSide _ _ _)

/-- The visibility steps of a hold leave the host's side alone. -/
theorem drain_hostSide (s : State) : hostSide (drain s) = hostSide s :=
  (show hostSide (drain s) = hostSide (drainList s.wb s) from rfl).trans (drainList_hostSide _ _)

/-! ### Agent steps -/

theorem stepVisible_hostSide {a : Nat} {s t : State} (h : stepVisible a s = some t) : hostSide t = hostSide s := by
  unfold stepVisible at h
  split at h
  · cases h
  · split at h
    · cases h
      exact writeVisible_hostSide _ _ _
    · cases h

theorem stepTxDone_hostSide {slot : Nat} {s t : State} (h : stepTxDone slot s = some t) : hostSide t = hostSide s := by
  unfold stepTxDone at h
  split at h
  · cases h
  · split at h
    · cases h
      rfl
    · cases h

theorem writePayload_hostSide (da n : Nat) (s : State) : hostSide (writePayload da n s) = hostSide s := rfl

theorem stepRxDone_hostSide {slot len : Nat} {ov : Bool} {csum : Nat} {s t : State}
    (h : stepRxDone slot len ov csum s = some t) : hostSide t = hostSide s := by
  unfold stepRxDone at h
  split at h
  · cases h
  · split at h
    · cases h
      rfl
    · cases h

theorem stepStatus_hostSide {bits : Word32} {s t : State} (h : stepStatus bits s = some t) : hostSide t = hostSide s := by
  unfold stepStatus at h
  split at h
  · cases h
    rfl
  · cases h

theorem stepMacDrained_hostSide {s t : State} (h : stepMacDrained s = some t) : hostSide t = hostSide s := by
  unfold stepMacDrained at h
  split at h
  · cases h
    rfl
  · cases h

/-- No agent step touches the host's side. -/
theorem agentStep_hostSide {a : AgentStep} {s t : State} (h : agentStep a s = some t) : hostSide t = hostSide s := by
  cases a with
  | envVisible a => exact stepVisible_hostSide h
  | devTxDone slot => exact stepTxDone_hostSide h
  | devRxDone slot len ov csum => exact stepRxDone_hostSide h
  | devStatus bits => exact stepStatus_hostSide h
  | macDrained => exact stepMacDrained_hostSide h

/-- The interleaving carries any relation that every agent step, and taking a schedule entry, keeps. -/
theorem interleave_carries {R : State → State → Prop} (hR : Carried R)
    (ha : ∀ a s t, agentStep a s = some t → R s t) (hs : ∀ s l, R s { s with sched := l }) (s : State) :
    R s (interleave s) := by
  have hsteps : ∀ (l : List AgentStep) (s : State), R s (agentSteps l s) := by
    intro l
    induction l with
    | nil => exact hR.refl
    | cons a l ih =>
      intro s
      refine hR.trans ?_ (ih _)
      cases h : agentStep a s with
      | none => exact hR.refl s
      | some t => exact ha a s t h
  unfold interleave
  split
  · exact hR.refl s
  · exact hR.trans (hs s _) (hsteps _ _)

theorem sameHostSide : Carried fun s t => hostSide t = hostSide s where
  refl _ := rfl
  trans h h' := h'.trans h

/-- The environment's interleaving leaves the host's side alone. -/
theorem interleave_hostSide (s : State) : hostSide (interleave s) = hostSide s :=
  interleave_carries sameHostSide (fun _ _ _ h => agentStep_hostSide h) (fun _ _ => rfl) s

end Sys2Proof.Laws
end

