-- ==== Sys2Proof/Laws/Maps.lean ====
section
/-! SUPPORT. The laws of the sparse tables and of descriptor memory: read after write, and every operation keeps the canonical form. -/

-- One theorem at a time: checked together they ask for more threads than the check allows.
set_option Elab.async false

namespace Sys2Proof.Laws

open Sys2Proof.Machine

variable {β : Type}

/-! ### Read after write -/

@[simp] theorem mapGet_nil (k : Nat) : mapGet ([] : Table β) k = none := rfl

@[simp] theorem mapGet_mapSet_same (t : Table β) (k : Nat) (v : β) : mapGet (mapSet t k v) k = some v := by
  induction t with
  | nil => simp [mapSet, mapGet]
  | cons e t ih =>
    obtain ⟨k', v'⟩ := e
    simp only [mapSet]
    split
    · simp [mapGet]
    · split
      · simp [mapGet]
      · rename_i h
        simp [mapGet, h, ih]

theorem mapGet_mapSet_other (t : Table β) {k k' : Nat} (v : β) (h : k' ≠ k) : mapGet (mapSet t k v) k' = mapGet t k' := by
  induction t with
  | nil => simp [mapSet, mapGet, h]
  | cons e t ih =>
    obtain ⟨k₀, v₀⟩ := e
    simp only [mapSet]
    split
    · simp [mapGet, h]
    · split
      · rename_i h'
        subst h'
        simp [mapGet, h]
      · simp only [mapGet, ih]

theorem mapGet_mapSet (t : Table β) (k k' : Nat) (v : β) :
    mapGet (mapSet t k v) k' = if k' = k then some v else mapGet t k' := by
  split
  · rename_i h
    subst h
    simp
  · rename_i h
    exact mapGet_mapSet_other t v h

@[simp] theorem mapGet_mapErase_same (t : Table β) (k : Nat) : mapGet (mapErase t k) k = none := by
  induction t with
  | nil => rfl
  | cons e t ih =>
    obtain ⟨k', v'⟩ := e
    simp only [mapErase]
    split
    · exact ih
    · rename_i h
      simp [mapGet, h, ih]

theorem mapGet_mapErase_other (t : Table β) {k k' : Nat} (h : k' ≠ k) : mapGet (mapErase t k) k' = mapGet t k' := by
  induction t with
  | nil => rfl
  | cons e t ih =>
    obtain ⟨k₀, v₀⟩ := e
    simp only [mapErase]
    split
    · rename_i h'
      subst h'
      simp [mapGet, h, ih]
    · simp only [mapGet, ih]

theorem mapGet_mapErase (t : Table β) (k k' : Nat) :
    mapGet (mapErase t k) k' = if k' = k then none else mapGet t k' := by
  split
  · rename_i h
    subst h
    simp
  · rename_i h
    exact mapGet_mapErase_other t h

theorem mapHas_mapSet (t : Table β) (k k' : Nat) (v : β) :
    mapHas (mapSet t k v) k' = (decide (k' = k) || mapHas t k') := by
  unfold mapHas
  rw [mapGet_mapSet]
  split
  · rename_i h
    simp [h]
  · rename_i h
    simp [h]

theorem mapHas_mapErase (t : Table β) (k k' : Nat) :
    mapHas (mapErase t k) k' = (!decide (k' = k) && mapHas t k') := by
  unfold mapHas
  rw [mapGet_mapErase]
  split
  · rename_i h
    simp [h]
  · rename_i h
    simp [h]

/-! ### The canonical form of a table -/

theorem keysAbove_iff (lo : Nat) (t : Table β) : keysAbove lo t = true ↔ ∀ e ∈ t, lo < e.1 := by
  simp [keysAbove]

theorem keysAbove_mono {lo lo' : Nat} (h : lo' ≤ lo) {t : Table β} (ht : keysAbove lo t = true) :
    keysAbove lo' t = true := by
  rw [keysAbove_iff] at *
  exact fun e he => Nat.lt_of_le_of_lt h (ht e he)

theorem keysAbove_mapSet {lo k : Nat} (t : Table β) (v : β) (h : lo < k) (ht : keysAbove lo t = true) :
    keysAbove lo (mapSet t k v) = true := by
  induction t with
  | nil => simp [mapSet, keysAbove, h]
  | cons e t ih =>
    obtain ⟨k', v'⟩ := e
    have ht' := ht
    simp only [keysAbove, List.all_cons, Bool.and_eq_true, decide_eq_true_eq] at ht
    simp only [mapSet]
    split
    · simpa [keysAbove, h] using ht'
    · split
      · simpa [keysAbove, h] using ht.2
      · simpa [keysAbove, ht.1] using ih (by simpa [keysAbove] using ht.2)

theorem keysAbove_mapErase {lo : Nat} (t : Table β) (k : Nat) (ht : keysAbove lo t = true) :
    keysAbove lo (mapErase t k) = true := by
  induction t with
  | nil => rfl
  | cons e t ih =>
    obtain ⟨k', v'⟩ := e
    simp only [keysAbove, List.all_cons, Bool.and_eq_true, decide_eq_true_eq] at ht
    simp only [mapErase]
    split
    · exact ih (by simpa [keysAbove] using ht.2)
    · simpa [keysAbove, ht.1] using ih (by simpa [keysAbove] using ht.2)

theorem mapWf_mapSet (t : Table β) (k : Nat) (v : β) (ht : mapWf t = true) : mapWf (mapSet t k v) = true := by
  induction t with
  | nil => simp [mapSet, mapWf, keysAbove]
  | cons e t ih =>
    obtain ⟨k', v'⟩ := e
    have ht' := ht
    simp only [mapWf, Bool.and_eq_true] at ht
    simp only [mapSet]
    split
    · rename_i h
      simp only [mapWf, Bool.and_eq_true]
      exact ⟨by simpa [keysAbove, h] using keysAbove_mono (Nat.le_of_lt h) ht.1, ht⟩
    · split
      · rename_i h
        subst h
        simpa [mapWf] using ht
      · rename_i h h'
        simp only [mapWf, Bool.and_eq_true]
        exact ⟨keysAbove_mapSet t v (by omega) ht.1, ih ht.2⟩

theorem mapWf_mapErase (t : Table β) (k : Nat) (ht : mapWf t = true) : mapWf (mapErase t k) = true := by
  induction t with
  | nil => rfl
  | cons e t ih =>
    obtain ⟨k', v'⟩ := e
    simp only [mapWf, Bool.and_eq_true] at ht
    simp only [mapErase]
    split
    · exact ih ht.2
    · simp only [mapWf, Bool.and_eq_true]
      exact ⟨keysAbove_mapErase t k ht.1, ih ht.2⟩

theorem mapErase_of_keysAbove {k : Nat} (t : Table β) (h : keysAbove k t = true) : mapErase t k = t := by
  induction t with
  | nil => rfl
  | cons e t ih =>
    obtain ⟨k', v'⟩ := e
    simp only [keysAbove, List.all_cons, Bool.and_eq_true, decide_eq_true_eq] at h
    have hk : ¬ k = k' := by omega
    simp only [mapErase, hk, if_false, ih (by simpa [keysAbove] using h.2)]

/-- Taking out what was just listed under a fresh key gives the table back. -/
theorem mapErase_mapSet_fresh (t : Table β) (k : Nat) (v : β) (ht : mapWf t = true) (hk : mapHas t k = false) :
    mapErase (mapSet t k v) k = t := by
  induction t with
  | nil => simp [mapSet, mapErase]
  | cons e t ih =>
    obtain ⟨k', v'⟩ := e
    simp only [mapWf, Bool.and_eq_true] at ht
    have hne : ¬ k = k' := by
      intro h
      simp [mapHas, mapGet, h] at hk
    simp only [mapHas, mapGet, hne, if_false] at hk
    simp only [mapSet]
    split
    · rename_i h
      simp only [mapErase, if_true, hne, if_false, List.cons.injEq, true_and]
      exact mapErase_of_keysAbove t (keysAbove_mono (Nat.le_of_lt h) ht.1)
    · simp only [hne, if_false, mapErase, ih ht.2 hk]

/-! ### Bytes of descriptor memory -/

theorem readByte_writeByte (m : List Host.Cell) (a b : Nat) (v : Byte) :
    readByte (writeByte m a v) b = if b = a then v else readByte m b := by
  unfold readByte writeByte
  split
  · rename_i h
    rw [mapGet_mapErase]
    split <;> simp [h]
  · rw [mapGet_mapSet]
    split <;> simp

theorem all_mapErase {p : Nat × β → Bool} (t : Table β) (k : Nat) (h : t.all p = true) : (mapErase t k).all p = true := by
  induction t with
  | nil => rfl
  | cons e t ih =>
    obtain ⟨k', v'⟩ := e
    simp only [List.all_cons, Bool.and_eq_true] at h
    simp only [mapErase]
    split
    · exact ih h.2
    · simp [h.1, ih h.2]

theorem all_mapSet {p : Nat × β → Bool} (t : Table β) (k : Nat) (v : β) (hv : p (k, v) = true) (h : t.all p = true) :
    (mapSet t k v).all p = true := by
  induction t with
  | nil => simp [mapSet, hv]
  | cons e t ih =>
    obtain ⟨k', v'⟩ := e
    simp only [List.all_cons, Bool.and_eq_true] at h
    simp only [mapSet]
    split
    · simp [hv, h.1, h.2]
    · split
      · simp [hv, h.2]
      · simp [h.1, ih h.2]

/-- Writing a byte keeps the canonical form of descriptor memory. -/
theorem memWf_writeByte (m : List Host.Cell) (a : Nat) (v : Byte) (h : memWf m = true) : memWf (writeByte m a v) = true := by
  simp only [memWf, Bool.and_eq_true] at *
  unfold writeByte
  split
  · exact ⟨mapWf_mapErase m a h.1, all_mapErase m a h.2⟩
  · rename_i hv
    exact ⟨mapWf_mapSet m a v h.1, all_mapSet m a v (by simpa using hv) h.2⟩

/-- Writing a word keeps the canonical form of descriptor memory. -/
theorem memWf_writeWord (o : ByteOrder) (m : List Host.Cell) (a : Nat) (v : Word32) (h : memWf m = true) :
    memWf (writeWord o m a v) = true := by
  cases o <;> exact memWf_writeByte _ _ _ (memWf_writeByte _ _ _ (memWf_writeByte _ _ _ (memWf_writeByte _ _ _ h)))

/-- A word's write leaves every byte outside its four alone. -/
theorem readByte_writeWord_other (o : ByteOrder) (m : List Host.Cell) (a b : Nat) (v : Word32)
    (h : b < a ∨ a + 4 ≤ b) : readByte (writeWord o m a v) b = readByte m b := by
  have h0 : b ≠ a := by omega
  have h1 : b ≠ a + 1 := by omega
  have h2 : b ≠ a + 2 := by omega
  have h3 : b ≠ a + 3 := by omega
  cases o <;> simp [writeWord, readByte_writeByte, h0, h1, h2, h3]

end Sys2Proof.Laws
end

