-- ==== Sys2Proof/Laws/Words.lean ====
section
/-! SUPPORT. The laws of words: a word reads back what was written in either byte order, words that do not meet do not disturb each
other, and the bits of a field. -/

-- One theorem at a time: checked together they ask for more threads than the check allows.
set_option Elab.async false

namespace Sys2Proof.Laws

open Sys2Proof.Machine

/-! ### Words of descriptor memory -/

/-- A word is its four bytes. -/
theorem joinBytes_wordByte (v : Word32) : joinBytes (wordByte v 0) (wordByte v 1) (wordByte v 2) (wordByte v 3) = v := by
  apply BitVec.eq_of_getLsbD_eq
  intro i hi
  simp only [joinBytes, wordByte, BitVec.getLsbD_append, BitVec.getLsbD_setWidth, BitVec.getLsbD_ushiftRight]
  split
  · rename_i h
    simp [h]
  · split
    · rename_i h h'
      have h1 : i - 8 < 8 := h'
      simp only [h1, decide_true, Bool.true_and]
      congr 1
      omega
    · split
      · rename_i h h' h''
        simp only [h'', decide_true, Bool.true_and]
        congr 1
        omega
      · rename_i h h' h''
        have h3 : i - 8 - 8 - 8 < 8 := by omega
        simp only [h3, decide_true, Bool.true_and]
        congr 1
        omega

/-- A word reads back what was written. -/
theorem readWord_writeWord_same (o : ByteOrder) (m : List Host.Cell) (a : Nat) (v : Word32) :
    readWord o (writeWord o m a v) a = v := by
  cases o <;> simp [readWord, writeWord, readByte_writeByte, joinBytes_wordByte]

/-- A word's write leaves every word that does not meet it alone. -/
theorem readWord_writeWord_other (o : ByteOrder) (m : List Host.Cell) (a b : Nat) (v : Word32)
    (h : b + 4 ≤ a ∨ a + 4 ≤ b) : readWord o (writeWord o m a v) b = readWord o m b := by
  have hb : ∀ i, i < 4 → readByte (writeWord o m a v) (b + i) = readByte m (b + i) := fun i hi =>
    readByte_writeWord_other o m a (b + i) v (by omega)
  have h0 := hb 0 (by omega)
  have h1 := hb 1 (by omega)
  have h2 := hb 2 (by omega)
  have h3 := hb 3 (by omega)
  cases o <;> simp_all [readWord]

/-- Of two aligned words, a write changes only the one it writes. -/
theorem readWord_writeWord_aligned (o : ByteOrder) (m : List Host.Cell) (a b : Nat) (v : Word32) (ha : a % 4 = 0)
    (hb : b % 4 = 0) : readWord o (writeWord o m a v) b = if b = a then v else readWord o m b := by
  split
  · rename_i h
    rw [h, readWord_writeWord_same]
  · exact readWord_writeWord_other o m a b v (by omega)

/-! ### Bits of a field -/

theorem getLsbD_fieldMask (w b : Nat) (hw : w ≤ 32) : (fieldMask w).getLsbD b = decide (b < w) := by
  simp only [fieldMask, BitVec.getLsbD_ofNat]
  rw [Nat.testBit_two_pow_sub_one]
  by_cases h : b < w
  · have hb : b < 32 := by omega
    simp [h, hb]
  · simp [h]

/-- Every bit of a field's update: inside the field those of the value, outside it those of the word. -/
theorem getLsbD_putField (f : Field) (x : Word32) (v b : Nat) (hf : f.lo + f.w ≤ 32) :
    (putField f x v).getLsbD b =
      if f.lo ≤ b ∧ b < f.lo + f.w then v.testBit (b - f.lo) else x.getLsbD b := by
  have hw : f.w ≤ 32 := by omega
  by_cases hb : b < 32
  · simp only [putField, BitVec.getLsbD_or, BitVec.getLsbD_and, BitVec.getLsbD_not, BitVec.getLsbD_shiftLeft, hb,
      decide_true, Bool.true_and, getLsbD_fieldMask _ _ hw, BitVec.getLsbD_ofNat]
    by_cases hlo : b < f.lo
    · have h : ¬ (f.lo ≤ b ∧ b < f.lo + f.w) := by omega
      simp [hlo, h]
    · by_cases hhi : b < f.lo + f.w
      · have h : f.lo ≤ b ∧ b < f.lo + f.w := by omega
        have h1 : b - f.lo < f.w := by omega
        have h2 : b - f.lo < 32 := by omega
        simp [hlo, h, h1, h2]
      · have h : ¬ (f.lo ≤ b ∧ b < f.lo + f.w) := by omega
        have h1 : ¬ b - f.lo < f.w := by omega
        simp [h, h1]
  · have h : ¬ (f.lo ≤ b ∧ b < f.lo + f.w) := by omega
    rw [if_neg h, BitVec.getLsbD_of_ge _ _ (by omega), BitVec.getLsbD_of_ge _ _ (by omega)]

/-- Reading a field is a shift and a mask. -/
theorem getField_eq (f : Field) (x : Word32) (hf : f.lo + f.w ≤ 32) :
    getField f x = x.toNat / 2 ^ f.lo % 2 ^ f.w := by
  have hw : f.w ≤ 32 := by omega
  have hpow : 2 ^ f.w - 1 < 2 ^ 32 := by
    have := Nat.pow_le_pow_right (n := 2) (by omega) hw
    have := Nat.two_pow_pos f.w
    omega
  simp only [getField, fieldMask, BitVec.toNat_and, BitVec.toNat_ushiftRight, BitVec.toNat_ofNat, Nat.mod_eq_of_lt hpow,
    Nat.and_two_pow_sub_one_eq_mod, Nat.shiftRight_eq_div_pow]

/-- A one-bit field is the bit. -/
theorem getBit_eq (n : Nat) (x : Word32) (hn : n < 32) : getBit n x = x.getLsbD n := by
  have h : getField (bitField n) x = x.toNat / 2 ^ n % 2 := by
    rw [getField_eq _ _ (show n + 1 ≤ 32 by omega)]
    rfl
  rw [getBit, h, BitVec.getLsbD, Nat.testBit, Nat.shiftRight_eq_div_pow]
  rw [show (1 &&& x.toNat / 2 ^ n) = x.toNat / 2 ^ n % 2 by rw [Nat.and_comm, Nat.and_one_is_mod]]
  have := Nat.mod_two_eq_zero_or_one (x.toNat / 2 ^ n)
  rcases this with h | h <;> simp [h]

/-- Two words with the same bits in a field have the same field. -/
theorem getField_congr (f : Field) (x y : Word32) (hf : f.lo + f.w ≤ 32)
    (h : ∀ b, f.lo ≤ b → b < f.lo + f.w → x.getLsbD b = y.getLsbD b) : getField f x = getField f y := by
  have hw : f.w ≤ 32 := by omega
  have hxy : (x >>> f.lo) &&& fieldMask f.w = (y >>> f.lo) &&& fieldMask f.w := by
    apply BitVec.eq_of_getLsbD_eq
    intro i hi
    simp only [BitVec.getLsbD_and, BitVec.getLsbD_ushiftRight, getLsbD_fieldMask _ _ hw]
    by_cases hiw : i < f.w
    · rw [h _ (by omega) (by omega)]
    · simp [hiw]
  simp only [getField, hxy]

end Sys2Proof.Laws
end

