-- ==== Sys2Proof/Laws/HostView.lean ====
section
/-! SUPPORT. The host's view of descriptor memory: what a pending write, a visibility step, an engine's step and the whole
interleaving do to it. -/

-- One theorem at a time: checked together they ask for more threads than the check allows.
set_option Elab.async false

namespace Sys2Proof.Laws

open Sys2Proof.Machine

/-! ### Pending writes -/

@[simp] theorem wbLast_append (l : List WbEntry) (e : WbEntry) (a : Nat) :
    wbLast (l ++ [e]) a = if e.addr = a then some e.val else wbLast l a := by
  induction l with
  | nil => rfl
  | cons x l ih =>
    simp only [List.cons_append, wbLast, ih]
    by_cases he : e.addr = a
    · simp [he]
    · simp [he]

theorem wbLast_dropFirst_other (l : List WbEntry) {a b : Nat} (h : b ≠ a) :
    wbLast (wbDropFirst l a) b = wbLast l b := by
  induction l with
  | nil => rfl
  | cons x l ih =>
    simp only [wbDropFirst]
    split
    · rename_i hx
      have hxb : ¬ x.addr = b := fun hb => h (hb.symm.trans hx)
      simp only [wbLast, hxb, if_false]
      cases wbLast l b <;> rfl
    · simp only [wbLast, ih]

theorem wbLast_dropFirst_same (l : List WbEntry) {a : Nat} {e : WbEntry} (h : wbFirst l a = some e) :
    wbLast l a = some ((wbLast (wbDropFirst l a) a).getD e.val) := by
  induction l with
  | nil => cases h
  | cons x l ih =>
    simp only [wbFirst] at h
    simp only [wbLast, wbDropFirst]
    split at h
    · rename_i hx
      cases h
      simp only [hx, if_true]
      cases wbLast l a <;> rfl
    · rename_i hx
      simp only [hx, if_false, wbLast, ih h]
      cases wbLast (wbDropFirst l a) a <;> rfl

theorem wbFirst_mem {l : List WbEntry} {a : Nat} {e : WbEntry} (h : wbFirst l a = some e) : e ∈ l ∧ e.addr = a := by
  induction l with
  | nil => cases h
  | cons x l ih =>
    simp only [wbFirst] at h
    split at h
    · rename_i hx
      cases h
      exact ⟨List.mem_cons_self, hx⟩
    · exact ⟨List.mem_cons_of_mem _ (ih h).1, (ih h).2⟩

theorem wbDropFirst_sublist (l : List WbEntry) (a : Nat) : (wbDropFirst l a).Sublist l := by
  induction l with
  | nil => exact List.Sublist.slnil
  | cons x l ih =>
    simp only [wbDropFirst]
    split
    · exact List.sublist_cons_self x l
    · exact ih.cons_cons x

/-! ### Descriptor addresses -/

/-- The two word offsets of a well-formed profile (R91). -/
theorem wordOffset_cases {d : DescProfile} (h : descValid d = true) :
    (d.flagsOffset = 0 ∧ d.addrOffset = 4) ∨ (d.flagsOffset = 4 ∧ d.addrOffset = 0) := by
  simp only [descValid, Bool.and_eq_true, Bool.or_eq_true, beq_iff_eq] at h
  exact h.1.1.1

theorem wordOffset_lt {d : DescProfile} (h : descValid d = true) (w : DescWord) :
    wordOffset d w + 4 ≤ 8 ∧ wordOffset d w % 4 = 0 := by
  have := wordOffset_cases h
  cases w <;> simp only [wordOffset] <;> omega

/-- A descriptor word of a ring whose base is a multiple of 4 is aligned. -/
theorem descWordAddr_aligned {d : DescProfile} (h : descValid d = true) {base : Nat} (hb : base % 4 = 0) (slot : Nat)
    (w : DescWord) : descWordAddr d base slot w % 4 = 0 := by
  have := (wordOffset_lt h w).2
  simp only [descWordAddr, descBytes]
  omega

/-- Descriptor words of one ring are one only if slot and word are. -/
theorem descWordAddr_inj {d : DescProfile} (h : descValid d = true) {base i j : Nat} {w w' : DescWord}
    (ha : descWordAddr d base i w = descWordAddr d base j w') : i = j ∧ w = w' := by
  have := wordOffset_cases h
  simp only [descWordAddr, descBytes] at ha
  cases w <;> cases w' <;> simp only [wordOffset] at ha <;> refine ⟨by omega, ?_⟩ <;> first | rfl | (exfalso; omega)

/-- Descriptor words of two rings that do not meet differ. -/
theorem descWordAddr_apart {p : Params} (h : descValid p.desc = true) {tx rx i j : Nat} {w w' : DescWord}
    (hi : i < p.nTx) (hj : j < p.nRx) (hab : BasesApart p tx rx) :
    descWordAddr p.desc tx i w ≠ descWordAddr p.desc rx j w' := by
  have h1 := (wordOffset_lt h w).1
  have h2 := (wordOffset_lt h w').1
  simp only [BasesApart, descBytes, capacity] at hab
  simp only [descWordAddr, descBytes]
  omega

/-- A base that R51 allows is a multiple of 8. -/
theorem BaseAllowed.aligned {p : Params} {r : Ring} {base : Nat} (h : BaseAllowed p r base) : base % 8 = 0 := by
  have h1 : base % (8 * capacity p r) = 0 := h.1
  exact Nat.mod_eq_zero_of_dvd (Dvd.dvd.trans ⟨_, rfl⟩ (Nat.dvd_of_mod_eq_zero h1))

theorem LaidOut.aligned {s : State} (h : LaidOut s) {r : Ring} {base : Nat} (hb : ringBase s r = some base) :
    base % 4 = 0 := by
  have : base % 8 = 0 := by
    cases r with
    | tx => exact BaseAllowed.aligned (h.1 base hb)
    | rx => exact BaseAllowed.aligned (h.2.1 base hb)
  omega

/-! ### The host's view -/

/-- The writes of the host are pending until they are visible: a visibility step changes no word the host reads (R62, R64). -/
theorem hostView_stepVisible {s t : State} {a b : Nat} (hwb : ∀ w ∈ s.wb, w.addr % 4 = 0) (hb : b % 4 = 0)
    (h : stepVisible a s = some t) : hostView t b = hostView s b := by
  unfold stepVisible at h
  split at h
  · cases h
  · rename_i e he
    split at h
    · cases h
      obtain ⟨hmem, hea⟩ := wbFirst_mem he
      have ha : a % 4 = 0 := hea ▸ hwb e hmem
      simp only [hostView, deviceView, writeVisible_wb, writeVisible_params, writeVisible_mem,
        readWord_writeWord_aligned _ _ _ _ _ ha hb]
      by_cases hab : b = a
      · subst hab
        rw [wbLast_dropFirst_same _ he, if_pos rfl]
        rfl
      · rw [wbLast_dropFirst_other _ hab, if_neg hab]
    · cases h

/-- Pending writes stay to aligned words when one becomes visible (R73). -/
theorem stepVisible_aligned {s t : State} {a : Nat} (hwb : ∀ w ∈ s.wb, w.addr % 4 = 0) (h : stepVisible a s = some t) :
    ∀ w ∈ t.wb, w.addr % 4 = 0 := by
  unfold stepVisible at h
  split at h
  · cases h
  · split at h
    · cases h
      exact fun w hw => hwb w ((wbDropFirst_sublist s.wb a).subset hw)
    · cases h

/-- What the host relies on while it owns a slot: the rings are laid out, pending writes are to aligned words, and the host sees the
slot as its own. -/
def HostOwns (s : State) (r : Ring) (slot : Nat) : Prop :=
  descValid s.params.desc = true ∧ LaidOut s ∧ (∀ w ∈ s.wb, w.addr % 4 = 0) ∧ slot < capacity s.params r ∧
    ∃ base, ringBase s r = some base ∧ hostSeesOwned s base slot = false

/-- An engine's write to a slot it owns leaves every slot the host sees as its own so. -/
theorem hostSeesOwned_engine {s : State} {base base' slot slot' : Nat} {v : Word32} (hd : descValid s.params.desc = true)
    (hb : base % 4 = 0) (hb' : base' % 4 = 0)
    (hne : descWordAddr s.params.desc base slot .flags ≠ descWordAddr s.params.desc base' slot' .flags ∨
      deviceOwns s base slot = true ∧ (base, slot) = (base', slot'))
    (h : hostSeesOwned s base' slot' = false) :
    hostSeesOwned
      { s with mem := writeWord s.params.desc.byteOrder s.mem (descWordAddr s.params.desc base slot .flags) v }
      base' slot' = false := by
  have ha := descWordAddr_aligned hd hb slot .flags
  have ha' := descWordAddr_aligned hd hb' slot' .flags
  simp only [hostSeesOwned, hostView, deviceView] at *
  rw [readWord_writeWord_aligned _ _ _ _ _ ha ha']
  rcases hne with hne | ⟨ho, heq⟩
  · rw [if_neg (Ne.symm hne)]
    exact h
  · cases heq
    cases hw : wbLast s.wb (descWordAddr s.params.desc base slot .flags) with
    | none =>
      rw [hw] at h
      simp only [deviceOwns, deviceView] at ho
      simp only [Option.getD_none] at h
      rw [h] at ho
      cases ho
    | some v' =>
      rw [hw] at h
      exact h

/-- No agent step takes a slot from the host (R62, R69, R283). -/
theorem HostOwns.agentStep {s t : State} {r : Ring} {slot : Nat} {a : AgentStep} (h : HostOwns s r slot)
    (ha : Machine.agentStep a s = some t) : HostOwns t r slot := by
  obtain ⟨hd, hl, hwb, hslot, base, hbase, hown⟩ := h
  have hf := hostSide_fields (agentStep_hostSide ha)
  have hl' : LaidOut t := by simpa [LaidOut, hf] using hl
  have hbase' : ringBase t r = some base := by cases r <;> simpa [ringBase, hf] using hbase
  have hal := LaidOut.aligned hl hbase
  refine ⟨by simpa [hf] using hd, hl', ?_, by simpa [hf] using hslot, base, hbase', ?_⟩
  · cases a with
    | envVisible x =>
      exact stepVisible_aligned hwb ha
    | devTxDone x =>
      simp only [Machine.agentStep, stepTxDone] at ha
      split at ha
      · cases ha
      · split at ha
        · cases ha
          exact hwb
        · cases ha
    | devRxDone x len ov csum =>
      simp only [Machine.agentStep, stepRxDone] at ha
      split at ha
      · cases ha
      · split at ha
        · cases ha
          exact hwb
        · cases ha
    | devStatus x =>
      simp only [Machine.agentStep, stepStatus] at ha
      split at ha
      · cases ha
        exact hwb
      · cases ha
    | macDrained =>
      simp only [Machine.agentStep, stepMacDrained] at ha
      split at ha
      · cases ha
        exact hwb
      · cases ha
  · cases a with
    | envVisible x =>
      have hv := hostView_stepVisible hwb (descWordAddr_aligned hd hal slot .flags) ha
      simp only [hostSeesOwned, hf] at hown ⊢
      rw [hv]
      exact hown
    | devTxDone x =>
      simp only [Machine.agentStep, stepTxDone] at ha
      split at ha
      · cases ha
      · rename_i b hb
        split at ha
        · rename_i hc
          cases ha
          simp only [Bool.and_eq_true, decide_eq_true_eq] at hc
          refine hostSeesOwned_engine hd (LaidOut.aligned hl (r := .tx) hb) hal ?_ hown
          cases r with
          | tx =>
            have hbb : b = base := by simpa [ringBase, hb] using hbase
            subst hbb
            by_cases hx : x = slot
            · exact Or.inr ⟨hc.1.2, by rw [hx]⟩
            · exact Or.inl fun h => hx (descWordAddr_inj hd h).1
          | rx => exact Or.inl (descWordAddr_apart hd hc.1.1.2 hslot (hl.2.2 b base hb hbase))
        · cases ha
    | devRxDone x len ov csum =>
      simp only [Machine.agentStep, stepRxDone] at ha
      split at ha
      · cases ha
      · rename_i b hb
        split at ha
        · rename_i hc
          cases ha
          simp only [Bool.and_eq_true, decide_eq_true_eq] at hc
          refine hostSeesOwned_engine (s := s) hd (LaidOut.aligned hl (r := .rx) hb) hal ?_ hown
          cases r with
          | rx =>
            have hbb : b = base := by simpa [ringBase, hb] using hbase
            subst hbb
            by_cases hx : x = slot
            · exact Or.inr ⟨hc.1.1.2, by rw [hx]⟩
            · exact Or.inl fun h => hx (descWordAddr_inj hd h).1
          | tx => exact Or.inl (Ne.symm (descWordAddr_apart hd hslot hc.1.1.1.2 (hl.2.2 base b hbase hb)))
        · cases ha
    | devStatus x =>
      simp only [Machine.agentStep, stepStatus] at ha
      split at ha
      · cases ha
        exact hown
      · cases ha
    | macDrained =>
      simp only [Machine.agentStep, stepMacDrained] at ha
      split at ha
      · cases ha
        exact hown
      · cases ha

/-- However the environment interleaves, a slot the host owns stays the host's. -/
theorem HostOwns.interleave {s : State} {r : Ring} {slot : Nat} (h : HostOwns s r slot) :
    HostOwns (interleave s) r slot :=
  interleave_carries (R := fun s t => HostOwns s r slot → HostOwns t r slot)
    ⟨fun _ h => h, fun h h' x => h' (h x)⟩ (fun _ _ _ ha h => h.agentStep ha) (fun _ _ h => h) s h

/-- Where the two views of a slot's owner differ, a write to its FLAGS word is pending (R62, R68). -/
theorem pending_of_views_differ {s : State} {base i : Nat} (hh : hostSeesOwned s base i = false)
    (hd : deviceOwns s base i = true) : ∃ w ∈ s.wb, w.addr = descWordAddr s.params.desc base i .flags := by
  by_contra hn
  have hnone : wbLast s.wb (descWordAddr s.params.desc base i .flags) = none := by
    have : ∀ l : List WbEntry, (∀ w ∈ l, w.addr ≠ descWordAddr s.params.desc base i .flags) →
        wbLast l (descWordAddr s.params.desc base i .flags) = none := by
      intro l
      induction l with
      | nil => intro _; rfl
      | cons e l ih =>
        intro h
        simp only [wbLast, ih fun w hw => h w (List.mem_cons_of_mem _ hw), h e List.mem_cons_self, if_false]
    exact this s.wb fun w hw he => hn ⟨w, hw, he⟩
  have : hostSeesOwned s base i = deviceOwns s base i := by
    simp only [hostSeesOwned, deviceOwns, hostView, hnone, Option.getD_none]
  rw [this, hd] at hh
  cases hh

/-! ### The wait of an operation that has reset the rings (R55 item 3) -/

/-- For one slot, nothing happens or the pending write to its FLAGS word becomes visible. -/
theorem showFreeSlot_cases (base slot : Nat) (s : State) :
    showFreeSlot base slot s = s ∨
      stepVisible (descWordAddr s.params.desc base slot .flags) s = some (showFreeSlot base slot s) := by
  unfold showFreeSlot
  split
  · cases h : stepVisible (descWordAddr s.params.desc base slot .flags) s with
    | none => exact Or.inl rfl
    | some t => exact Or.inr rfl
  · exact Or.inl rfl

/-- The wait carries any relation that visibility steps keep. -/
theorem freeSlotsShown_carries {R : State → State → Prop} (hR : Carried R)
    (hv : ∀ a s t, stepVisible a s = some t → R s t) (s : State) : R s (freeSlotsShown s) := by
  have hslots : ∀ (base n i : Nat) (s : State), R s (showFreeSlots base n i s) := by
    intro base n
    induction n with
    | zero => exact fun _ s => hR.refl s
    | succ n ih =>
      intro i s
      refine hR.trans ?_ (ih _ _)
      rcases showFreeSlot_cases base i s with h | h
      · rw [h]
        exact hR.refl s
      · exact hv _ _ _ h
  unfold freeSlotsShown
  split
  · exact hR.refl s
  · exact hslots _ _ _ _

/-- The wait leaves the host's side alone. -/
theorem freeSlotsShown_hostSide (s : State) : hostSide (freeSlotsShown s) = hostSide s :=
  freeSlotsShown_carries sameHostSide (fun _ _ _ h => stepVisible_hostSide h) s

/-- The wait changes no word the host reads (R62, R64). -/
theorem hostView_freeSlotsShown {s : State} {b : Nat} (hwb : ∀ w ∈ s.wb, w.addr % 4 = 0) (hb : b % 4 = 0) :
    hostView (freeSlotsShown s) b = hostView s b := by
  refine (freeSlotsShown_carries (R := fun s t => (∀ w ∈ s.wb, w.addr % 4 = 0) →
    (∀ w ∈ t.wb, w.addr % 4 = 0) ∧ hostView t b = hostView s b) ⟨fun _ h => ⟨h, rfl⟩, fun h h' x => ?_⟩ ?_ s hwb).2
  · exact ⟨(h' (h x).1).1, (h' (h x).1).2.trans (h x).2⟩
  · intro a s t h hwb
    exact ⟨stepVisible_aligned hwb h, hostView_stepVisible hwb hb h⟩

/-- The wait as a run: the environment acts, and then the slots are shown. -/
theorem run_awaitFreeSlots (s : State) : awaitFreeSlots s = .ok () (freeSlotsShown (interleave s)) := rfl

end Sys2Proof.Laws
end

