-- ==== Sys2Proof/Laws/Blind.lean ====
section
/-! SUPPORT. Two runs of one program from states with equal host sides: when the program reads nothing the environment writes, they end
with equal host sides and one answer. So a result worked out with no agent step in between holds, on the host's side, for
every interleaving. -/

-- One theorem at a time: checked together they ask for more threads than the check allows.
set_option Elab.async false

namespace Sys2Proof.Laws

open Sys2Proof.Machine

/-- Two states with equal host sides. -/
def Alike (s t : State) : Prop := hostSide t = hostSide s

theorem Alike.eq {s t : State} (h : Alike s t) : hostSide t = hostSide s := h

theorem Alike.refl (s : State) : Alike s s := rfl

theorem Alike.symm {s t : State} (h : Alike s t) : Alike t s := Eq.symm h

theorem Alike.trans {s t u : State} (h : Alike s t) (h' : Alike t u) : Alike s u := Eq.trans h' h

/-- The environment's steps on either side keep two states alike. -/
theorem Alike.interleave {s t : State} (h : Alike s t) : Alike (interleave s) (interleave t) :=
  Eq.trans (interleave_hostSide t) (Eq.trans h (interleave_hostSide s).symm)

/-- Two runs end alike: with one answer, and states that `Q` relates, or with one reason to stop and alike states. -/
def EndAlike {α : Type} (Q : α → State → State → Prop) :
    EStateM.Result Stop State α → EStateM.Result Stop State α → Prop
  | .ok a s, .ok b t => a = b ∧ Q a s t
  | .error e s, .error f t => e = f ∧ Alike s t
  | .ok _ _, .error _ _ => False
  | .error _ _, .ok _ _ => False

/-- From states that `R` relates, two runs of the program end alike. -/
def Sim {α : Type} (R : State → State → Prop) (m : M α) (Q : α → State → State → Prop) : Prop :=
  ∀ s t, R s t → EndAlike Q (m s) (m t)

/-- The program reads nothing the environment writes. -/
def Blind {α : Type} (m : M α) : Prop := Sim Alike m fun _ => Alike

theorem Sim.pure {α : Type} {R : State → State → Prop} {Q : α → State → State → Prop} (a : α)
    (h : ∀ s t, R s t → Q a s t) : Sim R (pure a : M α) Q := fun s t hst => ⟨rfl, h s t hst⟩

theorem Sim.refuse {α : Type} {R : State → State → Prop} {Q : α → State → State → Prop} (r : Refusal)
    (h : ∀ s t, R s t → Alike s t) : Sim R (Machine.refuse r : M α) Q := fun s t hst => ⟨rfl, h s t hst⟩

theorem Sim.update {R : State → State → Prop} {Q : Unit → State → State → Prop} {f : State → State}
    (h : ∀ s t, R s t → Q () (f s) (f t)) : Sim R (Machine.update f) Q := fun s t hst => ⟨rfl, h s t hst⟩

theorem Sim.bind {α β : Type} {R : State → State → Prop} {Q : α → State → State → Prop}
    {Q' : β → State → State → Prop} {m : M α} {f : α → M β} (hm : Sim R m Q) (hf : ∀ a, Sim (Q a) (f a) Q') :
    Sim R (m >>= f) Q' := by
  intro s t hst
  have h := hm s t hst
  rw [run_bind, run_bind]
  cases hs : m s <;> cases ht : m t <;> rw [hs, ht] at h
  · obtain ⟨rfl, h⟩ := h
    exact hf _ _ _ h
  · exact h.elim
  · exact h.elim
  · exact h

/-- The reading rule: what follows a read of the state must be the same program on both sides. -/
theorem Sim.read {β : Type} {R : State → State → Prop} {Q : β → State → State → Prop} {f : State → M β}
    (h : ∀ s t, R s t → f t = f s) (hf : ∀ u, Sim R (f u) Q) : Sim R (Machine.getState >>= f) Q := by
  intro s t hst
  show EndAlike Q (f s s) (f t t)
  rw [h s t hst]
  exact hf s s t hst

theorem Sim.weaken {α : Type} {R R' : State → State → Prop} {Q Q' : α → State → State → Prop} {m : M α}
    (h : Sim R m Q) (hR : ∀ s t, R' s t → R s t) (hQ : ∀ a s t, Q a s t → Q' a s t) : Sim R' m Q' := by
  intro s t hst
  have h := h s t (hR s t hst)
  cases hs : m s <;> cases ht : m t <;> rw [hs, ht] at h
  · exact ⟨h.1, hQ _ _ _ h.2⟩
  · exact h.elim
  · exact h.elim
  · exact h

theorem Sim.ite {α : Type} {R : State → State → Prop} {Q : α → State → State → Prop} {c : Prop} [Decidable c]
    {m n : M α} (hm : Sim R m Q) (hn : Sim R n Q) : Sim R (if c then m else n) Q := by
  split
  · exact hm
  · exact hn

/-! ### The shared operations are blind -/

theorem Blind.bind {α β : Type} {m : M α} {f : α → M β} (hm : Blind m) (hf : ∀ a, Blind (f a)) : Blind (m >>= f) :=
  Sim.bind hm hf

theorem Blind.pure {α : Type} (a : α) : Blind (pure a : M α) := Sim.pure a fun _ _ h => h

theorem Blind.refuse {α : Type} (r : Refusal) : Blind (Machine.refuse r : M α) := Sim.refuse r fun _ _ h => h

theorem Blind.boundary : Blind boundary := Sim.update fun _ _ h => Alike.interleave h

/-- An update is blind when its effect on the host's side is a function of the host's side. -/
theorem Blind.update {f : State → State} (g : State → State) (h : ∀ s, hostSide (f s) = g (hostSide s)) :
    Blind (Machine.update f) := Sim.update fun s t hst => by
  show hostSide (f t) = hostSide (f s)
  rw [h, h, show hostSide t = hostSide s from hst]

theorem hostSide_emitted (e : Event) (s : State) :
    hostSide (emitted e s) = { hostSide s with trace := (hostSide s).trace ++ (hostEvent e).toList } := by
  simp only [hostSide, hostTrace_emitted]
  rfl

theorem Blind.emit (e : Event) : Blind (emit e) :=
  Blind.bind Blind.boundary fun _ => Blind.update (fun u => { u with trace := u.trace ++ (hostEvent e).toList }) (hostSide_emitted e)

/-- Register writes are blind: they wait for the visibility steps, which are not the host's. -/
theorem Blind.mmioWrite (reg : MmioReg) (v : RegVal) : Blind (mmioWrite reg v) := by
  refine Blind.bind Blind.boundary fun _ => Sim.update fun s t hst => ?_
  show hostSide _ = hostSide _
  rw [hostSide_emitted, hostSide_emitted]
  have hd : hostSide (drain t) = hostSide (drain s) :=
    (drain_hostSide t).trans (Eq.trans hst (drain_hostSide s).symm)
  have key : ∀ u w : State, hostSide u = hostSide w → hostSide (regEffect reg v u) = hostSide (regEffect reg v w) := by
    intro u w h
    have hf := hostSide_fields h
    simp only [hostSide, State.mk.injEq, DevState.mk.injEq] at h
    unfold regEffect
    split <;> simp_all [hostSide, hostTrace]
  rw [key _ _ hd]

/-- Alike states have the same supplied draws, payloads apart, and have drawn as many free values. -/
theorem Alike.draws {s t : State} (h : Alike s t) :
    t.draws.irqAcquire = s.draws.irqAcquire ∧ t.draws.ringMemory = s.draws.ringMemory ∧ t.draws.alloc = s.draws.alloc ∧
      t.draws.dmaMap = s.draws.dmaMap ∧ t.draws.mgmtRead = s.draws.mgmtRead ∧
      t.draws.tcvrKnown = s.draws.tcvrKnown ∧ t.drawCount = s.drawCount := by
  simp only [Alike, hostSide, State.mk.injEq, Draws.mk.injEq] at h
  tauto

theorem Blind.drawMgmtRead (reg : Nat) : Blind (drawMgmtRead reg) := by
  intro s t hst
  have hd := hst.draws
  simp only [Machine.drawMgmtRead, hd]
  simp only [Alike, hostSide, State.mk.injEq, Draws.mk.injEq] at hst
  split <;> simp_all [EndAlike, Alike, hostSide, hostTrace, countDraw]

theorem Blind.drawAlloc (mode : AllocMode) (size : Nat) : Blind (drawAlloc mode size) := by
  intro s t hst
  have hd := hst.draws
  simp only [Machine.drawAlloc, hd]
  simp only [Alike, hostSide, State.mk.injEq, Draws.mk.injEq] at hst
  split <;> simp_all [EndAlike, Alike, hostSide, hostTrace, countDraw]

theorem Blind.drawDmaMap (buf : Nat) : Blind (drawDmaMap buf) := by
  intro s t hst
  have hd := hst.draws
  simp only [Machine.drawDmaMap, hd]
  simp only [Alike, hostSide, State.mk.injEq, Draws.mk.injEq] at hst
  split <;> simp_all [EndAlike, Alike, hostSide, hostTrace, countDraw]

theorem Blind.drawIrqAcquire : Blind drawIrqAcquire := by
  refine Blind.bind Blind.boundary fun _ => ?_
  intro s t hst
  have hd := hst.draws
  simp only [hd]
  simp only [Alike, hostSide, State.mk.injEq, Draws.mk.injEq] at hst
  split <;> simp_all [EndAlike, Alike, hostSide, hostTrace, countDraw]

theorem Blind.drawTcvrKnown : Blind drawTcvrKnown := by
  refine Blind.bind Blind.boundary fun _ => ?_
  intro s t hst
  have hd := hst.draws
  simp only [hd]
  simp only [Alike, hostSide, State.mk.injEq, Draws.mk.injEq] at hst
  split <;> simp_all [EndAlike, Alike, hostSide, hostTrace, countDraw]

theorem Blind.drawRingMemory (r : Ring) (n : Nat) : Blind (drawRingMemory r n) := by
  refine Blind.bind Blind.boundary fun _ => ?_
  intro s t hst
  have hd := hst.draws
  have hf := hostSide_fields hst
  have hc : checkRingMemory t r n = checkRingMemory s r n := by
    funext b
    have ha : apartFromOther t r b n = apartFromOther s r b n := by cases r <;> simp [apartFromOther, ringBase, hf]
    simp only [checkRingMemory, ha, hf]
  simp only [hd, hc]
  simp only [Alike, hostSide, State.mk.injEq, Draws.mk.injEq] at hst
  split <;> simp_all [EndAlike, Alike, hostSide, hostTrace, countDraw]

theorem Blind.event (e : Event) : Blind (Machine.update (emitted e)) :=
  Blind.update (fun u => { u with trace := u.trace ++ (hostEvent e).toList }) (hostSide_emitted e)

theorem Blind.mgmtRead (reg : Nat) : Blind (mgmtRead reg) := by
  refine Blind.bind Blind.boundary fun _ => Blind.bind (Blind.drawMgmtRead reg) fun raw => Sim.read ?_ fun u => ?_
  · intro s t hst
    simp [hostSide_fields hst]
  · exact Blind.bind (Blind.event _) fun _ => Blind.pure _

theorem Blind.mgmtWrite (reg : Nat) (v : Word32) : Blind (mgmtWrite reg v) := Blind.emit _

theorem Blind.dmaMap (buf : Nat) : Blind (dmaMap buf) := by
  refine Blind.bind Blind.boundary fun _ => Blind.bind (Blind.drawDmaMap buf) fun raw => Sim.read ?_ fun u => ?_
  · intro s t hst
    have hf := hostSide_fields hst
    have hc : checkMap t = checkMap s := by
      funext d
      simp [checkMap, hf]
    simp only [hc]
  · cases raw.bind (checkMap u) with
    | none => exact Blind.pure _
    | some d =>
      refine Blind.bind (Blind.update (fun w => { w with
        liveMaps := mapSet w.liveMaps d.1 ⟨buf, d.2⟩
        trace := w.trace ++ [.map buf d.1] }) ?_) fun _ => Blind.pure _
      intro s
      rw [hostSide_emitted]
      rfl

theorem Blind.dmaUnmap (h : Nat) : Blind (dmaUnmap h) := by
  refine Blind.bind Blind.boundary fun _ => Sim.read ?_ fun u => ?_
  · intro s t hst
    simp [hostSide_fields hst]
  · cases mapGet u.liveMaps h with
    | some m =>
      refine Blind.update (fun w => { w with
        liveMaps := mapErase w.liveMaps h
        syncWindows := mapErase w.syncWindows m.da
        trace := w.trace ++ [.unmap h] }) ?_
      intro s
      rw [hostSide_emitted]
      rfl
    | none =>
      intro s t hst
      refine ⟨rfl, ?_⟩
      simp only [Alike, hostSide, State.mk.injEq, hostTrace] at *
      simp_all

theorem Blind.dmaSyncForCpu (h n : Nat) : Blind (dmaSyncForCpu h n) := by
  refine Blind.bind Blind.boundary fun _ => Blind.update (fun w => { w with
    syncWindows := match mapGet w.liveMaps h with
      | none => w.syncWindows
      | some m => mapSet w.syncWindows m.da n
    trace := w.trace ++ [.syncCpu h n] }) ?_
  intro s
  rw [hostSide_emitted]
  rfl

theorem Blind.dmaSyncForDevice (h n : Nat) : Blind (dmaSyncForDevice h n) := by
  refine Blind.bind Blind.boundary fun _ => Blind.update (fun w => { w with
    syncWindows := match mapGet w.liveMaps h with
      | none => w.syncWindows
      | some m => mapErase w.syncWindows m.da
    trace := w.trace ++ [.syncDev h n] }) ?_
  intro s
  rw [hostSide_emitted]
  rfl

theorem Blind.alloc (size : Nat) (mode : AllocMode) : Blind (alloc size mode) := by
  refine Blind.bind Blind.boundary fun _ => Blind.bind (Blind.drawAlloc mode size) fun raw => Sim.read ?_ fun u => ?_
  · intro s t hst
    have hf := hostSide_fields hst
    have hc : checkAlloc t = checkAlloc s := by
      funext d
      simp [checkAlloc, hf]
    simp only [hc]
  · cases raw.bind (checkAlloc u) with
    | none => exact Blind.bind (Blind.event _) fun _ => Blind.pure _
    | some b =>
      refine Blind.bind (Blind.update (fun w => { w with
        liveBuffers := mapSet w.liveBuffers b ()
        trace := w.trace ++ [.allocOk b] }) ?_) fun _ => Blind.pure _
      intro s
      rw [hostSide_emitted]
      rfl

theorem Blind.freeBuf (b : Nat) : Blind (freeBuf b) := by
  refine Blind.bind Blind.boundary fun _ => Blind.update (fun w => { w with
    liveBuffers := mapErase w.liveBuffers b
    trace := w.trace ++ [.freeBuf b] }) ?_
  intro s
  rw [hostSide_emitted]
  rfl

theorem Blind.awaitFreeSlots : Blind awaitFreeSlots :=
  Blind.bind Blind.boundary fun _ => Sim.update fun s t hst =>
    (freeSlotsShown_hostSide t).trans (Eq.trans hst (freeSlotsShown_hostSide s).symm)

theorem Blind.descAddr (r : Ring) (slot : Nat) (w : DescWord) : Blind (descAddr r slot w) := by
  intro s t hst
  have hf := hostSide_fields hst
  have hb : ringBase t r = ringBase s r := by cases r <;> simp [ringBase, hf]
  simp only [Machine.descAddr, hb, hf]
  cases ringBase s r with
  | none => exact ⟨rfl, hst⟩
  | some base =>
    simp only []
    split
    · exact ⟨rfl, hst⟩
    · split
      · exact ⟨rfl, hst⟩
      · exact ⟨rfl, hst⟩

theorem hostSide_conclude (o : OpOutcome) (s : State) :
    hostSide (conclude o s) = { hostSide s with outcome := some o } := rfl

theorem hostSide_leave (o : OpOutcome) (s : State) :
    hostSide (leave o s) = { hostSide s with lock := none, outcome := some o } := rfl

/-! ### From one run to every interleaving -/

/-- What runs in a state that is alive. -/
theorem running_alive {s : State} (h : Alive s) (faulted : Fault → Host.Outcome State Fault Refusal)
    (o : Host.Outcome State Fault Refusal) : running s faulted o = o := by
  simp only [running, h.1, h.2, Bool.false_eq_true, if_false]

/-- Nothing runs where there is no block (R345). -/
theorem running_absent {s : State} (hf : s.fault = none) (ha : s.absent = true)
    (faulted : Fault → Host.Outcome State Fault Refusal) (o : Host.Outcome State Fault Refusal) :
    running s faulted o = .refused .notCreated := by
  simp only [running, hf, ha, if_true]

/-- The state with no agent step scheduled. -/
def unscheduled (s : State) : State := { s with sched := [] }

theorem unscheduled_eq {s : State} (h : s.sched = []) : unscheduled s = s := by
  cases s
  simp_all [unscheduled]

/-- A blind operation that a rule of the block invokes completes as its run without agent steps says. -/
theorem completes_internal {i : Instr} {body : M OpOutcome} {s u : State} (hb : Blind body)
    (hi : ∀ s, exec i s = internalOp body s) (hf : Alive s) (hus : u.sched = s.sched)
    (hu : exec i (unscheduled s) = .next (unscheduled u)) :
    Completes i s u := by
  have hsim := hb (unscheduled s) s rfl
  have hs : exec i s = finish conclude (body s) := by rw [hi, internalOp, running_alive hf]
  rw [hi, internalOp, running_alive (s := unscheduled s) hf] at hu
  have key : ∃ t, finish conclude (body s) = .next t ∧ hostSide t = hostSide (unscheduled u) := by
    cases h0 : body (unscheduled s) <;> cases h1 : body s <;> rw [h0, h1] at hsim <;> rw [h0] at hu
    · obtain ⟨rfl, h⟩ := hsim
      have hu' := Host.Outcome.next.inj hu
      refine ⟨_, rfl, ?_⟩
      rw [← hu', hostSide_conclude, hostSide_conclude, Alike.eq h]
    · exact hsim.elim
    · exact hsim.elim
    · obtain ⟨rfl, h⟩ := hsim
      rename_i e v v'
      cases e with
      | faulted =>
        have hu' := Host.Outcome.next.inj hu
        exact ⟨v', rfl, hu' ▸ h⟩
      | refused r => cases hu
  obtain ⟨t, ht, htu⟩ := key
  refine ⟨t, hs.trans ht, htu, fun h => ?_⟩
  rw [unscheduled_eq h, unscheduled_eq (hus.trans h), ht] at hu
  cases hu
  rfl

/-- A blind host operation completes as its run without agent steps says. -/
theorem completes_host {i : Instr} {ctx : Context} {body : M OpOutcome} {s u : State} (hb : Blind body)
    (hi : exec i s = hostOp ctx body s) (hi' : exec i (unscheduled s) = hostOp ctx body (unscheduled s))
    (hr : Ready s) (hus : u.sched = s.sched)
    (hu : exec i (unscheduled s) = .next (unscheduled u)) : Completes i s u := by
  have hsim := hb (enter ctx (unscheduled s)) (enter ctx s) rfl
  have hs : exec i s = finish leave (body (enter ctx s)) := by simp only [hi, hostOp, running_alive hr.1, hr.2]
  rw [hi', hostOp, running_alive (s := unscheduled s) hr.1, show (unscheduled s).lock = none from hr.2] at hu
  simp only at hu
  have key : ∃ t, finish leave (body (enter ctx s)) = .next t ∧ hostSide t = hostSide (unscheduled u) := by
    cases h0 : body (enter ctx (unscheduled s)) <;> cases h1 : body (enter ctx s) <;> rw [h0, h1] at hsim <;>
      rw [h0] at hu
    · obtain ⟨rfl, h⟩ := hsim
      have hu' := Host.Outcome.next.inj hu
      refine ⟨_, rfl, ?_⟩
      rw [← hu', hostSide_leave, hostSide_leave, Alike.eq h]
    · exact hsim.elim
    · exact hsim.elim
    · obtain ⟨rfl, h⟩ := hsim
      rename_i e v v'
      cases e with
      | faulted =>
        have hu' := Host.Outcome.next.inj hu
        exact ⟨v', rfl, hu' ▸ h⟩
      | refused r => cases hu
  obtain ⟨t, ht, htu⟩ := key
  refine ⟨t, hs.trans ht, htu, fun h => ?_⟩
  rw [unscheduled_eq h, unscheduled_eq (hus.trans h), ht] at hu
  cases hu
  rfl
end Sys2Proof.Laws
end

