-- ==== Sys2Proof/Laws/Ops.lean ====
section
/-! SUPPORT. One lemma for each shared operation that says once what it can do, under every interleaving. -/

-- One theorem at a time: checked together they ask for more threads than the check allows.
set_option Elab.async false

namespace Sys2Proof.Laws

open Sys2Proof.Machine

/-! ### Writing a descriptor -/

/-- The host may write this slot (R63): it sees the slot as its own, or the ring's engine is off. -/
def HostWrites (s : State) (r : Ring) (slot base : Nat) : Prop :=
  descValid s.params.desc = true ∧ LaidOut s ∧ (∀ w ∈ s.wb, w.addr % 4 = 0) ∧ slot < capacity s.params r ∧
    ringBase s r = some base ∧ (hostSeesOwned s base slot = false ∨ dmaOn s r = false)

/-- Agent steps leave the pending writes at aligned addresses. -/
theorem interleave_aligned {s : State} (hwb : ∀ w ∈ s.wb, w.addr % 4 = 0) :
    ∀ w ∈ (interleave s).wb, w.addr % 4 = 0 := by
  refine interleave_carries (R := fun s t => (∀ w ∈ s.wb, w.addr % 4 = 0) → ∀ w ∈ t.wb, w.addr % 4 = 0)
    ⟨fun _ h => h, fun h h' x => h' (h x)⟩ ?_ (fun _ _ h => h) s hwb
  intro a s t ha h w hw
  cases a with
  | envVisible x =>
    exact stepVisible_aligned h ha w hw
  | devTxDone x =>
    simp only [Machine.agentStep, stepTxDone] at ha
    split at ha
    · cases ha
    · split at ha <;> cases ha
      exact h w hw
  | devRxDone x len ov csum =>
    simp only [Machine.agentStep, stepRxDone] at ha
    split at ha
    · cases ha
    · split at ha <;> cases ha
      exact h w hw
  | devStatus x =>
    simp only [Machine.agentStep, stepStatus] at ha
    split at ha <;> cases ha
    exact h w hw
  | macDrained =>
    simp only [Machine.agentStep, stepMacDrained] at ha
    split at ha <;> cases ha
    exact h w hw

/-- No agent step takes the right to write a slot from the host. -/
theorem HostWrites.interleave {s : State} {r : Ring} {slot base : Nat} (h : HostWrites s r slot base) :
    HostWrites (interleave s) r slot base := by
  obtain ⟨hd, hl, hwb, hslot, hbase, hown⟩ := h
  have hf := hostSide_fields (interleave_hostSide s)
  have hdma : dmaOn (Machine.interleave s) r = dmaOn s r := by cases r <;> simp [dmaOn, hf]
  have hbase' : ringBase (Machine.interleave s) r = some base := by cases r <;> simpa [ringBase, hf] using hbase
  refine ⟨by simpa [hf] using hd, by simpa [LaidOut, hf] using hl, interleave_aligned hwb, by simpa [hf] using hslot, hbase', ?_⟩
  rcases hown with hown | hown
  · obtain ⟨-, -, -, -, b, hb, ho⟩ := HostOwns.interleave ⟨hd, hl, hwb, hslot, base, hbase, hown⟩
    rw [hbase'] at hb
    cases hb
    exact Or.inl ho
  · exact Or.inr (hdma.trans hown)

/-- The address of a descriptor word of a ring that has memory. -/
theorem run_descAddr {s : State} {r : Ring} {slot base : Nat} (hd : descValid s.params.desc = true) (hl : LaidOut s)
    (hbase : ringBase s r = some base) (hslot : slot < capacity s.params r) (w : DescWord) :
    descAddr r slot w s = .ok (descWordAddr s.params.desc base slot w) s := by
  have ha := descWordAddr_aligned hd (LaidOut.aligned hl hbase) slot w
  simp only [descAddr, hbase, ha, Nat.not_le.mpr hslot, if_false, ne_eq, not_true_eq_false]

/-- `MemWrite` by a host that may write once the agent steps before it are taken (R63): the write is pending, and nothing else happens. -/
theorem run_memWrite {s : State} {r : Ring} {slot base : Nat} (h : HostWrites (interleave s) r slot base) (w : DescWord) (v : Word32) :
    memWrite r slot w v s =
      .ok () (pushWrite (descWordAddr s.params.desc base slot w) v (interleave s)) := by
  have hp : (interleave s).params = s.params := (hostSide_fields (interleave_hostSide s)).1
  obtain ⟨hd, hl, -, hslot, hbase, hown⟩ := h
  have hc : (owned s.params.desc (hostView (interleave s) (descWordAddr s.params.desc base slot .flags)) &&
      dmaOn (interleave s) r) = false := by
    rw [← hp]
    rcases hown with hown | hown
    · rw [show owned _ _ = false from hown, Bool.false_and]
    · rw [hown, Bool.and_false]
  simp only [memWrite, run_bind, run_boundary, run_descAddr hd hl hbase hslot, run_getState, run_ite, run_update, hp, hc,
    Bool.false_eq_true, if_false]

/-- `MemRead` (R62) of a word of a ring that has memory. -/
theorem run_memRead {s : State} {r : Ring} {slot base : Nat} (hd : descValid s.params.desc = true) (hl : LaidOut s)
    (hbase : ringBase s r = some base) (hslot : slot < capacity s.params r) (w : DescWord) :
    memRead r slot w s =
      .ok (hostView (interleave s) (descWordAddr s.params.desc base slot w)) (interleave s) := by
  have hf := hostSide_fields (interleave_hostSide s)
  have hbase' : ringBase (interleave s) r = some base := by cases r <;> simpa [ringBase, hf] using hbase
  have hrun := run_descAddr (s := interleave s) (by simpa [hf] using hd) (by simpa [LaidOut, hf] using hl) hbase'
    (by simpa [hf] using hslot) w
  simp only [memRead, run_bind, run_boundary, hrun, run_getState, run_pure, hf.1]

/-- `MemWrite` to a slot that the host sees device-owned while its engine is on, once the agent steps before it are taken (R63): the fault is
raised and nothing is written. -/
theorem run_memWrite_denied {s : State} {r : Ring} {slot base : Nat} (hd : descValid s.params.desc = true) (hl : LaidOut s)
    (hbase : ringBase s r = some base) (hslot : slot < capacity s.params r)
    (hown : hostSeesOwned (interleave s) base slot = true) (hdma : dmaOn s r = true) (w : DescWord) (v : Word32) :
    memWrite r slot w v s =
      .error .faulted { interleave s with fault := some (.hostWroteDeviceOwned r slot) } := by
  have hf := hostSide_fields (interleave_hostSide s)
  have hdma' : dmaOn (interleave s) r = true := by cases r <;> simpa [dmaOn, hf] using hdma
  have hbase' : ringBase (interleave s) r = some base := by cases r <;> simpa [ringBase, hf] using hbase
  have hrun := run_descAddr (s := interleave s) (by simpa [hf] using hd) (by simpa [LaidOut, hf] using hl) hbase'
    (by simpa [hf] using hslot)
  have hc : (owned (interleave s).params.desc (hostView (interleave s)
      (descWordAddr (interleave s).params.desc base slot .flags)) && dmaOn (interleave s) r) = true := by
    rw [show owned _ _ = true from hown, hdma', Bool.and_self]
  simp only [memWrite, run_bind, run_boundary, hrun, run_getState, hc, if_true]
  rfl

/-- A pending write keeps the host's right to write every slot whose FLAGS word it is not. -/
theorem HostWrites.pushWrite {s : State} {r : Ring} {slot base a : Nat} (h : HostWrites s r slot base) (v : Word32)
    (ha : a % 4 = 0) (hne : a ≠ descWordAddr s.params.desc base slot .flags) :
    HostWrites (pushWrite a v s) r slot base := by
  obtain ⟨hd, hl, hwb, hslot, hbase, hown⟩ := h
  refine ⟨hd, hl, ?_, hslot, by cases r <;> exact hbase, ?_⟩
  · intro w hw
    rw [pushWrite_wb, List.mem_append, List.mem_singleton] at hw
    rcases hw with hw | rfl
    · exact hwb w hw
    · exact ha
  · rcases hown with hown | hown
    · refine Or.inl ?_
      simp only [hostSeesOwned, hostView, deviceView, pushWrite_params, pushWrite_wb, pushWrite_mem, wbLast_append,
        hne, if_false]
      exact hown
    · exact Or.inr (by cases r <;> exact hown)

/-- Closing a window of buffer memory keeps the host's right to write. -/
theorem HostWrites.closeWindow {s : State} {r : Ring} {slot base : Nat} (h : HostWrites s r slot base) (da : Nat) :
    HostWrites (closeWindow da s) r slot base := by
  obtain ⟨hd, hl, hwb, hslot, hbase, hown⟩ := h
  exact ⟨hd, hl, hwb, hslot, by cases r <;> exact hbase, by cases r <;> exact hown⟩

/-- `WMB` keeps the host's right to write. -/
theorem HostWrites.barrier {s : State} {r : Ring} {slot base : Nat} (h : HostWrites s r slot base) :
    HostWrites (emitted .barrier { s with epoch := s.epoch + 1 }) r slot base := by
  obtain ⟨hd, hl, hwb, hslot, hbase, hown⟩ := h
  exact ⟨hd, hl, hwb, hslot, by cases r <;> exact hbase, by cases r <;> exact hown⟩

theorem hostSide_pushWrite (a : Nat) (v : Word32) (s : State) :
    hostSide (pushWrite a v s) = { hostSide s with trace := hostTrace s ++ [.descW a v] } := by
  rw [pushWrite, hostSide_emitted]
  rfl

theorem interleave_unscheduled {s : State} (h : s.sched = []) : interleave s = s := interleave_nil s h

/-- `RING_PUBLISH` (R132) of a slot the host may write once the agent steps before it are taken: both words are pending with the barrier
between them, whatever the environment does meanwhile; other slots stay writable. -/
theorem run_ringPublish {s : State} {r : Ring} {slot base : Nat} (h : HostWrites (interleave s) r slot base) (a f : Word32)
    (hf : owned s.params.desc f = true) :
    ∃ t, ringPublish r slot a f s = .ok () t ∧
      hostSide t = { hostSide s with
        epoch := s.epoch + 1
        syncWindows := mapErase s.syncWindows a.toNat
        trace := hostTrace s ++ [.descW (descWordAddr s.params.desc base slot .addr) a, .barrier,
          .descW (descWordAddr s.params.desc base slot .flags) f] } ∧
      (s.sched = [] → t = { s with
        wb := s.wb ++ [⟨descWordAddr s.params.desc base slot .addr, a, s.epoch⟩,
          ⟨descWordAddr s.params.desc base slot .flags, f, s.epoch + 1⟩]
        epoch := s.epoch + 1
        syncWindows := mapErase s.syncWindows a.toNat
        trace := s.trace ++ [.descW (descWordAddr s.params.desc base slot .addr) a, .barrier,
          .descW (descWordAddr s.params.desc base slot .flags) f] }) ∧
      ∀ slot', slot' ≠ slot → HostWrites s r slot' base → HostWrites t r slot' base := by
  have hp : (interleave s).params = s.params := (hostSide_fields (interleave_hostSide s)).1
  have hd : descValid s.params.desc = true := hp ▸ h.1
  have hal := LaidOut.aligned h.2.1 h.2.2.2.2.1
  have haA := descWordAddr_aligned hd hal slot .addr
  have haF := descWordAddr_aligned hd hal slot .flags
  have hAF : descWordAddr s.params.desc base slot .addr ≠ descWordAddr s.params.desc base slot .flags := fun e =>
    by cases (descWordAddr_inj hd e).2
  -- the state after the ADDR write, after the barrier, and after the FLAGS write
  let s1 := pushWrite (descWordAddr s.params.desc base slot .addr) a (interleave s)
  let s2 := emitted .barrier { interleave s1 with epoch := (interleave s1).epoch + 1 }
  let s3 := pushWrite (descWordAddr s.params.desc base slot .flags) f (interleave s2)
  have h1 : HostWrites s1 r slot base := h.pushWrite a haA (by rw [hp]; exact hAF)
  have h2 : HostWrites s2 r slot base := h1.interleave.barrier
  have hp1 : s1.params = s.params := hp
  have hp2 : s2.params = s.params :=
    (show s2.params = (interleave s1).params from rfl).trans ((hostSide_fields (interleave_hostSide s1)).1.trans hp1)
  refine ⟨closeWindow a.toNat s3, ?_, ?_, ?_, ?_⟩
  · simp only [ringPublish, run_bind, run_getState, run_ite, hf, if_true, run_memWrite h]
    simp only [wmb, run_bind, run_boundary, run_update]
    have := run_memWrite h2.interleave .flags f
    rw [hp2] at this
    simp only [s1, s2] at this
    simp only [this]
    rfl
  · have e1 : hostSide s1 = { hostSide s with
        trace := hostTrace s ++ [.descW (descWordAddr s.params.desc base slot .addr) a] } := by
      rw [hostSide_pushWrite, interleave_hostSide, (hostSide_fields (interleave_hostSide s)).2.2.2.2.2.2.2.2.2.2.2.2.2.2.2.2.2.2.2.2.2.2.1]
    have e1' := e1
    simp only [hostSide, State.mk.injEq] at e1'
    have hf1 := hostSide_fields (interleave_hostSide s1)
    have hf2 := hostSide_fields (interleave_hostSide s2)
    have e2 : hostSide s2 = { hostSide s with
        epoch := s.epoch + 1
        trace := hostTrace s ++ [.descW (descWordAddr s.params.desc base slot .addr) a, .barrier] } := by
      rw [hostSide_emitted]
      have : hostSide { interleave s1 with epoch := (interleave s1).epoch + 1 } =
          { hostSide s1 with epoch := s1.epoch + 1 } := by
        have := interleave_hostSide s1
        simp only [hostSide, State.mk.injEq, hostTrace] at this ⊢
        simp_all
      rw [this, e1]
      simp only [hostEvent, Option.toList_some, List.append_assoc, List.cons_append, List.nil_append]
      have : s1.epoch = s.epoch := (hostSide_fields (interleave_hostSide s)).2.2.2.2.2.2.2.2.2.2.2.2.1
      rw [this]
    have ht2 : hostTrace (interleave s2) = hostTrace s2 :=
      hf2.2.2.2.2.2.2.2.2.2.2.2.2.2.2.2.2.2.2.2.2.2.2.1
    have ht2' : hostTrace s2 = hostTrace s ++ [.descW (descWordAddr s.params.desc base slot .addr) a, .barrier] :=
      congrArg State.trace e2
    have e3 : hostSide (closeWindow a.toNat s3) =
        { hostSide s3 with syncWindows := mapErase s3.syncWindows a.toNat } := rfl
    have hw : s3.syncWindows = s.syncWindows := by
      have h0 := hostSide_fields (interleave_hostSide s)
      have h1 := hostSide_fields (interleave_hostSide s1)
      have h2 := hostSide_fields (interleave_hostSide s2)
      simp only [s3, pushWrite_syncWindows, h2]
      simp only [s2, emitted_syncWindows, h1]
      simp only [s1, pushWrite_syncWindows, h0]
    rw [e3, hw, hostSide_pushWrite, interleave_hostSide, e2, ht2, ht2']
    simp only [List.append_assoc, List.cons_append, List.nil_append]
  · intro hs
    have i1 : interleave s = s := interleave_nil s hs
    have j1 : s1.sched = [] := by
      show (interleave s).sched = []
      rw [i1, hs]
    have i2 : interleave s1 = s1 := interleave_nil s1 j1
    have i3 : interleave s2 = s2 := interleave_nil s2 (by
      show (interleave s1).sched = []
      rw [i2, j1])
    simp only [s3, i3]
    simp only [s2, i2]
    simp only [s1, i1, closeWindow, pushWrite, emitted, List.append_assoc, List.cons_append, List.nil_append]
  · intro slot' hne hw
    have ne1 : descWordAddr s.params.desc base slot .addr ≠ descWordAddr s.params.desc base slot' .flags := fun e =>
      by cases (descWordAddr_inj hd e).2
    have ne2 : descWordAddr s.params.desc base slot .flags ≠ descWordAddr s.params.desc base slot' .flags := fun e =>
      hne (descWordAddr_inj hd e).1.symm
    have w1 : HostWrites s1 r slot' base := hw.interleave.pushWrite a haA (by rw [hp]; exact ne1)
    have w2 : HostWrites s2 r slot' base := w1.interleave.barrier
    exact (w2.interleave.pushWrite f haF (by
      rw [(hostSide_fields (interleave_hostSide s2)).1, hp2]
      exact ne2)).closeWindow _

/-- `RING_TRY_RECLAIM` (R133) of a slot of a ring that has memory: the FLAGS word decides, and the ADDR word is read after it. -/
theorem run_ringTryReclaim {s : State} {r : Ring} {slot base : Nat} (hd : descValid s.params.desc = true) (hl : LaidOut s)
    (hbase : ringBase s r = some base) (hslot : slot < capacity s.params r) :
    ringTryReclaim r slot s =
      if hostSeesOwned (interleave s) base slot then .ok none (interleave s)
      else .ok (some (hostView (interleave s) (descWordAddr s.params.desc base slot .flags),
        hostView (interleave (interleave s)) (descWordAddr s.params.desc base slot .addr))) (interleave (interleave s)) := by
  have hf := hostSide_fields (interleave_hostSide s)
  have hp := hf.1
  have hbase' : ringBase (interleave s) r = some base := by cases r <;> simpa [ringBase, hf] using hbase
  have hread := run_memRead (s := interleave s) (by simpa [hf] using hd) (by simpa [LaidOut, hf] using hl) hbase'
    (by simpa [hf] using hslot) .addr
  simp only [ringTryReclaim, run_bind, run_memRead hd hl hbase hslot, run_getState, run_ite, run_pure, hread,
    hostSeesOwned, hp]

/-! ### Draws -/

/-- The supplied draws, payloads apart, and the parameters are the same after the environment has acted. -/
theorem interleave_draws (s : State) :
    (interleave s).draws.irqAcquire = s.draws.irqAcquire ∧ (interleave s).draws.ringMemory = s.draws.ringMemory ∧
      (interleave s).draws.alloc = s.draws.alloc ∧ (interleave s).draws.dmaMap = s.draws.dmaMap ∧
      (interleave s).draws.mgmtRead = s.draws.mgmtRead ∧ (interleave s).draws.tcvrKnown = s.draws.tcvrKnown ∧
      (interleave s).drawCount = s.drawCount := Alike.draws (interleave_hostSide s)

/-- `MgmtRead` (R74) with a supplied value. -/
theorem run_mgmtRead {s : State} {v : Word32} {rest : List Word32} (h : s.draws.mgmtRead = v :: rest) (reg : Nat) :
    mgmtRead reg s = .ok (mgmtTrunc s.params.mgmt v) (emitted (.mgmtR reg (mgmtTrunc s.params.mgmt v))
      { interleave s with draws := { (interleave s).draws with mgmtRead := rest } }) := by
  have hd : (interleave s).draws.mgmtRead = v :: rest := (interleave_draws s).2.2.2.2.1.trans h
  have hp : (interleave s).params = s.params := (hostSide_fields (interleave_hostSide s)).1
  simp only [mgmtRead, run_bind, run_boundary, drawMgmtRead, hd, run_getState, run_update, run_pure, hp]

/-- `DmaMap` (R77) with a supplied answer that R77 and R293 allow. -/
theorem run_dmaMap_ok {s : State} {d : Nat × Nat} {rest : List (Option (Nat × Nat))}
    (h : s.draws.dmaMap = some d :: rest) (hok : checkMap s d = some d) (buf : Nat) :
    dmaMap buf s = .ok (some d) (emitted (.map buf d.1)
      { interleave s with
        draws := { (interleave s).draws with dmaMap := rest }
        liveMaps := mapSet s.liveMaps d.1 ⟨buf, d.2⟩ }) := by
  have hf := hostSide_fields (interleave_hostSide s)
  have hd : (interleave s).draws.dmaMap = some d :: rest := (interleave_draws s).2.2.2.1.trans h
  have hc : ∀ u : State, u.params = s.params → u.liveMaps = s.liveMaps → checkMap u d = some d := by
    intro u hp hm
    rw [← hok]
    simp only [checkMap, hp, hm]
  have hm : (interleave s).liveMaps = s.liveMaps := by simp only [hf]
  simp only [dmaMap, run_bind, run_boundary, drawDmaMap, hd, run_getState, Option.bind_some]
  have hc' := hc { interleave s with draws := { (interleave s).draws with dmaMap := rest } } hf.1 hm
  simp only [hc']
  simp only [run_bind, run_update, run_pure, hm]

/-- `DmaMap` (R77) with a supplied `fail`. -/
theorem run_dmaMap_fail {s : State} {rest : List (Option (Nat × Nat))} (h : s.draws.dmaMap = none :: rest) (buf : Nat) :
    dmaMap buf s = .ok none { interleave s with draws := { (interleave s).draws with dmaMap := rest } } := by
  have hd : (interleave s).draws.dmaMap = none :: rest := (interleave_draws s).2.2.2.1.trans h
  simp only [dmaMap, run_bind, run_boundary, drawDmaMap, hd, run_getState, Option.bind_none, run_pure]

/-- `DmaUnmap` (R77) of a live handle. -/
theorem run_dmaUnmap {s : State} {h : Nat} {m : MapEntry} (hl : mapGet s.liveMaps h = some m) :
    dmaUnmap h s = .ok () (emitted (.unmap h) (releaseMap h m (interleave s))) := by
  have hf := hostSide_fields (interleave_hostSide s)
  have hm : (interleave s).liveMaps = s.liveMaps := by simp only [hf]
  simp only [dmaUnmap, run_bind, run_boundary, run_getState, hm, hl, run_update]

/-- `DmaUnmap` (R77) of a handle that is not live. -/
theorem run_dmaUnmap_dead {s : State} {h : Nat} (hl : mapGet s.liveMaps h = none) :
    dmaUnmap h s = .error .faulted { interleave s with fault := some (.doubleUnmap h) } := by
  have hf := hostSide_fields (interleave_hostSide s)
  have hm : (interleave s).liveMaps = s.liveMaps := by simp only [hf]
  simp only [dmaUnmap, run_bind, run_boundary, run_getState, hm, hl, run_raise]

/-- `DmaSyncForCpu` (R78). -/
theorem run_dmaSyncForCpu (h n : Nat) (s : State) :
    dmaSyncForCpu h n s = .ok () (emitted (.syncCpu h n) (openWindow h n (interleave s))) := rfl

/-- `DmaSyncForDevice` (R78). -/
theorem run_dmaSyncForDevice (h n : Nat) (s : State) :
    dmaSyncForDevice h n s = .ok () (emitted (.syncDev h n) (returnWindow h (interleave s))) := rfl

/-- Between a synchronisation for the host of `n` bytes and one for the device, the host reads what the device has written there
over what it read before (R78). -/
theorem readPayload_openWindow {s : State} {h : Nat} {m : MapEntry} (hm : mapGet s.liveMaps h = some m) (n k : Nat) :
    readPayload h k (openWindow h n s) =
      ((mapGet (showBytes s.dmaMem m.buf n s.bufMem) m.buf).getD []).take (min k n) := by
  simp only [readPayload, openWindow_liveMaps, hm, openWindow_bufMem s hm, openWindow_syncWindows s hm, mapGet_mapSet_same,
    Option.getD_some]

/-- Once the buffer is the device's again the host reads nothing of it (R78). -/
theorem readPayload_returnWindow {s : State} {h : Nat} {m : MapEntry} (hm : mapGet s.liveMaps h = some m) (k : Nat) :
    readPayload h k (returnWindow h s) = [] := by
  simp only [readPayload, returnWindow_liveMaps, hm, returnWindow_syncWindows s hm, mapGet_mapErase_same, Option.getD_none,
    Nat.min_zero, List.take_zero]

/-! ### Events, barriers and device registers -/

/-- `Emit` (R50). -/
theorem run_emit (e : Event) (s : State) : emit e s = .ok () (emitted e (interleave s)) := rfl

/-- `MgmtWrite` (R74). -/
theorem run_mgmtWrite (reg : Nat) (v : Word32) (s : State) :
    mgmtWrite reg v s = .ok () (emitted (.mgmtW reg v) (interleave s)) := rfl

/-- `WMB` (R66). -/
theorem run_wmb (s : State) :
    wmb s = .ok () (emitted .barrier { interleave s with epoch := (interleave s).epoch + 1 }) := rfl

/-- `MmioWrite` (R67, R70): it takes effect after every pending write is visible. -/
theorem run_mmioWrite (reg : MmioReg) (v : RegVal) (s : State) :
    mmioWrite reg v s = .ok () (emitted (.mmioW reg v) (regEffect reg v (drain (interleave s)))) := rfl

/-- `MmioRead(STATUS)` (R39, R71). -/
theorem run_mmioReadStatus (s : State) :
    mmioReadStatus s = .ok (interleave s).dev.status (emitted (.mmioR .status (interleave s).dev.status)
      { interleave s with dev := { (interleave s).dev with status := 0 } }) := rfl

/-- `MmioRead(MAC_TXCFG)` (R71). -/
theorem run_mmioReadMac (s : State) :
    mmioReadMac s =
      .ok (macReadValue (interleave s)) (emitted (.mmioR .macTxcfg (macReadValue (interleave s))) (interleave s)) := rfl

/-- A hold leaves no write pending (R67). -/
@[simp] theorem drain_wb (s : State) : (drain s).wb = [] := rfl

/-- A register write changes what it names of the device and nothing else (R40 to R43, R71). -/
theorem regEffect_frame (reg : MmioReg) (v : RegVal) (s : State) :
    { regEffect reg v s with dev := s.dev } = s ∧ (regEffect reg v s).dev.status = s.dev.status := by
  unfold regEffect
  split <;> exact ⟨rfl, rfl⟩

/-! ### The other draws, buffers -/

/-- `draw IrqAcquire` (R260) with a supplied answer. -/
theorem run_drawIrqAcquire {s : State} {v : Bool} {rest : List Bool} (h : s.draws.irqAcquire = v :: rest) :
    drawIrqAcquire s =
      .ok v { interleave s with draws := { (interleave s).draws with irqAcquire := rest } } := by
  have hd : (interleave s).draws.irqAcquire = v :: rest := (interleave_draws s).1.trans h
  have hrun : drawIrqAcquire s = match (interleave s).draws.irqAcquire with
      | v :: rest => .ok v { interleave s with draws := { (interleave s).draws with irqAcquire := rest } }
      | [] => .ok (Config.freeIrqAcquire (interleave s).drawCount) (countDraw (interleave s)) := rfl
  rw [hrun, hd]

/-- `draw TcvrProbe` (R289) with a supplied answer. -/
theorem run_drawTcvrKnown {s : State} {v : Bool} {rest : List Bool} (h : s.draws.tcvrKnown = v :: rest) :
    drawTcvrKnown s =
      .ok v { interleave s with draws := { (interleave s).draws with tcvrKnown := rest } } := by
  have hd : (interleave s).draws.tcvrKnown = v :: rest := (interleave_draws s).2.2.2.2.2.1.trans h
  have hrun : drawTcvrKnown s = match (interleave s).draws.tcvrKnown with
      | v :: rest => .ok v { interleave s with draws := { (interleave s).draws with tcvrKnown := rest } }
      | [] => .ok (Config.freeTcvrKnown (interleave s).drawCount) (countDraw (interleave s)) := rfl
  rw [hrun, hd]

/-- The draw of ring memory (R130) with a supplied answer. -/
theorem run_drawRingMemory {s : State} {v : Option Nat} {rest : List (Option Nat)} (h : s.draws.ringMemory = v :: rest)
    (r : Ring) (n : Nat) :
    drawRingMemory r n s = .ok (v.bind (checkRingMemory (interleave s) r n))
      { interleave s with draws := { (interleave s).draws with ringMemory := rest } } := by
  have hd : (interleave s).draws.ringMemory = v :: rest := (interleave_draws s).2.1.trans h
  have hrun : drawRingMemory r n s = match (interleave s).draws.ringMemory with
      | v :: rest => .ok (v.bind (checkRingMemory (interleave s) r n))
          { interleave s with draws := { (interleave s).draws with ringMemory := rest } }
      | [] => .ok ((Config.freeRingMemory r n (interleave s).drawCount).bind (checkRingMemory (interleave s) r n))
          (countDraw (interleave s)) := rfl
  rw [hrun, hd]

/-- `Alloc` (R79) with a supplied buffer that is not live. -/
theorem run_alloc_ok {s : State} {b : Nat} {rest : List (Option Nat)} (h : s.draws.alloc = some b :: rest)
    (hb : mapHas s.liveBuffers b = false) (size : Nat) (mode : AllocMode) :
    alloc size mode s = .ok (some b) (emitted (.allocOk b)
      { interleave s with
        draws := { (interleave s).draws with alloc := rest }
        liveBuffers := mapSet s.liveBuffers b ()
        bufMem := mapErase (interleave s).bufMem b
        dmaMem := mapErase (interleave s).dmaMem b }) := by
  have hf := hostSide_fields (interleave_hostSide s)
  have hd : (interleave s).draws.alloc = some b :: rest := (interleave_draws s).2.2.1.trans h
  have hm : (interleave s).liveBuffers = s.liveBuffers := by simp only [hf]
  simp only [alloc, run_bind, run_boundary, drawAlloc, hd, run_getState, Option.bind_some, checkAlloc, hm, hb,
    Bool.false_eq_true, if_false, run_update, run_pure]

/-- `Alloc` (R79) with a supplied `fail`. -/
theorem run_alloc_fail {s : State} {rest : List (Option Nat)} (h : s.draws.alloc = none :: rest) (size : Nat)
    (mode : AllocMode) :
    alloc size mode s = .ok none (emitted .allocFail
      { interleave s with draws := { (interleave s).draws with alloc := rest } }) := by
  have hd : (interleave s).draws.alloc = none :: rest := (interleave_draws s).2.2.1.trans h
  simp only [alloc, run_bind, run_boundary, drawAlloc, hd, run_getState, Option.bind_none, run_update, run_pure]

/-- `Free` (R79). -/
theorem run_freeBuf (b : Nat) (s : State) :
    freeBuf b s = .ok () (emitted (.freeBuf b)
      { interleave s with
        liveBuffers := mapErase (interleave s).liveBuffers b
        bufMem := mapErase (interleave s).bufMem b
        dmaMem := mapErase (interleave s).dmaMem b }) := rfl

/-! ### Buffer payload (R77, R78, R282, R283) -/

/-- What the host sees of a buffer once the device's writes to its first bytes are visible (R78). -/
theorem mapGet_showBytes_same (dma : Table (List Byte)) (b n : Nat) (buf : Table (List Byte)) :
    (mapGet (showBytes dma b n buf) b).getD [] =
      overwritePrefix (((mapGet dma b).getD []).take n) ((mapGet buf b).getD []) := by
  unfold showBytes
  cases mapGet dma b <;> simp [overwritePrefix]

/-- No other buffer is touched. -/
theorem mapGet_showBytes_other (dma : Table (List Byte)) {b x : Nat} (h : x ≠ b) (n : Nat) (buf : Table (List Byte)) :
    mapGet (showBytes dma b n buf) x = mapGet buf x := by
  unfold showBytes
  cases mapGet dma b with
  | none => rfl
  | some bytes => exact mapGet_mapSet_other _ _ h

theorem mapWf_showBytes (dma : Table (List Byte)) (b n : Nat) {buf : Table (List Byte)} (h : mapWf buf = true) :
    mapWf (showBytes dma b n buf) = true := by
  unfold showBytes
  cases mapGet dma b with
  | none => exact h
  | some bytes => exact mapWf_mapSet _ _ _ h

/-- The receive engine writes only a buffer that the block holds, that is mapped at the posted address, and that no transmit fragment
in flight is mapped from (R282, R283). -/
theorem bufAt_some {s : State} {da b : Nat} (h : bufAt s da = some b) :
    mapHas s.liveBuffers b = true ∧ b ∉ txBuffers s ∧ ∃ x m, (x, m) ∈ s.liveMaps ∧ m.da = da ∧ m.buf = b := by
  rw [bufAt, Option.map_eq_some_iff] at h
  obtain ⟨⟨x, m⟩, hf, rfl⟩ := h
  have hp := List.find?_some hf
  simp only [Bool.and_eq_true, beq_iff_eq, Bool.not_eq_true'] at hp
  refine ⟨hp.1.2, fun hm => ?_, x, m, List.mem_of_find?_eq_some hf, hp.1.1, rfl⟩
  have := List.contains_iff_mem.mpr hm
  rw [hp.2] at this
  cases this

/-- A payload write changes the device's bytes of that one buffer and its own bookkeeping (R282). -/
theorem writePayload_frame (da n : Nat) (s : State) :
    { writePayload da n s with dmaMem := s.dmaMem, draws := s.draws, payloadCount := s.payloadCount } = s ∧
      ∀ b, bufAt s da ≠ some b → mapGet (writePayload da n s).dmaMem b = mapGet s.dmaMem b := by
  refine ⟨rfl, fun b hb => ?_⟩
  unfold writePayload
  cases h : bufAt s da with
  | none => rfl
  | some x => exact mapGet_mapSet_other _ _ fun e => hb (by rw [h, e])

/-- The write of a receive slot's FLAGS word changes memory and the draw it takes, and nothing else (R282). -/
theorem writeRxFlags_frame (base slot len : Nat) (ov : Bool) (csum : Nat) (x : Word32) (s : State) :
    { writeRxFlags base slot len ov csum x s with mem := s.mem, draws := s.draws } = s := rfl

/-! ### Entry and return -/

/-- An operation entered from outside, in a state that is ready (R310, R311). -/
theorem hostOp_ready {s : State} (h : Ready s) (ctx : Context) (body : M OpOutcome) :
    hostOp ctx body s = finish leave (body (enter ctx s)) := by
  simp only [hostOp, running_alive h.1, h.2]

/-- An operation invoked by a rule of the block, in a state that is alive. -/
theorem internalOp_running {s : State} (h : Alive s) (body : M OpOutcome) :
    internalOp body s = finish conclude (body s) := by simp only [internalOp, running_alive h]

/-- An agent step in a state that is alive. -/
theorem agentOp_running {s : State} (h : Alive s) (a : AgentStep) :
    agentOp a s = match agentStep a s with
      | some t => .next t
      | none => .refused .agentNotEnabled := by
  cases hs : agentStep a s <;> simp only [agentOp, running_alive h, hs]

/-- A next state of an operation is where its body ended: at its return, or where a fault stopped it. -/
theorem finish_next {back : OpOutcome → State → State} {r : EStateM.Result Stop State OpOutcome} {t : State}
    (h : finish back r = .next t) : (∃ o u, r = .ok o u ∧ t = back o u) ∨ r = .error .faulted t := by
  cases r with
  | ok o u => exact Or.inl ⟨o, u, rfl, by injection h with h; exact h.symm⟩
  | error e u =>
    cases e with
    | faulted => injection h with h; exact Or.inr (by rw [h])
    | refused r => cases h

/-- Memory with nothing listed, as `State.create` has it, is in canonical form, and so is every table of a created state. -/
theorem create_canonical (p : Params) : Canonical (State.create p) := ⟨rfl, rfl, rfl, rfl, rfl, rfl, rfl, rfl, rfl⟩

end Sys2Proof.Laws
end

