-- ==== Sys2Proof/Laws/PerInstr.lean ====
section
/-! SUPPORT. One lemma for each instruction about its record as syntax. -/

-- One theorem at a time: checked together they ask for more threads than the check allows.
set_option Elab.async false

namespace Sys2Proof.Laws

/-- The record of an instruction is its code (R120) and then whole words; its code has bit 7 set exactly when it is an agent step, as
R120 numbers them. -/
def Records.Statement (i : Instr) : Prop :=
  (encode i).head? = some i.code ∧ (encode i).length % 4 = 1 ∧ (i.code.getLsbD 7 = true ↔ i.opClass = .agent)

theorem putWord_length (n : Nat) : (putWord n).length = 4 := rfl

theorem csBytes_length (cs : CsRequest) : (csBytes cs).length % 4 = 0 := by
  cases cs <;> simp [csBytes, putWord_length]

/-- A code's bit 7 and the class agree. -/
theorem records_of_length {i : Instr} (hc : i.code.getLsbD 7 = true ↔ i.opClass = .agent)
    (h : (encodeArgs i).length % 4 = 0) : Records.Statement i := by
  refine ⟨rfl, ?_, hc⟩
  simp only [encode, List.length_cons]
  omega

theorem fragsBytes_length (fs : List Fragment) : (fragsBytes fs).length = 8 * fs.length := by
  induction fs with
  | nil => rfl
  | cons f fs ih =>
    simp only [fragsBytes, List.length_append, putWord_length, ih, List.length_cons]
    omega

theorem addressesBytes_length (as : List Nat) : (addressesBytes as).length = 8 * as.length := by
  induction as with
  | nil => rfl
  | cons a as ih =>
    simp only [addressesBytes, List.length_append, putWord_length, ih, List.length_cons]
    omega

theorem Records.ringAlloc : ∀ r n, Records.Statement (.ringAlloc r n) :=
  fun _ _ => records_of_length (by simp [Instr.code, Instr.opClass]) (by simp [encodeArgs, putWord_length])

theorem Records.ringNextFree : Records.Statement .ringNextFree :=
  records_of_length (by simp [Instr.code, Instr.opClass]) rfl

theorem Records.ringPublish : ∀ r n a f, Records.Statement (.ringPublish r n a f) :=
  fun _ _ _ _ => records_of_length (by simp [Instr.code, Instr.opClass]) (by simp [encodeArgs, putWord_length])

theorem Records.ringTryReclaim : ∀ r n, Records.Statement (.ringTryReclaim r n) :=
  fun _ _ => records_of_length (by simp [Instr.code, Instr.opClass]) (by simp [encodeArgs, putWord_length])

theorem Records.ringReset : ∀ r, Records.Statement (.ringReset r) :=
  fun _ => records_of_length (by simp [Instr.code, Instr.opClass]) (by simp [encodeArgs, putWord_length])

theorem Records.transmit : ∀ pkt, Records.Statement (.transmit pkt) := fun pkt => by
  refine records_of_length (by simp [Instr.code, Instr.opClass]) ?_
  have := csBytes_length pkt.cs
  simp only [encodeArgs, List.length_append, putWord_length, fragsBytes_length]
  omega

theorem Records.txReclaim : Records.Statement .txReclaim :=
  records_of_length (by simp [Instr.code, Instr.opClass]) rfl

theorem Records.rxReclaim : Records.Statement .rxReclaim :=
  records_of_length (by simp [Instr.code, Instr.opClass]) rfl

theorem Records.rxPost : ∀ n h, Records.Statement (.rxPost n h) :=
  fun _ _ => records_of_length (by simp [Instr.code, Instr.opClass]) (by simp [encodeArgs, putWord_length])

theorem Records.rxRecycle : ∀ n, Records.Statement (.rxRecycle n) :=
  fun _ => records_of_length (by simp [Instr.code, Instr.opClass]) (by simp [encodeArgs, putWord_length])

theorem Records.irq : Records.Statement .irq :=
  records_of_length (by simp [Instr.code, Instr.opClass]) rfl

theorem Records.linkBegin : Records.Statement .linkBegin :=
  records_of_length (by simp [Instr.code, Instr.opClass]) rfl

theorem Records.linkTick : Records.Statement .linkTick :=
  records_of_length (by simp [Instr.code, Instr.opClass]) rfl

theorem Records.linkCommit : ∀ m, Records.Statement (.linkCommit m) :=
  fun _ => records_of_length (by simp [Instr.code, Instr.opClass]) (by simp [encodeArgs, putWord_length])

theorem Records.linkForce : ∀ p, Records.Statement (.linkForce p) :=
  fun _ => records_of_length (by simp [Instr.code, Instr.opClass]) (by simp [encodeArgs, putWord_length])

theorem Records.reconfigureLink : ∀ an sp dx, Records.Statement (.reconfigureLink an sp dx) :=
  fun _ _ _ => records_of_length (by simp [Instr.code, Instr.opClass]) (by simp [encodeArgs, putWord_length])

theorem Records.openAdapter : Records.Statement .openAdapter :=
  records_of_length (by simp [Instr.code, Instr.opClass]) rfl

theorem Records.closeAdapter : Records.Statement .closeAdapter :=
  records_of_length (by simp [Instr.code, Instr.opClass]) rfl

theorem Records.txTimeout : Records.Statement .txTimeout :=
  records_of_length (by simp [Instr.code, Instr.opClass]) rfl

theorem Records.setMcast : ∀ req, Records.Statement (.setMcast req) := fun req => by
  refine records_of_length (by simp [Instr.code, Instr.opClass]) ?_
  simp only [encodeArgs, List.length_append, putWord_length, addressesBytes_length]
  omega

theorem Records.resetInit : ∀ c, Records.Statement (.resetInit c) :=
  fun _ => records_of_length (by simp [Instr.code, Instr.opClass]) (by simp [encodeArgs, putWord_length])

theorem Records.envVisible : ∀ a, Records.Statement (.envVisible a) :=
  fun _ => records_of_length (by simp [Instr.code, Instr.opClass]) (by simp [encodeArgs, putWord_length])

theorem Records.devTxDone : ∀ n, Records.Statement (.devTxDone n) :=
  fun _ => records_of_length (by simp [Instr.code, Instr.opClass]) (by simp [encodeArgs, putWord_length])

theorem Records.devRxDone : ∀ n l ov c, Records.Statement (.devRxDone n l ov c) :=
  fun _ _ _ _ => records_of_length (by simp [Instr.code, Instr.opClass]) (by simp [encodeArgs, putWord_length])

theorem Records.devStatus : ∀ v, Records.Statement (.devStatus v) :=
  fun _ => records_of_length (by simp [Instr.code, Instr.opClass]) (by simp [encodeArgs, putWord_length])

theorem Records.macDrained : Records.Statement .macDrained :=
  records_of_length (by simp [Instr.code, Instr.opClass]) rfl

theorem Records.timerFire : Records.Statement .timerFire :=
  records_of_length (by simp [Instr.code, Instr.opClass]) rfl

theorem Records.watchdogFire : Records.Statement .watchdogFire :=
  records_of_length (by simp [Instr.code, Instr.opClass]) rfl

end Sys2Proof.Laws
end

