-- ==== Sys2Proof/Tests/Helpers.lean ====
section
/-! SUPPORT. Small states for the tests, and what shows that a concrete state meets the conditions the statements name. -/

-- One theorem at a time: checked together they ask for more threads than the check allows.
set_option Elab.async false

namespace Sys2Proof.Tests

open Sys2Proof.Machine

/-! ### States -/

/-- The block once its creation has allocated both rings (R345), at the addresses of the spec's vectors. -/
def bare : State :=
  { State.create defaultParams with
    tx := ⟨some 0x10000, 0, 0, [], true⟩
    rx := ⟨some 0x11000, 0, []⟩
    queue := [] }

/-- Receive descriptors as the spec's vectors post them: FLAGS `0x86000000`, ADDR `0x20000 + 0x800 i`. -/
def postedMem : List Host.Cell :=
  [(0x11003, 0x86#8), (0x11006, 0x02#8), (0x1100B, 0x86#8), (0x1100D, 0x08#8), (0x1100E, 0x02#8), (0x11013, 0x86#8),
    (0x11015, 0x10#8), (0x11016, 0x02#8), (0x1101B, 0x86#8), (0x1101D, 0x18#8), (0x1101E, 0x02#8)]

/-- "Running" of the spec's vectors: right after a successful `RESET_INIT`, with nothing pending. -/
def live : State :=
  { bare with
    adapter := .running
    irqAcquired := true
    tx := ⟨some 0x10000, 0, 0, [], false⟩
    rx := ⟨some 0x11000, 0, [(0, ⟨100, 0⟩), (1, ⟨101, 1⟩), (2, ⟨102, 2⟩), (3, ⟨103, 3⟩)]⟩
    link := ⟨.arbitrationWait, 0, true, .s100, .full, 0, none, false⟩
    timerArmed := true
    dev := ⟨0, true, true, true, 1, true⟩
    mem := postedMem
    liveBuffers := [(100, ()), (101, ()), (102, ()), (103, ())]
    liveMaps := [(0, ⟨100, 0x20000⟩), (1, ⟨101, 0x20800⟩), (2, ⟨102, 0x21000⟩), (3, ⟨103, 0x21800⟩)] }

/-- `live` with one packet of 64 bytes in transmit slot 0: FLAGS as given, ADDR `0x30000`. -/
def inFlight (topByte : Byte) : State :=
  { live with
    tx := ⟨some 0x10000, 1, 0, [(0, ⟨0, 1, 9, 64, true, 64⟩)], false⟩
    mem := [(0x10000, 0x40#8), (0x10003, topByte), (0x10006, 0x03#8)] ++ postedMem
    liveMaps := live.liveMaps ++ [(9, ⟨50, 0x30000⟩)]
    pkts := [(0, ⟨[⟨50, 64⟩], .none⟩)]
    nextPkt := 1 }

/-- `inFlight` where the engine keeps order and the packet's first of two slots, slot 7, is completed and reclaimed. -/
def firstReclaimed : State :=
  { inFlight 0xA0#8 with
    params := { live.params with deviceTxOrder := .inOrder }
    tx := ⟨some 0x10000, 1, 0, [(0, ⟨0, 2, 9, 64, true, 128⟩)], false⟩
    pkts := [(0, ⟨[⟨51, 64⟩, ⟨50, 64⟩], .none⟩)] }

/-- `live` with receive slot 0 completed: the four bytes of its FLAGS word, all of them non-zero or dropped by the caller. -/
def received (flags : List Host.Cell) : State := { live with mem := flags ++ postedMem.tail }

/-- A state with these answers supplied for mappings. -/
def withMaps (s : State) (l : List (Option (Nat × Nat))) : State := { s with draws := { s.draws with dmaMap := l } }

/-- A state with these values supplied for management reads. -/
def withReads (s : State) (l : List Word32) : State := { s with draws := { s.draws with mgmtRead := l } }

/-- A state with these answers supplied for allocations. -/
def withAllocs (s : State) (l : List (Option Nat)) : State := { s with draws := { s.draws with alloc := l } }

/-- A state with another link state. -/
def linked (s : State) (st : LinkFsm) (tick : Nat) (perm : Fin 4) : State :=
  { s with link := { s.link with state := st, tick := tick, perm := perm } }

/-- A field of the state an operation answers. -/
def after {α : Type} (o : Host.Outcome State Fault Refusal) (f : State → α) : Option α :=
  match o with
  | .next t => some (f t)
  | .fault _ => none
  | .refused _ => none

/-- The name of the refusal an operation answers. -/
def refusal (o : Host.Outcome State Fault Refusal) : Option Refusal :=
  match o with
  | .next _ => none
  | .fault _ => none
  | .refused r => some r

/-! ### Conditions of concrete states -/

theorem laidOut_of {s : State} {a b : Nat} (ha : s.tx.base = some a) (hb : s.rx.base = some b)
    (h : a % (descBytes * capacity s.params .tx) = 0 ∧
      a + descBytes * capacity s.params .tx ≤ 2 ^ s.params.desc.addrBits)
    (h' : b % (descBytes * capacity s.params .rx) = 0 ∧
      b + descBytes * capacity s.params .rx ≤ 2 ^ s.params.desc.addrBits)
    (hab : a + descBytes * capacity s.params .tx ≤ b ∨ b + descBytes * capacity s.params .rx ≤ a) : LaidOut s := by
  refine ⟨?_, ?_, ?_⟩
  · intro x hx
    rw [ha] at hx
    cases hx
    exact h
  · intro x hx
    rw [hb] at hx
    cases hx
    exact h'
  · intro x y hx hy
    rw [ha] at hx
    rw [hb] at hy
    cases hx
    cases hy
    exact hab

theorem mapGet_mem {β : Type} {t : Table β} {k : Nat} {v : β} (h : mapGet t k = some v) : (k, v) ∈ t := by
  induction t with
  | nil => cases h
  | cons e t ih =>
    obtain ⟨k', v'⟩ := e
    simp only [mapGet] at h
    split at h
    · rename_i hk
      cases h
      rw [hk]
      exact List.mem_cons_self
    · exact List.mem_cons_of_mem _ (ih h)

theorem mapHas_mem {β : Type} {t : Table β} {k : Nat} (h : mapHas t k = true) : ∃ v, (k, v) ∈ t := by
  obtain ⟨v, hv⟩ := Option.isSome_iff_exists.mp h
  exact ⟨v, mapGet_mem hv⟩

/-- The keys of a table are below a bound. -/
def keysBelow {β : Type} (n : Nat) (t : Table β) : Bool := t.all fun e => decide (e.1 < n)

theorem lt_of_keysBelow {β : Type} {n k : Nat} {t : Table β} (h : keysBelow n t = true) (hk : mapHas t k = true) : k < n := by
  obtain ⟨v, hv⟩ := mapHas_mem hk
  exact of_decide_eq_true (List.all_eq_true.mp h _ hv)

/-- A packet's last fragment is in the transmit shadow. -/
def lastInFlight (s : State) (k : Nat) : Bool :=
  (List.range s.params.nTx).any fun i =>
    match mapGet s.tx.shadow i with
    | none => false
    | some e => e.eop && e.pkt == k

/-- `ShadowsConsistent` as a check over the listed slots. -/
def shadowsOk (s : State) : Bool :=
  decide (s.tx.head < s.params.nTx) && decide (s.tx.tail < s.params.nTx) && decide (s.rx.cursor < s.params.nRx) &&
    keysBelow s.params.nTx s.tx.shadow && keysBelow s.params.nRx s.rx.shadow &&
    ((List.range s.params.nTx).all fun i => mapHas s.tx.shadow i == outstanding s i) &&
    (s.adapter != .running || (List.range s.params.nRx).all fun i => mapHas s.rx.shadow i) &&
    decide (shadowHandles s).Nodup && ((shadowHandles s).all fun h => mapHas s.liveMaps h) &&
    (s.liveMaps.all fun e => decide (e.1 ∈ shadowHandles s)) && s.pkts.all fun k => lastInFlight s k.1

theorem shadows_of {s : State} (h : shadowsOk s = true) : ShadowsConsistent s := by
  simp only [shadowsOk, Bool.and_eq_true, decide_eq_true_eq] at h
  obtain ⟨⟨⟨⟨⟨⟨⟨⟨⟨⟨h1, h2⟩, h3⟩, h4⟩, h5⟩, h6⟩, h7⟩, h8⟩, h9⟩, h10⟩, h11⟩ := h
  refine ⟨⟨h1, h2, h3⟩, ?_, fun i hi => lt_of_keysBelow h5 hi, ?_, h8, ?_, ?_⟩
  · intro i
    constructor
    · intro hi
      have hlt := lt_of_keysBelow h4 hi
      have := List.all_eq_true.mp h6 i (List.mem_range.mpr hlt)
      exact ⟨hlt, by rw [beq_iff_eq] at this; rw [← this, hi]⟩
    · intro ⟨hlt, ho⟩
      have := List.all_eq_true.mp h6 i (List.mem_range.mpr hlt)
      rw [beq_iff_eq] at this
      rw [this, ho]
  · intro hr i hi
    rw [hr] at h7
    simp only [bne_self_eq_false, Bool.false_or] at h7
    exact List.all_eq_true.mp h7 i (List.mem_range.mpr hi)
  · intro x
    constructor
    · intro hx
      exact List.all_eq_true.mp h9 x hx
    · intro hx
      obtain ⟨v, hv⟩ := mapHas_mem hx
      exact of_decide_eq_true (List.all_eq_true.mp h10 _ hv)
  · intro k hk
    obtain ⟨v, hv⟩ := mapHas_mem hk
    have := List.all_eq_true.mp h11 _ hv
    obtain ⟨i, -, hi⟩ := List.any_eq_true.mp this
    split at hi
    · cases hi
    · rename_i e he
      rw [Bool.and_eq_true, beq_iff_eq] at hi
      exact ⟨i, e, he, hi.1, hi.2⟩

/-- A state whose tables are canonical, by the check of each. -/
def canonicalOk (s : State) : Bool :=
  memWf s.mem && mapWf s.tx.shadow && mapWf s.rx.shadow && mapWf s.liveBuffers && mapWf s.liveMaps && mapWf s.pkts &&
    mapWf s.bufMem && mapWf s.dmaMem && mapWf s.syncWindows

theorem canonical_of {s : State} (h : canonicalOk s = true) : Canonical s := by
  simp only [canonicalOk, Bool.and_eq_true] at h
  obtain ⟨⟨⟨⟨⟨⟨⟨⟨h1, h2⟩, h3⟩, h4⟩, h5⟩, h6⟩, h7⟩, h8⟩, h9⟩ := h
  exact ⟨h1, h2, h3, h4, h5, h6, h7, h8, h9⟩

theorem writesOrdered_of {s : State} (h : s.wb = []) : WritesOrdered s := by
  refine ⟨?_, ?_⟩
  · rw [h]
    exact List.Pairwise.nil
  · intro e he
    rw [h] at he
    cases he

theorem noWrites {s : State} (h : s.wb = []) : ∀ w ∈ s.wb, w.addr % 4 = 0 := by
  intro w hw
  rw [h] at hw
  cases hw

/-- What `RingsReady` asks of a state with the vectors' ring addresses and nothing pending. -/
theorem ringsReady_of {s : State} (hp : s.params = defaultParams) (ha : s.tx.base = some 0x10000)
    (hb : s.rx.base = some 0x11000) (hw : s.wb = []) (hc : canonicalOk s = true) (hs : shadowsOk s = true) :
    RingsReady s := by
  refine ⟨?_, ?_, ?_, laidOut_of ha hb ?_ ?_ ?_, writesOrdered_of hw, canonical_of hc, shadows_of hs⟩
  · rw [hp]
    decide
  · rw [ha]
    rfl
  · rw [hb]
    rfl
  all_goals
    rw [hp]
    decide

/-- The vectors' ring addresses are laid out as they must be. -/
theorem laidOut_vectors {s : State} (hp : s.params = defaultParams) (ha : s.tx.base = some 0x10000)
    (hb : s.rx.base = some 0x11000) : LaidOut s := by
  refine laidOut_of ha hb ?_ ?_ ?_
  all_goals
    rw [hp]
    decide

/-- The next state of an operation that answers one. -/
theorem next_of {o : Host.Outcome State Fault Refusal} (h : (after o (fun _ => ())).isSome = true) : ∃ t, o = .next t := by
  cases o with
  | next t => exact ⟨t, rfl⟩
  | fault r => cases h
  | refused r => cases h

/-- The next state of an operation that answers one, with a field's value. -/
theorem next_with {α : Type} {o : Host.Outcome State Fault Refusal} {f : State → α} {v : α} (h : after o f = some v) :
    ∃ t, o = .next t ∧ f t = v := by
  cases o with
  | next t => exact ⟨t, rfl, Option.some.inj h⟩
  | fault r => cases h
  | refused r => cases h

/-- A reclaim that takes exactly one slot. -/
theorem reclaimable_one {s : State} {base : Nat} {e : TxEntry}
    (hn : 1 = (s.tx.head + s.params.nTx - s.tx.tail) % s.params.nTx)
    (hf : hostSeesOwned s base ((s.tx.tail + 0) % s.params.nTx) = false)
    (he : mapGet s.tx.shadow ((s.tx.tail + 0) % s.params.nTx) = some e) : Reclaimable s base [e] := by
  refine ⟨Nat.le_of_eq hn, ?_, Or.inl hn⟩
  intro j e' hj
  cases j with
  | zero =>
    cases hj
    exact ⟨hf, he⟩
  | succ j => cases hj

/-- `OneCompleted` for a state with the vectors' ring addresses and nothing pending, as a check. -/
def completedOk (s : State) (len : Nat) (ov : Bool) (csum : Nat) (e : RxEntry) (da : Nat) : Bool :=
  let d := s.params.desc
  let f := hostView s (descWordAddr d 0x11000 s.rx.cursor .flags)
  decide (s.rx.cursor < s.params.nRx) && mapGet s.rx.shadow s.rx.cursor == some e &&
    mapGet s.liveMaps e.handle == some ⟨e.buf, da⟩ && !hostSeesOwned s 0x11000 s.rx.cursor &&
    hostSeesOwned s 0x11000 ((s.rx.cursor + 1) % s.params.nRx) && getField d.rxSize f == len &&
    getBit d.overflow f == ov && getField d.rxCsum f == csum

theorem completed_of {s : State} {len : Nat} {ov : Bool} {csum : Nat} {e : RxEntry} {da : Nat}
    (hp : s.params = defaultParams) (ha : s.tx.base = some 0x10000) (hb : s.rx.base = some 0x11000) (hw : s.wb = [])
    (h : completedOk s len ov csum e da = true) : OneCompleted s 0x11000 len ov csum e da := by
  simp only [completedOk, Bool.and_eq_true, decide_eq_true_eq, beq_iff_eq, Bool.not_eq_true'] at h
  obtain ⟨⟨⟨⟨⟨⟨⟨h1, h2⟩, h3⟩, h4⟩, h5⟩, h6⟩, h7⟩, h8⟩ := h
  exact ⟨by rw [hp]; decide, laidOut_vectors hp ha hb, writesOrdered_of hw, hb, h1, h2, h3, h4, h5, h6, h7, h8⟩

/-- No live mapping is of this buffer. -/
theorem not_mapped {s : State} {b : Nat} (h : s.liveMaps.all (fun e => e.2.buf != b) = true) :
    ∀ x m, mapGet s.liveMaps x = some m → m.buf ≠ b := fun x m hm =>
  bne_iff_ne.mp (List.all_eq_true.mp h (x, m) (mapGet_mem hm))

/-- No receive slot holds this buffer. -/
theorem not_ringBuffer {s : State} {b : Nat} (h : s.rx.shadow.all (fun e => e.2.buf != b) = true) : ¬RingBuffer s b := by
  rintro ⟨i, e, hi, he⟩
  exact bne_iff_ne.mp (List.all_eq_true.mp h (i, e) (mapGet_mem hi)) he

/-- Granted buffers that are live are the receive ring's own, as a check. -/
theorem ownBuffers {s : State} {bufs : List Nat}
    (h : bufs.all (fun b => !mapHas s.liveBuffers b || (List.range s.params.nRx).any fun i =>
      (mapGet s.rx.shadow i).map (·.buf) == some b) = true) :
    ∀ b ∈ bufs, mapHas s.liveBuffers b = true → RingBuffer s b := by
  intro b hb hl
  have := List.all_eq_true.mp h b hb
  rw [hl, Bool.not_true, Bool.false_or] at this
  obtain ⟨i, -, hi⟩ := List.any_eq_true.mp this
  rw [beq_iff_eq, Option.map_eq_some_iff] at hi
  obtain ⟨e, he, hb⟩ := hi
  exact ⟨i, e, he, hb⟩

/-- `FreeSlotsHostOwned` as a check over the slots of the ring. -/
theorem freeSlots_of {s : State} (h : (s.tx.base.all fun base => (List.range s.params.nTx).all fun i =>
    outstanding s i || !deviceOwns s base i && !hostSeesOwned s base i) = true) : FreeSlotsHostOwned s := by
  intro base i hb hi ho
  rw [hb, Option.all_some] at h
  have := List.all_eq_true.mp h i (List.mem_range.mpr hi)
  simpa [ho] using this

/-- `BuffersHeld` as a check over the listed buffers and slots. -/
theorem buffersHeld_of {s : State} (h : (decide (s.rx.shadow.map (·.2.buf)).Nodup &&
      s.rx.shadow.all (fun e => mapHas s.liveBuffers e.2.buf) &&
      s.liveBuffers.all fun b => (List.range s.params.nRx).any fun i =>
        (mapGet s.rx.shadow i).map (·.buf) == some b.1) = true) : BuffersHeld s := by
  simp only [Bool.and_eq_true, decide_eq_true_eq] at h
  refine ⟨h.1.1, fun b => ⟨fun hl => ?_, ?_⟩⟩
  · obtain ⟨v, hv⟩ := mapHas_mem hl
    obtain ⟨i, -, hi⟩ := List.any_eq_true.mp (List.all_eq_true.mp h.2 _ hv)
    rw [beq_iff_eq, Option.map_eq_some_iff] at hi
    obtain ⟨e, he, hb⟩ := hi
    exact ⟨i, e, he, hb⟩
  · rintro ⟨i, e, hi, rfl⟩
    exact List.all_eq_true.mp h.1.2 (i, e) (mapGet_mem hi)

/-- No word of a list passes a test. -/
theorem none_of {l : List Word32} {p : Word32 → Bool} (h : l.all (fun x => !p x) = true) : ∀ x ∈ l, p x = false := by
  intro x hx
  have := List.all_eq_true.mp h x hx
  rwa [Bool.not_eq_true'] at this

/-- No power of two is 6. -/
theorem six_no_power : ¬∃ k, 6 = 2 ^ k := by
  rintro ⟨k, hk⟩
  match k, hk with
  | 0, hk => omega
  | 1, hk => omega
  | 2, hk => omega
  | k + 3, hk =>
    have h8 : 2 ^ (k + 3) = 8 * 2 ^ k := by ring
    omega

end Sys2Proof.Tests
end

