-- ==== Sys2Proof/Tests/Slice0.lean ====
section
/-! SUPPORT. Tests: ill-formed terms, records written out by hand from R120, values and single steps of the spec's own vectors
(its file 95, named in each comment). -/

-- One theorem at a time: checked together they ask for more threads than the check allows.
set_option Elab.async false

namespace Sys2Proof.Tests

open Sys2Proof.Machine

/-! ### Ill-formed terms -/

theorem test_wf_capacity : (Instr.ringAlloc .tx (2 ^ 32)).wellFormed = false := by decide
theorem test_wf_publish_slot : (Instr.ringPublish .tx (2 ^ 32) 0 0).wellFormed = false := by decide
theorem test_wf_reclaim_slot : (Instr.ringTryReclaim .tx (2 ^ 32)).wellFormed = false := by decide
theorem test_wf_fragment_buffer : (Instr.transmit ⟨[⟨2 ^ 32, 1⟩], .none⟩).wellFormed = false := by decide
theorem test_wf_fragment_length : (Instr.transmit ⟨[⟨1, 2 ^ 32⟩], .none⟩).wellFormed = false := by decide
theorem test_wf_checksum_start : (Instr.transmit ⟨[], .offsets (2 ^ 32) 0⟩).wellFormed = false := by decide
theorem test_wf_checksum_stuff : (Instr.transmit ⟨[], .offsets 0 (2 ^ 32)⟩).wellFormed = false := by decide
theorem test_wf_post_slot : (Instr.rxPost (2 ^ 32) 0).wellFormed = false := by decide
theorem test_wf_post_handle : (Instr.rxPost 0 (2 ^ 32)).wellFormed = false := by decide
theorem test_wf_recycle_slot : (Instr.rxRecycle (2 ^ 32)).wellFormed = false := by decide
theorem test_wf_speed : (Instr.reconfigureLink .disabled (2 ^ 32) .half).wellFormed = false := by decide
theorem test_wf_mcast_address : (Instr.setMcast ⟨[2 ^ 64], ⟨false, false⟩⟩).wellFormed = false := by decide
theorem test_wf_visible_address : (Instr.envVisible (2 ^ 32)).wellFormed = false := by decide
theorem test_wf_tx_done_slot : (Instr.devTxDone (2 ^ 32)).wellFormed = false := by decide
theorem test_wf_rx_done_slot : (Instr.devRxDone (2 ^ 32) 0 false 0).wellFormed = false := by decide
theorem test_wf_rx_done_length : (Instr.devRxDone 0 (2 ^ 32) false 0).wellFormed = false := by decide
theorem test_wf_rx_done_checksum : (Instr.devRxDone 0 0 false (2 ^ 32)).wellFormed = false := by decide

/-! ### Records written out by hand

The code is R120's; the operand words follow in the order of its argument column, least significant byte first (log entry 1). -/

theorem test_decode_ring_alloc : decode [0x01#8, 1, 0, 0, 0, 0, 2, 0, 0] = .ok (.ringAlloc .rx 512, []) := rfl
theorem test_decode_ring_next_free : decode [0x02#8] = .ok (.ringNextFree, []) := rfl
theorem test_decode_ring_publish :
    decode [0x03#8, 0, 0, 0, 0, 5, 0, 0, 0, 0x78, 0x56, 0x34, 0x12, 0x40, 0, 0, 0xE0] =
      .ok (.ringPublish .tx 5 0x12345678#32 0xE0000040#32, []) := rfl
theorem test_decode_ring_try_reclaim :
    decode [0x04#8, 1, 0, 0, 0, 7, 0, 0, 0] = .ok (.ringTryReclaim .rx 7, []) := rfl
theorem test_decode_ring_reset : decode [0x05#8, 0, 0, 0, 0] = .ok (.ringReset .tx, []) := rfl
theorem test_decode_transmit :
    decode [0x10#8, 2, 0, 0, 0, 9, 0, 0, 0, 100, 0, 0, 0, 10, 0, 0, 0, 0, 1, 0, 0, 1, 0, 0, 0, 20, 0, 0, 0, 36, 0, 0, 0] =
      .ok (.transmit ⟨[⟨9, 100⟩, ⟨10, 256⟩], .offsets 20 36⟩, []) := rfl
theorem test_decode_transmit_no_checksum :
    decode [0x10#8, 1, 0, 0, 0, 9, 0, 0, 0, 64, 0, 0, 0, 0, 0, 0, 0] = .ok (.transmit ⟨[⟨9, 64⟩], .none⟩, []) := rfl
theorem test_decode_tx_reclaim : decode [0x11#8] = .ok (.txReclaim, []) := rfl
theorem test_decode_rx_reclaim : decode [0x20#8] = .ok (.rxReclaim, []) := rfl
theorem test_decode_rx_post : decode [0x21#8, 3, 0, 0, 0, 1, 1, 0, 0] = .ok (.rxPost 3 257, []) := rfl
theorem test_decode_rx_recycle : decode [0x22#8, 3, 0, 0, 0] = .ok (.rxRecycle 3, []) := rfl
theorem test_decode_irq : decode [0x30#8] = .ok (.irq, []) := rfl
theorem test_decode_link_begin : decode [0x40#8] = .ok (.linkBegin, []) := rfl
theorem test_decode_link_tick : decode [0x41#8] = .ok (.linkTick, []) := rfl
theorem test_decode_link_commit : decode [0x42#8, 3, 0, 0, 0] = .ok (.linkCommit ⟨.s100, .full⟩, []) := rfl
theorem test_decode_link_force : decode [0x43#8, 2, 0, 0, 0] = .ok (.linkForce 2, []) := rfl
theorem test_decode_reconfigure :
    decode [0x44#8, 1, 0, 0, 0, 0xFF, 0xFF, 0xFF, 0xFF, 1, 0, 0, 0] =
      .ok (.reconfigureLink .disabled 0xFFFFFFFF .full, []) := rfl
theorem test_decode_open : decode [0x50#8] = .ok (.openAdapter, []) := rfl
theorem test_decode_close : decode [0x51#8] = .ok (.closeAdapter, []) := rfl
theorem test_decode_tx_timeout : decode [0x52#8] = .ok (.txTimeout, []) := rfl
theorem test_decode_set_mcast :
    decode [0x53#8, 1, 0, 0, 0, 2, 0, 0, 0, 1, 0, 0, 0, 1, 0, 0, 0, 0, 0, 0, 0] =
      .ok (.setMcast ⟨[2 ^ 32 + 2], ⟨true, false⟩⟩, []) := rfl
theorem test_decode_reset_init : decode [0x54#8, 2, 0, 0, 0] = .ok (.resetInit .timer, []) := rfl
theorem test_decode_env_visible : decode [0x80#8, 4, 0, 1, 0] = .ok (.envVisible 0x10004, []) := rfl
theorem test_decode_dev_tx_done : decode [0x81#8, 6, 0, 0, 0] = .ok (.devTxDone 6, []) := rfl
theorem test_decode_dev_rx_done :
    decode [0x82#8, 1, 0, 0, 0, 0x2C, 1, 0, 0, 1, 0, 0, 0, 0xEF, 0xBE, 0, 0] = .ok (.devRxDone 1 300 true 0xBEEF, []) :=
  rfl
theorem test_decode_dev_status : decode [0x83#8, 0, 0, 1, 0] = .ok (.devStatus 0x00010000#32, []) := rfl
theorem test_decode_mac_drained : decode [0x84#8] = .ok (.macDrained, []) := rfl
theorem test_decode_timer_fire : decode [0x85#8] = .ok (.timerFire, []) := rfl
theorem test_decode_watchdog_fire : decode [0x86#8] = .ok (.watchdogFire, []) := rfl

/-- "spells no operation" (R123); bytes that are not there, and bits of an operand word that its operand does not take (log entry 1). -/
theorem test_decode_unknown : decode [0x06#8] = .error (.unknownCode 0x06#8) := rfl
theorem test_decode_nothing : decode [] = .error (.unknownCode 0#8) := rfl
theorem test_decode_short : decode [0x10#8, 255, 255, 255, 255, 9, 0, 0, 0, 64] = .ok (.transmit ⟨[⟨9, 64⟩], .none⟩, []) := rfl
theorem test_decode_ring_bit : decode [0x05#8, 3, 0, 0, 0] = .ok (.ringReset .rx, []) := rfl

/-- R229: `an ∉ {enabled, disabled}` and `dx ∉ {half, full}` are for the operation to answer. -/
theorem test_decode_reconfigure_other :
    decode [0x44#8, 7, 0, 0, 0, 10, 0, 0, 0, 9, 0, 0, 0] = .ok (.reconfigureLink .other 10 .other, []) := rfl

/-! ### Words -/

/-- R106, scenario 1 (section 1.2): a 64-byte packet's FLAGS. -/
theorem test_flags_scenario_1 : encTx hmeGk true true .none 64 = 0xE0000040#32 := by decide

/-- V-T7: the first fragment with its checksum request, and the second fragment. -/
theorem test_flags_first_fragment : encTx hmeGk true false (.offsets 20 36) 100 = 0xD2450064#32 := by decide
theorem test_flags_second_fragment : encTx hmeGk false false .none 200 = 0x800000C8#32 := by decide

/-- V-T5: the largest checksum offsets. -/
theorem test_flags_largest_offsets : encTx hmeGk true true (.offsets 63 255) 64 = 0xFFFFC040#32 := by decide

/-- Section 0: the posted receive FLAGS; V-E3 and section 4: the FLAGS of a completed slot. -/
theorem test_flags_rx_posted : encRxPost defaultParams = 0x86000000#32 := by decide
theorem test_flags_rx_done : encRxDone hmeGk 0xFFFFFFFF#32 40 false 0x1234 = 0x00281234#32 := by decide
theorem test_flags_rx_overflow : encRxDone hmeGk 0 40 true 0 = 0x40280000#32 := by decide

/-- U1: bits that no field covers are as the device has them. -/
theorem test_flags_rx_reserved :
    encRxDone { hmeGk with rxCsum := ⟨0, 8⟩ } 0xFFFFFFFF#32 40 false 0x34 = 0x0028FF34#32 := by decide

/-- V-L1: the advertisement and the restart; V-L3: a forced mode; V-L7: the transceiver's disable bit. -/
theorem test_advertise : encAdv miiGk defaultParams.advertised = 0x01E1#32 := by decide
theorem test_an_start : encAnStart miiGk = 0x1200#32 := by decide
theorem test_forced_10_full : encForced miiGk ⟨.s10, .full⟩ = 0x0100#32 := by decide
theorem test_tcvr_disable : encTcvr miiGk 0x0000#32 true = 0x0080#32 := by decide

/-- V-L4b: the partner advertises 100 half and 10 full. -/
theorem test_resolve_partner : resolveMode defaultParams 0x00C1#32 = some ⟨.s100, .half⟩ := by decide

/-- R72: the bytes of a word in either order. -/
theorem test_word_little : readByte (writeWord .little [] 8 0x86000001#32) 11 = 0x86#8 := by decide
theorem test_word_big : readByte (writeWord .big [] 8 0x86000001#32) 8 = 0x86#8 := by decide

/-! ### Taking a command -/

/-- A caller's internal operation is refused (R123, the last row of P4). -/
theorem test_step_internal_from_caller :
    refusal (step { bare with queue := [⟨.caller, [0x02#8]⟩] }) = some .internalCodeFromCaller := by decide +kernel

/-- A caller's agent step is refused (R124). -/
theorem test_step_agent_from_caller :
    refusal (step { bare with queue := [⟨.caller, [0x84#8]⟩] }) = some .wrongInvoker := by decide +kernel

/-- The host's numbering: a table word placed first runs as its instruction. -/
theorem test_fetch_word : after (step (bare.withFetchWord 8 0x02)) (·.outcome) = some (some (.slot 0)) := by decide +kernel

/-! ### Ring primitives (V-R) -/

/-- V-R1: an empty ring, and a full one across the wrap. -/
theorem test_next_free_wrapped :
    after (exec .ringNextFree { bare with tx := { bare.tx with head := 3, tail := 5 } }) (·.outcome) =
      some (some (.slot 3)) := by decide +kernel
theorem test_next_free_full :
    after (exec .ringNextFree { bare with tx := { bare.tx with head := 5, tail := 6 } }) (·.outcome) =
      some (some .full) := by decide +kernel

/-- V-R2, V-R3: the address before the flags, one epoch apart; without OWN nothing. -/
theorem test_publish_order :
    after (exec (.ringPublish .tx 0 0x8000#32 0xE0000040#32) bare) (·.wb) =
      some [⟨0x10004, 0x8000#32, 0⟩, ⟨0x10000, 0xE0000040#32, 1⟩] := by decide +kernel
theorem test_publish_without_own :
    refusal (exec (.ringPublish .tx 0 0x8000#32 0x60000040#32) bare) = some .publishWithoutOwn := by decide +kernel

/-- V-R4, V-R5: a completed slot, and a pending write that overrides the device's view. -/
theorem test_try_reclaim_done :
    after (exec (.ringTryReclaim .tx 0) (inFlight 0x60#8)) (·.outcome) =
      some (some (.desc 0x60000040#32 0x30000#32)) := by decide +kernel
theorem test_try_reclaim_pending :
    after (exec (.ringTryReclaim .tx 0) { bare with wb := [⟨0x10000, 0xE0000040#32, 1⟩] }) (·.outcome) =
      some (some .notReady) := by decide +kernel

/-- V-R6: a second publish of a slot the device owns. -/
theorem test_double_publish :
    after (exec (.ringPublish .tx 0 0x9000#32 0xE0000040#32) (inFlight 0xE0#8)) (fun t => (t.fault, t.wb)) =
      some (some (.hostWroteDeviceOwned .tx 0), []) := by decide +kernel

/-- V-R7, V-R8: a reset with the engine on, and one with a packet in flight. -/
theorem test_reset_dma_on :
    after (exec (.ringReset .tx) live) (·.fault) = some (some (.resetWhileDmaOn .tx)) := by decide +kernel
theorem test_reset_in_flight :
    after (exec (.ringReset .tx) { inFlight 0xE0#8 with dev := ⟨0, false, false, false, 0, false⟩ })
      (fun t => (t.trace.length, t.trace.head?, t.pkts, t.tx.head)) =
      some (17, some (.unmap 9), [], 0) := by decide +kernel

/-- V-R9. -/
theorem test_alloc_bad_capacity :
    refusal (exec (.ringAlloc .tx 6) (State.create defaultParams)) = some .badCapacity := by decide +kernel

/-- R345: without ring memory there is no block, and what would run next is refused. -/
theorem test_alloc_fails :
    after (exec (.ringAlloc .tx 8) { State.create defaultParams with draws := ⟨[], [none], [], [], [], [], [], []⟩ })
      (fun t => (t.outcome, refusal (exec (.setMcast ⟨[], ⟨false, false⟩⟩) t))) =
      some (some .resourceExhausted, some .notCreated) := by decide +kernel
theorem test_alloc_ok :
    after (exec (.ringAlloc .tx 8) { State.create defaultParams with draws := ⟨[], [some 0x10000], [], [], [], [], [], []⟩ })
      (fun t => (t.outcome, t.tx.base)) = some (some .ok, some 0x10000) := by decide +kernel

/-! ### Transmit (V-T) -/

/-- V-T7: three fragments across the wrap; the epochs of the six writes, and the shadow's last fragment. -/
theorem test_transmit_three_fragments :
    after (exec (.transmit ⟨[⟨1, 100⟩, ⟨2, 200⟩, ⟨3, 300⟩], .offsets 20 36⟩)
        (withMaps { live with tx := { live.tx with head := 6, tail := 6 } }
          [some (21, 0x31000), some (22, 0x32000), some (23, 0x33000)])) (fun t => (t.tx.head, t.trace.take 9)) =
      some (1, [.map 1 21, .map 2 22, .map 3 23, .descW 0x1003C 0x32000#32, .barrier, .descW 0x10038 0x800000C8#32,
        .descW 0x10004 0x33000#32, .barrier, .descW 0x10000 0xA000012C#32]) := by decide +kernel

/-- V-T2: three slots free are not enough for three fragments. -/
theorem test_transmit_no_room :
    after (exec (.transmit ⟨[⟨1, 64⟩, ⟨2, 64⟩, ⟨3, 64⟩], .none⟩) { live with tx := { live.tx with head := 4 } })
      (·.outcome) = some (some .busy) := by decide +kernel

/-- V-T8, V-T9: the completed slot goes, the one the device owns stays. -/
theorem test_reclaim_done :
    after (exec .txReclaim (inFlight 0x60#8)) (fun t => (t.trace, t.tx.tail, t.counters.txBytes)) =
      some ([.unmap 9, .txComplete 0], 1, 64#64) := by decide +kernel
theorem test_reclaim_device_owned :
    after (exec .txReclaim (inFlight 0xE0#8)) (fun t => (t.trace, t.tx.tail)) = some ([], 0) := by decide +kernel

/-! ### Receive (V-X) -/

/-- V-X1, scenario 2 (section 1.3): a runt of 40 bytes. -/
theorem test_receive_runt :
    after (exec .rxReclaim (received [(0x11002, 0x28#8)]))
      (fun t => (t.counters.rxErrors, t.counters.rxDropped, t.rx.cursor, t.trace)) =
      some (1#64, 1#64, 1, [.descW 0x11004 0x20000#32, .barrier, .descW 0x11000 0x86000000#32]) := by decide +kernel

/-- V-X3: 256 bytes, copied out. -/
theorem test_receive_copy_out :
    after (exec .rxReclaim (withAllocs (received [(0x11000, 0xAA#8), (0x11003, 0x01#8)]) [some 7])) (·.trace) =
      some [.allocOk 7, .syncCpu 0 256, .syncDev 0 256, .descW 0x11004 0x20000#32, .barrier,
        .descW 0x11000 0x86000000#32, .deliver 7 256 0xAA] := by decide +kernel

/-- R78: two of the three bytes the device wrote are synchronised, and those the copy gets; the window is closed again. -/
theorem test_receive_copies_synchronised :
    after (exec .rxReclaim { withAllocs (received [(0x11002, 0x02#8)]) [some 7] with
        params := { defaultParams with rxMinFrame := 2 }, dmaMem := [(100, [5#8, 6#8, 7#8])] })
      (fun t => (t.bufMem, t.syncWindows)) = some ([(7, [5#8, 6#8]), (100, [5#8, 6#8])], []) := by decide +kernel

/-- R180, R181: posting slot 1 with the mapping of slot 2, and recycling slot 1. -/
theorem test_post :
    after (exec (.rxPost 1 2) { live with dev := { live.dev with rxDmaOn := false } }) (·.wb) =
      some [⟨0x1100C, 0x21000#32, 0⟩, ⟨0x11008, 0x86000000#32, 1⟩] := by decide +kernel
theorem test_recycle :
    after (exec (.rxRecycle 1) { live with dev := { live.dev with rxDmaOn := false } }) (·.wb) =
      some [⟨0x1100C, 0x20800#32, 0⟩, ⟨0x11008, 0x86000000#32, 1⟩] := by decide +kernel

/-! ### Interrupt (V-I) -/

/-- V-I1 and V-I2's transmit side. -/
theorem test_irq_not_mine : after (exec .irq live) (fun t => (t.outcome, t.trace)) =
    some (some .notMine, [.mmioR .status 0]) := by decide +kernel
theorem test_irq_transmit :
    after (exec .irq { inFlight 0x60#8 with dev := { live.dev with status := 0x02000000#32 } })
      (fun t => (t.outcome, t.dev.status, t.counters.txPackets)) = some (some .handled, 0, 1) := by decide +kernel

/-! ### Link (V-L) -/

/-- V-L1, V-L2. -/
theorem test_begin_acknowledged :
    after (exec .linkBegin (withReads (linked live .idle 3 0) [0x0000#32])) (fun t => (t.link.state, t.trace)) =
      some (.arbitrationWait, [.mgmtW 4 0x01E1#32, .mgmtW 0 0x1200#32, .mgmtR 0 0x0000#32]) := by decide +kernel
theorem test_begin_no_acknowledge :
    after (exec .linkBegin (withReads (linked live .idle 3 2) [0x1200#32, 0x1200#32]))
      (fun t => (t.link.state, t.link.perm, t.trace.drop 4)) =
      some (.forcedTryWait, 0, [.log .anRestartNoAck, .mgmtW 0 0x2100#32]) := by decide +kernel

/-- V-L5: the tenth tick falls through to forced mode; V-L7: so does the fourth forced tick to the next permutation. -/
theorem test_tick_arbitration_timeout :
    after (exec .linkTick (withReads (linked live .arbitrationWait 9 2) [0x0000#32])) (fun t => (t.link.state, t.trace)) =
      some (.forcedTryWait, [.mgmtR 1 0, .log .anTimeout, .mgmtW 0 0x2100#32]) := by decide +kernel
theorem test_tick_next_permutation :
    after (exec .linkTick (withReads (linked live .forcedTryWait 3 0) [0x0000#32]))
      (fun t => (t.link.perm, t.link.tick, t.trace)) = some (1, 0, [.mgmtR 1 0, .mgmtW 0 0x2000#32]) := by decide +kernel

/-- R230, R241: a tick put as a command is a firing of the timer too, so asleep is reached with the timer disarmed. -/
theorem test_tick_disarms :
    after (exec .linkTick (withReads (linked live .linkUpWait 0 0) [0x0004#32])) (fun t => (t.timerArmed, t.link.state)) =
      some (false, .asleep) := by decide +kernel

/-- V-L3: forced 10 full. -/
theorem test_force_10_full :
    after (exec (.linkForce 2) live) (fun t => (t.link.state, t.trace)) =
      some (.forcedTryWait, [.mgmtW 0 0x0100#32]) := by decide +kernel

/-- V-L13: the MAC is already disabled; V-L9: it never drains. -/
theorem test_commit_disabled :
    after (exec (.linkCommit ⟨.s100, .full⟩) { live with dev := { live.dev with macTxcfg := 0, macEnableSeen := false } })
      (fun t => (t.outcome, t.trace)) =
      some (some .commitOk, [.mmioR .macTxcfg 0, .mmioW .macTxcfg (.word 0), .mmioR .macTxcfg 0,
        .mmioW .macTxcfg (.word 0x200#32), .mmioW .macTxcfg (.word 0x201#32)]) := by decide +kernel
theorem test_commit_no_drain :
    after (exec (.linkCommit ⟨.s100, .full⟩) live) (fun t => (t.outcome, t.trace.length, t.dev.macTxcfg)) =
      some (some .commitFailed, 5, 0) := by decide +kernel

/-- V-L11: validation first; scenario 3 (section 1.4). -/
theorem test_reconfigure_bad_speed :
    after (exec (.reconfigureLink .disabled 7 .half) { live with adapter := .notReady }) (·.outcome) =
      some (some .validationError) := by decide +kernel
theorem test_reconfigure_scenario_3 :
    after (exec (.reconfigureLink .disabled 10 .half) (linked live .linkUpWait 4 0))
      (fun t => (t.outcome, t.link.state, t.link.tick, t.link.perm, t.trace)) =
      some (some .ok, .forcedTryWait, 0, 3, [.mgmtW 0 0x0000#32]) := by decide +kernel

/-! ### Lifecycle (V-O, V-Z) -/

/-- V-O1. -/
theorem test_open_unavailable :
    after (exec .openAdapter { bare with draws := ⟨[false], [], [], [], [], [], [], []⟩ }) (fun t => (t.outcome, t.trace)) =
      some (some .irqUnavailable, []) := by decide +kernel

/-- V-O3: an unknown transceiver; everything is torn down again. -/
theorem test_open_unknown_transceiver :
    after (exec .openAdapter { bare with
        draws := ⟨[true], [], [some 1, some 2, some 3, some 4],
          [some (11, 0x20000), some (12, 0x20800), some (13, 0x21000), some (14, 0x21800)], [], [false], [], []⟩ })
      (fun t => (t.outcome, t.adapter, t.liveBuffers, t.irqAcquired)) =
      some (some .linkTypeUnknown, .closed, [], false) := by decide +kernel

/-- V-O4. -/
theorem test_close :
    after (exec .closeAdapter live) (fun t => (t.adapter, t.link.state, t.timerArmed, t.liveBuffers)) =
      some (.closed, .asleep, false, []) := by decide +kernel

/-- R55 item 3 with R346: a slot that was in flight is the host's in memory after CLOSE, and other neutral writes are still pending. -/
theorem test_close_free_slots :
    after (exec .closeAdapter (inFlight 0xE0#8)) (fun t => (deviceOwns t 0x10000 0, t.wb.length)) = some (false, 23) := by
  decide +kernel

/-- V-O5: a stuck packet is released uncounted. -/
theorem test_timeout :
    after (exec .txTimeout { inFlight 0xE0#8 with
        draws := ⟨[], [], [some 1, some 2, some 3, some 4],
          [some (11, 0x20000), some (12, 0x20800), some (13, 0x21000), some (14, 0x21800)], [0], [true], [], []⟩ })
      (fun t => (t.outcome, t.adapter, t.pkts, t.counters.txPackets)) = some (some .ok, .running, [], 0) := by
  decide +kernel

/-- V-O6. -/
theorem test_set_mcast :
    after (exec (.setMcast ⟨[5], ⟨true, false⟩⟩)
        { live with params := { live.params with filterTable := [(⟨[5], ⟨true, false⟩⟩, [(2, 0x11#32)])] } }) (·.trace) =
      some [.filterProgram ⟨[5], ⟨true, false⟩⟩, .mmioW (.filter 2) (.word 0x11#32)] := by decide +kernel

/-- V-Z2: a reset in timer context whose probe fails. -/
theorem test_reset_unknown_transceiver :
    after (exec (.resetInit .timer) { live with
        draws := ⟨[], [], [some 1, some 2, some 3, some 4],
          [some (11, 0x20000), some (12, 0x20800), some (13, 0x21000), some (14, 0x21800)], [], [false], [], []⟩ })
      (fun t => (t.outcome, t.adapter, t.link.state, t.timerArmed, t.dev.rxDmaOn)) =
      some (some .linkTypeUnknown, .notReady, .idle, true, false) := by decide +kernel

/-! ### Agents (V-E) -/

/-- R280: of V-R2's two writes only the address may become visible first. -/
theorem test_visible_epoch :
    refusal (exec (.envVisible 0x10000)
      { bare with wb := [⟨0x10004, 0x8000#32, 0⟩, ⟨0x10000, 0xE0000040#32, 1⟩] }) = some .agentNotEnabled := by decide +kernel
theorem test_visible :
    after (exec (.envVisible 0x10004) { bare with wb := [⟨0x10004, 0x8000#32, 0⟩, ⟨0x10000, 0xE0000040#32, 1⟩] })
      (fun t => (deviceView t 0x10004, t.trace)) = some (0x8000#32, [.devSees 0x10004 0x8000#32]) := by decide +kernel

/-- V-E2. -/
theorem test_dev_tx_done :
    after (exec (.devTxDone 0) (inFlight 0xE0#8)) (deviceView · 0x10000) = some 0x60000040#32 := by decide +kernel

/-- R281, `in_order`: the last fragment of a packet whose first slot is completed and reclaimed. -/
theorem test_dev_tx_done_after_reclaim :
    after (exec (.devTxDone 0) firstReclaimed) (deviceView · 0x10000) = some 0x20000040#32 := by decide +kernel

/-- Scenario 2's device step (section 1.3), and the payload in its buffer, which the host does not see yet (R78). -/
theorem test_dev_rx_done :
    after (exec (.devRxDone 0 2 false 0) { live with draws := { live.draws with payload := [[5#8, 6#8, 7#8]], rxReserved := [0] } })
      (fun t => (deviceView t 0x11000, t.dmaMem, t.bufMem)) = some (0x00020000#32, [(100, [5#8, 6#8])], []) := by decide +kernel

/-- R283: a transmit fragment mapped at the same address, with a lower handle, is not written. -/
theorem test_dev_rx_spares_transmit :
    after (exec (.devRxDone 3 1 false 0) { inFlight 0xE0#8 with
        tx := { live.tx with head := 1, shadow := [(0, ⟨0, 1, 2, 64, true, 64⟩)] }
        liveMaps := [(0, ⟨100, 0x20000⟩), (1, ⟨101, 0x20800⟩), (2, ⟨50, 0x21800⟩), (3, ⟨103, 0x21800⟩)]
        draws := { live.draws with payload := [[5#8]] } }) (·.dmaMem) = some [(103, [5#8])] := by decide +kernel

/-- V-E6, V-E4, V-E5. -/
theorem test_dev_status :
    after (exec (.devStatus 0x02000000#32) live) (fun t => (t.dev.status, irqDue t)) = some (0x02000000#32, true) := by
  decide +kernel
theorem test_mac_drained :
    after (exec .macDrained { live with dev := { live.dev with macTxcfg := 0 } }) macReadValue = some 0 := by decide +kernel
theorem test_timer_fire_link_up :
    after (exec .timerFire (withReads (linked live .linkUpWait 0 0) [0x0004#32]))
      (fun t => (t.timerArmed, t.link.state, t.link.up)) = some (false, .asleep, true) := by decide +kernel

/-- R291: nothing to watch on a closed adapter. -/
theorem test_watchdog_closed : refusal (exec .watchdogFire bare) = some .agentNotEnabled := by decide +kernel

/-! ### Reset -/

/-- Memory with nothing listed is in canonical form, as is every table of the reset state. -/
theorem test_reset_canonical : Canonical State.reset := canonical_of (by decide)

end Sys2Proof.Tests
end

