-- ==== Sys2Proof/Tests/Witnesses.lean ====
section
/-! SUPPORT. For every statement with hypotheses, and for each of its clauses, a concrete state and operands that meet all of
them together, at a boundary of their range where they have one. -/

namespace Sys2Proof.Tests

open Sys2Proof.Machine

-- One theorem at a time: checked together they ask for more threads than the check allows.
set_option Elab.async false

/-- A closed adapter with these answers supplied for its refill and its transceiver probe. -/
def drawn (allocs : List (Option Nat)) (maps : List (Option (Nat × Nat))) (known : List Bool) : State :=
  { bare with draws := ⟨[true], [], allocs, maps, [], known, [], []⟩ }

/-- Four mappings that a refill may be granted. -/
def refillMaps : List (Option (Nat × Nat)) := [some (11, 0x20000), some (12, 0x20800), some (13, 0x21000), some (14, 0xFFFFFFFC)]

theorem decides {s : State} {o : OpOutcome} {bufs : List Nat} {maps : List (Nat × Nat)} {as : List (Option Nat)}
    {ms : List (Option (Nat × Nat))} (ha : s.draws.alloc = bufs.map some ++ as) (hm : s.draws.dmaMap = maps.map some ++ ms)
    (hg : RefillGranted s bufs maps)
    (h : bufs.length = s.params.nRx ∧ maps.length = s.params.nRx ∧
        (o = .ok ∧ s.draws.tcvrKnown.head? = some true ∨
          o = .linkTypeUnknown ∧ s.draws.tcvrKnown.head? = some false) ∨
      o = .resourceExhausted ∧
        (bufs.length < s.params.nRx ∧ maps.length = bufs.length ∧ as.head? = some none ∨
          bufs.length ≤ s.params.nRx ∧ bufs.length = maps.length + 1 ∧ ms.head? = some none)) : DrawsDecide s o :=
  ⟨bufs, maps, as, ms, ha, hm, hg, h⟩

/-- The draws may decide for each outcome of a reset (R334 to R337): here for success, with the receive ring's own buffers granted
again. -/
theorem witness_drawsDecide_ok : ∃ s, Ready s ∧ RingsReady s ∧ DrawsDecide s .ok :=
  ⟨{ inFlight 0xE0#8 with draws := ⟨[], [], [some 103, some 100, some 101, some 7], refillMaps, [], [true], [], []⟩ },
    ⟨⟨rfl, rfl⟩, rfl⟩, ringsReady_of rfl rfl rfl rfl (by decide +kernel) (by decide +kernel),
    decides (bufs := [103, 100, 101, 7]) (maps := [(11, 0x20000), (12, 0x20800), (13, 0x21000), (14, 0xFFFFFFFC)])
      (as := []) (ms := []) rfl rfl
      ⟨by decide, ownBuffers (by decide +kernel), by decide, by decide⟩ (.inl ⟨rfl, rfl, .inl ⟨rfl, rfl⟩⟩)⟩

theorem witness_drawsDecide_unknown : ∃ s, Ready s ∧ RingsReady s ∧ DrawsDecide s .linkTypeUnknown :=
  ⟨drawn [some 1, some 2, some 3, some 4] refillMaps [false], ⟨⟨rfl, rfl⟩, rfl⟩,
    ringsReady_of rfl rfl rfl rfl (by decide +kernel) (by decide +kernel),
    decides (bufs := [1, 2, 3, 4]) (maps := [(11, 0x20000), (12, 0x20800), (13, 0x21000), (14, 0xFFFFFFFC)])
      (as := []) (ms := []) rfl rfl ⟨by decide, fun _ _ h => Bool.noConfusion h, by decide, by decide⟩
      (.inl ⟨rfl, rfl, .inr ⟨rfl, rfl⟩⟩)⟩

theorem witness_drawsDecide_alloc_fails : ∃ s, Ready s ∧ RingsReady s ∧ DrawsDecide s .resourceExhausted :=
  ⟨drawn [some 1, some 2, some 3, none] refillMaps [], ⟨⟨rfl, rfl⟩, rfl⟩,
    ringsReady_of rfl rfl rfl rfl (by decide +kernel) (by decide +kernel),
    decides (bufs := [1, 2, 3]) (maps := [(11, 0x20000), (12, 0x20800), (13, 0x21000)]) (as := [none])
      (ms := [some (14, 0xFFFFFFFC)]) rfl rfl ⟨by decide, fun _ _ h => Bool.noConfusion h, by decide, by decide⟩
      (.inr ⟨rfl, .inl ⟨by decide, rfl, rfl⟩⟩)⟩

theorem witness_drawsDecide_map_fails : ∃ s, Ready s ∧ RingsReady s ∧ DrawsDecide s .resourceExhausted :=
  ⟨drawn [some 1, some 2, some 3, some 4] [some (11, 0x20000), some (12, 0x20800), some (13, 0x21000), none] [],
    ⟨⟨rfl, rfl⟩, rfl⟩, ringsReady_of rfl rfl rfl rfl (by decide +kernel) (by decide +kernel),
    decides (bufs := [1, 2, 3, 4]) (maps := [(11, 0x20000), (12, 0x20800), (13, 0x21000)]) (as := [])
      (ms := [none]) rfl rfl ⟨by decide, fun _ _ h => Bool.noConfusion h, by decide, by decide⟩
      (.inr ⟨rfl, .inr ⟨by decide, rfl, rfl⟩⟩)⟩

/-- A state with this instruction's record as its only command, put by the invoker entitled to it. -/
def queued (s : State) (i : Instr) : State := { s with queue := [⟨rightfulInvoker i.opClass, encode i⟩] }

theorem witness_DecodeEncodeRoundTrip :
    ∃ (i : Instr),
    i.wellFormed = true :=
  ⟨.transmit ⟨[⟨2 ^ 32 - 1, 2 ^ 32 - 1⟩], .offsets (2 ^ 32 - 1) 0⟩, by decide⟩

theorem witness_CodesOutsideTheMapAreRefused_1 :
    ∃ (s : State) (who : Invoker) (code : Byte) (rest : List Byte) (q : List Command),
    paramsValid s.params = true ∧ s.queue = ⟨who, code :: rest⟩ :: q ∧ code ∉ [0x01#8, 0x02#8, 0x03#8, 0x04#8, 0x05#8,
    0x10#8, 0x11#8, 0x20#8, 0x21#8, 0x22#8, 0x30#8, 0x40#8, 0x41#8, 0x42#8, 0x43#8, 0x44#8, 0x50#8, 0x51#8, 0x52#8,
    0x53#8, 0x54#8, 0x80#8, 0x81#8, 0x82#8, 0x83#8, 0x84#8, 0x85#8, 0x86#8] :=
  ⟨{ bare with queue := [⟨.caller, [0x55#8]⟩] }, .caller, 0x55#8, [], [], by decide, rfl, by decide⟩

theorem witness_CodesOutsideTheMapAreRefused_2 :
    ∃ (s : State) (i : Instr) (rest : List Byte) (q : List Command),
    paramsValid s.params = true ∧ i.opClass = .internal ∧ s.queue = ⟨.caller, i.code :: rest⟩ :: q :=
  ⟨{ bare with queue := [⟨.caller, [0x54#8, 2, 0, 0, 0]⟩] }, .resetInit .timer, [2#8, 0#8, 0#8, 0#8], [], by decide,
    rfl, rfl⟩

theorem witness_StepRunsDecoded :
    ∃ (s : State) (who : Invoker) (i : Instr) (rest : List Byte) (q : List Command),
    paramsValid s.params = true ∧ i.wellFormed = true ∧ who = rightfulInvoker i.opClass ∧ s.queue = ⟨who, encode i ++
    rest⟩ :: q :=
  ⟨{ bare with queue := [⟨.agent, [0x81#8, 6, 0, 0, 0]⟩] }, .agent, .devTxDone 6, [], [], by decide, by decide, rfl,
    rfl⟩

theorem witness_BadParametersAreRefused :
    ∃ (s : State),
    step s ≠ .refused .badParameters :=
  ⟨bare, fun h => by
    have h1 : refusal (step bare) = none := by decide +kernel
    rw [h] at h1
    cases h1⟩

theorem witness_TransmitFlagsReadBack_1 :
    ∃ (d : DescProfile) (cs : CsRequest) (size : Nat),
    descValid d = true ∧ size ≤ fieldMax d.txSize ∧ (∀ start stuff, cs = .offsets start stuff → start ≤ fieldMax
    d.csStart ∧ stuff ≤ fieldMax d.csStuff) ∧ cs = .none :=
  ⟨hmeGk, .none, 16383, by decide, by decide, (fun _ _ h => by cases h), rfl⟩

theorem witness_TransmitFlagsReadBack_2 :
    ∃ (d : DescProfile) (cs : CsRequest) (size start stuff : Nat),
    descValid d = true ∧ size ≤ fieldMax d.txSize ∧ (∀ start stuff, cs = .offsets start stuff → start ≤ fieldMax
    d.csStart ∧ stuff ≤ fieldMax d.csStuff) ∧ cs = .offsets start stuff :=
  ⟨hmeGk, .offsets 63 255, 16383, 63, 255, by decide, by decide, (by
    intro a b h
    cases h
    decide), rfl⟩

theorem witness_ReceiveFlagsReadBack :
    ∃ (p : Params) (len csum b : Nat),
    paramsValid p = true ∧ len ≤ fieldMax p.desc.rxSize ∧ csum ≤ fieldMax p.desc.rxCsum ∧ (∀ f ∈ rxFields p.desc, b <
    f.lo ∨ f.lo + f.w ≤ b) :=
  ⟨{ defaultParams with desc := { hmeGk with rxCsum := ⟨0, 8⟩ } }, 16383, 255, 8, by decide, by decide, by decide,
    by decide⟩

theorem witness_VisibilityStep_1 :
    ∃ (s : State) (pre post : List WbEntry) (e : WbEntry),
    Alive s ∧ s.wb = pre ++ e :: post ∧ (∀ w ∈ pre, w.addr ≠ e.addr) ∧ (∀ w ∈ s.wb, e.epoch ≤ w.epoch) :=
  ⟨{ bare with wb := [⟨0x10004, 0x8000#32, 0⟩, ⟨0x10000, 0xE0000040#32, 1⟩] }, [], [⟨0x10000, 0xE0000040#32, 1⟩],
    ⟨0x10004, 0x8000#32, 0⟩, ⟨rfl, rfl⟩, rfl, by decide, by decide⟩

theorem witness_VisibilityStep_2 :
    ∃ (s : State) (a : Nat),
    Alive s ∧ (∀ w ∈ s.wb, w.addr ≠ a) :=
  ⟨{ bare with wb := [⟨0x10004, 0x8000#32, 0⟩, ⟨0x10000, 0xE0000040#32, 1⟩] }, 0x10008, ⟨rfl, rfl⟩, by decide⟩

theorem witness_VisibilityStep_3 :
    ∃ (s : State) (pre post : List WbEntry) (e w : WbEntry),
    Alive s ∧ s.wb = pre ++ e :: post ∧ (∀ x ∈ pre, x.addr ≠ e.addr) ∧ w ∈ s.wb ∧ w.epoch < e.epoch :=
  ⟨{ bare with wb := [⟨0x10004, 0x8000#32, 0⟩, ⟨0x10000, 0xE0000040#32, 1⟩] }, [⟨0x10004, 0x8000#32, 0⟩], [],
    ⟨0x10000, 0xE0000040#32, 1⟩, ⟨0x10004, 0x8000#32, 0⟩, ⟨rfl, rfl⟩, rfl, by decide, .head _, by decide⟩

theorem witness_DevTxDoneClearsOwn_1 :
    ∃ (s : State) (base slot : Nat),
    Alive s ∧ s.tx.base = some base ∧ s.dev.txDmaOn = true ∧ slot < s.params.nTx ∧ deviceOwns s base slot = true ∧
    txOrderAllows s base slot = true :=
  ⟨inFlight 0xE0#8, 0x10000, 0, ⟨rfl, rfl⟩, rfl, rfl, by decide, by decide +kernel, by decide +kernel⟩

theorem witness_DevTxDoneClearsOwn_2 :
    ∃ (s : State) (base slot : Nat),
    Alive s ∧ s.tx.base = some base ∧ (s.dev.txDmaOn = false ∨ deviceOwns s base slot = false) :=
  ⟨inFlight 0x60#8, 0x10000, 0, ⟨rfl, rfl⟩, rfl, .inr (by decide +kernel)⟩

theorem witness_DevTxDoneClearsOwn_3 :
    ∃ (s : State),
    s.params.deviceTxOrder = .any :=
  ⟨live, rfl⟩

theorem witness_DevTxDoneClearsOwn_4 :
    ∃ (s : State) (base slot : Nat) (e : TxEntry),
    s.params.deviceTxOrder = .inOrder ∧ CursorsInRange s ∧ slot < s.params.nTx ∧ deviceOwns s base slot = true ∧ (∀ j,
    j < occupiedOf s.params.nTx slot s.tx.tail → deviceOwns s base ((s.tx.tail + j) % s.params.nTx) = false) ∧ mapGet
    s.tx.shadow slot = some e ∧ outstanding s slot = true ∧ (∀ f, mapGet s.tx.shadow ((slot + s.params.nTx - (e.frag -
    1)) % s.params.nTx) = some f → f.pkt = e.pkt → ∀ w ∈ s.wb, w.addr ≠ base + 8 * ((slot + s.params.nTx - (e.frag -
    1)) % s.params.nTx) + s.params.desc.flagsOffset) :=
  ⟨firstReclaimed, 0x10000, 0, ⟨0, 2, 9, 64, true, 128⟩, rfl, ⟨by decide, by decide, by decide⟩, by decide, by decide +kernel, (by
    intro j h
    cases h), rfl, by decide +kernel, (by
    intro f h
    cases h)⟩

theorem witness_DevTxDoneClearsOwn_5 :
    ∃ (s : State) (base slot j : Nat),
    Alive s ∧ s.params.deviceTxOrder = .inOrder ∧ CursorsInRange s ∧ s.tx.base = some base ∧ j < occupiedOf
    s.params.nTx slot s.tx.tail ∧ deviceOwns s base ((s.tx.tail + j) % s.params.nTx) = true :=
  ⟨{ firstReclaimed with mem := writeWord .little firstReclaimed.mem 0x10008 0x80000040#32 }, 0x10000, 1, 0, ⟨rfl,
    rfl⟩, rfl, ⟨by decide, by decide, by decide⟩, rfl, by decide, by decide +kernel⟩

theorem witness_DevTxDoneClearsOwn_6 :
    ∃ (s : State) (base slot : Nat) (e f : TxEntry) (w : WbEntry),
    Alive s ∧ s.params.deviceTxOrder = .inOrder ∧ s.tx.base = some base ∧ mapGet s.tx.shadow slot = some e ∧ mapGet
    s.tx.shadow ((slot + s.params.nTx - (e.frag - 1)) % s.params.nTx) = some f ∧ f.pkt = e.pkt ∧ deviceOwns s base
    ((slot + s.params.nTx - (e.frag - 1)) % s.params.nTx) = false ∧ w ∈ s.wb ∧ w.addr = base + 8 * ((slot +
    s.params.nTx - (e.frag - 1)) % s.params.nTx) + s.params.desc.flagsOffset :=
  ⟨{ firstReclaimed with
      tx := ⟨some 0x10000, 1, 7, [(0, ⟨0, 2, 9, 64, true, 128⟩), (7, ⟨0, 1, 8, 64, false, 128⟩)], false⟩
      wb := [⟨0x10038, 0xC0000040#32, 1⟩] }, 0x10000, 0, ⟨0, 2, 9, 64, true, 128⟩, ⟨0, 1, 8, 64, false, 128⟩, ⟨0x10038, 0xC0000040#32, 1⟩, ⟨rfl, rfl⟩, rfl, rfl, rfl, rfl, rfl, by decide +kernel, .head _, by decide⟩

theorem witness_DevRxDoneFillsTheBuffer_1 :
    ∃ (s : State) (base slot len buf csum : Nat) (bytes : List Byte) (rest : List (List Byte)),
    Alive s ∧ s.rx.base = some base ∧ s.dev.rxDmaOn = true ∧ slot < s.params.nRx ∧ deviceOwns s base slot = true ∧ len
    ≤ fieldMax s.params.desc.rxSize ∧ csum ≤ fieldMax s.params.desc.rxCsum ∧ s.draws.payload = bytes :: rest ∧ min len
    s.params.rxBufSize ≤ bytes.length ∧ bufAt s (deviceView s (base + 8 * slot + s.params.desc.addrOffset)).toNat =
    some buf :=
  ⟨{ live with draws := { live.draws with payload := [[5#8, 6#8]] } }, 0x11000, 3, 2, 103, 65535, [5#8, 6#8], [],
    ⟨rfl, rfl⟩, rfl, rfl, by decide, by decide +kernel, by decide, by decide, rfl, by decide, by decide +kernel⟩

theorem witness_DevRxDoneFillsTheBuffer_2 :
    ∃ (s : State) (base slot len csum : Nat),
    Alive s ∧ s.rx.base = some base ∧ s.dev.rxDmaOn = true ∧ slot < s.params.nRx ∧ deviceOwns s base slot = true ∧ len
    ≤ fieldMax s.params.desc.rxSize ∧ csum ≤ fieldMax s.params.desc.rxCsum ∧ bufAt s (deviceView s (base + 8 * slot +
    s.params.desc.addrOffset)).toNat = none :=
  ⟨{ live with liveMaps := [], draws := { live.draws with payload := [[5#8, 6#8]] } }, 0x11000, 3, 16383, 65535,
    ⟨rfl, rfl⟩, rfl, rfl, by decide, by decide +kernel, by decide, by decide, by decide +kernel⟩

theorem witness_DevRxDoneFillsTheBuffer_3 :
    ∃ (s : State) (base slot : Nat),
    Alive s ∧ s.rx.base = some base ∧ (s.dev.rxDmaOn = false ∨ deviceOwns s base slot = false) :=
  ⟨{ live with dev := { live.dev with txDmaOn := false, rxDmaOn := false } }, 0x11000, 3, ⟨rfl, rfl⟩, rfl, .inl rfl⟩

theorem witness_EnginesKeepToTheirDescriptors_1 : ∃ (s t : State) (slot : Nat), paramsValid s.params = true ∧ exec (.devTxDone slot) s = .next t := by
  obtain ⟨t, ht⟩ := next_of (o := exec (.devTxDone 0) (inFlight 0xE0#8)) (by decide +kernel)
  exact ⟨_, t, 0, by decide, ht⟩

theorem witness_EnginesKeepToTheirDescriptors_2 : ∃ (s t : State) (slot len : Nat) (ov : Bool) (csum : Nat),
    paramsValid s.params = true ∧ exec (.devRxDone slot len ov csum) s = .next t := by
  obtain ⟨t, ht⟩ := next_of (o := exec (.devRxDone 3 16383 true 65535) live) (by decide +kernel)
  exact ⟨_, t, 3, 16383, true, 65535, by decide, ht⟩

theorem witness_StatusAndDrainSteps_1 :
    ∃ (s : State) (bits : Word32),
    Alive s ∧ s.adapter ≠ .closed ∧ bits ≠ 0 :=
  ⟨{ live with adapter := .notReady }, 1#32, ⟨rfl, rfl⟩, by decide, by decide⟩

theorem witness_StatusAndDrainSteps_2 :
    ∃ (s : State) (bits : Word32),
    Alive s ∧ (s.adapter = .closed ∨ bits = 0) :=
  ⟨bare, 1#32, ⟨rfl, rfl⟩, .inl rfl⟩

theorem witness_StatusAndDrainSteps_3 :
    ∃ (s : State),
    Alive s ∧ getField ⟨s.params.mac.txEnable, 1⟩ s.dev.macTxcfg = 0 ∧ s.dev.macEnableSeen = true :=
  ⟨{ live with dev := { live.dev with macTxcfg := 0 } }, ⟨rfl, rfl⟩, by decide +kernel, rfl⟩

theorem witness_StatusAndDrainSteps_4 :
    ∃ (s : State),
    Alive s ∧ (getField ⟨s.params.mac.txEnable, 1⟩ s.dev.macTxcfg ≠ 0 ∨ s.dev.macEnableSeen = false) :=
  ⟨live, ⟨rfl, rfl⟩, .inl (by decide +kernel)⟩

theorem witness_NothingRunsAfterAFault :
    ∃ (s : State) (r : Fault),
    s.fault = some r :=
  ⟨{ bare with fault := some (.doubleUnmap 3) }, .doubleUnmap 3, rfl⟩

theorem witness_RingAllocGivesANeutralRing_1 :
    ∃ (r : Ring) (s : State) (base : Nat) (rest : List (Option Nat)),
    Alive s ∧ paramsValid s.params = true ∧ ringBase s r = none ∧ s.draws.ringMemory = some base :: rest ∧ BaseAllowed
    s.params r base ∧ (r = .tx → ∀ b, s.rx.base = some b → BasesApart s.params base b) ∧ (r = .rx → ∀ b, s.tx.base =
    some b → BasesApart s.params b base) ∧ r = .tx :=
  ⟨.tx, { State.create defaultParams with draws := ⟨[], [some 0x10000], [], [], [], [], [], []⟩ }, 0x10000, [],
    ⟨rfl, rfl⟩, by decide, rfl, rfl, ⟨by decide, by decide⟩, (fun _ _ h => by cases h), (fun h => by cases h), rfl⟩

theorem witness_RingAllocGivesANeutralRing_2 :
    ∃ (r : Ring) (s : State) (base : Nat) (rest : List (Option Nat)),
    Alive s ∧ paramsValid s.params = true ∧ ringBase s r = none ∧ s.draws.ringMemory = some base :: rest ∧ BaseAllowed
    s.params r base ∧ (r = .tx → ∀ b, s.rx.base = some b → BasesApart s.params base b) ∧ (r = .rx → ∀ b, s.tx.base =
    some b → BasesApart s.params b base) ∧ r = .rx :=
  ⟨.rx, { bare with rx := { bare.rx with base := none }, draws := ⟨[], [some 0x10040], [], [], [], [], [], []⟩ }, 0x10040, [], ⟨rfl, rfl⟩, by decide, rfl, rfl, ⟨by decide, by decide⟩, (fun h => by cases h), (by
    intro _ b h
    cases h
    exact Or.inl (by decide)), rfl⟩

theorem witness_RingAllocGivesANeutralRing_3 :
    ∃ (r : Ring) (s : State) (base : Nat) (rest : List (Option Nat)) (i : Nat),
    Alive s ∧ paramsValid s.params = true ∧ ringBase s r = none ∧ s.draws.ringMemory = some base :: rest ∧ BaseAllowed
    s.params r base ∧ (r = .tx → ∀ b, s.rx.base = some b → BasesApart s.params base b) ∧ (r = .rx → ∀ b, s.tx.base =
    some b → BasesApart s.params b base) ∧ i < capacity s.params r :=
  ⟨.tx, { State.create defaultParams with draws := ⟨[], [some 0x10000], [], [], [], [], [], []⟩ }, 0x10000, [], 7,
    ⟨rfl, rfl⟩, by decide, rfl, rfl, ⟨by decide, by decide⟩, (fun _ _ h => by cases h), (fun h => by cases h), by
    decide⟩

theorem witness_RingAllocGivesANeutralRing_4 :
    ∃ (r : Ring) (s : State) (base : Nat) (rest : List (Option Nat)) (a : Nat),
    Alive s ∧ paramsValid s.params = true ∧ ringBase s r = none ∧ s.draws.ringMemory = some base :: rest ∧ BaseAllowed
    s.params r base ∧ (r = .tx → ∀ b, s.rx.base = some b → BasesApart s.params base b) ∧ (r = .rx → ∀ b, s.tx.base =
    some b → BasesApart s.params b base) ∧ s.sched = [] ∧ (a < base ∨ base + 8 * capacity s.params r ≤ a) :=
  ⟨.tx, { State.create defaultParams with draws := ⟨[], [some 0x10000], [], [], [], [], [], []⟩ }, 0x10000, [],
    0x10040, ⟨rfl, rfl⟩, by decide, rfl, rfl, ⟨by decide, by decide⟩, (fun _ _ h => by cases h), (fun h => by cases
    h), rfl, .inr (by decide)⟩

theorem witness_RingAllocGivesANeutralRing_5 :
    ∃ (r : Ring) (s : State) (rest : List (Option Nat)),
    Alive s ∧ paramsValid s.params = true ∧ ringBase s r = none ∧ s.draws.ringMemory = none :: rest :=
  ⟨.rx, { State.create defaultParams with draws := ⟨[], [none], [], [], [], [], [], []⟩ }, [], ⟨rfl, rfl⟩, by
    decide, rfl, rfl⟩

theorem witness_RingAllocGivesANeutralRing_6 :
    ∃ (n : Nat) (s : State),
    Alive s ∧ ((¬∃ k, n = 2 ^ k) ∨ n < 2) :=
  ⟨6, bare, ⟨rfl, rfl⟩, .inl six_no_power⟩

theorem witness_RingAllocGivesANeutralRing_7 :
    ∃ (r : Ring) (s : State),
    Alive s ∧ paramsValid s.params = true ∧ (ringBase s r).isSome = true :=
  ⟨.tx, bare, ⟨rfl, rfl⟩, by decide, rfl⟩

theorem witness_RingNextFreeAnswers_1 :
    ∃ (s : State),
    Alive s ∧ (s.tx.head + s.params.nTx - s.tx.tail) % s.params.nTx = s.params.nTx - 1 :=
  ⟨{ bare with tx := { bare.tx with head := 0, tail := 1 } }, ⟨rfl, rfl⟩, by decide⟩

theorem witness_RingNextFreeAnswers_2 :
    ∃ (s : State),
    Alive s ∧ (s.tx.head + s.params.nTx - s.tx.tail) % s.params.nTx ≠ s.params.nTx - 1 :=
  ⟨{ bare with tx := { bare.tx with head := 6, tail := 0 } }, ⟨rfl, rfl⟩, by decide⟩

theorem witness_RingPublishWritesInOrder_1 :
    ∃ (f : Word32) (s : State),
    Alive s ∧ owned s.params.desc f = false :=
  ⟨0x60000040#32, live, ⟨rfl, rfl⟩, by decide +kernel⟩

theorem witness_RingPublishWritesInOrder_2 :
    ∃ (r : Ring) (slot base : Nat) (f : Word32) (s : State),
    Alive s ∧ paramsValid s.params = true ∧ LaidOut s ∧ ringBase s r = some base ∧ slot < capacity s.params r ∧ owned
    s.params.desc f = true ∧ hostSeesOwned (interleave s) base slot = true ∧ dmaOn s r = true :=
  ⟨.rx, 3, 0x11000, 0x86000000#32, live, ⟨rfl, rfl⟩, by decide, laidOut_vectors rfl rfl rfl, rfl, by decide,
    by decide +kernel, by decide +kernel, rfl⟩

theorem witness_RingPublishWritesInOrder_3 :
    ∃ (r : Ring) (slot base : Nat) (f : Word32) (s : State),
    Alive s ∧ paramsValid s.params = true ∧ LaidOut s ∧ (∀ w ∈ s.wb, w.addr % 4 = 0) ∧ ringBase s r = some base ∧ slot
    < capacity s.params r ∧ owned s.params.desc f = true ∧ (hostSeesOwned (interleave s) base slot = false ∨ dmaOn s r
    = false) :=
  ⟨.tx, 7, 0x10000, 0xE0000040#32, live, ⟨rfl, rfl⟩, by decide, laidOut_vectors rfl rfl rfl, noWrites rfl, rfl, by
    decide, by decide +kernel, .inl (by decide +kernel)⟩

theorem witness_RingTryReclaimReadsOnly_1 :
    ∃ (r : Ring) (slot base : Nat) (s : State) (f : Word32),
    Alive s ∧ paramsValid s.params = true ∧ LaidOut s ∧ ringBase s r = some base ∧ slot < capacity s.params r ∧ f =
    hostView (interleave s) (base + 8 * slot + s.params.desc.flagsOffset) ∧ owned s.params.desc f = true :=
  ⟨.rx, 3, 0x11000, live, _, ⟨rfl, rfl⟩, by decide, laidOut_vectors rfl rfl rfl, rfl, by decide, rfl,
    by decide +kernel⟩

theorem witness_RingTryReclaimReadsOnly_2 :
    ∃ (r : Ring) (slot base : Nat) (s : State) (f : Word32),
    Alive s ∧ paramsValid s.params = true ∧ LaidOut s ∧ ringBase s r = some base ∧ slot < capacity s.params r ∧ f =
    hostView (interleave s) (base + 8 * slot + s.params.desc.flagsOffset) ∧ owned s.params.desc f = false :=
  ⟨.tx, 7, 0x10000, live, _, ⟨rfl, rfl⟩, by decide, laidOut_vectors rfl rfl rfl, rfl, by decide, rfl,
    by decide +kernel⟩

theorem witness_RingResetEmptiesTheRing_1 :
    ∃ (r : Ring) (s : State),
    Alive s ∧ dmaOn s r = true :=
  ⟨.rx, live, ⟨rfl, rfl⟩, rfl⟩

theorem witness_RingResetEmptiesTheRing_2 :
    ∃ (r : Ring) (s : State) (base : Nat),
    Alive s ∧ RingsReady s ∧ dmaOn s r = false ∧ ringBase s r = some base ∧ r = .tx :=
  ⟨.tx, { live with dev := { live.dev with txDmaOn := false, rxDmaOn := false } }, 0x10000, ⟨rfl, rfl⟩,
    ringsReady_of rfl rfl rfl rfl (by decide +kernel) (by decide +kernel), rfl, rfl, rfl⟩

theorem witness_RingResetEmptiesTheRing_3 :
    ∃ (r : Ring) (s : State) (base : Nat),
    Alive s ∧ RingsReady s ∧ dmaOn s r = false ∧ ringBase s r = some base ∧ r = .rx :=
  ⟨.rx, { live with dev := { live.dev with txDmaOn := false, rxDmaOn := false } }, 0x11000, ⟨rfl, rfl⟩,
    ringsReady_of rfl rfl rfl rfl (by decide +kernel) (by decide +kernel), rfl, rfl, rfl⟩

theorem witness_RingResetEmptiesTheRing_4 :
    ∃ (r : Ring) (s : State) (base b : Nat),
    Alive s ∧ RingsReady s ∧ dmaOn s r = false ∧ ringBase s r = some base ∧ (∀ h m, mapGet s.liveMaps h = some m →
    m.buf ≠ b) ∧ ¬RingBuffer s b :=
  ⟨.rx, { live with dev := { live.dev with txDmaOn := false, rxDmaOn := false } }, 0x11000, 50, ⟨rfl, rfl⟩,
    ringsReady_of rfl rfl rfl rfl (by decide +kernel) (by decide +kernel), rfl, rfl, not_mapped (by decide +kernel),
    not_ringBuffer (by decide +kernel)⟩

theorem witness_RingResetEmptiesTheRing_5 :
    ∃ (r : Ring) (s : State) (base a : Nat),
    Alive s ∧ RingsReady s ∧ dmaOn s r = false ∧ ringBase s r = some base ∧ s.sched = [] ∧ a % 4 = 0 ∧ OutsideRing
    base (capacity s.params r) a :=
  ⟨.tx, { live with dev := { live.dev with txDmaOn := false, rxDmaOn := false } }, 0x10000, 0x11000, ⟨rfl, rfl⟩,
    ringsReady_of rfl rfl rfl rfl (by decide +kernel) (by decide +kernel), rfl, rfl, rfl, by decide, .inr (by decide)⟩

theorem witness_TransmitTurnsPacketsAway_1 :
    ∃ (s : State) (pkt : Packet),
    Ready s ∧ (pkt.frags.length < 1 ∨ s.params.kMax < pkt.frags.length) :=
  ⟨live, ⟨[⟨1, 64⟩, ⟨2, 64⟩, ⟨3, 64⟩, ⟨4, 64⟩], .none⟩, ⟨⟨rfl, rfl⟩, rfl⟩, .inr (by decide)⟩

theorem witness_TransmitTurnsPacketsAway_2 :
    ∃ (s : State) (pkt : Packet),
    Ready s ∧ 1 ≤ pkt.frags.length ∧ pkt.frags.length ≤ s.params.kMax ∧ (∃ f ∈ pkt.frags, f.len < 1 ∨ 2 ^
    s.params.desc.txSize.w - 1 < f.len) :=
  ⟨live, ⟨[⟨1, 16384⟩], .none⟩, ⟨⟨rfl, rfl⟩, rfl⟩, by decide, by decide, by decide⟩

theorem witness_TransmitTurnsPacketsAway_3 :
    ∃ (s : State) (pkt : Packet),
    Ready s ∧ 1 ≤ pkt.frags.length ∧ pkt.frags.length ≤ s.params.kMax ∧ (∀ f ∈ pkt.frags, 1 ≤ f.len ∧ f.len ≤ 2 ^
    s.params.desc.txSize.w - 1) ∧ (∃ start stuff, pkt.cs = .offsets start stuff ∧ (2 ^ s.params.desc.csStart.w - 1 <
    start ∨ 2 ^ s.params.desc.csStuff.w - 1 < stuff)) :=
  ⟨live, ⟨[⟨1, 16383⟩], .offsets 63 256⟩, ⟨⟨rfl, rfl⟩, rfl⟩, by decide, by decide, by decide, 63, 256, rfl, .inr (by
    decide)⟩

theorem witness_TransmitTurnsPacketsAway_4 :
    ∃ (s : State) (pkt : Packet),
    Ready s ∧ PacketValid s.params pkt ∧ (s.adapter ≠ .running ∨ s.tx.stopped = true ∨ freeSlots s < pkt.frags.length
    + 1) :=
  ⟨{ live with tx := { live.tx with head := 4 } }, ⟨[⟨1, 64⟩, ⟨2, 64⟩, ⟨3, 64⟩], .none⟩, ⟨⟨rfl, rfl⟩, rfl⟩, ⟨by
    decide, by decide, by decide, fun _ _ h => by cases h⟩, .inr (.inr (by decide +kernel))⟩

theorem witness_TransmitDropsOnMappingFailure :
    ∃ (s : State) (pkt : Packet) (maps : List (Nat × Nat)) (rest : List (Option (Nat × Nat))),
    Ready s ∧ PacketValid s.params pkt ∧ s.adapter = .running ∧ s.tx.stopped = false ∧ pkt.frags.length + 1 ≤
    freeSlots s ∧ mapWf s.liveMaps = true ∧ MappingsAllowed s maps ∧ maps.length < pkt.frags.length ∧ s.draws.dmaMap =
    maps.map some ++ none :: rest :=
  ⟨withMaps live [some (21, 0x31000), none], ⟨[⟨1, 100⟩, ⟨2, 200⟩, ⟨3, 16383⟩], .offsets 63 255⟩, [(21, 0x31000)], [], ⟨⟨rfl, rfl⟩, rfl⟩, ⟨by decide, by decide, by decide, fun a b h => by
    cases h
    decide⟩, rfl, rfl, by decide +kernel, by decide +kernel, ⟨by decide, by decide +kernel⟩, by decide, rfl⟩

theorem witness_TransmitPublishesInOrder_1 :
    ∃ (s : State) (base : Nat) (pkt : Packet) (maps : List (Nat × Nat)) (rest : List (Option (Nat × Nat))) (j : Nat),
    Ready s ∧ paramsValid s.params = true ∧ CursorsInRange s ∧ LaidOut s ∧ (∀ w ∈ s.wb, w.addr % 4 = 0) ∧ s.tx.base =
    some base ∧ PacketValid s.params pkt ∧ s.adapter = .running ∧ s.tx.stopped = false ∧ pkt.frags.length + 1 ≤
    freeSlots s ∧ (∀ j, j < pkt.frags.length → hostSeesOwned s base (fragmentSlot s j) = false) ∧ MappingsAllowed s
    maps ∧ maps.length = pkt.frags.length ∧ s.draws.dmaMap = maps.map some ++ rest ∧ j < pkt.frags.length :=
  ⟨withMaps { live with tx := { live.tx with head := 6, tail := 3 } } [some (21, 0x31000), some (22, 0x32000), some (23, 0xFFFFFFFC)], 0x10000, ⟨[⟨1, 100⟩, ⟨2, 200⟩, ⟨3, 16383⟩], .offsets 63 255⟩, [(21, 0x31000), (22, 0x32000), (23, 0xFFFFFFFC)], [], 2, ⟨⟨rfl, rfl⟩, rfl⟩, by decide, ⟨by decide, by decide, by decide⟩, laidOut_vectors rfl rfl rfl, noWrites rfl, rfl, ⟨by decide, by decide, by decide, fun a b h => by
    cases h
    decide⟩, rfl, rfl, by decide +kernel, by decide +kernel, ⟨by decide, by decide +kernel⟩, rfl, rfl, by decide⟩

theorem witness_TransmitPublishesInOrder_2 :
    ∃ (s : State) (base : Nat) (pkt : Packet) (maps : List (Nat × Nat)) (rest : List (Option (Nat × Nat))) (i : Nat),
    Ready s ∧ paramsValid s.params = true ∧ CursorsInRange s ∧ LaidOut s ∧ (∀ w ∈ s.wb, w.addr % 4 = 0) ∧ s.tx.base =
    some base ∧ PacketValid s.params pkt ∧ s.adapter = .running ∧ s.tx.stopped = false ∧ pkt.frags.length + 1 ≤
    freeSlots s ∧ (∀ j, j < pkt.frags.length → hostSeesOwned s base (fragmentSlot s j) = false) ∧ MappingsAllowed s
    maps ∧ maps.length = pkt.frags.length ∧ s.draws.dmaMap = maps.map some ++ rest ∧ (∀ j, j < pkt.frags.length → i ≠
    fragmentSlot s j) :=
  ⟨withMaps { live with tx := { live.tx with head := 6, tail := 3 } } [some (21, 0x31000), some (22, 0x32000), some (23, 0xFFFFFFFC)], 0x10000, ⟨[⟨1, 100⟩, ⟨2, 200⟩, ⟨3, 16383⟩], .offsets 63 255⟩, [(21, 0x31000), (22, 0x32000), (23, 0xFFFFFFFC)], [], 2, ⟨⟨rfl, rfl⟩, rfl⟩, by decide, ⟨by decide, by decide, by decide⟩, laidOut_vectors rfl rfl rfl, noWrites rfl, rfl, ⟨by decide, by decide, by decide, fun a b h => by
    cases h
    decide⟩, rfl, rfl, by decide +kernel, by decide +kernel, ⟨by decide, by decide +kernel⟩, rfl, rfl, by decide +kernel⟩

theorem witness_TransmitPublishesInOrder_3 :
    ∃ (s : State) (base : Nat) (pkt : Packet) (maps : List (Nat × Nat)) (rest : List (Option (Nat × Nat))) (a : Nat),
    Ready s ∧ paramsValid s.params = true ∧ CursorsInRange s ∧ LaidOut s ∧ (∀ w ∈ s.wb, w.addr % 4 = 0) ∧ s.tx.base =
    some base ∧ PacketValid s.params pkt ∧ s.adapter = .running ∧ s.tx.stopped = false ∧ pkt.frags.length + 1 ≤
    freeSlots s ∧ (∀ j, j < pkt.frags.length → hostSeesOwned s base (fragmentSlot s j) = false) ∧ MappingsAllowed s
    maps ∧ maps.length = pkt.frags.length ∧ s.draws.dmaMap = maps.map some ++ rest ∧ s.sched = [] ∧ a % 4 = 0 ∧ (∀ j,
    j < pkt.frags.length → a ≠ base + 8 * fragmentSlot s j + s.params.desc.flagsOffset ∧ a ≠ base + 8 * fragmentSlot s
    j + s.params.desc.addrOffset) :=
  ⟨withMaps { live with tx := { live.tx with head := 6, tail := 3 } } [some (21, 0x31000), some (22, 0x32000), some (23, 0xFFFFFFFC)], 0x10000, ⟨[⟨1, 100⟩, ⟨2, 200⟩, ⟨3, 16383⟩], .offsets 63 255⟩, [(21, 0x31000), (22, 0x32000), (23, 0xFFFFFFFC)], [], 0x10018, ⟨⟨rfl, rfl⟩, rfl⟩, by decide, ⟨by decide, by decide, by decide⟩, laidOut_vectors rfl rfl rfl, noWrites rfl, rfl, ⟨by decide, by decide, by decide, fun a b h => by
    cases h
    decide⟩, rfl, rfl, by decide +kernel, by decide +kernel, ⟨by decide, by decide +kernel⟩, rfl, rfl, rfl, by decide, by decide +kernel⟩

theorem witness_TxReclaimWalksInOrder :
    ∃ (s : State) (base : Nat) (entries : List TxEntry),
    Alive s ∧ paramsValid s.params = true ∧ s.sched = [] ∧ CursorsInRange s ∧ LaidOut s ∧ s.tx.base = some base ∧
    Reclaimable s base entries ∧ (entries.map (·.handle)).Nodup ∧ (∀ e ∈ entries, mapHas s.liveMaps e.handle = true) :=
  ⟨inFlight 0x60#8, 0x10000, [⟨0, 1, 9, 64, true, 64⟩], ⟨rfl, rfl⟩, by decide, rfl, ⟨by decide, by decide, by
    decide⟩, laidOut_vectors rfl rfl rfl, rfl, reclaimable_one (by decide +kernel) (by decide +kernel)
    (by decide +kernel), by decide, by decide +kernel⟩

theorem witness_RxPostAndRecycleGiveTheSlotAway_1 :
    ∃ (s : State) (base slot h buf da : Nat),
    Alive s ∧ paramsValid s.params = true ∧ LaidOut s ∧ (∀ w ∈ s.wb, w.addr % 4 = 0) ∧ s.rx.base = some base ∧ slot <
    s.params.nRx ∧ (hostSeesOwned s base slot = false ∨ s.dev.rxDmaOn = false) ∧ mapGet s.liveMaps h = some ⟨buf, da⟩ :=
  ⟨{ live with dev := { live.dev with txDmaOn := false, rxDmaOn := false } }, 0x11000, 3, 2, 102, 0x21000, ⟨rfl,
    rfl⟩, by decide, laidOut_vectors rfl rfl rfl, noWrites rfl, rfl, by decide, .inr rfl, rfl⟩

theorem witness_RxPostAndRecycleGiveTheSlotAway_2 :
    ∃ (s : State) (h : Nat),
    Alive s ∧ mapHas s.liveMaps h = false :=
  ⟨live, 4, ⟨rfl, rfl⟩, by decide +kernel⟩

theorem witness_RxPostAndRecycleGiveTheSlotAway_3 :
    ∃ (s : State) (base slot da : Nat) (e : RxEntry),
    Alive s ∧ paramsValid s.params = true ∧ LaidOut s ∧ (∀ w ∈ s.wb, w.addr % 4 = 0) ∧ s.rx.base = some base ∧ slot <
    s.params.nRx ∧ (hostSeesOwned s base slot = false ∨ s.dev.rxDmaOn = false) ∧ mapGet s.rx.shadow slot = some e ∧
    mapGet s.liveMaps e.handle = some ⟨e.buf, da⟩ :=
  ⟨received [(0x11002, 0x28#8)], 0x11000, 0, 0x20000, ⟨100, 0⟩, ⟨rfl, rfl⟩, by decide, laidOut_vectors rfl rfl rfl,
    noWrites rfl, rfl, by decide, .inl (by decide +kernel), rfl, rfl⟩

theorem witness_RxReclaimIdle :
    ∃ (s : State) (base : Nat),
    Alive s ∧ paramsValid s.params = true ∧ LaidOut s ∧ s.rx.base = some base ∧ s.rx.cursor < s.params.nRx ∧
    hostSeesOwned (interleave s) base s.rx.cursor = true :=
  ⟨live, 0x11000, ⟨rfl, rfl⟩, by decide, laidOut_vectors rfl rfl rfl, rfl, by decide, by decide +kernel⟩

theorem witness_RxDropsWhatItCannotDeliver_1 :
    ∃ (s : State) (base len da csum : Nat) (ov : Bool) (e : RxEntry),
    Alive s ∧ s.sched = [] ∧ OneCompleted s base len ov csum e da ∧ (len < s.params.rxMinFrame ∨ ov = true) :=
  ⟨received [(0x11002, 0x3B#8)], 0x11000, 59, 0x20000, 0, false, ⟨100, 0⟩, ⟨rfl, rfl⟩, rfl, completed_of rfl rfl rfl
    rfl (by decide +kernel), .inl (by decide)⟩

theorem witness_RxDropsWhatItCannotDeliver_2 :
    ∃ (s : State) (base len da csum : Nat) (e : RxEntry) (rest : List (Option Nat)),
    Alive s ∧ s.sched = [] ∧ OneCompleted s base len false csum e da ∧ s.params.rxMinFrame ≤ len ∧ len ≤
    s.params.rxBufSize ∧ s.draws.alloc = none :: rest :=
  ⟨withAllocs (received [(0x11002, 0x3C#8)]) [none], 0x11000, 60, 0x20000, 0, ⟨100, 0⟩, [], ⟨rfl, rfl⟩, rfl,
    completed_of rfl rfl rfl rfl (by decide +kernel), by decide, by decide, rfl⟩

theorem witness_RxDropsWhatItCannotDeliver_3 :
    ∃ (s : State) (base len da csum b : Nat) (e : RxEntry) (rest : List (Option Nat)) (rest' : List (Option (Nat ×
      Nat))),
    Alive s ∧ s.sched = [] ∧ OneCompleted s base len false csum e da ∧ s.params.rxMinFrame ≤ len ∧
    s.params.rxCopyThreshold < len ∧ len ≤ s.params.rxBufSize ∧ s.draws.alloc = some b :: rest ∧ mapHas s.liveBuffers
    b = false ∧ mapWf s.liveBuffers = true ∧ s.draws.dmaMap = none :: rest' :=
  ⟨withMaps (withAllocs (received [(0x11002, 0x01#8), (0x11003, 0x01#8)]) [some 7]) [none], 0x11000, 257, 0x20000,
    0, 7, ⟨100, 0⟩, [], [], ⟨rfl, rfl⟩, rfl, completed_of rfl rfl rfl rfl (by decide +kernel), by decide, by decide,
    by decide, rfl, by decide +kernel, by decide +kernel, rfl⟩

theorem witness_RxCopiesSmallPacketsOut :
    ∃ (s : State) (base len da csum b : Nat) (e : RxEntry) (rest : List (Option Nat)) (x : Nat),
    Alive s ∧ s.sched = [] ∧ OneCompleted s base len false csum e da ∧ s.params.rxMinFrame ≤ len ∧ len ≤
    s.params.rxCopyThreshold ∧ len ≤ s.params.rxBufSize ∧ s.draws.alloc = some b :: rest ∧ mapHas s.liveBuffers b =
    false ∧ b ≠ e.buf ∧ mapWf s.liveBuffers = true ∧ x ≠ b ∧ x ≠ e.buf :=
  ⟨withAllocs (received [(0x11000, 0xAA#8), (0x11003, 0x01#8)]) [some 7], 0x11000, 256, 0x20000, 0xAA, 7, ⟨100, 0⟩,
    [], 101, ⟨rfl, rfl⟩, rfl, completed_of rfl rfl rfl rfl (by decide +kernel), by decide, by decide, by decide, rfl,
    by decide +kernel, by decide, by decide +kernel, by decide, by decide⟩

theorem witness_RxHandsLargePacketsUp :
    ∃ (s : State) (base len da csum b h da' : Nat) (e : RxEntry) (rest : List (Option Nat)) (rest' : List (Option (Nat
      × Nat))),
    Alive s ∧ s.sched = [] ∧ OneCompleted s base len false csum e da ∧ s.params.rxMinFrame ≤ len ∧
    s.params.rxCopyThreshold < len ∧ len ≤ s.params.rxBufSize ∧ s.draws.alloc = some b :: rest ∧ mapHas s.liveBuffers
    b = false ∧ s.draws.dmaMap = some (h, da') :: rest' ∧ MappingsAllowed s [(h, da')] :=
  ⟨withMaps (withAllocs (received [(0x11003, 0x06#8)]) [some 7]) [some (9, 0x30000)], 0x11000, 1536, 0x20000, 0, 7,
    9, 0x30000, ⟨100, 0⟩, [], [], ⟨rfl, rfl⟩, rfl, completed_of rfl rfl rfl rfl (by decide +kernel), by decide, by
    decide, by decide, rfl, by decide +kernel, rfl, ⟨by decide, by decide +kernel⟩⟩

theorem witness_RxFaultsOnOversize :
    ∃ (s : State) (base len da csum : Nat) (e : RxEntry),
    Alive s ∧ s.sched = [] ∧ OneCompleted s base len false csum e da ∧ s.params.rxBufSize < len :=
  ⟨received [(0x11002, 0x01#8), (0x11003, 0x06#8)], 0x11000, 1537, 0x20000, 0, ⟨100, 0⟩, ⟨rfl, rfl⟩, rfl,
    completed_of rfl rfl rfl rfl (by decide +kernel), by decide⟩

theorem witness_RxWalkAccounts : ∃ (s t : State) (i : Nat), Alive s ∧ paramsValid s.params = true ∧ s.rx.cursor < s.params.nRx ∧
    exec .rxReclaim s = .next t ∧ t.fault = none ∧ mapHas s.rx.shadow i = true := by
  obtain ⟨t, ht, hf⟩ := next_with (o := exec .rxReclaim (received [(0x11002, 0x28#8)])) (f := (·.fault)) (v := none)
    (by decide +kernel)
  exact ⟨_, t, 3, ⟨rfl, rfl⟩, by decide, by decide, ht, hf, by decide +kernel⟩

theorem witness_LinkForceEntersForcedMode :
    ∃ (s : State),
    Alive s :=
  ⟨bare, ⟨rfl, rfl⟩⟩

theorem witness_LinkBeginStartsNegotiation_1 :
    ∃ (s : State),
    Alive s ∧ s.link.state ≠ .idle :=
  ⟨live, ⟨rfl, rfl⟩, by decide⟩

theorem witness_LinkBeginStartsNegotiation_2 :
    ∃ (s : State) (p : Fin 4),
    Alive s ∧ s.link.state = .idle ∧ s.link.autoneg = false ∧ permMode p = ⟨s.link.speedReq, s.link.duplexReq⟩ :=
  ⟨{ live with link := ⟨.idle, 0, false, .s10, .half, 0, none, false⟩ }, 3, ⟨rfl, rfl⟩, rfl, rfl, rfl⟩

theorem witness_LinkBeginStartsNegotiation_3 :
    ∃ (s : State) (nacks rest : List Word32) (v : Word32),
    Alive s ∧ s.link.state = .idle ∧ s.link.autoneg = true ∧ s.draws.mgmtRead = nacks ++ v :: rest ∧ nacks.length <
    s.params.anRestartPollBudget ∧ (∀ x ∈ nacks, restartAcked s.params.mgmt (mgmtTrunc s.params.mgmt x) = false) ∧
    restartAcked s.params.mgmt (mgmtTrunc s.params.mgmt v) = true :=
  ⟨withReads (linked live .idle 3 2) [0x1200#32, 0x0000#32], [0x1200#32], [], 0x0000#32, ⟨rfl, rfl⟩, rfl, rfl, rfl,
    by decide, none_of (by decide +kernel), by decide +kernel⟩

theorem witness_LinkBeginStartsNegotiation_4 :
    ∃ (s : State) (nacks rest : List Word32),
    Alive s ∧ s.link.state = .idle ∧ s.link.autoneg = true ∧ s.draws.mgmtRead = nacks ++ rest ∧ nacks.length =
    s.params.anRestartPollBudget ∧ (∀ x ∈ nacks, restartAcked s.params.mgmt (mgmtTrunc s.params.mgmt x) = false) :=
  ⟨withReads (linked live .idle 3 2) [0x1200#32, 0x1200#32], [0x1200#32, 0x1200#32], [], ⟨rfl, rfl⟩, rfl, rfl, rfl,
    rfl, none_of (by decide +kernel)⟩

theorem witness_LinkCommitIsAllOrNothing_1 :
    ∃ (s : State),
    Alive s ∧ paramsValid s.params = true :=
  ⟨live, ⟨rfl, rfl⟩, by decide⟩

theorem witness_LinkCommitIsAllOrNothing_2 :
    ∃ (s : State) (v : Word32),
    Alive s ∧ paramsValid s.params = true ∧ s.sched = [] ∧ s.wb = [] ∧ s.dev.macEnableSeen = false ∧ v = putBit
    s.params.mac.txEnable s.dev.macTxcfg false :=
  ⟨{ live with dev := { live.dev with macTxcfg := 0, macEnableSeen := false } }, 0#32, ⟨rfl, rfl⟩, by decide, rfl,
    rfl, rfl, by decide +kernel⟩

theorem witness_LinkCommitIsAllOrNothing_3 :
    ∃ (s : State) (v : Word32),
    Alive s ∧ paramsValid s.params = true ∧ s.sched = [] ∧ s.wb = [] ∧ s.dev.macEnableSeen = true ∧ v = putBit
    s.params.mac.txEnable s.dev.macTxcfg true :=
  ⟨live, 1#32, ⟨rfl, rfl⟩, by decide, rfl, rfl, rfl, by decide +kernel⟩

theorem witness_ArbitrationTickWaitsOrFallsThrough_1 :
    ∃ (s : State) (v : Word32) (rest : List Word32),
    Ready s ∧ s.adapter = .running ∧ s.link.state = .arbitrationWait ∧ s.draws.mgmtRead = v :: rest ∧ anComplete
    s.params.mgmt (mgmtTrunc s.params.mgmt v) = false ∧ s.link.tick + 1 < s.params.arbTicks :=
  ⟨withReads (linked live .arbitrationWait 8 0) [0#32], 0#32, [], ⟨⟨rfl, rfl⟩, rfl⟩, rfl, rfl, rfl,
    by decide +kernel, by decide⟩

theorem witness_ArbitrationTickWaitsOrFallsThrough_2 :
    ∃ (s : State) (v : Word32) (rest : List Word32),
    Ready s ∧ s.adapter = .running ∧ s.link.state = .arbitrationWait ∧ s.draws.mgmtRead = v :: rest ∧ anComplete
    s.params.mgmt (mgmtTrunc s.params.mgmt v) = false ∧ s.params.arbTicks ≤ s.link.tick + 1 :=
  ⟨withReads (linked live .arbitrationWait 9 0) [0#32], 0#32, [], ⟨⟨rfl, rfl⟩, rfl⟩, rfl, rfl, rfl,
    by decide +kernel, by decide⟩

theorem witness_ArbitrationTickWaitsOrFallsThrough_3 :
    ∃ (s : State) (v pv : Word32) (rest : List Word32),
    Ready s ∧ s.adapter = .running ∧ s.link.state = .arbitrationWait ∧ s.draws.mgmtRead = v :: pv :: rest ∧ anComplete
    s.params.mgmt (mgmtTrunc s.params.mgmt v) = true ∧ (∀ m ∈ s.params.advertised, partnerHas s.params.mgmt (mgmtTrunc
    s.params.mgmt pv) m = false) :=
  ⟨withReads live [0x0020#32, 0x0001#32], 0x0020#32, 0x0001#32, [], ⟨⟨rfl, rfl⟩, rfl⟩, rfl, rfl, rfl,
    by decide +kernel, by decide +kernel⟩

theorem witness_ArbitrationTickCommitsTheBestMode :
    ∃ (s : State) (v pv : Word32) (rest : List Word32) (p : Fin 4),
    Ready s ∧ paramsValid s.params = true ∧ s.adapter = .running ∧ s.link.state = .arbitrationWait ∧ s.draws.mgmtRead
    = v :: pv :: rest ∧ anComplete s.params.mgmt (mgmtTrunc s.params.mgmt v) = true ∧ permMode p ∈ s.params.advertised
    ∧ partnerHas s.params.mgmt (mgmtTrunc s.params.mgmt pv) (permMode p) = true ∧ (∀ q, q < p → permMode q ∈
    s.params.advertised → partnerHas s.params.mgmt (mgmtTrunc s.params.mgmt pv) (permMode q) = false) ∧ s.sched = [] ∧
    s.dev.macEnableSeen = false :=
  ⟨withReads { live with dev := { live.dev with macTxcfg := 0, macEnableSeen := false } } [0x0020#32, 0x00C1#32],
    0x0020#32, 0x00C1#32, [], 1, ⟨⟨rfl, rfl⟩, rfl⟩, by decide, rfl, rfl, rfl, by decide +kernel, by decide,
    by decide +kernel, by decide +kernel, rfl, rfl⟩

theorem witness_LinkUpTickReportsOrWaits_1 :
    ∃ (s : State),
    Ready s ∧ (s.adapter = .closed ∨ s.adapter = .running ∧ (s.link.state = .idle ∨ s.link.state = .asleep)) :=
  ⟨linked live .asleep 3 0, ⟨⟨rfl, rfl⟩, rfl⟩, .inr ⟨rfl, .inr rfl⟩⟩

theorem witness_LinkUpTickReportsOrWaits_2 :
    ∃ (s : State) (v : Word32) (rest : List Word32),
    Ready s ∧ s.adapter = .running ∧ s.link.state = .linkUpWait ∧ s.draws.mgmtRead = v :: rest ∧ linkOk s.params.mgmt
    (mgmtTrunc s.params.mgmt v) = true :=
  ⟨withReads (linked live .linkUpWait 0 0) [0x0004#32], 0x0004#32, [], ⟨⟨rfl, rfl⟩, rfl⟩, rfl, rfl, rfl,
    by decide +kernel⟩

theorem witness_LinkUpTickReportsOrWaits_3 :
    ∃ (s : State) (v : Word32) (rest : List Word32),
    Ready s ∧ s.adapter = .running ∧ s.link.state = .linkUpWait ∧ s.draws.mgmtRead = v :: rest ∧ linkOk s.params.mgmt
    (mgmtTrunc s.params.mgmt v) = false ∧ s.link.tick + 1 < s.params.lupDiagTicks :=
  ⟨withReads (linked live .linkUpWait 8 0) [0#32], 0#32, [], ⟨⟨rfl, rfl⟩, rfl⟩, rfl, rfl, rfl, by decide +kernel, by
    decide⟩

theorem witness_LinkUpTickReportsOrWaits_4 :
    ∃ (s : State) (v : Word32) (rest : List Word32),
    Ready s ∧ s.adapter = .running ∧ s.link.state = .linkUpWait ∧ s.draws.mgmtRead = v :: rest ∧ linkOk s.params.mgmt
    (mgmtTrunc s.params.mgmt v) = false ∧ s.params.lupDiagTicks ≤ s.link.tick + 1 :=
  ⟨withReads (linked live .linkUpWait 9 0) [0#32], 0#32, [], ⟨⟨rfl, rfl⟩, rfl⟩, rfl, rfl, rfl, by decide +kernel, by
    decide⟩

theorem witness_ForcedTickSettlesThenSteps_1 :
    ∃ (s : State) (v : Word32) (rest : List Word32) (disable : Bool),
    Ready s ∧ s.adapter = .running ∧ s.link.state = .forcedTryWait ∧ s.draws.mgmtRead = v :: rest ∧ (disable = true →
    s.link.tick + 1 = s.params.ftwSettleOffTick) ∧ (disable = false → s.link.tick + 1 ≠ s.params.ftwSettleOffTick ∧
    s.link.tick + 1 = s.params.ftwSettleOnTick) :=
  ⟨withReads (linked live .forcedTryWait 0 0) [0#32], 0#32, [], true, ⟨⟨rfl, rfl⟩, rfl⟩, rfl, rfl, rfl, fun _ =>
    rfl, fun h => by cases h⟩

theorem witness_ForcedTickSettlesThenSteps_2 :
    ∃ (s : State) (v : Word32) (rest : List Word32),
    Ready s ∧ s.adapter = .running ∧ s.link.state = .forcedTryWait ∧ s.draws.mgmtRead = v :: rest ∧ s.link.tick + 1 ≠
    s.params.ftwSettleOffTick ∧ s.link.tick + 1 ≠ s.params.ftwSettleOnTick ∧ linkOk s.params.mgmt (mgmtTrunc
    s.params.mgmt v) = false ∧ s.link.tick + 1 < s.params.ftwLimitTick :=
  ⟨withReads (linked live .forcedTryWait 2 0) [0#32], 0#32, [], ⟨⟨rfl, rfl⟩, rfl⟩, rfl, rfl, rfl, by decide, by
    decide, by decide +kernel, by decide⟩

theorem witness_ForcedTickSettlesThenSteps_3 :
    ∃ (s : State) (v : Word32) (rest : List Word32) (p : Fin 4),
    Ready s ∧ s.adapter = .running ∧ s.link.state = .forcedTryWait ∧ s.draws.mgmtRead = v :: rest ∧ s.link.tick + 1 ≠
    s.params.ftwSettleOffTick ∧ s.link.tick + 1 ≠ s.params.ftwSettleOnTick ∧ linkOk s.params.mgmt (mgmtTrunc
    s.params.mgmt v) = false ∧ s.params.ftwLimitTick ≤ s.link.tick + 1 ∧ p.val = s.link.perm.val + 1 :=
  ⟨withReads (linked live .forcedTryWait 3 2) [0#32], 0#32, [], 3, ⟨⟨rfl, rfl⟩, rfl⟩, rfl, rfl, rfl, by decide, by
    decide, by decide +kernel, by decide, rfl⟩

theorem witness_ForcedTickReportsTheMode :
    ∃ (s : State) (v : Word32) (rest : List Word32),
    Ready s ∧ paramsValid s.params = true ∧ s.adapter = .running ∧ s.link.state = .forcedTryWait ∧ s.draws.mgmtRead =
    v :: rest ∧ s.link.tick + 1 ≠ s.params.ftwSettleOffTick ∧ s.link.tick + 1 ≠ s.params.ftwSettleOnTick ∧ linkOk
    s.params.mgmt (mgmtTrunc s.params.mgmt v) = true ∧ s.sched = [] ∧ s.dev.macEnableSeen = false :=
  ⟨withReads { linked live .forcedTryWait 2 1 with dev := { live.dev with macEnableSeen := false } } [0x0004#32],
    0x0004#32, [], ⟨⟨rfl, rfl⟩, rfl⟩, by decide, rfl, rfl, rfl, by decide, by decide, by decide +kernel, rfl, rfl⟩

theorem witness_TickRunsTheReset_1 :
    ∃ (s : State),
    Ready s ∧ RingsReady s ∧ s.adapter = .notReady :=
  ⟨{ live with adapter := .notReady, link := { live.link with state := .idle } }, ⟨⟨rfl, rfl⟩, rfl⟩, ringsReady_of
    rfl rfl rfl rfl (by decide +kernel) (by decide +kernel), rfl⟩

theorem witness_TickRunsTheReset_2 :
    ∃ (s : State) (v : Word32) (rest : List Word32),
    Ready s ∧ RingsReady s ∧ s.adapter = .running ∧ s.link.state = .forcedTryWait ∧ s.draws.mgmtRead = v :: rest ∧
    s.link.tick + 1 ≠ s.params.ftwSettleOffTick ∧ s.link.tick + 1 ≠ s.params.ftwSettleOnTick ∧ linkOk s.params.mgmt
    (mgmtTrunc s.params.mgmt v) = false ∧ s.params.ftwLimitTick ≤ s.link.tick + 1 ∧ s.link.perm = 3 :=
  ⟨withReads (linked live .forcedTryWait 3 3) [0#32], 0#32, [], ⟨⟨rfl, rfl⟩, rfl⟩, ringsReady_of rfl rfl rfl rfl
    (by decide +kernel) (by decide +kernel), rfl, rfl, rfl, by decide, by decide, by decide +kernel, by decide, rfl⟩

theorem witness_ReconfigureValidatesThenRestarts_1 :
    ∃ (s : State) (an : AutonegArg) (sp : Nat) (dx : DuplexArg),
    Ready s ∧ (an = .other ∨ an = .disabled ∧ (sp ≠ 10 ∧ sp ≠ 100 ∨ dx = .other)) :=
  ⟨bare, .disabled, 1000, .full, ⟨⟨rfl, rfl⟩, rfl⟩, .inr ⟨rfl, .inl ⟨by decide, by decide⟩⟩⟩

theorem witness_ReconfigureValidatesThenRestarts_2 :
    ∃ (s : State) (an : AutonegArg) (sp : Nat) (dx : DuplexArg),
    Ready s ∧ (an = .enabled ∨ an = .disabled ∧ (sp = 10 ∨ sp = 100) ∧ dx ≠ .other) ∧ s.adapter ≠ .running :=
  ⟨bare, .disabled, 10, .half, ⟨⟨rfl, rfl⟩, rfl⟩, .inr ⟨rfl, .inl rfl, by decide⟩, by decide⟩

theorem witness_ReconfigureValidatesThenRestarts_3 :
    ∃ (s : State),
    Ready s ∧ s.adapter = .running :=
  ⟨live, ⟨⟨rfl, rfl⟩, rfl⟩, rfl⟩

theorem witness_ReconfigureValidatesThenRestarts_4 :
    ∃ (s : State) (nacks rest : List Word32) (v : Word32),
    Ready s ∧ s.adapter = .running ∧ s.draws.mgmtRead = nacks ++ v :: rest ∧ nacks.length <
    s.params.anRestartPollBudget ∧ (∀ x ∈ nacks, restartAcked s.params.mgmt (mgmtTrunc s.params.mgmt x) = false) ∧
    restartAcked s.params.mgmt (mgmtTrunc s.params.mgmt v) = true :=
  ⟨withReads live [0x1200#32, 0x0000#32], [0x1200#32], [], 0x0000#32, ⟨⟨rfl, rfl⟩, rfl⟩, rfl, rfl, by decide,
    none_of (by decide +kernel), by decide +kernel⟩

theorem witness_ReconfigureValidatesThenRestarts_5 :
    ∃ (s : State) (nacks rest : List Word32),
    Ready s ∧ s.adapter = .running ∧ s.draws.mgmtRead = nacks ++ rest ∧ nacks.length = s.params.anRestartPollBudget ∧
    (∀ x ∈ nacks, restartAcked s.params.mgmt (mgmtTrunc s.params.mgmt x) = false) :=
  ⟨withReads live [0x1200#32, 0x1200#32], [0x1200#32, 0x1200#32], [], ⟨⟨rfl, rfl⟩, rfl⟩, rfl, rfl, rfl, none_of
    (by decide +kernel)⟩

theorem witness_TimerFireDisarmsThenTicks_1 :
    ∃ (s : State),
    Alive s ∧ s.timerArmed = false :=
  ⟨bare, ⟨rfl, rfl⟩, rfl⟩

theorem witness_TimerFireDisarmsThenTicks_2 :
    ∃ (s : State),
    Ready s ∧ s.timerArmed = true :=
  ⟨live, ⟨⟨rfl, rfl⟩, rfl⟩, rfl⟩

theorem witness_TimerFireDisarmsThenTicks_3 :
    ∃ (s : State) (v : Word32) (rest : List Word32),
    Ready s ∧ s.timerArmed = true ∧ s.adapter = .running ∧ s.link.state = .linkUpWait ∧ s.draws.mgmtRead = v :: rest ∧
    linkOk s.params.mgmt (mgmtTrunc s.params.mgmt v) = true :=
  ⟨withReads (linked live .linkUpWait 9 0) [0x0004#32], 0x0004#32, [], ⟨⟨rfl, rfl⟩, rfl⟩, rfl, rfl, rfl, rfl,
    by decide +kernel⟩

theorem witness_IrqWithNothingToDo_1 :
    ∃ (s : State),
    Alive s ∧ s.irqAcquired = false :=
  ⟨bare, ⟨rfl, rfl⟩, rfl⟩

theorem witness_IrqWithNothingToDo_2 :
    ∃ (s u : State),
    Ready s ∧ s.irqAcquired = true ∧ u = interleave s ∧ u.dev.status = 0 :=
  ⟨live, _, ⟨⟨rfl, rfl⟩, rfl⟩, rfl, rfl, by decide +kernel⟩

theorem witness_IrqWithNothingToDo_3 :
    ∃ (s u : State),
    Ready s ∧ s.irqAcquired = true ∧ u = interleave s ∧ u.dev.status ≠ 0 ∧ (s.adapter ≠ .running ∨ isFatal
    s.params.status u.dev.status = false ∧ isTxDone s.params.status u.dev.status = false ∧ isRxDone s.params.status
    u.dev.status = false) :=
  ⟨{ live with dev := { live.dev with status := 0x00000100#32 } }, _, ⟨⟨rfl, rfl⟩, rfl⟩, rfl, rfl,
    by decide +kernel, .inr ⟨by decide +kernel, by decide +kernel, by decide +kernel⟩⟩

theorem witness_IrqFatalDominates :
    ∃ (s : State),
    Ready s ∧ RingsReady s ∧ s.irqAcquired = true ∧ s.adapter = .running ∧ isFatal s.params.status s.dev.status = true :=
  ⟨{ live with dev := { live.dev with status := 0x02000004#32 } }, ⟨⟨rfl, rfl⟩, rfl⟩, ringsReady_of rfl rfl rfl rfl
    (by decide +kernel) (by decide +kernel), rfl, rfl, by decide +kernel⟩

theorem witness_IrqReclaimsThenReceives_1 :
    ∃ (s : State) (base : Nat) (entries : List TxEntry),
    Ready s ∧ s.irqAcquired = true ∧ s.adapter = .running ∧ paramsValid s.params = true ∧ s.sched = [] ∧
    CursorsInRange s ∧ LaidOut s ∧ s.tx.base = some base ∧ Reclaimable s base entries ∧ (entries.map (·.handle)).Nodup
    ∧ (∀ e ∈ entries, mapHas s.liveMaps e.handle = true) ∧ isFatal s.params.status s.dev.status = false ∧ isTxDone
    s.params.status s.dev.status = true ∧ isRxDone s.params.status s.dev.status = false :=
  ⟨{ inFlight 0x60#8 with dev := { live.dev with status := 0x02000000#32 } }, 0x10000, [⟨0, 1, 9, 64, true, 64⟩],
    ⟨⟨rfl, rfl⟩, rfl⟩, rfl, rfl, by decide, rfl, ⟨by decide, by decide, by decide⟩, laidOut_vectors rfl rfl rfl, rfl,
    reclaimable_one (by decide +kernel) (by decide +kernel) (by decide +kernel), by decide, by decide +kernel,
    by decide +kernel, by decide +kernel, by decide +kernel⟩

theorem witness_IrqReclaimsThenReceives_2 :
    ∃ (s : State) (base len da csum : Nat) (ov : Bool) (e : RxEntry),
    Ready s ∧ s.irqAcquired = true ∧ s.adapter = .running ∧ s.sched = [] ∧ OneCompleted s base len ov csum e da ∧ (len
    < s.params.rxMinFrame ∨ ov = true) ∧ isFatal s.params.status s.dev.status = false ∧ isTxDone s.params.status
    s.dev.status = false ∧ isRxDone s.params.status s.dev.status = true :=
  ⟨{ received [(0x11002, 0x3B#8)] with dev := { live.dev with status := 0x00010000#32 } }, 0x11000, 59, 0x20000, 0,
    false, ⟨100, 0⟩, ⟨⟨rfl, rfl⟩, rfl⟩, rfl, rfl, rfl, completed_of rfl rfl rfl rfl (by decide +kernel), .inl (by
    decide), by decide +kernel, by decide +kernel, by decide +kernel⟩

theorem witness_IrqReclaimsThenReceives_3 :
    ∃ (s : State) (base rbase len da csum : Nat) (ov : Bool) (e : RxEntry) (entries : List TxEntry),
    Ready s ∧ s.irqAcquired = true ∧ s.adapter = .running ∧ s.sched = [] ∧ CursorsInRange s ∧ s.tx.base = some base ∧
    Reclaimable s base entries ∧ (entries.map (·.handle)).Nodup ∧ (∀ x ∈ entries, mapHas s.liveMaps x.handle = true ∧
    x.handle ≠ e.handle) ∧ OneCompleted s rbase len ov csum e da ∧ (len < s.params.rxMinFrame ∨ ov = true) ∧ isFatal
    s.params.status s.dev.status = false ∧ isTxDone s.params.status s.dev.status = true ∧ isRxDone s.params.status
    s.dev.status = true :=
  ⟨{ inFlight 0x60#8 with
      dev := { live.dev with status := 0x02010000#32 }
      mem := [(0x10000, 0x40#8), (0x10003, 0x60#8), (0x10006, 0x03#8), (0x11002, 0x28#8)] ++ postedMem.tail }, 0x10000, 0x11000, 40, 0x20000, 0, false, ⟨100, 0⟩, [⟨0, 1, 9, 64, true, 64⟩], ⟨⟨rfl, rfl⟩, rfl⟩, rfl, rfl, rfl, ⟨by decide, by decide, by decide⟩, rfl, reclaimable_one (by decide +kernel) (by decide +kernel) (by decide +kernel), by decide, by decide +kernel, completed_of rfl rfl rfl rfl (by decide +kernel), .inl (by decide), by decide +kernel, by decide +kernel, by decide +kernel⟩

theorem witness_OpenIsAllOrNothing_1 :
    ∃ (s : State),
    Ready s ∧ s.adapter ≠ .closed :=
  ⟨live, ⟨⟨rfl, rfl⟩, rfl⟩, by decide⟩

theorem witness_OpenIsAllOrNothing_2 :
    ∃ (s : State) (rest : List Bool),
    Ready s ∧ s.adapter = .closed ∧ s.draws.irqAcquire = false :: rest :=
  ⟨{ bare with draws := ⟨[false], [], [], [], [], [], [], []⟩ }, [], ⟨⟨rfl, rfl⟩, rfl⟩, rfl, rfl⟩

theorem witness_OpenIsAllOrNothing_3 :
    ∃ (s : State) (rest : List Bool) (o : OpOutcome),
    Ready s ∧ RingsReady s ∧ s.adapter = .closed ∧ s.draws.irqAcquire = true :: rest ∧ DrawsDecide s o :=
  ⟨drawn [some 1, some 2, some 3, some 4] refillMaps [true], [], .ok, ⟨⟨rfl, rfl⟩, rfl⟩, ringsReady_of rfl rfl rfl
    rfl (by decide +kernel) (by decide +kernel), rfl, rfl, decides (bufs := [1, 2, 3, 4]) (maps := [(11, 0x20000),
    (12, 0x20800), (13, 0x21000), (14, 0xFFFFFFFC)]) (as := []) (ms := []) rfl rfl ⟨by decide, fun _ _ h =>
    Bool.noConfusion h, by decide, by decide⟩ (.inl ⟨rfl, rfl, .inl ⟨rfl, rfl⟩⟩)⟩

theorem witness_CloseTearsDown_1 :
    ∃ (s : State),
    Ready s ∧ s.adapter = .closed :=
  ⟨bare, ⟨⟨rfl, rfl⟩, rfl⟩, rfl⟩

theorem witness_CloseTearsDown_2 : ∃ s : State, Ready s ∧ RingsReady s ∧ s.adapter ≠ .closed :=
  ⟨inFlight 0xE0#8, ⟨⟨rfl, rfl⟩, rfl⟩, ringsReady_of rfl rfl rfl rfl (by decide +kernel) (by decide +kernel), by decide⟩

theorem witness_TimeoutRunsTheReset_1 :
    ∃ (s : State),
    Ready s ∧ s.adapter = .closed :=
  ⟨bare, ⟨⟨rfl, rfl⟩, rfl⟩, rfl⟩

theorem witness_TimeoutRunsTheReset_2 :
    ∃ (s : State),
    Alive s ∧ s.adapter = .closed :=
  ⟨bare, ⟨rfl, rfl⟩, rfl⟩

theorem witness_TimeoutRunsTheReset_3 :
    ∃ (i : Instr) (s : State),
    (i = .txTimeout ∨ i = .watchdogFire) ∧ Ready s ∧ RingsReady s ∧ s.adapter ≠ .closed :=
  ⟨.watchdogFire, inFlight 0xE0#8, .inr rfl, ⟨⟨rfl, rfl⟩, rfl⟩, ringsReady_of rfl rfl rfl rfl (by decide +kernel)
    (by decide +kernel), by decide⟩

theorem witness_SetMcastProgramsTheFilter_1 :
    ∃ (s : State),
    Ready s ∧ s.adapter = .closed :=
  ⟨bare, ⟨⟨rfl, rfl⟩, rfl⟩, rfl⟩

theorem witness_SetMcastProgramsTheFilter_2 :
    ∃ (s : State),
    Ready s ∧ s.adapter ≠ .closed :=
  ⟨live, ⟨⟨rfl, rfl⟩, rfl⟩, by decide⟩

theorem witness_ResetInitEndsAsTheTableSays : ∃ s : State, Alive s ∧ RingsReady s :=
  ⟨inFlight 0xE0#8, ⟨rfl, rfl⟩, ringsReady_of rfl rfl rfl rfl (by decide +kernel) (by decide +kernel)⟩

theorem witness_StepKeepsCanonicalForm : ∃ s t : State, Canonical s ∧ step s = .next t := by
  obtain ⟨t, ht⟩ := next_of (o := step (queued (inFlight 0xE0#8) (.devTxDone 0))) (by decide +kernel)
  exact ⟨_, t, canonical_of (by decide +kernel), ht⟩

theorem witness_StepKeepsRingGeometry : ∃ s t : State, CursorsInRange s ∧ LaidOut s ∧ WritesOrdered s ∧ step s = .next t := by
  obtain ⟨t, ht⟩ := next_of (o := step (queued (inFlight 0x60#8) .txReclaim)) (by decide +kernel)
  exact ⟨_, t, ⟨by decide, by decide, by decide⟩, laidOut_vectors rfl rfl rfl, writesOrdered_of rfl, ht⟩

theorem witness_StepKeepsConfiguration : ∃ s t : State, step s = .next t ∧ s.lock = none ∧ t.fault = none := by
  obtain ⟨t, ht, hf⟩ := next_with (o := step (queued live .irq)) (f := (·.fault)) (v := none) (by decide +kernel)
  exact ⟨_, t, ht, rfl, hf⟩

theorem witness_StepKeepsOpaqueMacBits : ∃ s t : State, step s = .next t := by
  obtain ⟨t, ht⟩ := next_of (o := step (queued live (.linkCommit ⟨.s10, .half⟩))) (by decide +kernel)
  exact ⟨_, t, ht⟩

theorem witness_StepKeepsTicksBounded : ∃ s t : State, SourceTicks s.params ∧ TickBounded s ∧ step s = .next t := by
  obtain ⟨t, ht⟩ := next_of (o := step (queued (withReads (linked live .arbitrationWait 9 0) [0#32]) .linkTick))
    (by decide +kernel)
  exact ⟨_, t, ⟨rfl, rfl, rfl, rfl, rfl⟩, ⟨by decide, show (9 : Nat) < 10 by decide⟩, ht⟩

theorem witness_OperationsKeepTheTimerConsistent : ∃ (i : Instr) (s t : State), i.opClass ≠ .internal ∧ TimerConsistent s ∧ exec i s = .next t ∧
    t.fault = none := by
  obtain ⟨t, ht, hf⟩ := next_with (o := exec .linkTick (withReads live [0#32])) (f := (·.fault)) (v := none)
    (by decide +kernel)
  exact ⟨.linkTick, withReads live [0#32], t, by decide, rfl, ht, hf⟩

theorem witness_OperationsKeepTheShadowsConsistent : ∃ (i : Instr) (s t : State), i.opClass ≠ .internal ∧ paramsValid s.params = true ∧ Canonical s ∧
    ShadowsConsistent s ∧ exec i s = .next t ∧ t.fault = none ∧ LaidOut s ∧ WritesOrdered s ∧ FreeSlotsHostOwned s ∧
    TxWritesSettled s ∧ BuffersHeld s := by
  obtain ⟨t, ht, hf⟩ := next_with (o := exec .closeAdapter (inFlight 0xE0#8)) (f := (·.fault)) (v := none)
    (by decide +kernel)
  exact ⟨_, _, t, by decide, by decide, canonical_of (by decide +kernel), shadows_of (by decide +kernel), ht, hf,
    laidOut_vectors rfl rfl rfl, writesOrdered_of rfl, freeSlots_of (by decide +kernel),
    fun _ _ _ _ _ hw => (List.not_mem_nil hw).elim, buffersHeld_of (by decide +kernel)⟩

theorem witness_CreationAllocatesBothRings :
    ∃ (p : Params) (tx rx : Nat) (d : Draws) (rest : List (Option Nat)),
    paramsValid p = true ∧ fits32 p.nTx = true ∧ fits32 p.nRx = true ∧ d.ringMemory = some tx :: some rx :: rest ∧
    BaseAllowed p .tx tx ∧ BaseAllowed p .rx rx ∧ BasesApart p tx rx :=
  ⟨defaultParams, 0x10000, 0x10040, ⟨[], [some 0x10000, some 0x10040], [], [], [], [], [], []⟩, [], by decide, by
    decide, by decide, rfl, ⟨by decide, by decide⟩, ⟨by decide, by decide⟩, .inl (by decide)⟩

theorem witness_CreationFailureLeavesNoBlock_1 :
    ∃ (p : Params) (d : Draws) (rest : List (Option Nat)),
    paramsValid p = true ∧ fits32 p.nTx = true ∧ d.ringMemory = none :: rest :=
  ⟨defaultParams, ⟨[], [none], [], [], [], [], [], []⟩, [], by decide, by decide, rfl⟩

theorem witness_CreationFailureLeavesNoBlock_2 :
    ∃ (p : Params) (tx : Nat) (d : Draws) (rest : List (Option Nat)),
    paramsValid p = true ∧ fits32 p.nTx = true ∧ fits32 p.nRx = true ∧ d.ringMemory = some tx :: none :: rest ∧
    BaseAllowed p .tx tx :=
  ⟨defaultParams, 0x10000, ⟨[], [some 0x10000, none], [], [], [], [], [], []⟩, [], by decide, by decide, by decide,
    rfl, ⟨by decide, by decide⟩⟩

theorem witness_CreationFailureLeavesNoBlock_3 :
    ∃ (s : State),
    s.fault = none ∧ s.absent = true :=
  ⟨{ bare with absent := true }, rfl, rfl⟩

end Sys2Proof.Tests
end

section
/-! SUPPORT. How the invariants are carried: contracts of micro-step programs, and the micro-steps of operations as relations
between states, so that a relation which every micro-step keeps is kept by every operation. -/

-- One theorem at a time: checked together they ask for more threads than the check allows.
set_option Elab.async false

namespace Sys2Proof.Invariants

open Sys2Proof.Machine Sys2Proof.Laws

/-! ### Contracts -/

/-- The run ends in a value and a state that `Q` allows, or in a fault, recorded in a state that `E` allows, or is refused. Only a
fault is recorded as one. -/
def Ends {α : Type} (Q : α → State → Prop) (E : State → Prop) : EStateM.Result Stop State α → Prop
  | .ok a t => Q a t ∧ t.fault = none
  | .error .faulted t => E t ∧ t.fault ≠ none
  | .error (.refused _) _ => True

/-- Begun in a state of `P` with no fault recorded, the program answers as `Q` says, or faults in a state of `E`, or is refused. -/
def Ensures {α : Type} (P : State → Prop) (m : M α) (Q : α → State → Prop) (E : State → Prop) : Prop :=
  ∀ s, s.fault = none → P s → Ends Q E (m s)

/-- The program takes a state with no fault recorded only to states that `R` relates to it. -/
def Follows (R : State → State → Prop) {α : Type} (m : M α) : Prop :=
  ∀ s, s.fault = none → Ends (fun _ => R s) (R s) (m s)

section Contracts

variable {α β : Type} {P P' : State → Prop} {E : State → Prop}

theorem Ends.imp {Q Q' : α → State → Prop} {E' : State → Prop} {x : EStateM.Result Stop State α} (h : Ends Q E x)
    (hQ : ∀ a t, Q a t → Q' a t) (hE : ∀ t, E t → E' t) : Ends Q' E' x := by
  cases x with
  | ok a t => exact ⟨hQ a t h.1, h.2⟩
  | error e t =>
    cases e with
    | faulted => exact ⟨hE t h.1, h.2⟩
    | refused r => trivial

theorem Ensures.bind {m : M α} {f : α → M β} {Q : α → State → Prop} {Q' : β → State → Prop} (hm : Ensures P m Q E)
    (hf : ∀ a, Ensures (Q a) (f a) Q' E) : Ensures P (m >>= f) Q' E := by
  intro s hs hP
  have h := hm s hs hP
  rw [run_bind]
  cases hms : m s with
  | ok a t =>
    rw [hms] at h
    exact hf a t h.2 h.1
  | error e t =>
    rw [hms] at h
    cases e with
    | faulted => exact h
    | refused r => trivial

theorem Ensures.pure {a : α} {Q : α → State → Prop} (h : ∀ s, P s → Q a s) : Ensures P (pure a) Q E :=
  fun s hs hP => ⟨h s hP, hs⟩

theorem Ensures.update {f : State → State} {Q : Unit → State → Prop} (h : ∀ s, P s → Q () (f s))
    (hf : ∀ s, (f s).fault = s.fault := by intros; rfl) : Ensures P (Machine.update f) Q E :=
  fun s hs hP => ⟨h s hP, (hf s).trans hs⟩

theorem Ensures.refuse {r : Refusal} {Q : α → State → Prop} : Ensures P (Machine.refuse r) Q E := fun _ _ _ => trivial

theorem Ensures.raise {r : Fault} {Q : α → State → Prop} (h : ∀ s, P s → E { s with fault := some r }) :
    Ensures P (Machine.raise r) Q E := fun s _ hP => ⟨h s hP, Option.some_ne_none r⟩

/-- What follows a read of the state may use the state read. -/
theorem Ensures.read {f : State → M β} {Q : β → State → Prop} (h : ∀ u, P u → Ensures (· = u) (f u) Q E) :
    Ensures P (Machine.getState >>= f) Q E := fun s hs hP => h s hP s hs rfl

theorem Ensures.ite {c : Prop} [Decidable c] {m n : M α} {Q : α → State → Prop} (hm : c → Ensures P m Q E)
    (hn : ¬c → Ensures P n Q E) : Ensures P (if c then m else n) Q E := by
  split
  · exact hm ‹_›
  · exact hn ‹_›

theorem Ensures.before {m : M α} {Q : α → State → Prop} (h : Ensures P m Q E) (hP : ∀ s, P' s → P s) :
    Ensures P' m Q E := fun s hs hP' => h s hs (hP s hP')

theorem Ensures.after {m : M α} {Q Q' : α → State → Prop} (h : Ensures P m Q E) (hQ : ∀ a s, Q a s → Q' a s) :
    Ensures P m Q' E := fun s hs hP => (h s hs hP).imp hQ fun _ => id

theorem Ensures.weaken {m : M α} {Q : α → State → Prop} {E' : State → Prop} (h : Ensures P m Q E) (hE : ∀ s, E s → E' s) :
    Ensures P m Q E' := fun s hs hP => (h s hs hP).imp (fun _ _ => id) hE

/-- Induction over a loop: `I i` holds before the pass for `i`. -/
theorem Ensures.forRange {body : Nat → M Unit} {I : Nat → State → Prop} {k : Nat}
    (h : ∀ i, i < k → Ensures (I i) (body i) (fun _ => I (i + 1)) E) :
    ∀ n i, i + n = k → Ensures (I i) (Machine.forRange body n i) (fun _ => I k) E
  | 0, i, hi => Ensures.pure fun s hs => by simpa [← hi] using hs
  | n + 1, i, hi => Ensures.bind (h i (by omega)) fun _ => Ensures.forRange h n (i + 1) (by omega)

/-- A relation that the program follows, as a contract. -/
theorem Follows.ensures {R : State → State → Prop} {m : M α} (hm : Follows R m) (hQ : ∀ s t, P s → R s t → P' t)
    (hE : ∀ s t, P s → R s t → E t) : Ensures P m (fun _ => P') E :=
  fun s hs hP => (hm s hs).imp (fun _ t => hQ s t hP) fun t => hE s t hP

/-- A contract that names the state the program begins in, as a relation the program follows. -/
theorem Ensures.follows {R : State → State → Prop} {m : M α} (h : ∀ s, Ensures (· = s) m (fun _ => R s) (R s)) :
    Follows R m := fun _ hs => h _ _ hs rfl

end Contracts

/-! ### Relations that programs follow -/

/-- A relation between states that every micro-step of `S` keeps, and that can be carried along. -/
structure Closed (S R : State → State → Prop) : Prop extends Carried R where
  step : ∀ {s t}, S s t → R s t

section Follows

variable {α β : Type} {S R : State → State → Prop} (hR : Closed S R)

include hR

theorem Follows.pure (a : α) : Follows R (pure a : M α) := fun s hs => ⟨hR.refl s, hs⟩

theorem Follows.getState : Follows R getState := fun s hs => ⟨hR.refl s, hs⟩

omit hR in
theorem Follows.refuse (r : Refusal) : Follows R (refuse r : M α) := fun _ _ => trivial

omit hR in
theorem Follows.raise (r : Fault) (h : ∀ s, R s { s with fault := some r }) : Follows R (raise r : M α) :=
  fun s _ => ⟨h s, Option.some_ne_none r⟩

omit hR in
theorem Follows.update {f : State → State} (h : ∀ s, R s (f s)) (hf : ∀ s, (f s).fault = s.fault := by intros; rfl) :
    Follows R (update f) := fun s hs => ⟨h s, (hf s).trans hs⟩

theorem Follows.bind {m : M α} {f : α → M β} (hm : Follows R m) (hf : ∀ a, Follows R (f a)) : Follows R (m >>= f) :=
  Ensures.follows fun _ => Ensures.bind
    (Follows.ensures hm (fun _ _ h h' => h ▸ h') fun _ _ h h' => h ▸ h')
    fun a => Follows.ensures (hf a) (fun _ _ => hR.trans) fun _ _ => hR.trans

omit hR in
theorem Follows.ite {c : Prop} [Decidable c] {m n : M α} (hm : Follows R m) (hn : Follows R n) :
    Follows R (if c then m else n) := by
  split
  · exact hm
  · exact hn

theorem Follows.forRange {body : Nat → M Unit} (h : ∀ i, Follows R (body i)) :
    ∀ n i, Follows R (Machine.forRange body n i)
  | 0, _ => Follows.pure hR ()
  | n + 1, i => Follows.bind hR (h i) fun _ => Follows.forRange h n (i + 1)

end Follows

/-! ### The micro-steps -/

/-- Which descriptor writes of the host are meant: ring, slot, word and value. -/
abbrev Writes := Ring → Nat → DescWord → Word32 → Prop

/-- Every descriptor write. -/
def anyWrite : Writes := fun _ _ _ _ => True

/-- No descriptor write. -/
def noWrite : Writes := fun _ _ _ _ => False

/-- Two values of the MAC's transmit configuration agree on the bits the block does not use (R42, R115). -/
def SameOpaque (p : Params) (v w : Word32) : Prop :=
  ∀ b, b ≠ p.mac.txEnable → b ≠ p.mac.fullDuplex → v.getLsbD b = w.getLsbD b

/-- The register write changes no opaque bit of the MAC's transmit configuration. -/
def KeepsOpaque (s : State) (reg : MmioReg) (v : RegVal) : Prop :=
  ∀ w, reg = .macTxcfg → v = .word w → SameOpaque s.params w s.dev.macTxcfg

/-- The micro-steps that leave the rings' bookkeeping, the buffers and mappings held, and the control state alone. The host's
descriptor writes among them are those of `A`. -/
inductive CalmStep (A : Writes) (s : State) : State → Prop
  | agent {a : AgentStep} {t : State} (h : agentStep a s = some t) : CalmStep A s t
  | schedule (l : List (List AgentStep)) : CalmStep A s { s with sched := l }
  | event (e : Event) : CalmStep A s (emitted e s)
  | draws (d : Draws) (n : Nat) : CalmStep A s { s with draws := d, drawCount := n }
  | register (reg : MmioReg) (v : RegVal) (h : KeepsOpaque s reg v) : CalmStep A s (regEffect reg v (drain s))
  | statusRead : CalmStep A s { s with dev := { s.dev with status := 0 } }
  | stopped (b : Bool) : CalmStep A s (setStopped b s)
  | counted (c : Counters) : CalmStep A s { s with counters := c }
  | write {r : Ring} {slot base : Nat} {w : DescWord} {v : Word32} (hA : A r slot w v) (hb : ringBase s r = some base)
      (hs : slot < capacity s.params r) (ha : descWordAddr s.params.desc base slot w % 4 = 0) :
      CalmStep A s (pushWrite (descWordAddr s.params.desc base slot w) v s)
  | barrier : CalmStep A s { s with epoch := s.epoch + 1 }
  | windowOpened (h n : Nat) : CalmStep A s (openWindow h n s)
  | windowReturned (h : Nat) : CalmStep A s (returnWindow h s)
  | windowClosed (da : Nat) : CalmStep A s (closeWindow da s)
  | copied (sb h n : Nat) : CalmStep A s (copyPayload sb h n s)
  | denied {r : Ring} {slot : Nat} {w : DescWord} {v : Word32} (hA : A r slot w v) :
      CalmStep A s { s with fault := some (.hostWroteDeviceOwned r slot) }

/-- The micro-steps of ring operations: the calm ones and those that write the rings' bookkeeping, the buffers and the mappings. -/
inductive RingStep (A : Writes) (s : State) : State → Prop
  | calm {t : State} (h : CalmStep A s t) : RingStep A s t
  | faulted (r : Fault) : RingStep A s { s with fault := some r }
  | mapped (h : Nat) (m : MapEntry) : RingStep A s { s with liveMaps := mapSet s.liveMaps h m }
  | unmapped (h : Nat) (m : MapEntry) : RingStep A s (releaseMap h m s)
  | allocated (b : Nat) : RingStep A s
      { s with
        liveBuffers := mapSet s.liveBuffers b ()
        bufMem := mapErase s.bufMem b
        dmaMem := mapErase s.dmaMem b }
  | freed (b : Nat) : RingStep A s
      { s with
        liveBuffers := mapErase s.liveBuffers b
        bufMem := mapErase s.bufMem b
        dmaMem := mapErase s.dmaMem b }
  | handedUp (b : Nat) : RingStep A s (releaseBuf b s)
  | txEntered (slot : Nat) (e : TxEntry) : RingStep A s (setTxSlot slot e s)
  | txCleared (slot : Nat) : RingStep A s (clearTxSlot slot s)
  | rxEntered (slot : Nat) (e : RxEntry) : RingStep A s (setRxSlot slot e s)
  | rxCleared (slot : Nat) : RingStep A s (clearRxSlot slot s)
  | pktRemoved (k : Nat) : RingStep A s (removePkt k s)
  | headAdvanced (pkt : Packet) : RingStep A s (advanceHead pkt s)
  | tailAdvanced (i : Nat) : RingStep A s (advanceTail i s)
  | cursorAdvanced (i : Nat) : RingStep A s (advanceCursor i s)
  | cursorsZeroed (r : Ring) : RingStep A s (zeroCursors r s)

/-- The micro-steps of a commit to the MAC: the calm ones and the record of the mode. -/
inductive CommitStep (A : Writes) (s : State) : State → Prop
  | calm {t : State} (h : CalmStep A s t) : CommitStep A s t
  | committed (m : Option Mode) : CommitStep A s { s with link := { s.link with committed := m } }

/-- The micro-steps of link operations and of the lifecycle outside the rings: those of a commit and those that write the control
state, the adapter's apart. -/
inductive ControlStep (A : Writes) (s : State) : State → Prop
  | commit {t : State} (h : CommitStep A s t) : ControlStep A s t
  | control (l : LinkState) (armed acquired : Bool) :
      ControlStep A s { s with link := l, timerArmed := armed, irqAcquired := acquired }

/-- The micro-steps of every operation but creation. -/
inductive HostStep (A : Writes) (s : State) : State → Prop
  | ring {t : State} (h : RingStep A s t) : HostStep A s t
  | control {t : State} (h : ControlStep A s t) : HostStep A s t
  | adapter (a : AdapterState) : HostStep A s { s with adapter := a }

/-- The ring has no memory yet, and may be given that at `base` (R51, R61, R293). -/
def Grantable (s : State) (r : Ring) (base : Nat) : Prop :=
  ringBase s r = none ∧ BaseAllowed s.params r base ∧ apartFromOther s r base (capacity s.params r) = true

/-- The micro-steps of creation (R130, R345): the calm ones and those that give a ring its memory, or find none. -/
inductive AllocStep (s : State) : State → Prop
  | calm {t : State} (h : CalmStep noWrite s t) : AllocStep s t
  | neutral (base slot : Nat) : AllocStep s (neutralInMem base slot s)
  | granted (r : Ring) (base : Nat) (h : Grantable s r base) : AllocStep s (setAllocated r base s)
  | absent : AllocStep s (markAbsent s)

/-- The micro-steps of every operation. -/
inductive OpStep (s : State) : State → Prop
  | host {t : State} (h : HostStep anyWrite s t) : OpStep s t
  | alloc {t : State} (h : AllocStep s t) : OpStep s t

theorem Closed.mono {S S' R : State → State → Prop} (hR : Closed S' R) (h : ∀ s t, S s t → S' s t) : Closed S R :=
  ⟨hR.toCarried, fun hst => hR.step (h _ _ hst)⟩

theorem CalmStep.mono {A B : Writes} (hAB : ∀ r i w v, A r i w v → B r i w v) {s t : State} (h : CalmStep A s t) :
    CalmStep B s t := by
  cases h with
  | agent h => exact .agent h
  | schedule l => exact .schedule l
  | event e => exact .event e
  | draws d n => exact .draws d n
  | register reg v h => exact .register reg v h
  | statusRead => exact .statusRead
  | stopped b => exact .stopped b
  | counted c => exact .counted c
  | write hA hb hs ha => exact .write (hAB _ _ _ _ hA) hb hs ha
  | barrier => exact .barrier
  | windowOpened h n => exact .windowOpened h n
  | windowReturned h => exact .windowReturned h
  | windowClosed da => exact .windowClosed da
  | copied sb h n => exact .copied sb h n
  | denied hA => exact .denied (hAB _ _ _ _ hA)

theorem Closed.calm_of_ring {A : Writes} {R : State → State → Prop} (hR : Closed (RingStep A) R) : Closed (CalmStep A) R :=
  hR.mono fun _ _ => .calm

theorem Closed.commit_of_control {A : Writes} {R : State → State → Prop} (hR : Closed (ControlStep A) R) :
    Closed (CommitStep A) R := hR.mono fun _ _ => .commit

theorem Closed.calm_of_commit {A : Writes} {R : State → State → Prop} (hR : Closed (CommitStep A) R) :
    Closed (CalmStep A) R := hR.mono fun _ _ => .calm

theorem Closed.calm_of_control {A : Writes} {R : State → State → Prop} (hR : Closed (ControlStep A) R) :
    Closed (CalmStep A) R := hR.commit_of_control.calm_of_commit

theorem Closed.ring_of_host {A : Writes} {R : State → State → Prop} (hR : Closed (HostStep A) R) : Closed (RingStep A) R :=
  hR.mono fun _ _ => .ring

theorem Closed.control_of_host {A : Writes} {R : State → State → Prop} (hR : Closed (HostStep A) R) :
    Closed (ControlStep A) R := hR.mono fun _ _ => .control

theorem Closed.calm_of_host {A : Writes} {R : State → State → Prop} (hR : Closed (HostStep A) R) : Closed (CalmStep A) R :=
  hR.ring_of_host.calm_of_ring

theorem Closed.host_of_op {R : State → State → Prop} (hR : Closed OpStep R) : Closed (HostStep anyWrite) R :=
  hR.mono fun _ _ => .host

theorem Closed.alloc_of_op {R : State → State → Prop} (hR : Closed OpStep R) : Closed AllocStep R := hR.mono fun _ _ => .alloc

theorem Closed.calm_of_alloc {R : State → State → Prop} (hR : Closed AllocStep R) : Closed (CalmStep noWrite) R :=
  hR.mono fun _ _ => .calm

/-! ### What micro-steps leave alone -/

/-- The hold of a register write leaves the device alone. -/
theorem drain_dev (s : State) : (drain s).dev = s.dev := by
  have h : ∀ (l : List WbEntry) (s : State), (drainList l s).dev = s.dev := by
    intro l
    induction l with
    | nil => exact fun _ => rfl
    | cons e l ih => exact fun s => ih _
  exact h s.wb s

/-- What calm micro-steps leave alone: the parameters, the control state and, the queue's stop apart, the rings' bookkeeping. -/
structure CalmFrame (s t : State) : Prop where
  params : t.params = s.params
  adapter : t.adapter = s.adapter
  link : t.link = s.link
  timerArmed : t.timerArmed = s.timerArmed
  lock : t.lock = s.lock
  txBase : t.tx.base = s.tx.base
  head : t.tx.head = s.tx.head
  tail : t.tx.tail = s.tx.tail
  txShadow : t.tx.shadow = s.tx.shadow
  rx : t.rx = s.rx
  liveBuffers : t.liveBuffers = s.liveBuffers
  liveMaps : t.liveMaps = s.liveMaps
  pkts : t.pkts = s.pkts
  nextPkt : t.nextPkt = s.nextPkt

theorem CalmFrame.trans {s t u : State} (h : CalmFrame s t) (h' : CalmFrame t u) : CalmFrame s u := by
  obtain ⟨a1, a2, a3, a4, a5, a6, a7, a8, a9, a10, a11, a12, a13, a14⟩ := h
  obtain ⟨b1, b2, b3, b4, b5, b6, b7, b8, b9, b10, b11, b12, b13, b14⟩ := h'
  exact ⟨b1.trans a1, b2.trans a2, b3.trans a3, b4.trans a4, b5.trans a5, b6.trans a6, b7.trans a7, b8.trans a8,
    b9.trans a9, b10.trans a10, b11.trans a11, b12.trans a12, b13.trans a13, b14.trans a14⟩

theorem hostSide_fault {s t : State} (h : hostSide t = hostSide s) : t.fault = s.fault := by simp only [hostSide_fields h]

theorem regEffect_fault (reg : MmioReg) (v : RegVal) (s : State) : (regEffect reg v s).fault = s.fault := by
  unfold regEffect
  split <;> rfl

theorem zeroCursors_fault (r : Ring) (s : State) : (zeroCursors r s).fault = s.fault := by cases r <;> rfl

theorem drain_fault (s : State) : (drain s).fault = s.fault := hostSide_fault (drain_hostSide s)

theorem calmFrame_of_hostSide {s t : State} (h : hostSide t = hostSide s) : CalmFrame s t := by
  constructor <;> simp [hostSide_fields h]

/-- A register's effect is on the device alone. -/
theorem calmFrame_regEffect (reg : MmioReg) (v : RegVal) (s : State) : CalmFrame s (regEffect reg v s) := by
  unfold regEffect
  split <;> constructor <;> rfl

theorem CalmStep.frame {A : Writes} {s t : State} (h : CalmStep A s t) : CalmFrame s t := by
  cases h with
  | agent h => exact calmFrame_of_hostSide (agentStep_hostSide h)
  | register reg v h => exact (calmFrame_of_hostSide (drain_hostSide s)).trans (calmFrame_regEffect reg v _)
  | _ => constructor <;> rfl

/-- What ring micro-steps leave alone: the parameters, the control state and where the rings lie. -/
structure RingFrame (s t : State) : Prop where
  params : t.params = s.params
  adapter : t.adapter = s.adapter
  link : t.link = s.link
  timerArmed : t.timerArmed = s.timerArmed
  lock : t.lock = s.lock
  txBase : t.tx.base = s.tx.base
  rxBase : t.rx.base = s.rx.base

theorem RingStep.frame {A : Writes} {s t : State} (h : RingStep A s t) : RingFrame s t := by
  cases h with
  | calm h =>
    have hf := h.frame
    exact ⟨hf.params, hf.adapter, hf.link, hf.timerArmed, hf.lock, hf.txBase, congrArg RxState.base hf.rx⟩
  | cursorsZeroed r => cases r <;> constructor <;> rfl
  | _ => constructor <;> rfl

/-! ### Calm programs -/

section Calm

variable {A : Writes} {R : State → State → Prop} (hR : Closed (CalmStep A) R)

include hR

theorem interleave_kept (s : State) : R s (interleave s) :=
  interleave_carries hR.toCarried (fun _ _ _ h => hR.step (.agent h)) (fun s l => hR.step (.schedule (s := s) l)) s

theorem boundary_follows : Follows R boundary :=
  Follows.update (interleave_kept hR) fun s => hostSide_fault (interleave_hostSide s)

theorem event_follows (e : Event) : Follows R (update (emitted e)) := Follows.update fun _ => hR.step (.event e)

theorem emit_follows (e : Event) : Follows R (emit e) :=
  Follows.bind hR (boundary_follows hR) fun _ => event_follows hR e

theorem count_follows (f : Counters → Counters) : Follows R (count f) := Follows.update fun s => hR.step (.counted (f s.counters))

theorem setStopped_follows (b : Bool) : Follows R (update (setStopped b)) := Follows.update fun _ => hR.step (.stopped b)

theorem countDraw_kept (s : State) : R s (countDraw s) := hR.step (.draws s.draws (s.drawCount + 1))

theorem drawAlloc_follows (mode : AllocMode) (size : Nat) : Follows R (drawAlloc mode size) := by
  intro s hs
  unfold drawAlloc
  cases s.draws.alloc with
  | nil => exact ⟨countDraw_kept hR s, hs⟩
  | cons v rest => exact ⟨hR.step (.draws { s.draws with alloc := rest } s.drawCount), hs⟩

theorem drawDmaMap_follows (buf : Nat) : Follows R (drawDmaMap buf) := by
  intro s hs
  unfold drawDmaMap
  cases s.draws.dmaMap with
  | nil => exact ⟨countDraw_kept hR s, hs⟩
  | cons v rest => exact ⟨hR.step (.draws { s.draws with dmaMap := rest } s.drawCount), hs⟩

theorem drawMgmtRead_follows (reg : Nat) : Follows R (drawMgmtRead reg) := by
  intro s hs
  unfold drawMgmtRead
  cases s.draws.mgmtRead with
  | nil => exact ⟨countDraw_kept hR s, hs⟩
  | cons v rest => exact ⟨hR.step (.draws { s.draws with mgmtRead := rest } s.drawCount), hs⟩

theorem drawIrqAcquire_follows : Follows R drawIrqAcquire := by
  refine Follows.bind hR (boundary_follows hR) fun _ s hs => ?_
  cases s.draws.irqAcquire with
  | nil => exact And.intro (countDraw_kept hR s) hs
  | cons v rest => exact And.intro (hR.step (.draws { s.draws with irqAcquire := rest } s.drawCount)) hs

theorem drawTcvrKnown_follows : Follows R drawTcvrKnown := by
  refine Follows.bind hR (boundary_follows hR) fun _ s hs => ?_
  cases s.draws.tcvrKnown with
  | nil => exact And.intro (countDraw_kept hR s) hs
  | cons v rest => exact And.intro (hR.step (.draws { s.draws with tcvrKnown := rest } s.drawCount)) hs

/-- A register write that is not to the MAC's transmit configuration. -/
theorem mmioWrite_follows {reg : MmioReg} (hreg : reg ≠ .macTxcfg) (v : RegVal) : Follows R (mmioWrite reg v) :=
  Follows.bind hR (boundary_follows hR) fun _ => Follows.update (fun _ =>
    hR.trans (hR.step (.register reg v fun _ h => absurd h hreg)) (hR.step (.event _)))
    fun s => (regEffect_fault reg v _).trans (drain_fault s)

theorem mmioReadStatus_follows : Follows R mmioReadStatus :=
  Follows.bind hR (boundary_follows hR) fun _ _ hs => ⟨hR.trans (hR.step .statusRead) (hR.step (.event _)), hs⟩

theorem mmioReadMac_follows : Follows R mmioReadMac :=
  Follows.bind hR (boundary_follows hR) fun _ _ hs => ⟨hR.step (.event _), hs⟩

theorem mgmtRead_follows (reg : Nat) : Follows R (mgmtRead reg) :=
  Follows.bind hR (boundary_follows hR) fun _ => Follows.bind hR (drawMgmtRead_follows hR reg) fun _ =>
    Follows.bind hR (Follows.getState hR) fun _ =>
      Follows.bind hR (event_follows hR _) fun _ => Follows.pure hR _

theorem mgmtWrite_follows (reg : Nat) (v : Word32) : Follows R (mgmtWrite reg v) := emit_follows hR _

theorem writeGroup_follows {reg : Nat → MmioReg} (hreg : ∀ i, reg i ≠ .macTxcfg) : ∀ ws, Follows R (writeGroup reg ws)
  | [] => Follows.pure hR ()
  | w :: ws => Follows.bind hR (mmioWrite_follows hR (hreg w.1) _) fun _ => writeGroup_follows hreg ws

theorem ackPoll_follows : ∀ n, Follows R (ackPoll n)
  | 0 => Follows.pure hR false
  | n + 1 => Follows.bind hR (Follows.getState hR) fun _ =>
      Follows.bind hR (mgmtRead_follows hR _) fun _ => Follows.ite (Follows.pure hR _) (ackPoll_follows n)

theorem awaitFreeSlots_follows : Follows R awaitFreeSlots :=
  Follows.bind hR (boundary_follows hR) fun _ => Follows.update
    (freeSlotsShown_carries hR.toCarried fun a _ _ h => hR.step (.agent (a := .envVisible a) h))
    fun s => hostSide_fault (freeSlotsShown_hostSide s)

theorem wmb_follows : Follows R wmb :=
  Follows.bind hR (boundary_follows hR) fun _ => Follows.update fun _ => hR.trans (hR.step .barrier) (hR.step (.event _))

theorem dmaSyncForCpu_follows (h n : Nat) : Follows R (dmaSyncForCpu h n) :=
  Follows.bind hR (boundary_follows hR) fun _ => Follows.update fun _ =>
    hR.trans (hR.step (.windowOpened h n)) (hR.step (.event _))

theorem dmaSyncForDevice_follows (h n : Nat) : Follows R (dmaSyncForDevice h n) :=
  Follows.bind hR (boundary_follows hR) fun _ => Follows.update fun _ =>
    hR.trans (hR.step (.windowReturned h)) (hR.step (.event _))

theorem copyPayload_follows (sb h n : Nat) : Follows R (update (copyPayload sb h n)) :=
  Follows.update fun _ => hR.step (.copied sb h n)

end Calm

/-! ### Descriptor accesses -/

/-- What a descriptor address is, when there is one (R73, R348). -/
theorem descAddr_cases (r : Ring) (slot : Nat) (w : DescWord) (s : State) :
    (∃ e, descAddr r slot w s = .error (.refused e) s) ∨
      ∃ base, ringBase s r = some base ∧ slot < capacity s.params r ∧
        descWordAddr s.params.desc base slot w % 4 = 0 ∧
        descAddr r slot w s = .ok (descWordAddr s.params.desc base slot w) s := by
  unfold descAddr
  cases hb : ringBase s r with
  | none => exact .inl ⟨_, rfl⟩
  | some base =>
    by_cases hs : capacity s.params r ≤ slot
    · exact .inl ⟨.slotOutOfRange r slot, by simp [hs]⟩
    · by_cases ha : descWordAddr s.params.desc base slot w % 4 = 0
      · exact .inr ⟨base, rfl, by omega, ha, by simp [hs, ha]⟩
      · exact .inl ⟨.misalignedAccess, by simp [hs, ha]⟩

/-- What `MemWrite` can do (R63): it is refused, it faults, or the write is pending. -/
theorem memWrite_cases (r : Ring) (slot : Nat) (w : DescWord) (v : Word32) (s : State) :
    (∃ e, memWrite r slot w v s = .error (.refused e) (interleave s)) ∨
      memWrite r slot w v s = .error .faulted { interleave s with fault := some (.hostWroteDeviceOwned r slot) } ∨
      ∃ base, ringBase (interleave s) r = some base ∧ slot < capacity (interleave s).params r ∧
        descWordAddr (interleave s).params.desc base slot w % 4 = 0 ∧
        memWrite r slot w v s =
          .ok () (pushWrite (descWordAddr (interleave s).params.desc base slot w) v (interleave s)) := by
  simp only [memWrite, run_bind, run_boundary]
  rcases descAddr_cases r slot w (interleave s) with ⟨e, he⟩ | ⟨base, hb, hs, ha, he⟩
  · exact .inl ⟨e, by simp only [he]⟩
  · rcases descAddr_cases r slot .flags (interleave s) with ⟨e, he'⟩ | ⟨base', -, -, -, he'⟩
    · exact .inl ⟨e, by simp only [he, he']⟩
    · simp only [he, he', run_getState, run_ite]
      split
      · exact .inr (.inl rfl)
      · exact .inr (.inr ⟨base, hb, hs, ha, rfl⟩)

section DescAccess

variable {A : Writes} {R : State → State → Prop} (hR : Closed (CalmStep A) R)

include hR

theorem memRead_follows (r : Ring) (slot : Nat) (w : DescWord) : Follows R (memRead r slot w) := by
  refine Follows.bind hR (boundary_follows hR) fun _ => Follows.bind hR (fun s hs => ?_) fun _ =>
    Follows.bind hR (Follows.getState hR) fun _ => Follows.pure hR _
  rcases descAddr_cases r slot w s with ⟨e, he⟩ | ⟨base, -, -, -, he⟩ <;> rw [he]
  · trivial
  · exact ⟨hR.refl s, hs⟩

theorem memWrite_follows {r : Ring} {slot : Nat} {w : DescWord} {v : Word32} (hA : A r slot w v) :
    Follows R (memWrite r slot w v) := by
  intro s hs
  have hi := interleave_kept hR s
  rcases memWrite_cases r slot w v s with ⟨e, he⟩ | he | ⟨base, hb, hc, ha, he⟩ <;> rw [he]
  · trivial
  · exact ⟨hR.trans hi (hR.step (.denied hA)), Option.some_ne_none _⟩
  · exact ⟨hR.trans hi (hR.step (.write hA hb hc ha)), (hostSide_fault (interleave_hostSide s)).trans hs⟩

theorem ringPublish_follows {r : Ring} {slot : Nat} (a f : Word32) (hA : ∀ w v, A r slot w v) :
    Follows R (ringPublish r slot a f) :=
  Follows.bind hR (Follows.getState hR) fun _ => Follows.ite
    (Follows.bind hR (memWrite_follows hR (hA _ _)) fun _ => Follows.bind hR (wmb_follows hR) fun _ =>
      Follows.bind hR (memWrite_follows hR (hA _ _)) fun _ => Follows.update fun _ => hR.step (.windowClosed _))
    (Follows.refuse _)

theorem ringTryReclaim_follows (r : Ring) (slot : Nat) : Follows R (ringTryReclaim r slot) :=
  Follows.bind hR (memRead_follows hR r slot .flags) fun _ =>
    Follows.bind hR (Follows.getState hR) fun _ => Follows.ite (Follows.pure hR _)
      (Follows.bind hR (memRead_follows hR r slot .addr) fun _ => Follows.pure hR _)

theorem neutralSlot_follows {r : Ring} (hA : ∀ slot w, A r slot w 0) (slot : Nat) : Follows R (neutralSlot r slot) :=
  Follows.bind hR (memWrite_follows hR (hA _ _)) fun _ => memWrite_follows hR (hA _ _)

theorem rxPost_follows {slot : Nat} (h : Nat) (hA : ∀ w v, A .rx slot w v) : Follows R (rxPost slot h) := by
  refine Follows.bind hR (Follows.getState hR) fun s => ?_
  cases mapGet s.liveMaps h with
  | none => exact Follows.refuse _
  | some m => exact ringPublish_follows hR _ _ hA

theorem rxRecycle_follows {slot : Nat} (hA : ∀ w v, A .rx slot w v) : Follows R (rxRecycle slot) := by
  refine Follows.bind hR (Follows.getState hR) fun s => ?_
  cases mapGet s.rx.shadow slot with
  | none => exact Follows.ite (Follows.refuse _) (Follows.refuse _)
  | some e => exact rxPost_follows hR _ hA

theorem dropError_follows {slot : Nat} (hA : ∀ w v, A .rx slot w v) : Follows R (dropError slot) :=
  Follows.bind hR (count_follows hR _) fun _ => rxRecycle_follows hR hA

theorem dropNoMemory_follows {slot : Nat} (hA : ∀ w v, A .rx slot w v) : Follows R (dropNoMemory slot) :=
  Follows.bind hR (count_follows hR _) fun _ => rxRecycle_follows hR hA

theorem backpressure_follows : Follows R backpressure :=
  Follows.bind hR (Follows.getState hR) fun _ => Follows.ite
    (Follows.bind hR (setStopped_follows hR true) fun _ => emit_follows hR _) (Follows.pure hR ())

theorem queueWake_follows : Follows R queueWake :=
  Follows.bind hR (Follows.getState hR) fun _ => Follows.ite
    (Follows.bind hR (setStopped_follows hR false) fun _ => emit_follows hR _) (Follows.pure hR ())

theorem ringNextFree_follows : Follows R ringNextFree :=
  Follows.bind hR (Follows.getState hR) fun _ => Follows.ite (Follows.pure hR _)
    (Follows.pure hR _)

theorem setMcast_follows (req : FilterRequest) : Follows R (setMcast req) :=
  Follows.bind hR (Follows.getState hR) fun _ => Follows.ite (Follows.pure hR _)
    (Follows.bind hR (emit_follows hR _) fun _ =>
      Follows.bind hR (writeGroup_follows hR (reg := .filter) (fun _ => nofun) _) fun _ => Follows.pure hR _)

end DescAccess

/-! ### Ring programs -/

/-- The completion of a packet with its last fragment (R161). -/
def completeFragment (e : TxEntry) : M Unit :=
  if e.eop then do
    count fun c => { c with txPackets := c.txPackets + 1, txBytes := c.txBytes + inc e.pktLen }
    update (removePkt e.pkt)
    emit (.txComplete e.pkt)
  else pure ()

/-- The reclaim of a slot as three pieces in turn (R161). -/
theorem reclaimSlot_eq (t : Nat) (e : TxEntry) :
    reclaimSlot t e = (do
      dmaUnmap e.handle
      completeFragment e
      update fun s => advanceTail t (clearTxSlot t s)) := by
  unfold reclaimSlot completeFragment
  split <;> simp only [bind_assoc, pure_bind]

section Rings

variable {A : Writes} {R : State → State → Prop} (hR : Closed (RingStep A) R)

include hR

theorem dmaMap_follows (buf : Nat) : Follows R (dmaMap buf) := by
  refine Follows.bind hR (boundary_follows hR.calm_of_ring) fun _ =>
    Follows.bind hR (drawDmaMap_follows hR.calm_of_ring buf) fun raw =>
      Follows.bind hR (Follows.getState hR) fun s => ?_
  cases raw.bind (checkMap s) with
  | none => exact Follows.pure hR _
  | some d =>
    exact Follows.bind hR (Follows.update fun _ => hR.trans (hR.step (.mapped d.1 ⟨buf, d.2⟩)) (hR.step (.calm (.event _))))
      fun _ => Follows.pure hR _

theorem dmaUnmap_follows (h : Nat) : Follows R (dmaUnmap h) := by
  refine Follows.bind hR (boundary_follows hR.calm_of_ring) fun _ =>
    Follows.bind hR (Follows.getState hR) fun s => ?_
  cases mapGet s.liveMaps h with
  | none => exact Follows.raise _ fun _ => hR.step (.faulted _)
  | some m => exact Follows.update fun _ => hR.trans (hR.step (.unmapped h m)) (hR.step (.calm (.event _)))

theorem alloc_follows (size : Nat) (mode : AllocMode) : Follows R (alloc size mode) := by
  refine Follows.bind hR (boundary_follows hR.calm_of_ring) fun _ =>
    Follows.bind hR (drawAlloc_follows hR.calm_of_ring mode size) fun raw =>
      Follows.bind hR (Follows.getState hR) fun s => ?_
  cases raw.bind (checkAlloc s) with
  | none => exact Follows.bind hR (event_follows hR.calm_of_ring _) fun _ => Follows.pure hR _
  | some b =>
    exact Follows.bind hR (Follows.update fun _ => hR.trans (hR.step (.allocated b)) (hR.step (.calm (.event _))))
      fun _ => Follows.pure hR _

theorem freeBuf_follows (b : Nat) : Follows R (freeBuf b) :=
  Follows.bind hR (boundary_follows hR.calm_of_ring) fun _ => Follows.update fun _ =>
    hR.trans (hR.step (.freed b)) (hR.step (.calm (.event _)))

theorem deliver_follows (b len csum : Nat) : Follows R (deliver b len csum) :=
  Follows.bind hR (Follows.update fun _ => hR.step (.handedUp b)) fun _ =>
    Follows.bind hR (emit_follows hR.calm_of_ring _) fun _ => count_follows hR.calm_of_ring _

theorem releaseSlot_follows (r : Ring) (slot : Nat) : Follows R (releaseSlot r slot) := by
  cases r with
  | tx =>
    refine Follows.bind hR (Follows.getState hR) fun s => ?_
    cases mapGet s.tx.shadow slot with
    | none => exact Follows.pure hR ()
    | some e =>
      refine Follows.bind hR (dmaUnmap_follows hR _) fun _ => Follows.update (fun s => hR.trans ?_ (hR.step (.txCleared slot))) fun s => ?_
      · split
        · exact hR.step (.pktRemoved _)
        · exact hR.refl s
      · split <;> rfl
  | rx =>
    refine Follows.bind hR (Follows.getState hR) fun s => ?_
    cases mapGet s.rx.shadow slot with
    | none => exact Follows.pure hR ()
    | some e =>
      exact Follows.bind hR (dmaUnmap_follows hR _) fun _ => Follows.bind hR (freeBuf_follows hR _) fun _ =>
        Follows.update fun _ => hR.step (.rxCleared slot)

theorem ringReset_follows {r : Ring} (hA : ∀ slot w, A r slot w 0) : Follows R (ringReset r) :=
  Follows.bind hR (Follows.getState hR) fun _ => Follows.ite
    (Follows.raise _ fun _ => hR.step (.faulted _))
    (Follows.bind hR (Follows.forRange hR (releaseSlot_follows hR r) _ _) fun _ =>
      Follows.bind hR (Follows.forRange hR (neutralSlot_follows hR.calm_of_ring hA) _ _) fun _ =>
        Follows.update (fun _ => hR.step (.cursorsZeroed r)) (zeroCursors_fault r))

theorem unmapAll_follows : ∀ ms, Follows R (unmapAll ms)
  | [] => Follows.pure hR ()
  | m :: ms => Follows.bind hR (dmaUnmap_follows hR m.handle) fun _ => unmapAll_follows ms

theorem mapFragments_follows : ∀ fs done, Follows R (mapFragments fs done)
  | [], _ => Follows.pure hR _
  | f :: fs, done => by
    refine Follows.bind hR (dmaMap_follows hR f.buf) fun r => ?_
    cases r with
    | none => exact Follows.bind hR (unmapAll_follows hR done) fun _ => Follows.pure hR _
    | some d => exact mapFragments_follows fs _

theorem completeFragment_follows (e : TxEntry) : Follows R (completeFragment e) :=
  Follows.ite
    (Follows.bind hR (count_follows hR.calm_of_ring _) fun _ =>
      Follows.bind hR (Follows.update fun _ => hR.step (.pktRemoved _)) fun _ => emit_follows hR.calm_of_ring _)
    (Follows.pure hR ())

theorem reclaimSlot_follows (t : Nat) (e : TxEntry) : Follows R (reclaimSlot t e) := by
  rw [reclaimSlot_eq]
  exact Follows.bind hR (dmaUnmap_follows hR e.handle) fun _ =>
    Follows.bind hR (completeFragment_follows hR e) fun _ =>
      Follows.update fun _ => hR.trans (hR.step (.txCleared t)) (hR.step (.tailAdvanced t))

theorem reclaimWalk_follows : ∀ n, Follows R (reclaimWalk n)
  | 0 => Follows.pure hR ()
  | n + 1 => by
    refine Follows.bind hR (Follows.getState hR) fun s => Follows.ite (Follows.pure hR ())
      (Follows.bind hR (ringTryReclaim_follows hR.calm_of_ring _ _) fun d => ?_)
    cases d with
    | none => exact Follows.pure hR ()
    | some x =>
      refine Follows.bind hR (Follows.getState hR) fun s' => ?_
      split
      · exact Follows.refuse _
      · exact Follows.bind hR (reclaimSlot_follows hR _ _) fun _ => reclaimWalk_follows n

theorem txReclaim_follows : Follows R txReclaim :=
  Follows.bind hR (Follows.getState hR) fun _ =>
    Follows.bind hR (reclaimWalk_follows hR _) fun _ => queueWake_follows hR.calm_of_ring

theorem zeroCopy_follows (hA : ∀ slot w v, A .rx slot w v) (c len csum : Nat) (e : RxEntry) :
    Follows R (zeroCopy c len csum e) := by
  refine Follows.bind hR (Follows.getState hR) fun s =>
    Follows.bind hR (alloc_follows hR _ _) fun nb => ?_
  cases nb with
  | none => exact dropNoMemory_follows hR.calm_of_ring (hA c)
  | some b =>
    refine Follows.bind hR (dmaMap_follows hR b) fun m => ?_
    cases m with
    | none =>
      exact Follows.bind hR (freeBuf_follows hR b) fun _ => dropNoMemory_follows hR.calm_of_ring (hA c)
    | some d =>
      exact Follows.bind hR (Follows.update fun _ => hR.step (.rxEntered c _)) fun _ =>
        Follows.bind hR (rxPost_follows hR.calm_of_ring _ (hA c)) fun _ =>
          Follows.bind hR (dmaUnmap_follows hR _) fun _ => deliver_follows hR _ _ _

theorem copyOut_follows (hA : ∀ slot w v, A .rx slot w v) (c len csum : Nat) (e : RxEntry) :
    Follows R (copyOut c len csum e) := by
  refine Follows.bind hR (alloc_follows hR _ _) fun nb => ?_
  cases nb with
  | none => exact dropNoMemory_follows hR.calm_of_ring (hA c)
  | some b =>
    exact Follows.bind hR (dmaSyncForCpu_follows hR.calm_of_ring _ _) fun _ =>
      Follows.bind hR (copyPayload_follows hR.calm_of_ring _ _ _) fun _ =>
        Follows.bind hR (dmaSyncForDevice_follows hR.calm_of_ring _ _) fun _ =>
          Follows.bind hR (rxPost_follows hR.calm_of_ring _ (hA c)) fun _ => deliver_follows hR _ _ _

theorem visit_follows (hA : ∀ slot w v, A .rx slot w v) (c len : Nat) (ov : Bool) (csum : Nat) :
    Follows R (visit c len ov csum) := by
  refine Follows.bind hR (Follows.getState hR) fun s => Follows.ite
    (Follows.raise _ fun _ => hR.step (.faulted _)) (Follows.ite (dropError_follows hR.calm_of_ring (hA c)) ?_)
  cases mapGet s.rx.shadow c with
  | none => exact Follows.refuse _
  | some e => exact Follows.ite (zeroCopy_follows hR hA c len csum e) (copyOut_follows hR hA c len csum e)

theorem receiveWalk_follows (hA : ∀ slot w v, A .rx slot w v) : ∀ n, Follows R (receiveWalk n)
  | 0 => Follows.pure hR ()
  | n + 1 => by
    refine Follows.bind hR (Follows.getState hR) fun s =>
      Follows.bind hR (ringTryReclaim_follows hR.calm_of_ring _ _) fun d => ?_
    cases d with
    | none => exact Follows.pure hR ()
    | some x =>
      exact Follows.bind hR (visit_follows hR hA _ _ _ _) fun _ =>
        Follows.bind hR (Follows.update fun _ => hR.step (.cursorAdvanced _)) fun _ => receiveWalk_follows hA n

theorem rxReclaim_follows (hA : ∀ slot w v, A .rx slot w v) : Follows R rxReclaim :=
  Follows.bind hR (Follows.getState hR) fun _ => receiveWalk_follows hR hA _

theorem refill_follows (hA : ∀ slot w v, A .rx slot w v) (mode : AllocMode) : ∀ n i, Follows R (refill mode n i)
  | 0, _ => Follows.pure hR true
  | n + 1, i => by
    refine Follows.bind hR (Follows.getState hR) fun s =>
      Follows.bind hR (alloc_follows hR _ _) fun b => ?_
    cases b with
    | none => exact Follows.pure hR _
    | some buf =>
      refine Follows.bind hR (dmaMap_follows hR buf) fun m => ?_
      cases m with
      | none => exact Follows.bind hR (freeBuf_follows hR buf) fun _ => Follows.pure hR _
      | some d =>
        exact Follows.bind hR (Follows.update fun _ => hR.step (.rxEntered i _)) fun _ =>
          Follows.bind hR (rxPost_follows hR.calm_of_ring _ (hA i)) fun _ => refill_follows hA mode n (i + 1)

theorem publishFragment_follows (hA : ∀ slot w v, A .tx slot w v) (cs : CsRequest) (k total j : Nat) (m : Mapped) :
    Follows R (publishFragment cs k total j m) :=
  Follows.bind hR (Follows.getState hR) fun _ =>
    Follows.bind hR (Follows.update fun _ => hR.step (.txEntered _ _)) fun _ =>
      ringPublish_follows hR.calm_of_ring _ _ (hA _)

theorem publishFrom_follows (hA : ∀ slot w v, A .tx slot w v) (k total : Nat) : ∀ j ms, Follows R (publishFrom k total j ms)
  | _, [] => Follows.pure hR ()
  | j, m :: ms => Follows.bind hR (publishFragment_follows hR hA _ _ _ _ m) fun _ => publishFrom_follows hA k total (j + 1) ms

theorem publishPacket_follows (hA : ∀ slot w v, A .tx slot w v) (pkt : Packet) : ∀ ms, Follows R (publishPacket pkt ms)
  | [] => Follows.pure hR ()
  | m :: ms => Follows.bind hR (publishFrom_follows hR hA _ _ 2 ms) fun _ => publishFragment_follows hR hA _ _ _ _ m

theorem transmit_follows (hA : ∀ slot w v, A .tx slot w v) (pkt : Packet) : Follows R (transmit pkt) := by
  refine Follows.bind hR (Follows.getState hR) fun s => ?_
  cases validatePacket s.params pkt with
  | some r => exact Follows.refuse r
  | none =>
    refine Follows.ite (Follows.pure hR _) (Follows.ite (Follows.pure hR _) (Follows.ite (Follows.pure hR _)
      (Follows.bind hR (mapFragments_follows hR _ _) fun r => ?_)))
    cases r with
    | none => exact Follows.bind hR (count_follows hR.calm_of_ring _) fun _ => Follows.pure hR _
    | some ms =>
      exact Follows.bind hR (publishPacket_follows hR hA pkt ms) fun _ =>
        Follows.bind hR (Follows.update fun _ => hR.step (.headAdvanced pkt)) fun _ =>
          Follows.bind hR (backpressure_follows hR.calm_of_ring) fun _ =>
            Follows.bind hR (mmioWrite_follows hR.calm_of_ring (by simp) _) fun _ => Follows.pure hR _

end Rings

end Sys2Proof.Invariants
end

section
/-! SUPPORT. The link, the lifecycle and whole operations follow every relation that their micro-steps keep. -/

-- One theorem at a time: checked together they ask for more threads than the check allows.
set_option Elab.async false

namespace Sys2Proof.Invariants

open Sys2Proof.Machine Sys2Proof.Laws

/-! ### The parameters (R10) -/

/-- What every micro-step but those of creation leaves alone: the parameters, where the rings lie, and the lock. -/
structure HostFrame (s t : State) : Prop where
  params : t.params = s.params
  txBase : t.tx.base = s.tx.base
  rxBase : t.rx.base = s.rx.base
  lock : t.lock = s.lock

theorem RingFrame.host {s t : State} (h : RingFrame s t) : HostFrame s t := ⟨h.params, h.txBase, h.rxBase, h.lock⟩

theorem CommitStep.params {A : Writes} {s t : State} (h : CommitStep A s t) : t.params = s.params := by
  cases h with
  | calm h => exact h.frame.params
  | committed m => rfl

theorem HostStep.frame {A : Writes} {s t : State} (h : HostStep A s t) : HostFrame s t := by
  cases h with
  | ring h => exact h.frame.host
  | control h =>
    cases h with
    | commit h =>
      cases h with
      | calm h => exact (RingStep.calm h).frame.host
      | committed m => exact ⟨rfl, rfl, rfl, rfl⟩
    | control l b c => exact ⟨rfl, rfl, rfl, rfl⟩
  | adapter a => exact ⟨rfl, rfl, rfl, rfl⟩

/-- No micro-step changes the parameters (R10). -/
theorem params_closed : Closed OpStep fun s t => t.params = s.params where
  refl _ := rfl
  trans h h' := h'.trans h
  step h := by
    cases h with
    | host h => exact h.frame.params
    | alloc h =>
      cases h with
      | calm h => exact h.frame.params
      | granted r base h => cases r <;> rfl
      | _ => rfl

theorem CalmStep.any {A : Writes} {s t : State} (h : CalmStep A s t) : CalmStep anyWrite s t := h.mono fun _ _ _ _ _ => trivial

theorem CommitStep.any {A : Writes} {s t : State} (h : CommitStep A s t) : CommitStep anyWrite s t := by
  cases h with
  | calm h => exact .calm h.any
  | committed m => exact .committed m

theorem ControlStep.any {A : Writes} {s t : State} (h : ControlStep A s t) : ControlStep anyWrite s t := by
  cases h with
  | commit h => exact .commit h.any
  | control l b c => exact .control l b c

/-! ### Opaque bits (R42, R115) -/

theorem SameOpaque.trans {p : Params} {u v w : Word32} (h : SameOpaque p u v) (h' : SameOpaque p v w) : SameOpaque p u w :=
  fun b h1 h2 => (h b h1 h2).trans (h' b h1 h2)

/-- A one-bit field's update changes no other bit. -/
theorem getLsbD_putBit_other {n i : Nat} (h : i ≠ n) (x : Word32) (b : Bool) : (putBit n x b).getLsbD i = x.getLsbD i := by
  by_cases hi : i < 32
  · have hm : ∀ v : Word32, ((v &&& fieldMask 1) <<< n).getLsbD i = false := fun v => by
      by_cases hn : i < n
      · simp [hn]
      · simp [getLsbD_fieldMask, show ¬ i - n < 1 by omega]
    have hm' : (fieldMask 1 <<< n).getLsbD i = false := by
      by_cases hn : i < n
      · simp [hn]
      · simp [getLsbD_fieldMask, show ¬ i - n < 1 by omega]
    simp only [putBit, putField, bitField, BitVec.getLsbD_or, BitVec.getLsbD_and, BitVec.getLsbD_not, hm, hm', hi]
    simp
  · rw [BitVec.getLsbD_of_ge _ _ (by omega), BitVec.getLsbD_of_ge _ _ (by omega)]

theorem sameOpaque_putTxEnable (p : Params) (v : Word32) (b : Bool) : SameOpaque p (putTxEnable p v b) v :=
  fun _ h _ => getLsbD_putBit_other h v b

theorem sameOpaque_putFullDuplex (p : Params) (v : Word32) (b : Bool) : SameOpaque p (putFullDuplex p v b) v :=
  fun _ _ h => getLsbD_putBit_other h v b

/-! ### The MAC (R226) -/

section Mac

variable {A : Writes} {R : State → State → Prop} (hR : Closed (CommitStep A) R)

include hR

/-- A read of the MAC's transmit configuration, with the opaque bits of what it answers. -/
theorem mmioReadMac_ensures (s₀ : State) :
    Ensures (fun s => R s₀ s ∧ s.params = s₀.params) mmioReadMac
      (fun v s => (R s₀ s ∧ s.params = s₀.params) ∧ SameOpaque s₀.params v s.dev.macTxcfg) (R s₀) := by
  rintro s hn ⟨hs, hp⟩
  have hi := hR.trans hs (interleave_kept hR.calm_of_commit s)
  have hp' : (interleave s).params = s₀.params := (hostSide_fields (interleave_hostSide s)).1.trans hp
  rw [run_mmioReadMac]
  refine ⟨⟨⟨hR.trans hi (hR.step (.calm (.event _))), hp'⟩, ?_⟩, (hostSide_fault (interleave_hostSide s)).trans hn⟩
  rw [macReadValue, hp']
  exact sameOpaque_putTxEnable _ _ _

/-- A write of the MAC's transmit configuration that changes no opaque bit. -/
theorem mmioWriteMac_ensures (s₀ : State) (w : Word32) :
    Ensures (fun s => (R s₀ s ∧ s.params = s₀.params) ∧ SameOpaque s₀.params w s.dev.macTxcfg) (mmioWrite .macTxcfg (.word w))
      (fun _ s => (R s₀ s ∧ s.params = s₀.params) ∧ s.dev.macTxcfg = w) (R s₀) := by
  rintro s hn ⟨⟨hs, hp⟩, hw⟩
  have hi := hR.trans hs (interleave_kept hR.calm_of_commit s)
  have hf := hostSide_fields (interleave_hostSide s)
  have hp' : (interleave s).params = s₀.params := hf.1.trans hp
  have hk : KeepsOpaque (interleave s) .macTxcfg (.word w) := by
    rintro w' - ⟨⟩
    simpa only [hp', hf] using hw
  have hstep : CalmStep A (interleave s) (regEffect .macTxcfg (.word w) (drain (interleave s))) := .register _ _ hk
  rw [run_mmioWrite]
  exact ⟨⟨⟨hR.trans (hR.trans hi (hR.step (.calm hstep))) (hR.step (.calm (.event _))), hstep.frame.params.trans hp'⟩, rfl⟩,
    (drain_fault _).trans ((hostSide_fault (interleave_hostSide s)).trans hn)⟩

theorem drainPoll_ensures (s₀ : State) : ∀ n,
    Ensures (fun s => R s₀ s ∧ s.params = s₀.params) (drainPoll n)
      (fun r s => (R s₀ s ∧ s.params = s₀.params) ∧ ∀ w, r = some w → SameOpaque s₀.params w s.dev.macTxcfg) (R s₀)
  | 0 => Ensures.pure fun _ h => ⟨h, nofun⟩
  | n + 1 => by
    refine Ensures.bind (mmioReadMac_ensures hR s₀) fun v => Ensures.read fun u hu => Ensures.ite (fun _ => ?_) fun _ => ?_
    · exact (drainPoll_ensures s₀ n).before fun s h => h ▸ hu.1
    · refine Ensures.pure fun s h => ?_
      subst h
      exact ⟨hu.1, fun w hw => Option.some.inj hw ▸ hu.2⟩

/-- With the parameters, which no program changes. -/
theorem Closed.withParams : Closed (CommitStep A) fun s t => R s t ∧ t.params = s.params :=
  ⟨⟨fun s => ⟨hR.refl s, rfl⟩, fun h h' => ⟨hR.trans h.1 h'.1, h'.2.trans h.2⟩⟩, fun h => ⟨hR.step h, h.params⟩⟩

theorem linkCommit_follows (m : Mode) : Follows R (linkCommit m) := by
  refine Ensures.follows fun s₀ => ?_
  refine Ensures.bind ((mmioReadMac_ensures hR s₀).before fun s h => ⟨h ▸ hR.refl s, h ▸ rfl⟩) fun v => Ensures.read ?_
  rintro u ⟨⟨hu, hp⟩, hv⟩
  simp only [hp]
  refine Ensures.bind ((mmioWriteMac_ensures hR s₀ _).before fun s h =>
    h ▸ ⟨⟨hu, hp⟩, (sameOpaque_putTxEnable _ _ _).trans hv⟩) fun _ => ?_
  refine Ensures.bind ((drainPoll_ensures hR s₀ _).before fun s h => h.1) fun r => ?_
  cases r with
  | none => exact Ensures.pure fun s h => h.1.1
  | some w =>
    refine Ensures.bind ((mmioWriteMac_ensures hR s₀ _).before fun s h =>
      ⟨h.1, (sameOpaque_putFullDuplex _ _ _).trans (h.2 w rfl)⟩) fun _ => ?_
    refine Ensures.bind ((mmioWriteMac_ensures hR s₀ _).before fun s h =>
      ⟨h.1, h.2 ▸ sameOpaque_putTxEnable _ _ _⟩) fun _ => ?_
    exact Ensures.bind (Q := fun _ => R s₀) (Ensures.update fun s h => hR.trans h.1.1 (hR.step (.committed (some m))))
      fun _ => Ensures.pure fun _ h => h

end Mac

section Control

variable {A : Writes} {R : State → State → Prop} (hR : Closed (ControlStep A) R)

include hR

theorem updateLink_follows (f : LinkState → LinkState) : Follows R (updateLink f) :=
  Follows.update fun s => hR.step (.control (f s.link) s.timerArmed s.irqAcquired)

/-! ### The link machine -/

theorem armTimer_follows : Follows R armTimer :=
  Follows.update fun s => hR.step (.control s.link true s.irqAcquired)

theorem cancelTimer_follows : Follows R cancelTimer :=
  Follows.update fun s => hR.step (.control s.link false s.irqAcquired)

theorem enterWait_follows (st : LinkFsm) : Follows R (update (enterWait st)) :=
  Follows.update fun s => hR.step (.control { s.link with state := st, tick := 0 } true s.irqAcquired)

theorem setAcquired_follows (b : Bool) : Follows R (update fun s => { s with irqAcquired := b }) :=
  Follows.update fun s => hR.step (.control s.link s.timerArmed b)

theorem linkForce_follows (p : Fin 4) : Follows R (linkForce p) :=
  Follows.bind hR (updateLink_follows hR _) fun _ => Follows.bind hR (Follows.getState hR) fun _ =>
    Follows.bind hR (mgmtWrite_follows hR.calm_of_control _ _) fun _ => enterWait_follows hR _

/-- Starting negotiation once the restart of autonegotiation is written (R224). -/
theorem ackOrForce_follows (n : Nat) : Follows R (do
    let acked ← ackPoll n
    if acked then update (enterWait .arbitrationWait)
    else do
      emit (.log .anRestartNoAck)
      linkForce 0) :=
  Follows.bind hR (ackPoll_follows hR.calm_of_control n) fun _ => Follows.ite (enterWait_follows hR _)
    (Follows.bind hR (emit_follows hR.calm_of_control _) fun _ => linkForce_follows hR 0)

theorem linkBegin_follows : Follows R linkBegin :=
  Follows.bind hR (Follows.getState hR) fun _ => Follows.ite (Follows.refuse _)
    (Follows.bind hR (updateLink_follows hR _) fun _ => Follows.ite
      (Follows.bind hR (mgmtWrite_follows hR.calm_of_control _ _) fun _ =>
        Follows.bind hR (mgmtWrite_follows hR.calm_of_control _ _) fun _ => ackOrForce_follows hR _)
      (linkForce_follows hR _))

theorem restartNegotiation_follows : Follows R restartNegotiation :=
  Follows.bind hR (cancelTimer_follows hR) fun _ => Follows.bind hR (updateLink_follows hR _) fun _ => linkBegin_follows hR

theorem reconfigureLink_follows (an : AutonegArg) (sp : Nat) (dx : DuplexArg) : Follows R (reconfigureLink an sp dx) := by
  refine Follows.bind hR (Follows.getState hR) fun s => ?_
  cases validRequest an sp dx s.link with
  | none => exact Follows.pure hR _
  | some l =>
    exact Follows.ite (Follows.pure hR _) (Follows.bind hR (updateLink_follows hR _) fun _ =>
      Follows.bind hR (restartNegotiation_follows hR) fun _ => Follows.pure hR _)

theorem fallToForced_follows (k : LogKind) : Follows R (fallToForced k) :=
  Follows.bind hR (emit_follows hR.calm_of_control _) fun _ => linkForce_follows hR 0

theorem commitResolved_follows : ∀ o, Follows R (commitResolved o)
  | none => Follows.pure hR false
  | some m => linkCommit_follows hR.commit_of_control m

theorem tickArbitration_follows : Follows R tickArbitration :=
  Follows.bind hR (Follows.getState hR) fun _ => Follows.bind hR (mgmtRead_follows hR.calm_of_control _) fun _ => Follows.ite
    (Follows.bind hR (mgmtRead_follows hR.calm_of_control _) fun _ =>
      Follows.bind hR (commitResolved_follows hR _) fun _ => Follows.ite (enterWait_follows hR _) (fallToForced_follows hR _))
    (Follows.ite (fallToForced_follows hR _) (armTimer_follows hR))

theorem tickLinkUp_follows : Follows R tickLinkUp :=
  Follows.bind hR (Follows.getState hR) fun _ => Follows.bind hR (mgmtRead_follows hR.calm_of_control _) fun _ => Follows.ite
    (Follows.bind hR (updateLink_follows hR _) fun _ => Follows.bind hR (emit_follows hR.calm_of_control _) fun _ =>
      updateLink_follows hR _)
    (Follows.ite
      (Follows.bind hR (emit_follows hR.calm_of_control _) fun _ => Follows.bind hR (updateLink_follows hR _) fun _ =>
        armTimer_follows hR)
      (armTimer_follows hR))

theorem toggleTransceiver_follows (b : Bool) : Follows R (toggleTransceiver b) :=
  Follows.bind hR (Follows.getState hR) fun _ => Follows.bind hR (mgmtRead_follows hR.calm_of_control _) fun _ =>
    Follows.bind hR (mgmtWrite_follows hR.calm_of_control _ _) fun _ => armTimer_follows hR

/-- The report of a forced mode that is up (R237). -/
def reportForced (done : Bool) (m : Mode) : M Unit := do
  (if done then pure () else emit (.log .forcedCommitFailed))
  updateLink fun l => { l with up := true }
  emit (.forcedLinkUp m)
  updateLink fun l => { l with state := .asleep }

omit hR in
theorem forcedUp_eq : forcedUp = (do
    let s ← getState
    let done ← linkCommit (permMode s.link.perm)
    reportForced done (permMode s.link.perm)) := by
  unfold forcedUp reportForced
  congr 1
  funext s
  congr 1
  funext done
  cases done <;> simp

theorem reportForced_follows (done : Bool) (m : Mode) : Follows R (reportForced done m) :=
  Follows.bind hR (Follows.ite (Follows.pure hR ()) (emit_follows hR.calm_of_control _)) fun _ =>
    Follows.bind hR (updateLink_follows hR _) fun _ => Follows.bind hR (emit_follows hR.calm_of_control _) fun _ =>
      updateLink_follows hR _

theorem forcedUp_follows : Follows R forcedUp := by
  rw [forcedUp_eq]
  exact Follows.bind hR (Follows.getState hR) fun _ => Follows.bind hR (linkCommit_follows hR.commit_of_control _) fun _ =>
    reportForced_follows hR _ _

theorem countTick_follows : Follows R countTick := updateLink_follows hR _

/-! ### Steps 6 to 9 of a reset (R339 to R342) -/

/-- Steps 6 and 7 of a reset: the fixed parameters and the MAC (R339, R340). -/
def resetMac : M Unit := do
  let s ← getState
  writeGroup .fixedParams (fixedWrites s)
  let v ← mmioReadMac
  mmioWrite .macTxcfg (.word (putFullDuplex s.params (putTxEnable s.params v true) false))

/-- Steps 7 to 9 of a reset: DMA, interrupts, the queue and the link (R340 to R342). -/
def resetRun : M Unit := do
  mmioWrite .txrxCtrl .enable
  mmioWrite .intMask .armed
  update (setStopped false)
  emit .queueWake
  setAdapter .running
  restartNegotiation

omit hR in
theorem resetStart_eq : resetStart = (do resetMac; resetRun) := by
  simp only [resetMac, resetRun, bind_assoc]
  rfl

omit hR in
theorem resetMac_follows (hR : Closed (CommitStep A) R) : Follows R resetMac := by
  refine Ensures.follows fun s₀ => Ensures.read ?_
  rintro u rfl
  refine Ensures.bind (Follows.ensures (P' := fun s => R u s ∧ s.params = u.params)
    (writeGroup_follows hR.withParams.calm_of_commit (reg := .fixedParams) (fun _ => nofun) _)
    (fun s t h h' => h ▸ h') fun s t h h' => h ▸ h'.1) fun _ => ?_
  refine Ensures.bind (mmioReadMac_ensures hR u) fun v => ?_
  exact ((mmioWriteMac_ensures hR u _).before fun s h =>
    ⟨h.1, ((sameOpaque_putFullDuplex _ _ _).trans (sameOpaque_putTxEnable _ _ _)).trans h.2⟩).after fun _ _ h => h.1.1

end Control

/-! ### Reset and lifecycle (R330 to R344, R260 to R264) -/

section Ops

variable {R : State → State → Prop} (hR : Closed (HostStep anyWrite) R)

include hR

omit hR in
theorem setAdapter_follows {A : Writes} (hR : Closed (HostStep A) R) (a : AdapterState) : Follows R (setAdapter a) :=
  Follows.update fun _ => hR.step (.adapter a)

omit hR in
theorem notReady_follows {A : Writes} (hR : Closed (HostStep A) R) : Follows R notReady :=
  Follows.bind hR (setAdapter_follows hR _) fun _ => Follows.bind hR (updateLink_follows hR.control_of_host _) fun _ =>
    armTimer_follows hR.control_of_host

omit hR in
theorem resetRun_follows {A : Writes} (hR : Closed (HostStep A) R) : Follows R resetRun :=
  Follows.bind hR (mmioWrite_follows hR.calm_of_host (by simp) _) fun _ =>
    Follows.bind hR (mmioWrite_follows hR.calm_of_host (by simp) _) fun _ =>
      Follows.bind hR (setStopped_follows hR.calm_of_host false) fun _ =>
        Follows.bind hR (emit_follows hR.calm_of_host _) fun _ =>
          Follows.bind hR (setAdapter_follows hR _) fun _ => restartNegotiation_follows hR.control_of_host

omit hR in
theorem resetStart_follows {A : Writes} (hR : Closed (HostStep A) R) : Follows R resetStart := by
  rw [resetStart_eq]
  exact Follows.bind hR (resetMac_follows hR.control_of_host.commit_of_control) fun _ => resetRun_follows hR


theorem ringReset_any (r : Ring) : Follows R (ringReset r) := ringReset_follows hR.ring_of_host fun _ _ => trivial

theorem resetRelease_follows : Follows R resetRelease :=
  Follows.bind hR (cancelTimer_follows hR.control_of_host) fun _ =>
    Follows.bind hR (updateLink_follows hR.control_of_host _) fun _ =>
      Follows.bind hR (mmioWrite_follows hR.calm_of_host (by simp) _) fun _ =>
        Follows.bind hR (mmioWrite_follows hR.calm_of_host (by simp) _) fun _ =>
          Follows.bind hR (ringReset_any hR .tx) fun _ => Follows.bind hR (ringReset_any hR .rx) fun _ =>
            setStopped_follows hR.calm_of_host true

/-- What a reset does once the receive ring is refilled, or is not (R334 to R337). -/
def resetFinish (filled : Bool) : M OpOutcome :=
  if filled then do
    let known ← drawTcvrKnown
    if known then do
      resetStart
      pure .ok
    else do
      emit (.log .linkTypeUnknown)
      notReady
      pure .linkTypeUnknown
  else do
    ringReset .rx
    emit (.log .rxRefillFailed)
    notReady
    pure .resourceExhausted

omit hR in
theorem resetInit_eq (ctx : Context) : resetInit ctx = (do
    resetRelease
    let s ← getState
    let filled ← refill (allocMode ctx) s.params.nRx 0
    resetFinish filled) := rfl

theorem resetFinish_follows (filled : Bool) : Follows R (resetFinish filled) :=
  Follows.ite
    (Follows.bind hR (drawTcvrKnown_follows hR.calm_of_host) fun _ => Follows.ite
      (Follows.bind hR (resetStart_follows hR) fun _ => Follows.pure hR _)
      (Follows.bind hR (emit_follows hR.calm_of_host _) fun _ =>
        Follows.bind hR (notReady_follows hR) fun _ => Follows.pure hR _))
    (Follows.bind hR (ringReset_any hR .rx) fun _ => Follows.bind hR (emit_follows hR.calm_of_host _) fun _ =>
      Follows.bind hR (notReady_follows hR) fun _ => Follows.pure hR _)

theorem resetInit_follows (ctx : Context) : Follows R (resetInit ctx) := by
  rw [resetInit_eq]
  exact Follows.bind hR (resetRelease_follows hR) fun _ => Follows.bind hR (Follows.getState hR) fun _ =>
    Follows.bind hR (refill_follows hR.ring_of_host (fun _ _ _ => trivial) _ _ _) fun filled => resetFinish_follows hR filled

theorem resetAndReturn_follows (ctx : Context) : Follows R (resetAndReturn ctx) :=
  Follows.bind hR (resetInit_follows hR ctx) fun _ => awaitFreeSlots_follows hR.calm_of_host

theorem teardown_follows : Follows R teardown :=
  Follows.bind hR (cancelTimer_follows hR.control_of_host) fun _ =>
    Follows.bind hR (mmioWrite_follows hR.calm_of_host (by simp) _) fun _ =>
      Follows.bind hR (mmioWrite_follows hR.calm_of_host (by simp) _) fun _ =>
        Follows.bind hR (ringReset_any hR .tx) fun _ => Follows.bind hR (ringReset_any hR .rx) fun _ =>
          Follows.bind hR (setStopped_follows hR.calm_of_host true) fun _ =>
            Follows.bind hR (updateLink_follows hR.control_of_host _) fun _ =>
              Follows.bind hR (setAcquired_follows hR.control_of_host false) fun _ =>
                Follows.bind hR (emit_follows hR.calm_of_host _) fun _ => setAdapter_follows hR _

theorem openAdapter_follows : Follows R openAdapter :=
  Follows.bind hR (Follows.getState hR) fun _ => Follows.ite (Follows.pure hR _)
    (Follows.bind hR (drawIrqAcquire_follows hR.calm_of_host) fun _ => Follows.ite
      (Follows.bind hR (setAcquired_follows hR.control_of_host true) fun _ =>
        Follows.bind hR (emit_follows hR.calm_of_host _) fun _ =>
          Follows.bind hR (resetInit_follows hR _) fun _ => Follows.ite (Follows.pure hR _)
            (Follows.bind hR (teardown_follows hR) fun _ =>
              Follows.bind hR (awaitFreeSlots_follows hR.calm_of_host) fun _ => Follows.pure hR _))
      (Follows.pure hR _))

theorem closeAdapter_follows : Follows R closeAdapter :=
  Follows.bind hR (Follows.getState hR) fun _ => Follows.ite (Follows.pure hR _)
    (Follows.bind hR (teardown_follows hR) fun _ =>
      Follows.bind hR (awaitFreeSlots_follows hR.calm_of_host) fun _ => Follows.pure hR _)

theorem txTimeout_follows : Follows R txTimeout :=
  Follows.bind hR (Follows.getState hR) fun _ => Follows.ite (Follows.pure hR _)
    (Follows.bind hR (resetAndReturn_follows hR _) fun _ => Follows.pure hR _)

/-! ### The tick and the interrupt (R230 to R241, R210 to R217) -/

theorem forcedDown_follows : Follows R forcedDown :=
  Follows.bind hR (Follows.getState hR) fun _ => Follows.ite
    (Follows.ite
      (Follows.bind hR (emit_follows hR.calm_of_host _) fun _ => resetAndReturn_follows hR _)
      (linkForce_follows hR.control_of_host _))
    (armTimer_follows hR.control_of_host)

theorem tickForced_follows : Follows R tickForced :=
  Follows.bind hR (Follows.getState hR) fun _ => Follows.ite (toggleTransceiver_follows hR.control_of_host true)
    (Follows.ite (toggleTransceiver_follows hR.control_of_host false)
      (Follows.bind hR (mgmtRead_follows hR.calm_of_host _) fun _ => Follows.ite (forcedUp_follows hR.control_of_host)
        (forcedDown_follows hR)))

theorem linkTick_follows : Follows R linkTick := by
  refine Follows.bind hR (Follows.getState hR) fun s => ?_
  split
  · exact Follows.pure hR ()
  · exact resetAndReturn_follows hR _
  · split
    · exact Follows.pure hR ()
    · exact Follows.pure hR ()
    · exact Follows.bind hR (countTick_follows hR.control_of_host) fun _ => tickArbitration_follows hR.control_of_host
    · exact Follows.bind hR (countTick_follows hR.control_of_host) fun _ => tickLinkUp_follows hR.control_of_host
    · exact Follows.bind hR (countTick_follows hR.control_of_host) fun _ => tickForced_follows hR

theorem timerFiring_follows : Follows R timerFiring :=
  Follows.bind hR (cancelTimer_follows hR.control_of_host) fun _ => Follows.bind hR (linkTick_follows hR) fun _ =>
    Follows.pure hR _

/-- The walks of an interrupt that is not fatal (R213 to R216). -/
def irqWalks (txDone rxDone : Bool) : M OpOutcome := do
  (if txDone then txReclaim else pure ())
  (if rxDone then rxReclaim else pure ())
  pure .handled

omit hR in
theorem irqHandler_eq : irqHandler = (do
    let v ← mmioReadStatus
    let s ← getState
    if v = 0 then pure .notMine
    else if s.adapter ≠ .running then pure .handled
    else if isFatal s.params.status v then do
      emit (.log .fatalError)
      resetAndReturn .interrupt
      pure .handled
    else irqWalks (isTxDone s.params.status v) (isRxDone s.params.status v)) := by
  have h : ∀ a b : Bool, irqWalks a b = (if a then (do
      txReclaim
      (if b then (do rxReclaim; pure .handled) else pure .handled))
    else (if b then (do rxReclaim; pure .handled) else pure .handled)) := by
    intro a b
    cases a <;> cases b <;> simp [irqWalks]
  unfold irqHandler
  simp only [h]

omit hR in
theorem irqWalks_follows {A : Writes} (hR : Closed (RingStep A) R) (hA : ∀ slot w v, A .rx slot w v) (a b : Bool) :
    Follows R (irqWalks a b) :=
  Follows.bind hR (Follows.ite (txReclaim_follows hR) (Follows.pure hR ())) fun _ =>
    Follows.bind hR (Follows.ite (rxReclaim_follows hR hA) (Follows.pure hR ())) fun _ => Follows.pure hR _

theorem irqHandler_follows : Follows R irqHandler := by
  rw [irqHandler_eq]
  exact Follows.bind hR (mmioReadStatus_follows hR.calm_of_host) fun _ => Follows.bind hR (Follows.getState hR) fun _ =>
    Follows.ite (Follows.pure hR _) (Follows.ite (Follows.pure hR _) (Follows.ite
      (Follows.bind hR (emit_follows hR.calm_of_host _) fun _ => Follows.bind hR (resetAndReturn_follows hR _) fun _ =>
        Follows.pure hR _)
      (irqWalks_follows hR.ring_of_host (fun _ _ _ => trivial) _ _)))

end Ops

/-! ### `RING_ALLOC` (R130) -/

/-- A granted draw of ring memory keeps the contract of R293. -/
theorem grantable_of_check {s : State} {r : Ring} {n b base : Nat} (hn : n = capacity s.params r) (hnone : ringBase s r = none)
    (h : checkRingMemory s r n b = some base) : Grantable s r base := by
  subst hn
  unfold checkRingMemory at h
  split at h
  · rename_i hc
    cases h
    exact ⟨hnone, ⟨hc.1, hc.2.1⟩, hc.2.2⟩
  · cases h

section Alloc

variable {R : State → State → Prop} (hR : Closed AllocStep R)

include hR

theorem drawRingMemory_ensures (s₀ : State) (r : Ring) (n : Nat) :
    Ensures (fun s => R s₀ s ∧ n = capacity s.params r ∧ ringBase s r = none) (drawRingMemory r n)
      (fun d s => R s₀ s ∧ ∀ base, d = some base → Grantable s r base) (R s₀) := by
  refine Ensures.bind (Q := fun _ s => R s₀ s ∧ n = capacity s.params r ∧ ringBase s r = none) ?_ fun _ => ?_
  · rintro s hs0 ⟨hs, hn, hb⟩
    have hf := calmFrame_of_hostSide (interleave_hostSide s)
    refine ⟨⟨hR.trans hs (interleave_kept hR.calm_of_alloc s), by rw [hf.params]; exact hn, ?_⟩,
      (hostSide_fault (interleave_hostSide s)).trans hs0⟩
    cases r <;> simpa [ringBase, hf.txBase, hf.rx] using hb
  · rintro s hs0 ⟨hs, hn, hb⟩
    have hcheck : ∀ (o : Option Nat) base, o.bind (checkRingMemory s r n) = some base → Grantable s r base := by
      intro o base h
      obtain ⟨b, -, h⟩ := Option.bind_eq_some_iff.mp h
      exact grantable_of_check hn hb h
    cases hd : s.draws.ringMemory with
    | nil =>
      simp only [hd]
      exact ⟨⟨hR.trans hs (countDraw_kept hR.calm_of_alloc s), hcheck _⟩, hs0⟩
    | cons v rest =>
      simp only [hd]
      exact ⟨⟨hR.trans hs (hR.calm_of_alloc.step (.draws { s.draws with ringMemory := rest } s.drawCount)), hcheck v⟩, hs0⟩

theorem ringAlloc_follows (r : Ring) (n : Nat) : Follows R (ringAlloc r n) := by
  refine Ensures.follows fun s₀ => Ensures.read ?_
  rintro u rfl
  refine Ensures.ite (fun _ => Ensures.refuse) fun hn => Ensures.ite (fun _ => Ensures.refuse) fun hb => ?_
  simp only [Bool.or_eq_true, bne_iff_ne, ne_eq, not_or, not_not, Option.isSome_iff_ne_none] at hn hb
  refine Ensures.bind ((drawRingMemory_ensures hR u r n).before fun s h => by subst h; exact ⟨hR.refl s, hn.2, hb⟩) fun d => ?_
  cases d with
  | none =>
    exact Ensures.bind (Q := fun _ => R u) (Ensures.update fun s h => hR.trans h.1 (hR.step .absent)) fun _ =>
      Ensures.pure fun _ h => h
  | some base =>
    refine Ensures.bind (Q := fun _ s => R u s ∧ Grantable s r base) ?_ fun _ => ?_
    · refine (Ensures.forRange (I := fun _ s => R u s ∧ Grantable s r base) (k := n) (fun i _ => ?_) n 0 (by omega)).before
        fun s h => ⟨h.1, h.2 base rfl⟩
      exact Ensures.update fun s h => ⟨hR.trans h.1 (hR.step (.neutral base i)), h.2⟩
    · exact Ensures.bind (Q := fun _ => R u) (Ensures.update
        (fun s h => hR.trans h.1 (hR.step (.granted r base h.2))) fun s => by cases r <;> rfl)
        fun _ => Ensures.pure fun _ h => h

end Alloc

/-! ### Whole operations -/

/-- How an operation runs: as an agent step, as a host operation in a context, or inside the operation that invokes it (R120, R314). -/
inductive Running where
  | agent (a : AgentStep)
  | host (ctx : Context) (body : M OpOutcome)
  | internal (body : M OpOutcome)

/-- How each operation runs. -/
def runningOf : Instr → Running
  | .ringAlloc r n => .internal (ringAlloc r n)
  | .ringNextFree => .internal ringNextFree
  | .ringPublish r slot a f => .internal (do ringPublish r slot a f; pure .ok)
  | .ringTryReclaim r slot => .internal (do
      let d ← ringTryReclaim r slot
      match d with
      | none => pure .notReady
      | some (f, a) => pure (.desc f a))
  | .ringReset r => .internal (do ringReset r; pure .ok)
  | .transmit pkt => .host .process (transmit pkt)
  | .txReclaim => .internal (do txReclaim; pure .ok)
  | .rxReclaim => .internal (do rxReclaim; pure .ok)
  | .rxPost slot h => .internal (do rxPost slot h; pure .ok)
  | .rxRecycle slot => .internal (do rxRecycle slot; pure .ok)
  | .irq => .host .interrupt irqHandler
  | .linkBegin => .internal (do linkBegin; pure .ok)
  | .linkTick => .host .timer timerFiring
  | .linkCommit m => .internal (do
      let done ← linkCommit m
      if done then pure .commitOk else pure .commitFailed)
  | .linkForce p => .internal (do linkForce p; pure .ok)
  | .reconfigureLink an sp dx => .host .process (reconfigureLink an sp dx)
  | .openAdapter => .host .process openAdapter
  | .closeAdapter => .host .process closeAdapter
  | .txTimeout => .host .process txTimeout
  | .setMcast req => .host .process (setMcast req)
  | .resetInit ctx => .internal (resetInit ctx)
  | .envVisible a => .agent (.envVisible a)
  | .devTxDone slot => .agent (.devTxDone slot)
  | .devRxDone slot len ov csum => .agent (.devRxDone slot len ov csum)
  | .devStatus bits => .agent (.devStatus bits)
  | .macDrained => .agent .macDrained
  | .timerFire => .host .timer timerFiring
  | .watchdogFire => .host .process txTimeout

/-- What a next state says of how the operation ran. -/
def RanTo (s t : State) : Running → Prop
  | .agent a => agentStep a s = some t
  | .host ctx body => s.lock = none ∧ finish leave (body (enter ctx s)) = .next t
  | .internal body => finish conclude (body s) = .next t

theorem running_next {s t : State} {g : Fault → Host.Outcome State Fault Refusal} {o : Host.Outcome State Fault Refusal}
    (h : running s g o = .next t) (hg : ∀ r, g r ≠ .next t) : Alive s ∧ o = .next t := by
  unfold running at h
  split at h
  · exact absurd h (hg _)
  · rename_i hf
    split at h
    · cases h
    · rename_i ha
      exact ⟨⟨hf, by simpa using ha⟩, h⟩

theorem hostOp_next {ctx : Context} {body : M OpOutcome} {s t : State} (h : hostOp ctx body s = .next t) :
    Alive s ∧ RanTo s t (.host ctx body) := by
  obtain ⟨ha, h⟩ := running_next h fun _ => nofun
  split at h
  · cases h
  · exact ⟨ha, ‹_›, h⟩

theorem internalOp_next {body : M OpOutcome} {s t : State} (h : internalOp body s = .next t) :
    Alive s ∧ RanTo s t (.internal body) := running_next h fun _ => nofun

theorem agentOp_next {a : AgentStep} {s t : State} (h : agentOp a s = .next t) : Alive s ∧ RanTo s t (.agent a) := by
  obtain ⟨ha, h⟩ := running_next h fun _ => nofun
  split at h
  · cases h
    exact ⟨ha, ‹_›⟩
  · cases h

theorem agentEntry_next {b : Bool} {ctx : Context} {body : M OpOutcome} {s t : State} (h : agentEntry b ctx body s = .next t) :
    Alive s ∧ RanTo s t (.host ctx body) := by
  obtain ⟨-, h⟩ := running_next h fun _ => nofun
  split at h
  · exact hostOp_next h
  · cases h

/-- An operation that answers a next state ran in a state that was alive, to that state. -/
theorem exec_next {i : Instr} {s t : State} (h : exec i s = .next t) : Alive s ∧ RanTo s t (runningOf i) := by
  cases i with
  | irq =>
    obtain ⟨-, h⟩ := running_next h fun _ => nofun
    split at h
    · exact hostOp_next h
    · cases h
  | timerFire => exact agentEntry_next h
  | watchdogFire => exact agentEntry_next h
  | transmit _ => exact hostOp_next h
  | linkTick => exact hostOp_next h
  | reconfigureLink _ _ _ => exact hostOp_next h
  | openAdapter => exact hostOp_next h
  | closeAdapter => exact hostOp_next h
  | txTimeout => exact hostOp_next h
  | setMcast _ => exact hostOp_next h
  | envVisible _ => exact agentOp_next h
  | devTxDone _ => exact agentOp_next h
  | devRxDone _ _ _ _ => exact agentOp_next h
  | devStatus _ => exact agentOp_next h
  | macDrained => exact agentOp_next h
  | _ => exact internalOp_next h

/-- What runs follows the relation. -/
def RunFollows (R : State → State → Prop) : Running → Prop
  | .agent a => ∀ s t, agentStep a s = some t → R s t
  | .host _ body => Follows R body
  | .internal body => Follows R body

/-- Every operation but creation follows a relation that every micro-step but those of creation keeps. -/
theorem runningOf_follows_host {R : State → State → Prop} (hR : Closed (HostStep anyWrite) R) {i : Instr}
    (hi : ∀ r n, i ≠ .ringAlloc r n) : RunFollows R (runningOf i) := by
  have hok : ∀ {m : M Unit}, Follows R m → Follows R (do m; pure OpOutcome.ok) := fun h =>
    Follows.bind hR h fun _ => Follows.pure hR _
  have hagent : ∀ a s t, agentStep a s = some t → R s t := fun a s t h => hR.calm_of_host.step (.agent h)
  cases i with
  | ringAlloc r n => exact absurd rfl (hi r n)
  | ringNextFree => exact ringNextFree_follows hR.calm_of_host
  | ringPublish r slot a f => exact hok (ringPublish_follows hR.calm_of_host a f fun _ _ => trivial)
  | ringTryReclaim r slot =>
    refine Follows.bind hR (ringTryReclaim_follows hR.calm_of_host r slot) fun d => ?_
    cases d <;> exact Follows.pure hR _
  | ringReset r => exact hok (ringReset_any hR r)
  | transmit pkt => exact transmit_follows hR.ring_of_host (fun _ _ _ => trivial) pkt
  | txReclaim => exact hok (txReclaim_follows hR.ring_of_host)
  | rxReclaim => exact hok (rxReclaim_follows hR.ring_of_host fun _ _ _ => trivial)
  | rxPost slot h => exact hok (rxPost_follows hR.calm_of_host h fun _ _ => trivial)
  | rxRecycle slot => exact hok (rxRecycle_follows hR.calm_of_host fun _ _ => trivial)
  | irq => exact irqHandler_follows hR
  | linkBegin => exact hok (linkBegin_follows hR.control_of_host)
  | linkTick => exact timerFiring_follows hR
  | linkCommit m =>
    exact Follows.bind hR (linkCommit_follows hR.control_of_host.commit_of_control m) fun _ =>
      Follows.ite (Follows.pure hR _) (Follows.pure hR _)
  | linkForce p => exact hok (linkForce_follows hR.control_of_host p)
  | reconfigureLink an sp dx => exact reconfigureLink_follows hR.control_of_host an sp dx
  | openAdapter => exact openAdapter_follows hR
  | closeAdapter => exact closeAdapter_follows hR
  | txTimeout => exact txTimeout_follows hR
  | setMcast req => exact setMcast_follows hR.calm_of_host req
  | resetInit ctx => exact resetInit_follows hR ctx
  | timerFire => exact timerFiring_follows hR
  | watchdogFire => exact txTimeout_follows hR
  | envVisible _ => exact hagent _
  | devTxDone _ => exact hagent _
  | devRxDone _ _ _ _ => exact hagent _
  | devStatus _ => exact hagent _
  | macDrained => exact hagent _

/-- Every operation follows a relation that every micro-step keeps. -/
theorem runningOf_follows {R : State → State → Prop} (hR : Closed OpStep R) (i : Instr) : RunFollows R (runningOf i) := by
  by_cases hi : ∃ r n, i = .ringAlloc r n
  · obtain ⟨r, n, rfl⟩ := hi
    exact ringAlloc_follows hR.alloc_of_op r n
  · exact runningOf_follows_host hR.host_of_op fun r n h => hi ⟨r, n, h⟩

/-- How a program's contract reads off the next state of an operation that runs it: it returned, or a fault is recorded. -/
theorem Ends.next {Q : OpOutcome → State → Prop} {E : State → Prop} {back : OpOutcome → State → State}
    {x : EStateM.Result Stop State OpOutcome} {t : State} (h : Ends Q E x) (hx : finish back x = .next t) :
    (∃ o u, Q o u ∧ u.fault = none ∧ t = back o u) ∨ E t ∧ t.fault ≠ none := by
  rcases finish_next hx with ⟨o, u, rfl, rfl⟩ | rfl
  · exact .inl ⟨o, u, h.1, h.2, rfl⟩
  · exact .inr h

/-- An operation keeps a relation that its micro-steps, its entry and its return keep. -/
theorem exec_kept {R : State → State → Prop} (hR : Closed OpStep R) (henter : ∀ ctx s, R s (enter ctx s))
    (hleave : ∀ o s, R s (leave o s)) (hconclude : ∀ o s, R s (conclude o s)) {i : Instr} {s t : State}
    (h : exec i s = .next t) : R s t := by
  have hf := runningOf_follows hR i
  obtain ⟨⟨hs, -⟩, hr⟩ := exec_next h
  cases hi : runningOf i with
  | agent a =>
    rw [hi] at hf hr
    exact hf s t hr
  | host ctx body =>
    rw [hi] at hf hr
    rcases Ends.next (hf (enter ctx s) hs) hr.2 with ⟨o, u, hu, -, rfl⟩ | ⟨hu, -⟩
    · exact hR.trans (hR.trans (henter ctx s) hu) (hleave o u)
    · exact hR.trans (henter ctx s) hu
  | internal body =>
    rw [hi] at hf hr
    rcases Ends.next (hf s hs) hr with ⟨o, u, hu, -, rfl⟩ | ⟨hu, -⟩
    · exact hR.trans hu (hconclude o u)
    · exact hu

/-- A step changes nothing, or runs the operation of the first waiting command; the parameters are valid. -/
theorem step_next {s t : State} (h : step s = .next t) :
    paramsValid s.params = true ∧ (Alive s ∧ t = s ∨ ∃ i, exec i (dropFirst s) = .next t) := by
  have hadm : ∀ {o : Host.Outcome State Fault Refusal}, admitted s o = .next t → paramsValid s.params = true ∧ o = .next t := by
    intro o h
    unfold admitted at h
    split at h
    · exact ⟨‹_›, h⟩
    · cases h
  unfold step at h
  split at h
  · obtain ⟨hp, h⟩ := hadm h
    obtain ⟨ha, h⟩ := running_next h fun _ => nofun
    cases h
    exact ⟨hp, .inl ⟨ha, rfl⟩⟩
  · obtain ⟨hp, h⟩ := hadm h
    unfold take at h
    split at h
    · cases h
    · exact ⟨hp, .inr ⟨_, h⟩⟩

/-- A step keeps a relation that the micro-steps of operations keep, and that sees nothing of lock, outcome and queue. -/
theorem step_kept {R : State → State → Prop} (hR : Closed OpStep R) (henter : ∀ ctx s, R s (enter ctx s))
    (hleave : ∀ o s, R s (leave o s)) (hconclude : ∀ o s, R s (conclude o s)) (hdrop : ∀ s, R s (dropFirst s)) {s t : State}
    (h : step s = .next t) : R s t := by
  obtain ⟨-, ⟨-, rfl⟩ | ⟨i, h⟩⟩ := step_next h
  · exact hR.refl t
  · exact hR.trans (hdrop s) (exec_kept hR henter hleave hconclude h)

end Sys2Proof.Invariants
end

section
/-! PROOFS. The invariants of every step: no step after a fault, canonical form, ring geometry, configuration, opaque MAC bits. -/

-- One theorem at a time: checked together they ask for more threads than the check allows.
set_option Elab.async false

namespace Sys2Proof.Invariants

open Sys2Proof.Machine Sys2Proof.Laws

/-! ### After a fault (R49) -/

theorem running_faulted {s : State} {r : Fault} (h : s.fault = some r) (g : Fault → Host.Outcome State Fault Refusal)
    (o : Host.Outcome State Fault Refusal) : running s g o = g r := by
  rw [running, h]

/-- What an operation answers once a fault is recorded. -/
theorem exec_faulted {s : State} {r : Fault} (h : s.fault = some r) (i : Instr) :
    exec i s = if i.opClass = .agent then .refused .agentAfterFault else .fault r := by
  cases i <;> exact running_faulted h _ _

/-- Settles O13: what runs in a state, `running` gates; a step's next state is of a state that is alive. -/
theorem nothingRunsAfterAFault : Obligations.NothingRunsAfterAFault := by
  refine ⟨fun _ => rfl, fun s r h => ⟨exec_faulted h, fun t ht => ?_⟩⟩
  have hs : s.fault = none := by
    obtain ⟨-, ⟨ha, -⟩ | ⟨i, hi⟩⟩ := step_next ht
    · exact ha.1
    · exact (exec_next hi).1.1
  rw [h] at hs
  cases hs

/-! ### Canonical form (R44, R46, R47, R61) -/

theorem canonical_setMem {s : State} (h : Canonical s) {m : List Host.Cell} (hm : memWf m = true) :
    Canonical { s with mem := m } := ⟨hm, h.2⟩

theorem canonical_writeVisible {s : State} (h : Canonical s) (a : Nat) (v : Word32) : Canonical (writeVisible a v s) :=
  canonical_setMem h (memWf_writeWord _ _ _ _ h.1)

theorem canonical_drainList : ∀ (l : List WbEntry) {s : State}, Canonical s → Canonical (drainList l s)
  | [], _, h => h
  | e :: l, _, h => canonical_drainList l (canonical_writeVisible h e.addr e.val)

theorem canonical_writePayload {s : State} (h : Canonical s) (da n : Nat) : Canonical (writePayload da n s) := by
  obtain ⟨hm, htx, hrx, hb, hmaps, hp, hbuf, hdma, hw⟩ := h
  refine ⟨hm, htx, hrx, hb, hmaps, hp, hbuf, ?_, hw⟩
  unfold writePayload
  cases bufAt s da with
  | none => exact hdma
  | some b => exact mapWf_mapSet _ _ _ hdma

theorem canonical_agentStep {a : AgentStep} {s t : State} (ht : agentStep a s = some t) (h : Canonical s) : Canonical t := by
  cases a with
  | envVisible a =>
    simp only [agentStep, stepVisible] at ht
    split at ht
    · cases ht
    · split at ht <;> cases ht
      exact canonical_writeVisible (s := { s with wb := wbDropFirst s.wb a }) h _ _
  | devTxDone slot =>
    simp only [agentStep, stepTxDone] at ht
    split at ht
    · cases ht
    · split at ht <;> cases ht
      exact canonical_setMem h (memWf_writeWord _ _ _ _ h.1)
  | devRxDone slot len ov csum =>
    simp only [agentStep, stepRxDone] at ht
    split at ht
    · cases ht
    · split at ht <;> cases ht
      have h' := canonical_writePayload h
      exact canonical_setMem (h' _ _) (memWf_writeWord _ _ _ _ h.1)
  | devStatus bits =>
    simp only [agentStep, stepStatus] at ht
    split at ht <;> cases ht
    exact h
  | macDrained =>
    simp only [agentStep, stepMacDrained] at ht
    split at ht <;> cases ht
    exact h

theorem canonical_regEffect {s : State} (h : Canonical s) (reg : MmioReg) (v : RegVal) : Canonical (regEffect reg v s) := by
  unfold regEffect
  split <;> exact h

theorem CalmStep.canonical {A : Writes} {s t : State} (hst : CalmStep A s t) (h : Canonical s) : Canonical t := by
  cases hst with
  | agent ht => exact canonical_agentStep ht h
  | register reg v => exact canonical_regEffect (s := drain s) (canonical_drainList s.wb h) reg v
  | windowOpened x n =>
    obtain ⟨hm, htx, hrx, hb, hmaps, hp, hbuf, hdma, hw⟩ := h
    unfold openWindow
    cases mapGet s.liveMaps x with
    | none => exact ⟨hm, htx, hrx, hb, hmaps, hp, hbuf, hdma, hw⟩
    | some e => exact ⟨hm, htx, hrx, hb, hmaps, hp, mapWf_showBytes _ _ _ hbuf, hdma, mapWf_mapSet _ _ _ hw⟩
  | windowReturned x =>
    obtain ⟨hm, htx, hrx, hb, hmaps, hp, hbuf, hdma, hw⟩ := h
    unfold returnWindow
    cases mapGet s.liveMaps x with
    | none => exact ⟨hm, htx, hrx, hb, hmaps, hp, hbuf, hdma, hw⟩
    | some e => exact ⟨hm, htx, hrx, hb, hmaps, hp, hbuf, hdma, mapWf_mapErase _ _ hw⟩
  | windowClosed da =>
    obtain ⟨hm, htx, hrx, hb, hmaps, hp, hbuf, hdma, hw⟩ := h
    exact ⟨hm, htx, hrx, hb, hmaps, hp, hbuf, hdma, mapWf_mapErase _ _ hw⟩
  | copied sb x n =>
    obtain ⟨hm, htx, hrx, hb, hmaps, hp, hbuf, hdma, hw⟩ := h
    exact ⟨hm, htx, hrx, hb, hmaps, hp, mapWf_mapSet _ _ _ hbuf, hdma, hw⟩
  | _ => exact h

theorem ControlStep.canonical {A : Writes} {s t : State} (hst : ControlStep A s t) (h : Canonical s) : Canonical t := by
  cases hst with
  | commit hst =>
    cases hst with
    | calm hst => exact hst.canonical h
    | committed m => exact h
  | control l b c => exact h

theorem RingStep.canonical {A : Writes} {s t : State} (hst : RingStep A s t) (h : Canonical s) : Canonical t := by
  have hc := h
  obtain ⟨hm, htx, hrx, hb, hmaps, hp, hbuf, hdma, hw⟩ := h
  cases hst with
  | calm hst => exact hst.canonical hc
  | mapped x e => exact ⟨hm, htx, hrx, hb, mapWf_mapSet _ _ _ hmaps, hp, hbuf, hdma, hw⟩
  | unmapped x e =>
    exact ⟨hm, htx, hrx, hb, mapWf_mapErase _ _ hmaps, hp, mapWf_showBytes _ _ _ hbuf, hdma, mapWf_mapErase _ _ hw⟩
  | allocated b =>
    exact ⟨hm, htx, hrx, mapWf_mapSet _ _ _ hb, hmaps, hp, mapWf_mapErase _ _ hbuf, mapWf_mapErase _ _ hdma, hw⟩
  | freed b =>
    exact ⟨hm, htx, hrx, mapWf_mapErase _ _ hb, hmaps, hp, mapWf_mapErase _ _ hbuf, mapWf_mapErase _ _ hdma, hw⟩
  | handedUp b => exact ⟨hm, htx, hrx, mapWf_mapErase _ _ hb, hmaps, hp, hbuf, hdma, hw⟩
  | txEntered slot e => exact ⟨hm, mapWf_mapSet _ _ _ htx, hrx, hb, hmaps, hp, hbuf, hdma, hw⟩
  | txCleared slot => exact ⟨hm, mapWf_mapErase _ _ htx, hrx, hb, hmaps, hp, hbuf, hdma, hw⟩
  | rxEntered slot e => exact ⟨hm, htx, mapWf_mapSet _ _ _ hrx, hb, hmaps, hp, hbuf, hdma, hw⟩
  | rxCleared slot => exact ⟨hm, htx, mapWf_mapErase _ _ hrx, hb, hmaps, hp, hbuf, hdma, hw⟩
  | pktRemoved k => exact ⟨hm, htx, hrx, hb, hmaps, mapWf_mapErase _ _ hp, hbuf, hdma, hw⟩
  | headAdvanced pkt => exact ⟨hm, htx, hrx, hb, hmaps, mapWf_mapSet _ _ _ hp, hbuf, hdma, hw⟩
  | cursorsZeroed r => cases r <;> exact hc
  | _ => exact hc

theorem canonical_closed : Closed OpStep fun s t => Canonical s → Canonical t where
  refl _ h := h
  trans h h' x := h' (h x)
  step hst h := by
    cases hst with
    | host hst =>
      cases hst with
      | ring hst => exact hst.canonical h
      | control hst => exact hst.canonical h
      | adapter a => exact h
    | alloc hst =>
      cases hst with
      | calm hst => exact hst.canonical h
      | neutral base slot => exact canonical_setMem h (memWf_writeWord _ _ _ _ (memWf_writeWord _ _ _ _ h.1))
      | granted r base hg =>
        obtain ⟨hm, htx, hrx, hrest⟩ := h
        cases r with
        | tx => exact ⟨hm, rfl, hrx, hrest⟩
        | rx => exact ⟨hm, htx, rfl, hrest⟩
      | absent => exact h

/-- Settles O49: every micro-step keeps every table's canonical form. -/
theorem stepKeepsCanonicalForm : Obligations.StepKeepsCanonicalForm := fun _ _ hs h =>
  step_kept canonical_closed (fun _ _ h => h) (fun _ _ h => h) (fun _ _ h => h) (fun _ h => h) h hs

/-! ### Configuration (R50, R51, R311) -/

/-- The trace keeps what stands in it, and configuration and lock stay. -/
structure ConfigFollows (s t : State) : Prop where
  config : ConfigKept s t
  trace : s.trace <+: t.trace

theorem configKept_refl (s : State) : ConfigKept s s := ⟨rfl, fun _ => rfl, fun _ => rfl⟩

theorem configKept_of_eq {s t : State} (hp : t.params = s.params) (htx : t.tx.base = s.tx.base) (hrx : t.rx.base = s.rx.base) :
    ConfigKept s t := ⟨hp, fun _ => htx, fun _ => hrx⟩

theorem configKept_trans {s t u : State} (h : ConfigKept s t) (h' : ConfigKept t u) : ConfigKept s u := by
  obtain ⟨hp, htx, hrx⟩ := h
  obtain ⟨hp', htx', hrx'⟩ := h'
  exact ⟨hp'.trans hp, fun hs => (htx' (htx hs ▸ hs)).trans (htx hs), fun hs => (hrx' (hrx hs ▸ hs)).trans (hrx hs)⟩

theorem trace_drainList : ∀ (l : List WbEntry) (s : State), s.trace <+: (drainList l s).trace
  | [], _ => List.prefix_rfl
  | e :: l, s => (List.prefix_append _ _).trans (trace_drainList l (writeVisible e.addr e.val s))

theorem trace_agentStep {a : AgentStep} {s t : State} (ht : agentStep a s = some t) : s.trace <+: t.trace := by
  cases a with
  | envVisible a =>
    simp only [agentStep, stepVisible] at ht
    split at ht
    · cases ht
    · split at ht <;> cases ht
      exact List.prefix_append _ _
  | devTxDone slot =>
    simp only [agentStep, stepTxDone] at ht
    split at ht
    · cases ht
    · split at ht <;> cases ht
      exact List.prefix_rfl
  | devRxDone slot len ov csum =>
    simp only [agentStep, stepRxDone] at ht
    split at ht
    · cases ht
    · split at ht <;> cases ht
      exact List.prefix_rfl
  | devStatus bits =>
    simp only [agentStep, stepStatus] at ht
    split at ht <;> cases ht
    exact List.prefix_rfl
  | macDrained =>
    simp only [agentStep, stepMacDrained] at ht
    split at ht <;> cases ht
    exact List.prefix_rfl

theorem CalmStep.trace {A : Writes} {s t : State} (h : CalmStep A s t) : s.trace <+: t.trace := by
  cases h with
  | agent ht => exact trace_agentStep ht
  | event e => exact List.prefix_append _ _
  | register reg v =>
    refine (trace_drainList s.wb s).trans ?_
    unfold regEffect
    split <;> exact List.prefix_rfl
  | write => exact List.prefix_append _ _
  | _ => exact List.prefix_rfl

theorem RingStep.trace {A : Writes} {s t : State} (h : RingStep A s t) : s.trace <+: t.trace := by
  cases h with
  | calm h => exact h.trace
  | cursorsZeroed r => cases r <;> exact List.prefix_rfl
  | _ => exact List.prefix_rfl

theorem ControlStep.trace {A : Writes} {s t : State} (h : ControlStep A s t) : s.trace <+: t.trace := by
  cases h with
  | commit h =>
    cases h with
    | calm h => exact h.trace
    | committed m => exact List.prefix_rfl
  | control l b c => exact List.prefix_rfl

theorem HostStep.trace {A : Writes} {s t : State} (h : HostStep A s t) : s.trace <+: t.trace := by
  cases h with
  | ring h => exact h.trace
  | control h => exact h.trace
  | adapter a => exact List.prefix_rfl

theorem CalmFrame.config {s t : State} (h : CalmFrame s t) : ConfigKept s t :=
  configKept_of_eq h.params h.txBase (congrArg RxState.base h.rx)

/-- A ring that gets memory had none (R130). -/
theorem Grantable.config {s : State} {r : Ring} {base : Nat} (h : Grantable s r base) : ConfigKept s (setAllocated r base s) := by
  cases r with
  | tx => exact ⟨rfl, fun hs => absurd h.1 (Option.isSome_iff_ne_none.mp hs), fun _ => rfl⟩
  | rx => exact ⟨rfl, fun _ => rfl, fun hs => absurd h.1 (Option.isSome_iff_ne_none.mp hs)⟩

theorem config_closed : Closed OpStep ConfigFollows where
  refl s := ⟨configKept_refl s, List.prefix_rfl⟩
  trans h h' := ⟨configKept_trans h.config h'.config, h.trace.trans h'.trace⟩
  step h := by
    cases h with
    | host h => exact ⟨configKept_of_eq h.frame.params h.frame.txBase h.frame.rxBase, h.trace⟩
    | alloc hst =>
      cases hst with
      | calm hst => exact ⟨hst.frame.config, hst.trace⟩
      | neutral base slot => exact ⟨configKept_of_eq rfl rfl rfl, List.prefix_rfl⟩
      | granted r base hg => exact ⟨hg.config, by cases r <;> exact List.prefix_rfl⟩
      | absent => exact ⟨configKept_of_eq rfl rfl rfl, List.prefix_rfl⟩

/-- No micro-step takes or releases the lock (R310, R311). -/
theorem lock_closed : Closed OpStep fun s t => t.lock = s.lock where
  refl _ := rfl
  trans h h' := h'.trans h
  step h := by
    cases h with
    | host h => exact h.frame.lock
    | alloc hst =>
      cases hst with
      | calm hst => exact hst.frame.lock
      | granted r base hg => cases r <;> rfl
      | _ => rfl

/-- An operation that ends without a fault leaves a free lock free (R311). -/
theorem exec_lock {i : Instr} {s t : State} (h : exec i s = .next t) (hs : s.lock = none) (ht : t.fault = none) :
    t.lock = none := by
  have hf := runningOf_follows lock_closed i
  obtain ⟨⟨hn, -⟩, hr⟩ := exec_next h
  cases hi : runningOf i with
  | agent a =>
    rw [hi] at hf hr
    exact (hf s t hr).trans hs
  | host ctx body =>
    rw [hi] at hf hr
    rcases Ends.next (hf (enter ctx s) hn) hr.2 with ⟨o, u, -, -, rfl⟩ | ⟨-, hu⟩
    · rfl
    · exact absurd ht hu
  | internal body =>
    rw [hi] at hf hr
    rcases Ends.next (hf s hn) hr with ⟨o, u, hu, -, rfl⟩ | ⟨-, hu⟩
    · exact hu.trans hs
    · exact absurd ht hu

/-- Settles O51: micro-steps keep configuration, trace and lock; only entry takes the lock, and a return releases it. -/
theorem stepKeepsConfiguration : Obligations.StepKeepsConfiguration := by
  intro s t h
  have hsame : ∀ u v : State, v.params = u.params → v.tx = u.tx → v.rx = u.rx → v.trace = u.trace → ConfigFollows u v :=
    fun u v hp htx hrx ht => ⟨configKept_of_eq hp (congrArg _ htx) (congrArg _ hrx), ht ▸ List.prefix_rfl⟩
  have hc : ConfigFollows s t := step_kept config_closed (fun _ _ => hsame _ _ rfl rfl rfl rfl)
    (fun _ _ => hsame _ _ rfl rfl rfl rfl) (fun _ _ => hsame _ _ rfl rfl rfl rfl) (fun _ => hsame _ _ rfl rfl rfl rfl) h
  refine ⟨hc.config, hc.trace, fun hs ht => ?_⟩
  obtain ⟨-, ⟨-, rfl⟩ | ⟨i, hi⟩⟩ := step_next h
  · exact hs
  · exact exec_lock hi hs ht

/-! ### Opaque bits of the MAC (R42, R115) -/

theorem opaqueBits_of_eq {s t : State} (h : t.dev.macTxcfg = s.dev.macTxcfg) : OpaqueBitsKept s t :=
  fun _ _ _ => h ▸ rfl

theorem CalmStep.opaqueBits {A : Writes} {s t : State} (h : CalmStep A s t) : OpaqueBitsKept s t := by
  cases h with
  | agent ht => exact opaqueBits_of_eq (by simp [hostSide_fields (agentStep_hostSide ht)])
  | register reg v hk =>
    have hd := congrArg DevState.macTxcfg (drain_dev s)
    unfold regEffect
    split
    case h_5 w => exact hk w rfl rfl
    all_goals exact opaqueBits_of_eq hd
  | _ => exact opaqueBits_of_eq rfl

theorem RingStep.opaqueBits {A : Writes} {s t : State} (h : RingStep A s t) : OpaqueBitsKept s t := by
  cases h with
  | calm h => exact h.opaqueBits
  | cursorsZeroed r => cases r <;> exact opaqueBits_of_eq rfl
  | _ => exact opaqueBits_of_eq rfl

theorem ControlStep.opaqueBits {A : Writes} {s t : State} (h : ControlStep A s t) : OpaqueBitsKept s t := by
  cases h with
  | commit h =>
    cases h with
    | calm h => exact h.opaqueBits
    | committed m => exact opaqueBits_of_eq rfl
  | control l b c => exact opaqueBits_of_eq rfl

theorem opaqueBits_closed : Closed OpStep fun s t => OpaqueBitsKept s t ∧ t.params = s.params := by
  refine ⟨⟨fun s => ⟨opaqueBits_of_eq rfl, rfl⟩, ?_⟩, fun h => ⟨?_, params_closed.step h⟩⟩
  · rintro s t u ⟨h, hp⟩ ⟨h', hp'⟩
    rw [OpaqueBitsKept, hp] at h'
    exact ⟨fun b h1 h2 => (h' b h1 h2).trans (h b h1 h2), hp'.trans hp⟩
  · cases h with
    | host h =>
      cases h with
      | ring h => exact h.opaqueBits
      | control h => exact h.opaqueBits
      | adapter a => exact opaqueBits_of_eq rfl
    | alloc hst =>
      cases hst with
      | calm hst => exact hst.opaqueBits
      | granted r base hg => cases r <;> exact opaqueBits_of_eq rfl
      | _ => exact opaqueBits_of_eq rfl

/-- Settles O52: the register writes of a commit and of a reset change the two bits alone. -/
theorem stepKeepsOpaqueMacBits : Obligations.StepKeepsOpaqueMacBits := fun _ _ h =>
  (step_kept opaqueBits_closed (fun _ _ => ⟨opaqueBits_of_eq rfl, rfl⟩) (fun _ _ => ⟨opaqueBits_of_eq rfl, rfl⟩)
    (fun _ _ => ⟨opaqueBits_of_eq rfl, rfl⟩) (fun _ => ⟨opaqueBits_of_eq rfl, rfl⟩) h).1

end Sys2Proof.Invariants
end

section
/-! PROOFS. Ring geometry: cursors in range, rings laid out, pending writes in program order. -/

-- One theorem at a time: checked together they ask for more threads than the check allows.
set_option Elab.async false

namespace Sys2Proof.Invariants

open Sys2Proof.Machine Sys2Proof.Laws

/-- What valid parameters say of the rings and the descriptors (R12). -/
theorem ringParams_of_valid {p : Params} (h : paramsValid p = true) : 2 ≤ p.nTx ∧ 2 ≤ p.nRx ∧ descValid p.desc = true := by
  simp only [paramsValid, Bool.and_eq_true, decide_eq_true_eq] at h
  obtain ⟨⟨⟨⟨⟨⟨⟨⟨⟨⟨⟨⟨⟨⟨⟨⟨-, htx⟩, -⟩, hrx⟩, -⟩, -⟩, -⟩, -⟩, -⟩, -⟩, hd⟩, -⟩, -⟩, -⟩, -⟩, -⟩, -⟩ := h
  exact ⟨htx, hrx, hd⟩

/-! ### Cursors (R24, R25, R28) -/

theorem cursorsInRange_of_eq {s t : State} (h : CursorsInRange s) (hp : t.params = s.params) (hh : t.tx.head = s.tx.head)
    (ht : t.tx.tail = s.tx.tail) (hc : t.rx.cursor = s.rx.cursor) : CursorsInRange t := by
  rw [CursorsInRange, hp, hh, ht, hc]
  exact h

/-- Cursors move modulo the size of their ring. -/
theorem RingStep.cursors {A : Writes} {s t : State} (hst : RingStep A s t) (hv : paramsValid s.params = true)
    (h : CursorsInRange s) : CursorsInRange t := by
  obtain ⟨htx, hrx, -⟩ := ringParams_of_valid hv
  have htx0 : 0 < s.params.nTx := by omega
  have hrx0 : 0 < s.params.nRx := by omega
  obtain ⟨hh, ht, hc⟩ := h
  cases hst with
  | calm hst =>
    have hf := hst.frame
    exact cursorsInRange_of_eq ⟨hh, ht, hc⟩ hf.params hf.head hf.tail (congrArg RxState.cursor hf.rx)
  | headAdvanced pkt => exact ⟨Nat.mod_lt _ htx0, ht, hc⟩
  | tailAdvanced i => exact ⟨hh, Nat.mod_lt _ htx0, hc⟩
  | cursorAdvanced i => exact ⟨hh, ht, Nat.mod_lt _ hrx0⟩
  | cursorsZeroed r =>
    cases r with
    | tx => exact ⟨htx0, htx0, hc⟩
    | rx => exact ⟨hh, ht, hrx0⟩
  | _ => exact ⟨hh, ht, hc⟩

/-! ### Layout (R51, R61, R293) -/

theorem laidOut_of_eq {s t : State} (h : LaidOut s) (hp : t.params = s.params) (htx : t.tx.base = s.tx.base)
    (hrx : t.rx.base = s.rx.base) : LaidOut t := by
  rw [LaidOut, hp, htx, hrx]
  exact h

/-- Memory granted to a ring lies apart from the other ring's (R293). -/
theorem laidOut_granted {s : State} {r : Ring} {base : Nat} (h : LaidOut s) (hg : Grantable s r base) :
    LaidOut (setAllocated r base s) := by
  obtain ⟨htx, hrx, hapart⟩ := h
  obtain ⟨-, hallowed, hother⟩ := hg
  cases r with
  | tx =>
    refine ⟨fun b hb => ?_, hrx, fun b b' hb hb' => ?_⟩
    · cases hb
      exact hallowed
    · cases hb
      have hb' : s.rx.base = some b' := hb'
      simp only [apartFromOther, ringBase, hb', Bool.or_eq_true, decide_eq_true_eq] at hother
      exact hother
  | rx =>
    refine ⟨htx, fun b hb => ?_, fun b b' hb hb' => ?_⟩
    · cases hb
      exact hallowed
    · cases hb'
      have hb : s.tx.base = some b := hb
      simp only [apartFromOther, ringBase, hb, Bool.or_eq_true, decide_eq_true_eq] at hother
      exact hother.symm

/-! ### Pending writes (R45, R73) -/

theorem writesOrdered_sublist {s t : State} (h : WritesOrdered s) (hwb : t.wb.Sublist s.wb) (he : s.epoch ≤ t.epoch) :
    WritesOrdered t :=
  ⟨h.1.sublist hwb, fun e hm => ⟨((h.2 e (hwb.subset hm)).1).trans he, (h.2 e (hwb.subset hm)).2⟩⟩

theorem hostSide_epoch {s t : State} (h : hostSide t = hostSide s) : t.epoch = s.epoch := by simp only [hostSide_fields h]

/-- Agent steps only take pending writes away. -/
theorem agentStep_wb {a : AgentStep} {s t : State} (ht : agentStep a s = some t) : t.wb.Sublist s.wb := by
  cases a with
  | envVisible a =>
    simp only [agentStep, stepVisible] at ht
    split at ht
    · cases ht
    · split at ht <;> cases ht
      exact wbDropFirst_sublist s.wb a
  | devTxDone slot =>
    simp only [agentStep, stepTxDone] at ht
    split at ht
    · cases ht
    · split at ht <;> cases ht
      exact .refl _
  | devRxDone slot len ov csum =>
    simp only [agentStep, stepRxDone] at ht
    split at ht
    · cases ht
    · split at ht <;> cases ht
      exact .refl _
  | devStatus bits =>
    simp only [agentStep, stepStatus] at ht
    split at ht <;> cases ht
    exact .refl _
  | macDrained =>
    simp only [agentStep, stepMacDrained] at ht
    split at ht <;> cases ht
    exact .refl _

theorem regEffect_wb (reg : MmioReg) (v : RegVal) (s : State) : (regEffect reg v s).wb = s.wb := by
  unfold regEffect
  split <;> rfl

theorem CalmStep.writesOrdered {A : Writes} {s t : State} (hst : CalmStep A s t) (h : WritesOrdered s) : WritesOrdered t := by
  cases hst with
  | agent ht => exact writesOrdered_sublist h (agentStep_wb ht) (hostSide_epoch (agentStep_hostSide ht)).ge
  | register reg v =>
    have hwb : (regEffect reg v (drain s)).wb = [] := regEffect_wb reg v _
    rw [WritesOrdered, hwb]
    exact ⟨.nil, nofun⟩
  | write hA hb hs ha =>
    refine ⟨List.pairwise_append.mpr ⟨h.1, List.pairwise_singleton _ _, fun e he e' he' => ?_⟩, fun e he => ?_⟩
    · rw [List.mem_singleton.mp he']
      exact (h.2 e he).1
    · rcases List.mem_append.mp he with he | he
      · exact h.2 e he
      · rw [List.mem_singleton.mp he]
        exact ⟨le_refl s.epoch, ha⟩
  | barrier => exact writesOrdered_sublist h (.refl _) (Nat.le_succ _)
  | _ => exact h

theorem RingStep.writesOrdered {A : Writes} {s t : State} (hst : RingStep A s t) (h : WritesOrdered s) : WritesOrdered t := by
  cases hst with
  | calm hst => exact hst.writesOrdered h
  | cursorsZeroed r => cases r <;> exact h
  | _ => exact h

/-! ### All three -/

/-- The rings' geometry, with valid parameters. -/
structure Geometry (s : State) : Prop where
  valid : paramsValid s.params = true
  cursors : CursorsInRange s
  laidOut : LaidOut s
  ordered : WritesOrdered s

theorem CalmStep.geometry {A : Writes} {s t : State} (hst : CalmStep A s t) (h : Geometry s) : Geometry t := by
  have hf := hst.frame
  have hrx := hf.rx
  exact ⟨hf.params ▸ h.valid, cursorsInRange_of_eq h.cursors hf.params hf.head hf.tail (congrArg _ hrx),
    laidOut_of_eq h.laidOut hf.params hf.txBase (congrArg _ hrx), hst.writesOrdered h.ordered⟩

theorem ControlStep.geometry {A : Writes} {s t : State} (hst : ControlStep A s t) (h : Geometry s) : Geometry t := by
  obtain ⟨hv, hc, hl, hw⟩ := h
  cases hst with
  | commit hst =>
    cases hst with
    | calm hst => exact hst.geometry ⟨hv, hc, hl, hw⟩
    | committed m => exact ⟨hv, hc, hl, hw⟩
  | control l b c => exact ⟨hv, hc, hl, hw⟩

theorem RingStep.geometry {A : Writes} {s t : State} (hst : RingStep A s t) (h : Geometry s) : Geometry t :=
  ⟨hst.frame.params ▸ h.valid, hst.cursors h.valid h.cursors,
    laidOut_of_eq h.laidOut hst.frame.params hst.frame.txBase hst.frame.rxBase, hst.writesOrdered h.ordered⟩

theorem HostStep.geometry {A : Writes} {s t : State} (hst : HostStep A s t) (h : Geometry s) : Geometry t := by
  cases hst with
  | ring hst => exact hst.geometry h
  | control hst => exact hst.geometry h
  | adapter a =>
    obtain ⟨hv, hc, hl, hw⟩ := h
    exact ⟨hv, hc, hl, hw⟩

theorem geometry_closed : Closed OpStep fun s t => Geometry s → Geometry t where
  refl _ h := h
  trans h h' x := h' (h x)
  step hst h := by
    cases hst with
    | host hst => exact hst.geometry h
    | alloc hst =>
      have hg := h
      obtain ⟨hv, hc, hl, hw⟩ := h
      cases hst with
      | calm hst => exact hst.geometry hg
      | neutral base slot => exact ⟨hv, hc, hl, hw⟩
      | granted r base hg =>
        obtain ⟨htx, hrx, -⟩ := ringParams_of_valid hv
        obtain ⟨hh, ht, hcur⟩ := hc
        have htx0 := Nat.zero_lt_of_lt htx
        have hrx0 := Nat.zero_lt_of_lt hrx
        cases r with
        | tx => exact ⟨hv, ⟨htx0, htx0, hcur⟩, laidOut_granted hl hg, hw⟩
        | rx => exact ⟨hv, ⟨hh, ht, hrx0⟩, laidOut_granted hl hg, hw⟩
      | absent => exact ⟨hv, hc, hl, hw⟩

/-- Settles O50: each micro-step keeps each of the three; the parameters a step admits are valid, so no ring is empty. -/
theorem stepKeepsRingGeometry : Obligations.StepKeepsRingGeometry := by
  intro s t hc hl hw h
  have hg : Geometry t := step_kept geometry_closed (fun _ _ ⟨v, c, l, w⟩ => ⟨v, c, l, w⟩) (fun _ _ ⟨v, c, l, w⟩ => ⟨v, c, l, w⟩)
    (fun _ _ ⟨v, c, l, w⟩ => ⟨v, c, l, w⟩) (fun _ ⟨v, c, l, w⟩ => ⟨v, c, l, w⟩) h ⟨(step_next h).1, hc, hl, hw⟩
  exact ⟨hg.cursors, hg.laidOut, hg.ordered⟩

end Sys2Proof.Invariants
end

section
/-! PROOFS. The tick counter and the timer: what each program does to the control state, and the two invariants over it. -/

-- One theorem at a time: checked together they ask for more threads than the check allows.
set_option Elab.async false

namespace Sys2Proof.Invariants

open Sys2Proof.Machine Sys2Proof.Laws

/-! ### The control state -/

/-- What tick and timer depend on: the parameters, the adapter, the link machine's state and tick, and the timer. -/
structure Ctl where
  params : Params
  adapter : AdapterState
  state : LinkFsm
  tick : Nat
  armed : Bool

/-- The control state of a state. -/
def ctl (s : State) : Ctl := ⟨s.params, s.adapter, s.link.state, s.link.tick, s.timerArmed⟩

/-- The machine polls, at tick 0 and with the timer armed. -/
def Ctl.Polling (c d : Ctl) : Prop := ∃ st, waiting st = true ∧ d = { c with state := st, tick := 0, armed := true }

/-- A reset has ended, in success or in failure (R340 to R343, R335). -/
def Ctl.AfterReset (c d : Ctl) : Prop :=
  Ctl.Polling { c with adapter := .running } d ∨ d = { c with adapter := .notReady, state := .idle, armed := true }

/-- The fault of a reset: it has stopped the link machine (R331). -/
def Ctl.ResetFault (c d : Ctl) : Prop := d = { c with state := .idle, armed := false }

/-- The tick counter's bounds (R31, R245). -/
def Ctl.Bounded (c : Ctl) : Prop :=
  c.tick ≤ 10 ∧
    match c.state with
    | .arbitrationWait => c.tick < 10
    | .linkUpWait => c.tick < 10
    | .forcedTryWait => c.tick < 4
    | .idle => True
    | .asleep => True

/-- When the timer is armed (R55 item 6). -/
def Ctl.Timed (c : Ctl) : Prop :=
  match c.adapter with
  | .running => c.armed = waiting c.state
  | .notReady => c.state = .idle ∧ c.armed = true
  | .closed => c.armed = false

theorem tickBounded_iff (s : State) : TickBounded s ↔ (ctl s).Bounded := Iff.rfl

theorem timerConsistent_iff (s : State) : TimerConsistent s ↔ (ctl s).Timed := Iff.rfl

/-- With the source's literals, the bounds are kept. -/
def Ctl.TicksKept (c d : Ctl) : Prop := SourceTicks c.params → c.Bounded → d.Bounded

/-- The bounds are kept, and when the timer is armed. -/
def Ctl.Kept (c d : Ctl) : Prop := c.TicksKept d ∧ (c.Timed → d.Timed)

theorem Ctl.Kept.refl (c : Ctl) : c.Kept c := ⟨fun _ h => h, fun h => h⟩

theorem Ctl.Polling.bounded {c d : Ctl} (h : c.Polling d) : d.Bounded := by
  obtain ⟨st, -, rfl⟩ := h
  cases st <;> exact ⟨Nat.zero_le _, by simp⟩

theorem Ctl.Polling.timed {c d : Ctl} (h : c.Polling d) (hc : c.adapter = .running) : d.Timed := by
  obtain ⟨st, hst, rfl⟩ := h
  simp [Ctl.Timed, hc, hst]

theorem Ctl.AfterReset.ticksKept {c d : Ctl} (h : c.AfterReset d) : c.TicksKept d := by
  intro _ hb
  rcases h with h | rfl
  · exact h.bounded
  · exact ⟨hb.1, trivial⟩

theorem Ctl.AfterReset.timed {c d : Ctl} (h : c.AfterReset d) : d.Timed := by
  rcases h with h | rfl
  · exact h.timed rfl
  · exact ⟨rfl, rfl⟩

theorem Ctl.AfterReset.kept {c d : Ctl} (h : c.AfterReset d) : c.Kept d := ⟨h.ticksKept, fun _ => h.timed⟩

theorem Ctl.ResetFault.ticksKept {c d : Ctl} (h : c.ResetFault d) : c.TicksKept d := fun _ hb => h ▸ ⟨hb.1, trivial⟩

/-- A counted tick in arbitration-wait (R231, R232). -/
theorem Ctl.kept_arbitration {c d : Ctl} (ha : c.adapter = .running) (hs : c.state = .arbitrationWait)
    (h : c.Polling d ∨ c.tick + 1 < c.params.arbTicks ∧ d = { c with tick := c.tick + 1, armed := true }) :
    c.TicksKept d ∧ d.Timed := by
  rcases h with h | ⟨hlt, rfl⟩
  · exact ⟨fun _ _ => h.bounded, h.timed ha⟩
  · refine ⟨fun hp _ => ?_, by simp [Ctl.Timed, ha, hs, waiting]⟩
    rw [hp.1] at hlt
    exact ⟨show c.tick + 1 ≤ 10 by omega, by rw [hs]; exact hlt⟩

/-- A counted tick in link-up-wait (R233, R234). -/
theorem Ctl.kept_linkUp {c d : Ctl} (ha : c.adapter = .running) (hs : c.state = .linkUpWait) (hc : c.armed = false)
    (h : d = { c with tick := c.tick + 1, state := .asleep } ∨ d = { c with tick := 0, armed := true } ∨
      c.tick + 1 < c.params.lupDiagTicks ∧ d = { c with tick := c.tick + 1, armed := true }) :
    c.TicksKept d ∧ d.Timed := by
  rcases h with rfl | rfl | ⟨hlt, rfl⟩
  · refine ⟨fun _ hb => ?_, by simp [Ctl.Timed, ha, hc, waiting]⟩
    have : c.tick < 10 := by simpa [hs] using hb.2
    exact ⟨this, trivial⟩
  · exact ⟨fun _ _ => ⟨Nat.zero_le _, by simp [hs]⟩, by simp [Ctl.Timed, ha, hs, waiting]⟩
  · refine ⟨fun hp _ => ?_, by simp [Ctl.Timed, ha, hs, waiting]⟩
    rw [hp.2.1] at hlt
    exact ⟨show c.tick + 1 ≤ 10 by omega, by rw [hs]; exact hlt⟩

/-- A counted tick in forced-try-wait (R235 to R239). -/
theorem Ctl.kept_forced {c d : Ctl} (ha : c.adapter = .running) (hs : c.state = .forcedTryWait) (hc : c.armed = false)
    (h : Ctl.AfterReset { c with tick := c.tick + 1 } d ∨ c.Polling d ∨ d = { c with tick := c.tick + 1, state := .asleep } ∨
      (c.tick + 1 = c.params.ftwSettleOffTick ∨ c.tick + 1 = c.params.ftwSettleOnTick ∨ c.tick + 1 < c.params.ftwLimitTick) ∧
        d = { c with tick := c.tick + 1, armed := true }) : c.TicksKept d ∧ d.Timed := by
  have hlt : c.Bounded → c.tick < 4 := fun hb => by simpa [hs] using hb.2
  rcases h with h | h | rfl | ⟨htick, rfl⟩
  · refine ⟨fun hp hb => h.ticksKept (c := { c with tick := c.tick + 1, state := .idle }) hp ?_, h.timed⟩
    have := hlt hb
    exact ⟨show c.tick + 1 ≤ 10 by omega, trivial⟩
  · exact ⟨fun _ _ => h.bounded, h.timed ha⟩
  · refine ⟨fun _ hb => ?_, by simp [Ctl.Timed, ha, hc, waiting]⟩
    have := hlt hb
    exact ⟨show c.tick + 1 ≤ 10 by omega, trivial⟩
  · refine ⟨fun hp _ => ?_, by simp [Ctl.Timed, ha, hs, waiting]⟩
    obtain ⟨-, -, hoff, hon, hlimit⟩ := hp
    have : c.tick + 1 < 4 := by omega
    exact ⟨show c.tick + 1 ≤ 10 by omega, by rw [hs]; exact this⟩

/-! ### Programs that leave the control state alone -/

/-- The control state is the same, and no fault is raised. -/
def Quiet (s t : State) : Prop := ctl t = ctl s ∧ t.fault = s.fault

theorem CalmFrame.ctl {s t : State} (h : CalmFrame s t) : ctl t = ctl s := by
  simp only [Invariants.ctl, h.params, h.adapter, h.link, h.timerArmed]

theorem RingFrame.ctl {s t : State} (h : RingFrame s t) : ctl t = ctl s := by
  simp only [Invariants.ctl, h.params, h.adapter, h.link, h.timerArmed]

/-- Only a descriptor write can fault among the calm micro-steps (R63). -/
theorem CalmStep.fault {s t : State} (h : CalmStep noWrite s t) : t.fault = s.fault := by
  cases h with
  | agent ht => exact hostSide_fault (agentStep_hostSide ht)
  | register reg v => exact (regEffect_fault reg v _).trans (drain_fault s)
  | write hA => exact hA.elim
  | denied hA => exact hA.elim
  | _ => rfl

theorem quiet_closed : Closed (CommitStep noWrite) Quiet where
  refl _ := ⟨rfl, rfl⟩
  trans h h' := ⟨h'.1.trans h.1, h'.2.trans h.2⟩
  step h := by
    cases h with
    | calm h => exact ⟨h.frame.ctl, h.fault⟩
    | committed m => exact ⟨rfl, rfl⟩

theorem ctl_closed : Closed (RingStep anyWrite) fun s t => ctl t = ctl s where
  refl _ := rfl
  trans h h' := h'.trans h
  step h := h.frame.ctl

/-- Creation leaves the control state alone. -/
theorem ctl_alloc : Closed AllocStep fun s t => ctl t = ctl s where
  refl _ := rfl
  trans h h' := h'.trans h
  step h := by
    cases h with
    | calm h => exact h.frame.ctl
    | granted r base hg => cases r <;> rfl
    | _ => rfl

section Contracts

variable {α : Type} {E : State → Prop} {c : Ctl}

theorem Ensures.started {m : M α} {Q : α → State → Prop} {u : State} (h : Ensures (ctl · = ctl u) m Q E) :
    Ensures (· = u) m Q E := h.before fun _ hs => congrArg ctl hs

/-- A quiet program as a contract: it does not fault. -/
theorem Follows.quietly {m : M α} (h : Follows Quiet m) (P : Ctl → Prop) :
    Ensures (fun s => P (ctl s)) m (fun _ s => P (ctl s)) E := by
  intro s hs hP
  have h := h s hs
  cases hms : m s with
  | ok a t =>
    rw [hms] at h
    exact ⟨show P (ctl t) from h.1.1 ▸ hP, h.2⟩
  | error e t =>
    rw [hms] at h
    cases e with
    | faulted => exact absurd (h.1.2.trans hs) h.2
    | refused r => trivial

theorem Follows.quiet {m : M α} (h : Follows Quiet m) : Ensures (ctl · = c) m (fun _ s => ctl s = c) E := h.quietly (· = c)

/-- A ring program as a contract: its faults leave the control state alone too. -/
theorem Follows.loud {m : M α} (h : Follows (fun s t => ctl t = ctl s) m) (hE : ∀ s, ctl s = c → E s) :
    Ensures (ctl · = c) m (fun _ s => ctl s = c) E :=
  h.ensures (fun _ _ hs ht => ht.trans hs) fun _ _ hs ht => hE _ (ht.trans hs)

theorem emit_quiet (e : Event) : Ensures (ctl · = c) (emit e) (fun _ s => ctl s = c) E :=
  (emit_follows quiet_closed.calm_of_commit e).quiet

theorem mgmtRead_quiet (reg : Nat) : Ensures (ctl · = c) (mgmtRead reg) (fun _ s => ctl s = c) E :=
  (mgmtRead_follows quiet_closed.calm_of_commit reg).quiet

theorem mgmtWrite_quiet (reg : Nat) (v : Word32) : Ensures (ctl · = c) (mgmtWrite reg v) (fun _ s => ctl s = c) E :=
  (mgmtWrite_follows quiet_closed.calm_of_commit reg v).quiet

theorem mmioWrite_quiet {reg : MmioReg} (hreg : reg ≠ .macTxcfg) (v : RegVal) :
    Ensures (ctl · = c) (mmioWrite reg v) (fun _ s => ctl s = c) E :=
  (mmioWrite_follows quiet_closed.calm_of_commit hreg v).quiet

theorem linkCommit_quiet (m : Mode) : Ensures (ctl · = c) (linkCommit m) (fun _ s => ctl s = c) E :=
  (linkCommit_follows quiet_closed m).quiet

theorem setStopped_quiet (b : Bool) : Ensures (ctl · = c) (update (setStopped b)) (fun _ s => ctl s = c) E :=
  (setStopped_follows quiet_closed.calm_of_commit b).quiet

/-! ### Programs that set it -/

theorem armTimer_ctl : Ensures (ctl · = c) armTimer (fun _ s => ctl s = { c with armed := true }) E :=
  Ensures.update fun _ h => h ▸ rfl

theorem cancelTimer_ctl : Ensures (ctl · = c) cancelTimer (fun _ s => ctl s = { c with armed := false }) E :=
  Ensures.update fun _ h => h ▸ rfl

theorem setAdapter_ctl (a : AdapterState) : Ensures (ctl · = c) (setAdapter a) (fun _ s => ctl s = { c with adapter := a }) E :=
  Ensures.update fun _ h => h ▸ rfl

theorem enterWait_ctl (st : LinkFsm) :
    Ensures (ctl · = c) (update (enterWait st)) (fun _ s => ctl s = { c with state := st, tick := 0, armed := true }) E :=
  Ensures.update fun _ h => h ▸ rfl

theorem updateLink_ctl {f : LinkState → LinkState} {g : Ctl → Ctl} (h : ∀ s : State, ctl { s with link := f s.link } = g (ctl s)) :
    Ensures (ctl · = c) (updateLink f) (fun _ s => ctl s = g c) E :=
  Ensures.update fun s hs => (h s).trans (congrArg g hs)

theorem linkForce_ctl (p : Fin 4) : Ensures (ctl · = c) (linkForce p) (fun _ s => c.Polling (ctl s)) E := by
  refine Ensures.bind (Q := fun _ s => ctl s = c) (Ensures.update fun _ h => h) fun _ => Ensures.read ?_
  rintro u rfl
  refine Ensures.bind ((mgmtWrite_quiet (c := ctl u) _ _).started) fun _ => ?_
  exact (enterWait_ctl _).after fun _ _ h => ⟨_, rfl, h⟩

theorem ackOrForce_ctl (n : Nat) : Ensures (ctl · = c) (do
    let acked ← ackPoll n
    if acked then update (enterWait .arbitrationWait)
    else do
      emit (.log .anRestartNoAck)
      linkForce 0) (fun _ s => c.Polling (ctl s)) E :=
  Ensures.bind (ackPoll_follows quiet_closed.calm_of_commit n).quiet fun _ => Ensures.ite
    (fun _ => (enterWait_ctl _).after fun _ _ h => ⟨_, rfl, h⟩)
    fun _ => Ensures.bind (emit_quiet _) fun _ => linkForce_ctl 0

theorem linkBegin_ctl : Ensures (ctl · = c) linkBegin (fun _ s => c.Polling (ctl s)) E := by
  refine Ensures.read ?_
  rintro u rfl
  refine Ensures.ite (fun _ => Ensures.refuse) fun _ => ?_
  have hzero : ∀ s, Ctl.Polling { ctl u with tick := 0 } (ctl s) → (ctl u).Polling (ctl s) := fun _ h => h
  refine Ensures.bind (Q := fun _ s => ctl s = { ctl u with tick := 0 }) (Ensures.update fun _ h => h ▸ rfl) fun _ => ?_
  refine Ensures.ite (fun _ => ?_) fun _ => (linkForce_ctl _).after fun _ => hzero
  exact Ensures.bind (mgmtWrite_quiet _ _) fun _ => Ensures.bind (mgmtWrite_quiet _ _) fun _ =>
    (ackOrForce_ctl _).after fun _ => hzero

theorem restartNegotiation_ctl : Ensures (ctl · = c) restartNegotiation (fun _ s => c.Polling (ctl s)) E :=
  Ensures.bind cancelTimer_ctl fun _ =>
    Ensures.bind (updateLink_ctl (g := fun c => { c with state := .idle }) fun _ => rfl) fun _ => linkBegin_ctl

/-! ### Reset and lifecycle -/

theorem ringReset_ctl (r : Ring) (hE : ∀ s, ctl s = c → E s) : Ensures (ctl · = c) (ringReset r) (fun _ s => ctl s = c) E :=
  (ringReset_follows ctl_closed fun _ _ => trivial).loud hE

theorem resetRelease_ctl :
    Ensures (ctl · = c) resetRelease (fun _ s => ctl s = { c with state := .idle, armed := false }) (fun s => c.ResetFault (ctl s)) :=
  Ensures.bind cancelTimer_ctl fun _ =>
    Ensures.bind (updateLink_ctl (g := fun c => { c with state := .idle }) fun _ => rfl) fun _ =>
      Ensures.bind (mmioWrite_quiet (by simp) _) fun _ => Ensures.bind (mmioWrite_quiet (by simp) _) fun _ =>
        Ensures.bind (ringReset_ctl .tx fun _ h => h) fun _ => Ensures.bind (ringReset_ctl .rx fun _ h => h) fun _ =>
          setStopped_quiet true

theorem notReady_ctl :
    Ensures (ctl · = c) notReady (fun _ s => ctl s = { c with adapter := .notReady, state := .idle, armed := true }) E :=
  Ensures.bind (setAdapter_ctl _) fun _ =>
    Ensures.bind (updateLink_ctl (g := fun c => { c with state := .idle }) fun _ => rfl) fun _ => armTimer_ctl

theorem resetStart_ctl : Ensures (ctl · = c) resetStart (fun _ s => Ctl.Polling { c with adapter := .running } (ctl s)) E := by
  rw [resetStart_eq]
  exact Ensures.bind (resetMac_follows quiet_closed).quiet fun _ => Ensures.bind (mmioWrite_quiet (by simp) _) fun _ =>
    Ensures.bind (mmioWrite_quiet (by simp) _) fun _ => Ensures.bind (setStopped_quiet false) fun _ =>
      Ensures.bind (emit_quiet _) fun _ => Ensures.bind (setAdapter_ctl _) fun _ => restartNegotiation_ctl

theorem resetFinish_ctl (filled : Bool) :
    Ensures (fun s => ctl s = { c with state := .idle, armed := false }) (resetFinish filled)
      (fun o s => o = .ok ∧ Ctl.Polling { c with adapter := .running } (ctl s) ∨
        o ≠ .ok ∧ ctl s = { c with adapter := .notReady, state := .idle, armed := true }) (fun s => c.ResetFault (ctl s)) := by
  refine Ensures.ite (fun _ => ?_) fun _ => ?_
  · refine Ensures.bind (drawTcvrKnown_follows quiet_closed.calm_of_commit).quiet fun known => Ensures.ite (fun _ => ?_) fun _ => ?_
    · exact Ensures.bind resetStart_ctl fun _ => Ensures.pure fun _ h => .inl ⟨rfl, h⟩
    · exact Ensures.bind (emit_quiet _) fun _ => Ensures.bind notReady_ctl fun _ =>
        Ensures.pure fun _ h => .inr ⟨nofun, h⟩
  · exact Ensures.bind (ringReset_ctl .rx fun _ h => h) fun _ => Ensures.bind (emit_quiet _) fun _ =>
      Ensures.bind notReady_ctl fun _ => Ensures.pure fun _ h => .inr ⟨nofun, h⟩

/-- What a reset does to the control state, by its outcome (R330). -/
theorem resetInit_ctl (ctx : Context) :
    Ensures (ctl · = c) (resetInit ctx)
      (fun o s => o = .ok ∧ Ctl.Polling { c with adapter := .running } (ctl s) ∨
        o ≠ .ok ∧ ctl s = { c with adapter := .notReady, state := .idle, armed := true }) (fun s => c.ResetFault (ctl s)) := by
  rw [resetInit_eq]
  refine Ensures.bind resetRelease_ctl fun _ => Ensures.read fun u hu => ?_
  refine Ensures.bind (Ensures.before (Follows.loud (refill_follows ctl_closed (fun _ _ _ => trivial) _ _ _) fun _ h => h)
    fun _ h => h ▸ hu) fun filled => resetFinish_ctl filled

theorem resetAndReturn_ctl (ctx : Context) :
    Ensures (ctl · = c) (resetAndReturn ctx) (fun _ s => c.AfterReset (ctl s)) (fun s => c.ResetFault (ctl s)) := by
  refine Ensures.bind ((resetInit_ctl ctx).after (Q' := fun _ s => c.AfterReset (ctl s)) fun o s h => h.imp (·.2) (·.2)) fun _ => ?_
  exact (awaitFreeSlots_follows quiet_closed.calm_of_commit).quietly _

/-- What a teardown does to the control state (R262). -/
theorem teardown_ctl :
    Ensures (ctl · = c) teardown
      (fun _ s => ctl s = { c with adapter := .closed, state := .asleep, tick := 0, armed := false })
      (fun s => ctl s = { c with armed := false }) :=
  Ensures.bind cancelTimer_ctl fun _ =>
    Ensures.bind (mmioWrite_quiet (by simp) _) fun _ => Ensures.bind (mmioWrite_quiet (by simp) _) fun _ =>
      Ensures.bind (ringReset_ctl .tx fun _ h => h) fun _ => Ensures.bind (ringReset_ctl .rx fun _ h => h) fun _ =>
        Ensures.bind (setStopped_quiet true) fun _ =>
          Ensures.bind (updateLink_ctl (g := fun c => { c with state := .asleep, tick := 0 }) fun _ => rfl) fun _ =>
            Ensures.bind (Q := fun _ s => ctl s = { c with state := .asleep, tick := 0, armed := false })
              (Ensures.update fun _ h => h) fun _ =>
              Ensures.bind (emit_quiet _) fun _ => setAdapter_ctl _

/-! ### The tick (R230 to R241) -/

theorem fallToForced_ctl (k : LogKind) : Ensures (ctl · = c) (fallToForced k) (fun _ s => c.Polling (ctl s)) E :=
  Ensures.bind (emit_quiet _) fun _ => linkForce_ctl 0

theorem commitResolved_quiet : ∀ o, Ensures (ctl · = c) (commitResolved o) (fun _ s => ctl s = c) E
  | none => Ensures.pure fun _ h => h
  | some m => linkCommit_quiet m

/-- Arbitration-wait ends in another wait, or goes on below its budget (R231, R232). -/
theorem tickArbitration_ctl :
    Ensures (ctl · = c) tickArbitration
      (fun _ s => c.Polling (ctl s) ∨ c.tick < c.params.arbTicks ∧ ctl s = { c with armed := true }) E := by
  refine Ensures.read ?_
  rintro u rfl
  refine Ensures.bind ((mgmtRead_quiet (c := ctl u) _).started) fun v => Ensures.ite (fun _ => ?_) fun _ =>
    Ensures.ite (fun _ => ?_) fun h => ?_
  · refine Ensures.bind (mgmtRead_quiet _) fun pv => Ensures.bind (commitResolved_quiet _) fun done =>
      Ensures.ite (fun _ => ?_) fun _ => ?_
    · exact (enterWait_ctl _).after fun _ _ h => .inl ⟨_, rfl, h⟩
    · exact (fallToForced_ctl _).after fun _ _ h => .inl h
  · exact (fallToForced_ctl _).after fun _ _ h => .inl h
  · exact armTimer_ctl.after fun _ _ h' => .inr ⟨Nat.lt_of_not_le h, h'⟩

/-- Link-up-wait falls asleep, or starts its ticks over, or goes on below its budget (R233, R234). -/
theorem tickLinkUp_ctl :
    Ensures (ctl · = c) tickLinkUp
      (fun _ s => ctl s = { c with state := .asleep } ∨ ctl s = { c with tick := 0, armed := true } ∨
        c.tick < c.params.lupDiagTicks ∧ ctl s = { c with armed := true }) E := by
  refine Ensures.read ?_
  rintro u rfl
  refine Ensures.bind ((mgmtRead_quiet (c := ctl u) _).started) fun v => Ensures.ite (fun _ => ?_) fun _ =>
    Ensures.ite (fun _ => ?_) fun h => ?_
  · refine Ensures.bind (updateLink_ctl (g := id) fun _ => rfl) fun _ => Ensures.bind (emit_quiet _) fun _ => ?_
    exact (updateLink_ctl (g := fun c => { c with state := .asleep }) fun _ => rfl).after fun _ _ h => .inl h
  · refine Ensures.bind (emit_quiet _) fun _ => Ensures.bind (updateLink_ctl (g := fun c => { c with tick := 0 }) fun _ => rfl)
      fun _ => armTimer_ctl.after fun _ _ h => .inr (.inl h)
  · exact armTimer_ctl.after fun _ _ h' => .inr (.inr ⟨Nat.lt_of_not_le h, h'⟩)

theorem toggleTransceiver_ctl (b : Bool) :
    Ensures (ctl · = c) (toggleTransceiver b) (fun _ s => ctl s = { c with armed := true }) E := by
  refine Ensures.read ?_
  rintro u rfl
  exact Ensures.bind ((mgmtRead_quiet (c := ctl u) _).started) fun _ => Ensures.bind (mgmtWrite_quiet _ _)
    fun _ => armTimer_ctl

theorem reportForced_ctl (done : Bool) (m : Mode) :
    Ensures (ctl · = c) (reportForced done m) (fun _ s => ctl s = { c with state := .asleep }) E :=
  Ensures.bind (Q := fun _ s => ctl s = c) (Ensures.ite (fun _ => Ensures.pure fun _ h => h) fun _ => emit_quiet _) fun _ =>
    Ensures.bind (updateLink_ctl (g := id) fun _ => rfl) fun _ => Ensures.bind (emit_quiet _) fun _ =>
      updateLink_ctl (g := fun c => { c with state := .asleep }) fun _ => rfl

theorem forcedUp_ctl : Ensures (ctl · = c) forcedUp (fun _ s => ctl s = { c with state := .asleep }) E := by
  rw [forcedUp_eq]
  refine Ensures.read ?_
  rintro u rfl
  exact Ensures.bind ((linkCommit_quiet (c := ctl u) _).started) fun done => reportForced_ctl done _

/-- The end of a tick in forced-try-wait with the link down: a reset, the next permutation, or one more tick (R238, R239). -/
theorem forcedDown_ctl :
    Ensures (ctl · = c) forcedDown
      (fun _ s => c.AfterReset (ctl s) ∨ c.Polling (ctl s) ∨ c.tick < c.params.ftwLimitTick ∧ ctl s = { c with armed := true })
      (fun s => c.ResetFault (ctl s)) := by
  refine Ensures.read ?_
  rintro u rfl
  refine Ensures.ite (fun _ => Ensures.ite (fun _ => ?_) fun _ => ?_) fun h => ?_
  · exact Ensures.bind ((emit_quiet (c := ctl u) _).started) fun _ =>
      (resetAndReturn_ctl _).after fun _ _ h => .inl h
  · exact ((linkForce_ctl (c := ctl u) _).started).after fun _ _ h => .inr (.inl h)
  · exact ((armTimer_ctl (c := ctl u)).started).after fun _ _ h' => .inr (.inr ⟨Nat.lt_of_not_le h, h'⟩)

/-- Forced-try-wait (R235 to R239). -/
theorem tickForced_ctl :
    Ensures (ctl · = c) tickForced
      (fun _ s => c.AfterReset (ctl s) ∨ c.Polling (ctl s) ∨ ctl s = { c with state := .asleep } ∨
        (c.tick = c.params.ftwSettleOffTick ∨ c.tick = c.params.ftwSettleOnTick ∨ c.tick < c.params.ftwLimitTick) ∧
          ctl s = { c with armed := true })
      (fun s => c.ResetFault (ctl s)) := by
  refine Ensures.read ?_
  rintro u rfl
  refine Ensures.ite (fun h => ?_) fun _ => Ensures.ite (fun h => ?_) fun _ => ?_
  · exact ((toggleTransceiver_ctl (c := ctl u) _).started).after fun _ _ h' =>
      .inr (.inr (.inr ⟨.inl h, h'⟩))
  · exact ((toggleTransceiver_ctl (c := ctl u) _).started).after fun _ _ h' =>
      .inr (.inr (.inr ⟨.inr (.inl h), h'⟩))
  · refine Ensures.bind ((mgmtRead_quiet (c := ctl u) _).started) fun v => Ensures.ite (fun _ => ?_) fun _ => ?_
    · exact forcedUp_ctl.after fun _ _ h => .inr (.inr (.inl h))
    · refine forcedDown_ctl.after fun _ _ h => ?_
      rcases h with h | h | ⟨h, h'⟩
      · exact .inl h
      · exact .inr (.inl h)
      · exact .inr (.inr (.inr ⟨.inr (.inr h), h'⟩))

theorem countTick_ctl : Ensures (ctl · = c) countTick (fun _ s => ctl s = { c with tick := c.tick + 1 }) E :=
  updateLink_ctl (g := fun c => { c with tick := c.tick + 1 }) fun _ => rfl

/-- What a tick does to the control state once the timer is disarmed: the bounds are kept, and the timer is armed again exactly where
something waits for it. -/
theorem linkTick_ctl (hc : c.armed = false) :
    Ensures (ctl · = c) linkTick (fun _ s => c.TicksKept (ctl s) ∧ (ctl s).Timed) (fun s => c.TicksKept (ctl s)) := by
  refine Ensures.read ?_
  rintro u rfl
  cases ha : u.adapter with
  | closed =>
    refine Ensures.pure fun s h => ?_
    subst h
    exact ⟨(Ctl.Kept.refl _).1, by simpa [Ctl.Timed, ctl, ha] using hc⟩
  | notReady =>
    exact ((Ensures.weaken (resetAndReturn_ctl (c := ctl u) .timer) fun _ h => h.ticksKept).started).after
      fun _ _ h => ⟨h.ticksKept, h.timed⟩
  | running =>
    have hidle : waiting u.link.state = false → Ensures (· = u) (pure ())
        (fun _ s => (ctl u).TicksKept (ctl s) ∧ (ctl s).Timed) fun s => (ctl u).TicksKept (ctl s) := fun hw =>
      Ensures.pure fun s h => by
        subst h
        exact ⟨(Ctl.Kept.refl _).1, by simpa [Ctl.Timed, ctl, ha, hw] using hc⟩
    cases hs : u.link.state with
    | idle => exact hidle (by rw [hs]; rfl)
    | asleep => exact hidle (by rw [hs]; rfl)
    | arbitrationWait =>
      exact Ensures.bind (Ensures.started countTick_ctl) fun _ => tickArbitration_ctl.after fun _ s h =>
        Ctl.kept_arbitration ha hs h
    | linkUpWait =>
      exact Ensures.bind (Ensures.started countTick_ctl) fun _ => tickLinkUp_ctl.after fun _ s h => Ctl.kept_linkUp ha hs hc h
    | forcedTryWait =>
      refine Ensures.bind (Ensures.started countTick_ctl) fun _ => (Ensures.weaken tickForced_ctl fun s h hp hb => ?_).after
        fun _ s h => Ctl.kept_forced ha hs hc h
      have : u.link.tick < 4 := by simpa [ctl, hs] using hb.2
      exact h ▸ ⟨show u.link.tick + 1 ≤ 10 by omega, trivial⟩

theorem timerFiring_ctl :
    Ensures (ctl · = c) timerFiring (fun _ s => c.Kept (ctl s)) (fun s => c.TicksKept (ctl s)) :=
  Ensures.bind cancelTimer_ctl fun _ => Ensures.bind (Q := fun _ s => c.TicksKept (ctl s) ∧ (ctl s).Timed) (linkTick_ctl rfl)
    fun _ => Ensures.pure fun _ h => ⟨h.1, fun _ => h.2⟩

/-! ### The other operations -/

theorem kept_of_loud {m : M α} (h : Follows (fun s t => ctl t = ctl s) m) :
    Ensures (ctl · = c) m (fun _ s => c.Kept (ctl s)) (fun s => c.TicksKept (ctl s)) :=
  (h.loud fun _ h => h ▸ (Ctl.Kept.refl c).1).after fun _ _ h => h ▸ Ctl.Kept.refl c

theorem kept_pure (a : α) : Ensures (ctl · = c) (pure a) (fun _ s => c.Kept (ctl s)) E :=
  Ensures.pure fun _ h => h ▸ Ctl.Kept.refl c

theorem resetAndReturn_kept (ctx : Context) :
    Ensures (ctl · = c) (resetAndReturn ctx) (fun _ s => c.Kept (ctl s)) (fun s => c.TicksKept (ctl s)) :=
  (Ensures.weaken (resetAndReturn_ctl ctx) fun _ h => h.ticksKept).after fun _ _ h => h.kept

theorem irqHandler_ctl :
    Ensures (ctl · = c) irqHandler (fun _ s => c.Kept (ctl s)) (fun s => c.TicksKept (ctl s)) := by
  rw [irqHandler_eq]
  refine Ensures.bind (mmioReadStatus_follows quiet_closed.calm_of_commit).quiet fun v => Ensures.read ?_
  rintro u rfl
  refine Ensures.started ?_
  refine Ensures.ite (fun _ => kept_pure _) fun _ => Ensures.ite (fun _ => kept_pure _) fun _ => Ensures.ite (fun _ => ?_) fun _ => ?_
  · exact Ensures.bind (emit_quiet _) fun _ => Ensures.bind (resetAndReturn_kept _) fun _ => Ensures.pure fun _ h => h
  · exact kept_of_loud (irqWalks_follows ctl_closed (fun _ _ _ => trivial) _ _)

theorem validRequest_state {an : AutonegArg} {sp : Nat} {dx : DuplexArg} {l l' : LinkState} (h : validRequest an sp dx l = some l') :
    l'.state = l.state ∧ l'.tick = l.tick := by
  unfold validRequest at h
  split at h
  · cases h
  · cases h
    exact ⟨rfl, rfl⟩
  · split at h <;> cases h
    exact ⟨rfl, rfl⟩

theorem reconfigureLink_ctl (an : AutonegArg) (sp : Nat) (dx : DuplexArg) :
    Ensures (ctl · = c) (reconfigureLink an sp dx) (fun _ s => c.Kept (ctl s)) (fun s => c.TicksKept (ctl s)) := by
  refine Ensures.read ?_
  rintro u rfl
  refine Ensures.started ?_
  cases hl : validRequest an sp dx u.link with
  | none => exact kept_pure _
  | some l =>
    obtain ⟨hs, ht⟩ := validRequest_state hl
    refine Ensures.ite (fun _ => kept_pure _) fun ha => ?_
    refine Ensures.bind (Q := fun _ s => ctl s = ctl u) (Ensures.update fun s h => ?_) fun _ =>
      Ensures.bind restartNegotiation_ctl fun _ => Ensures.pure fun _ h => ⟨fun _ _ => h.bounded, fun _ => h.timed (not_not.mp ha)⟩
    simp only [ctl, Ctl.mk.injEq] at h ⊢
    exact ⟨h.1, h.2.1, hs, ht, h.2.2.2.2⟩

theorem teardown_kept :
    Ensures (ctl · = c) teardown (fun _ s => c.Kept (ctl s)) (fun s => c.TicksKept (ctl s)) :=
  (Ensures.weaken teardown_ctl fun _ h => h ▸ fun _ hb => hb).after fun _ _ h => h ▸ ⟨fun _ _ => ⟨Nat.zero_le _, trivial⟩, fun _ => rfl⟩

theorem awaitFreeSlots_kept : Ensures (fun s => c.Kept (ctl s)) awaitFreeSlots (fun _ s => c.Kept (ctl s)) E :=
  (awaitFreeSlots_follows quiet_closed.calm_of_commit).quietly _

theorem closeAdapter_ctl :
    Ensures (ctl · = c) closeAdapter (fun _ s => c.Kept (ctl s)) (fun s => c.TicksKept (ctl s)) := by
  refine Ensures.read ?_
  rintro u rfl
  refine Ensures.started ?_
  exact Ensures.ite (fun _ => kept_pure _) fun _ => Ensures.bind teardown_kept fun _ => Ensures.bind awaitFreeSlots_kept fun _ =>
    Ensures.pure fun _ h => h

theorem txTimeout_ctl :
    Ensures (ctl · = c) txTimeout (fun _ s => c.Kept (ctl s)) (fun s => c.TicksKept (ctl s)) := by
  refine Ensures.read ?_
  rintro u rfl
  refine Ensures.started ?_
  exact Ensures.ite (fun _ => kept_pure _) fun _ => Ensures.bind (resetAndReturn_kept _) fun _ => Ensures.pure fun _ h => h

theorem openAdapter_ctl :
    Ensures (ctl · = c) openAdapter (fun _ s => c.Kept (ctl s)) (fun s => c.TicksKept (ctl s)) := by
  refine Ensures.read ?_
  rintro u rfl
  refine Ensures.started ?_
  refine Ensures.ite (fun _ => kept_pure _) fun _ => Ensures.bind (drawIrqAcquire_follows quiet_closed.calm_of_commit).quiet
    fun granted => Ensures.ite (fun _ => ?_) fun _ => kept_pure _
  refine Ensures.bind (Q := fun _ s => ctl s = ctl u) (Ensures.update fun _ h => h) fun _ => Ensures.bind (emit_quiet _) fun _ => ?_
  refine Ensures.bind (Ensures.weaken (resetInit_ctl _) fun _ h => h.ticksKept) fun o => Ensures.ite (fun ho => ?_) fun ho => ?_
  · refine Ensures.pure fun s h => ?_
    rcases h with ⟨-, h⟩ | ⟨h, -⟩
    · exact Ctl.AfterReset.kept (.inl h)
    · exact absurd ho h
  · refine Ensures.bind (Q := fun _ s => (ctl u).Kept (ctl s)) ?_ fun _ => Ensures.bind awaitFreeSlots_kept fun _ =>
      Ensures.pure fun _ h => h
    have hfail : ∀ s, (o = .ok ∧ Ctl.Polling { ctl u with adapter := .running } (ctl s) ∨
        o ≠ .ok ∧ ctl s = { ctl u with adapter := .notReady, state := .idle, armed := true }) →
        ctl s = { ctl u with adapter := .notReady, state := .idle, armed := true } := fun s h =>
      h.elim (fun h => absurd h.1 ho) (·.2)
    refine ((Ensures.weaken teardown_ctl fun s h => ?_).before hfail).after fun _ s h => ?_
    · exact h ▸ fun _ hb => ⟨hb.1, trivial⟩
    · exact h ▸ ⟨fun _ _ => ⟨Nat.zero_le _, trivial⟩, fun _ => rfl⟩

end Contracts

/-! ### Every operation -/

/-- What a way of running keeps of the control state; an operation inside another leaves the timer to that one. -/
def RunKeeps : Running → Prop
  | .agent a => ∀ s t, agentStep a s = some t → ctl t = ctl s
  | .host _ body => ∀ c, Ensures (ctl · = c) body (fun _ s => c.Kept (ctl s)) (fun s => c.TicksKept (ctl s))
  | .internal body => ∀ c, Ensures (ctl · = c) body (fun _ s => c.TicksKept (ctl s)) (fun s => c.TicksKept (ctl s))

theorem runningOf_keeps (i : Instr) : RunKeeps (runningOf i) := by
  have hloud : ∀ {m : M OpOutcome}, Follows (fun s t => ctl t = ctl s) m → ∀ c : Ctl,
      Ensures (ctl · = c) m (fun _ s => c.TicksKept (ctl s)) (fun s => c.TicksKept (ctl s)) := fun h c =>
    (kept_of_loud h).after fun _ _ h => h.1
  have hok : ∀ {m : M Unit}, Follows (fun s t => ctl t = ctl s) m → ∀ c : Ctl,
      Ensures (ctl · = c) (do m; pure OpOutcome.ok) (fun _ s => c.TicksKept (ctl s)) (fun s => c.TicksKept (ctl s)) := fun h =>
    hloud (Follows.bind ctl_closed h fun _ => Follows.pure ctl_closed _)
  have hpoll : ∀ {m : M Unit}, (∀ c : Ctl, Ensures (ctl · = c) m (fun _ s => c.Polling (ctl s)) (fun s => c.TicksKept (ctl s))) →
      ∀ c : Ctl, Ensures (ctl · = c) (do m; pure OpOutcome.ok) (fun _ s => c.TicksKept (ctl s)) (fun s => c.TicksKept (ctl s)) :=
    fun h c => Ensures.bind (h c) fun _ => Ensures.pure fun _ h _ _ => h.bounded
  have hagent : ∀ a s t, agentStep a s = some t → ctl t = ctl s := fun _ _ _ h =>
    (calmFrame_of_hostSide (agentStep_hostSide h)).ctl
  have hcalm := ctl_closed.calm_of_ring
  cases i with
  | ringAlloc r n => exact hloud (ringAlloc_follows ctl_alloc r n)
  | ringNextFree => exact hloud (ringNextFree_follows hcalm)
  | ringPublish r slot a f => exact hok (ringPublish_follows hcalm a f fun _ _ => trivial)
  | ringTryReclaim r slot =>
    refine hloud (Follows.bind ctl_closed (ringTryReclaim_follows hcalm r slot) fun d => ?_)
    cases d <;> exact Follows.pure ctl_closed _
  | ringReset r => exact hok (ringReset_follows ctl_closed fun _ _ => trivial)
  | transmit pkt => exact fun _ => kept_of_loud (transmit_follows ctl_closed (fun _ _ _ => trivial) pkt)
  | txReclaim => exact hok (txReclaim_follows ctl_closed)
  | rxReclaim => exact hok (rxReclaim_follows ctl_closed fun _ _ _ => trivial)
  | rxPost slot h => exact hok (rxPost_follows hcalm h fun _ _ => trivial)
  | rxRecycle slot => exact hok (rxRecycle_follows hcalm fun _ _ => trivial)
  | irq => exact fun _ => irqHandler_ctl
  | linkBegin => exact hpoll fun _ => linkBegin_ctl
  | linkTick => exact fun _ => timerFiring_ctl
  | linkCommit m =>
    refine fun c => Ensures.bind (linkCommit_quiet m) fun _ => Ensures.ite (fun _ => ?_) fun _ => ?_ <;>
      exact (kept_pure _).after fun _ _ h => h.1
  | linkForce p => exact hpoll fun _ => linkForce_ctl p
  | reconfigureLink an sp dx => exact fun _ => reconfigureLink_ctl an sp dx
  | openAdapter => exact fun _ => openAdapter_ctl
  | closeAdapter => exact fun _ => closeAdapter_ctl
  | txTimeout => exact fun _ => txTimeout_ctl
  | setMcast req => exact fun _ => kept_of_loud (setMcast_follows hcalm req)
  | resetInit ctx =>
    refine fun c => (Ensures.weaken (resetInit_ctl ctx) fun _ h => h.ticksKept).after fun o s h => ?_
    exact Ctl.AfterReset.ticksKept (h.imp (·.2) (·.2))
  | timerFire => exact fun _ => timerFiring_ctl
  | watchdogFire => exact fun _ => txTimeout_ctl
  | envVisible _ => exact hagent _
  | devTxDone _ => exact hagent _
  | devRxDone _ _ _ _ => exact hagent _
  | devStatus _ => exact hagent _
  | macDrained => exact hagent _

/-- Every operation keeps the tick counter within its bounds, even one that faults. -/
theorem exec_ticksKept {i : Instr} {s t : State} (h : exec i s = .next t) : (ctl s).TicksKept (ctl t) := by
  have hk := runningOf_keeps i
  obtain ⟨⟨hs, -⟩, hr⟩ := exec_next h
  cases hi : runningOf i with
  | agent a =>
    rw [hi] at hk hr
    exact hk s t hr ▸ (Ctl.Kept.refl _).1
  | host ctx body =>
    rw [hi] at hk hr
    rcases Ends.next (hk (ctl s) (enter ctx s) hs rfl) hr.2 with ⟨o, u, hu, -, rfl⟩ | ⟨hu, -⟩
    · exact hu.1
    · exact hu
  | internal body =>
    rw [hi] at hk hr
    rcases Ends.next (hk (ctl s) s hs rfl) hr with ⟨o, u, hu, -, rfl⟩ | ⟨hu, -⟩
    · exact hu
    · exact hu

/-- Settles O53: every program that counts a tick then looks at it, and every other sets it to 0 or leaves it alone. -/
theorem stepKeepsTicksBounded : Obligations.StepKeepsTicksBounded := by
  intro s t hp hb h
  rw [tickBounded_iff] at hb ⊢
  obtain ⟨-, ⟨-, rfl⟩ | ⟨i, hi⟩⟩ := step_next h
  · exact hb
  · exact exec_ticksKept hi hp hb

/-- Only operations that a rule of the block invokes run inside another. -/
theorem internal_of_runningOf {i : Instr} {body : M OpOutcome} (h : runningOf i = .internal body) : i.opClass = .internal := by
  cases i <;> cases h <;> rfl

/-- Settles O54: the timer is armed by the programs that enter a wait, and disarmed when it fires or the machine stops. -/
theorem operationsKeepTheTimerConsistent : Obligations.OperationsKeepTheTimerConsistent := by
  intro i s t hclass hc h ht
  rw [timerConsistent_iff] at hc ⊢
  have hk := runningOf_keeps i
  obtain ⟨⟨hs, -⟩, hr⟩ := exec_next h
  cases hi : runningOf i with
  | agent a =>
    rw [hi] at hk hr
    exact hk s t hr ▸ hc
  | host ctx body =>
    rw [hi] at hk hr
    rcases Ends.next (hk (ctl s) (enter ctx s) hs rfl) hr.2 with ⟨o, u, hu, -, rfl⟩ | ⟨-, hu⟩
    · exact hu.2 hc
    · exact absurd ht hu
  | internal body => exact absurd (internal_of_runningOf hi) hclass

end Sys2Proof.Invariants
end

section
/-! PROOFS. The rings' books: shadows, mappings, buffers and packets as one record, its consistency, and what keeps it. -/

-- One theorem at a time: checked together they ask for more threads than the check allows.
set_option Elab.async false

namespace Sys2Proof.Invariants

open Sys2Proof.Machine Sys2Proof.Laws

/-! ### Tables as permutations -/

section Tables

variable {β : Type}

/-- The keys a table lists. -/
def keys (t : Table β) : List Nat := t.map (·.1)

theorem mapGet_none_of_keysAbove {k : Nat} : ∀ {t : Table β}, keysAbove k t = true → mapGet t k = none
  | [], _ => rfl
  | (k', v) :: t, h => by
    simp only [keysAbove, List.all_cons, Bool.and_eq_true, decide_eq_true_eq] at h
    simp only [mapGet, show ¬ k = k' by omega, if_false]
    exact mapGet_none_of_keysAbove (by simpa [keysAbove] using h.2)

theorem mapHas_iff_mem_keys (t : Table β) (k : Nat) : mapHas t k = true ↔ k ∈ keys t := by
  induction t with
  | nil => simp [mapHas, keys]
  | cons e t ih =>
    simp only [keys, mapHas] at ih
    by_cases h : k = e.1 <;> simp [mapHas, mapGet, keys, h, ih]

theorem mapHas_iff (t : Table β) (k : Nat) : mapHas t k = true ↔ ∃ v, mapGet t k = some v := Option.isSome_iff_exists

theorem keys_nodup {t : Table β} (h : mapWf t = true) : (keys t).Nodup := by
  induction t with
  | nil => exact .nil
  | cons e t ih =>
    simp only [mapWf, Bool.and_eq_true, keysAbove_iff] at h
    refine List.nodup_cons.mpr ⟨fun hm => ?_, ih h.2⟩
    obtain ⟨x, hx, he⟩ := List.mem_map.mp hm
    have hlt := h.1 x hx
    simp only at he
    omega

/-- A fresh key is listed in addition. -/
theorem perm_mapSet_fresh {t : Table β} {k : Nat} (v : β) (h : mapHas t k = false) : (mapSet t k v).Perm ((k, v) :: t) := by
  induction t with
  | nil => exact .refl _
  | cons e t ih =>
    obtain ⟨k', v'⟩ := e
    have hne : ¬ k = k' := by
      intro he
      simp [mapHas, mapGet, he] at h
    simp only [mapHas, mapGet, hne, if_false] at h
    simp only [mapSet, hne, if_false]
    split
    · exact .refl _
    · exact ((ih h).cons _).trans (.swap _ _ _)

/-- What is taken out was listed once. -/
theorem perm_mapErase {t : Table β} {k : Nat} {v : β} (hwf : mapWf t = true) (h : mapGet t k = some v) :
    t.Perm ((k, v) :: mapErase t k) := by
  induction t with
  | nil => cases h
  | cons e t ih =>
    obtain ⟨k', v'⟩ := e
    simp only [mapWf, Bool.and_eq_true] at hwf
    simp only [mapGet] at h
    simp only [mapErase]
    split at h
    · rename_i hk
      cases h
      subst hk
      rw [if_pos rfl, mapErase_of_keysAbove t hwf.1]
    · rename_i hk
      rw [if_neg hk]
      exact ((ih hwf.2 h).cons _).trans (.swap _ _ _)

theorem mapErase_mapSet_same {t : Table β} {k : Nat} (v : β) (hwf : mapWf t = true) : mapErase (mapSet t k v) k = mapErase t k := by
  induction t with
  | nil => simp [mapSet, mapErase]
  | cons e t ih =>
    obtain ⟨k', v'⟩ := e
    simp only [mapWf, Bool.and_eq_true] at hwf
    simp only [mapSet]
    split
    · simp [mapErase]
    · split
      · rename_i hk
        simp [mapErase, hk]
      · rename_i hk
        simp [mapErase, hk, ih hwf.2]

/-- A listed key's value is replaced. -/
theorem perm_mapSet_same {t : Table β} {k : Nat} (v' : β) (hwf : mapWf t = true) :
    (mapSet t k v').Perm ((k, v') :: mapErase t k) := by
  have h := perm_mapErase (mapWf_mapSet t k v' hwf) (mapGet_mapSet_same t k v')
  rwa [mapErase_mapSet_same v' hwf] at h

theorem keys_mapSet_fresh {t : Table β} {k : Nat} (v : β) (h : mapHas t k = false) : (keys (mapSet t k v)).Perm (k :: keys t) :=
  (perm_mapSet_fresh v h).map _

theorem keys_mapErase {t : Table β} {k : Nat} (hwf : mapWf t = true) (h : mapHas t k = true) :
    (keys t).Perm (k :: keys (mapErase t k)) := by
  obtain ⟨v, hv⟩ := (mapHas_iff t k).mp h
  exact (perm_mapErase hwf hv).map _

/-- A table that lists nothing is empty. -/
theorem eq_nil_of_mapHas {t : Table β} (h : ∀ k, mapHas t k = false) : t = [] := by
  cases t with
  | nil => rfl
  | cons e t => simpa [mapHas, mapGet] using h e.1

end Tables

/-! ### The books -/

/-- The bookkeeping of both rings, with what its consistency depends on. -/
structure Ledger where
  params : Params
  adapter : AdapterState
  head : Nat
  tail : Nat
  cursor : Nat
  txShadow : Table TxEntry
  rxShadow : Table RxEntry
  liveMaps : Table MapEntry
  liveBuffers : Table Unit
  pkts : Table Packet
  nextPkt : Nat

/-- The books of a state. -/
def book (s : State) : Ledger :=
  ⟨s.params, s.adapter, s.tx.head, s.tx.tail, s.rx.cursor, s.tx.shadow, s.rx.shadow, s.liveMaps, s.liveBuffers, s.pkts, s.nextPkt⟩

namespace Ledger

/-- The handles of the shadow entries of both rings. -/
def handles (l : Ledger) : List Nat := l.txShadow.map (·.2.handle) ++ l.rxShadow.map (·.2.handle)

/-- The buffers of the receive shadow. -/
def bufs (l : Ledger) : List Nat := l.rxShadow.map (·.2.buf)

/-- The slot is outstanding (R55 item 2). -/
def InUse (l : Ledger) (i : Nat) : Prop :=
  i < l.params.nTx ∧ occupiedOf l.params.nTx i l.tail < occupiedOf l.params.nTx l.head l.tail

/-- The last fragment of packet `k` is in flight. -/
def InFlight (l : Ledger) (k : Nat) : Prop := ∃ slot e, mapGet l.txShadow slot = some e ∧ e.eop = true ∧ e.pkt = k

/-- The books are in order but for the transmit slots in use: live mappings are those of the shadow entries and those of `extra`;
with `tracked` the buffers held are those of the receive ring, and with `full` every receive slot is posted. -/
structure Fair (full tracked : Prop) (extra : List Nat) (l : Ledger) : Prop where
  txWf : mapWf l.txShadow = true
  rxWf : mapWf l.rxShadow = true
  mapsWf : mapWf l.liveMaps = true
  buffersWf : mapWf l.liveBuffers = true
  range : ∀ i, mapHas l.rxShadow i = true → i < l.params.nRx
  posted : full → ∀ i, i < l.params.nRx → mapHas l.rxShadow i = true
  handles : (keys l.liveMaps).Perm (extra ++ l.handles)
  buffers : tracked → (keys l.liveBuffers).Perm l.bufs
  packets : ∀ k, mapHas l.pkts k = true → l.InFlight k

/-- The books are in order, cursors are slots of their rings, and the transmit shadow lists exactly the slots in use. -/
structure Sound (full tracked : Prop) (l : Ledger) : Prop extends Fair full tracked [] l where
  head : l.head < l.params.nTx
  tail : l.tail < l.params.nTx
  cursor : l.cursor < l.params.nRx
  slots : ∀ i, mapHas l.txShadow i = true ↔ l.InUse i

variable {full tracked : Prop} {l : Ledger}

theorem Sound.imp (h : l.Sound full tracked) {full' : Prop} (hf : full' → full) : l.Sound full' tracked :=
  { h with posted := fun x => h.posted (hf x) }

/-! ### The slots in use -/

theorem mod_of_lt_double {a n : Nat} (h : a < 2 * n) : a % n = if a < n then a else a - n := by
  split
  · exact Nat.mod_eq_of_lt ‹_›
  · rw [Nat.mod_eq_sub_mod (by omega), Nat.mod_eq_of_lt (by omega)]

theorem occupiedOf_eq {n a b : Nat} (ha : a < n) (hb : b < n) :
    occupiedOf n a b = if b ≤ a then a - b else a + n - b := by
  rw [occupiedOf, mod_of_lt_double (by omega)]
  split_ifs <;> omega

/-- The slot of fragment `j` of the packet that is sent next (R156). -/
def slotOf (l : Ledger) (j : Nat) : Nat := (l.head + j - 1) % l.params.nTx

/-- No slot is in use where both cursors stand at 0. -/
theorem not_inUse_zero (hh : l.head = 0) (ht : l.tail = 0) (i : Nat) : ¬ l.InUse i := by
  rintro ⟨-, h⟩
  simp [hh, ht, occupiedOf] at h

/-- A step of the tail takes its slot out of use (R161). -/
theorem inUse_advanceTail (hh : l.head < l.params.nTx) (ht : l.tail < l.params.nTx) (hne : l.tail ≠ l.head) (i : Nat) :
    ({ l with tail := (l.tail + 1) % l.params.nTx } : Ledger).InUse i ↔ i ≠ l.tail ∧ l.InUse i := by
  have ht' : (l.tail + 1) % l.params.nTx < l.params.nTx := Nat.mod_lt _ (by omega)
  by_cases hi : i < l.params.nTx
  · simp only [InUse, hi, true_and]
    rw [occupiedOf_eq hi ht', occupiedOf_eq hh ht', occupiedOf_eq hi ht, occupiedOf_eq hh ht, mod_of_lt_double (by omega)]
    split_ifs <;> omega
  · simp [InUse, hi]

theorem slotOf_lt (hh : l.head < l.params.nTx) (j : Nat) : l.slotOf j < l.params.nTx := Nat.mod_lt _ (by omega)

theorem slotOf_eq (hh : l.head < l.params.nTx) {j : Nat} (h1 : 1 ≤ j) (hj : j ≤ l.params.nTx) :
    l.slotOf j = if l.head + j - 1 < l.params.nTx then l.head + j - 1 else l.head + j - 1 - l.params.nTx :=
  mod_of_lt_double (by omega)

/-- Fragments of one packet stand in different slots. -/
theorem slotOf_inj (hh : l.head < l.params.nTx) {i j : Nat} (hi : 1 ≤ i ∧ i ≤ l.params.nTx) (hj : 1 ≤ j ∧ j ≤ l.params.nTx)
    (h : l.slotOf i = l.slotOf j) : i = j := by
  rw [slotOf_eq hh hi.1 hi.2, slotOf_eq hh hj.1 hj.2] at h
  split_ifs at h <;> omega

/-- The slots of a packet that fits are not in use (R154). -/
theorem not_inUse_slotOf (hh : l.head < l.params.nTx) (ht : l.tail < l.params.nTx) {k j : Nat}
    (hk : occupiedOf l.params.nTx l.head l.tail + k < l.params.nTx) (hj : 1 ≤ j ∧ j ≤ k) : ¬ l.InUse (l.slotOf j) := by
  rintro ⟨hlt, h⟩
  rw [occupiedOf_eq hh ht] at hk h
  rw [occupiedOf_eq hlt ht, slotOf_eq hh hj.1 (by omega)] at h
  split_ifs at h hk <;> omega

/-- A step of the head takes the slots of the packet into use (R158). -/
theorem inUse_advanceHead (hh : l.head < l.params.nTx) (ht : l.tail < l.params.nTx) {k : Nat}
    (hk : occupiedOf l.params.nTx l.head l.tail + k < l.params.nTx) (i : Nat) :
    ({ l with head := (l.head + k) % l.params.nTx } : Ledger).InUse i ↔ l.InUse i ∨ ∃ j, (1 ≤ j ∧ j ≤ k) ∧ i = l.slotOf j := by
  have hh' : (l.head + k) % l.params.nTx < l.params.nTx := Nat.mod_lt _ (by omega)
  have hocc : occupiedOf l.params.nTx ((l.head + k) % l.params.nTx) l.tail = occupiedOf l.params.nTx l.head l.tail + k := by
    rw [occupiedOf_eq hh ht] at hk ⊢
    rw [occupiedOf_eq hh' ht, mod_of_lt_double (by omega)]
    split_ifs at hk ⊢ <;> omega
  have hslot : ∀ j, 1 ≤ j ∧ j ≤ k →
      occupiedOf l.params.nTx (l.slotOf j) l.tail = occupiedOf l.params.nTx l.head l.tail + j - 1 := by
    intro j hj
    rw [occupiedOf_eq hh ht] at hk ⊢
    rw [occupiedOf_eq (slotOf_lt hh j) ht, slotOf_eq hh hj.1 (by omega)]
    split_ifs at hk ⊢ <;> omega
  constructor
  · rintro ⟨hi, h⟩
    by_cases hold : l.InUse i
    · exact .inl hold
    · have hi' : i < l.params.nTx := hi
      have hge : occupiedOf l.params.nTx l.head l.tail ≤ occupiedOf l.params.nTx i l.tail :=
        Nat.le_of_not_lt fun hlt => hold ⟨hi, hlt⟩
      simp only [hocc] at h
      refine .inr ⟨occupiedOf l.params.nTx i l.tail - occupiedOf l.params.nTx l.head l.tail + 1, by omega, ?_⟩
      rw [slotOf_eq hh (by omega) (by omega)]
      rw [occupiedOf_eq hi' ht, occupiedOf_eq hh ht] at hge ⊢
      split_ifs at hge ⊢ <;> omega
  · rintro (⟨hi, h⟩ | ⟨j, hj, rfl⟩)
    · exact ⟨hi, by simp only [hocc]; omega⟩
    · exact ⟨slotOf_lt hh j, by simp only [hocc, hslot j hj]; omega⟩

/-! ### The receive ring -/

/-- A receive slot is posted with a new mapping of a new buffer. -/
def postRx (i b h da : Nat) (l : Ledger) : Ledger :=
  { l with
    rxShadow := mapSet l.rxShadow i ⟨b, h⟩
    liveMaps := mapSet l.liveMaps h ⟨b, da⟩
    liveBuffers := mapSet l.liveBuffers b () }

/-- The mapping and the buffer of entry `e` are given up. -/
def giveUp (e : RxEntry) (l : Ledger) : Ledger :=
  { l with liveMaps := mapErase l.liveMaps e.handle, liveBuffers := mapErase l.liveBuffers e.buf }

/-- A receive slot is emptied. -/
def dropRx (i : Nat) (e : RxEntry) (l : Ledger) : Ledger := { giveUp e l with rxShadow := mapErase l.rxShadow i }

theorem handles_rx {l : Ledger} {t : Table RxEntry} {h : Nat} (hp : (l.rxShadow.map (·.2.handle)).Perm (h :: t.map (·.2.handle))) :
    l.handles.Perm (h :: ({ l with rxShadow := t } : Ledger).handles) :=
  (hp.append_left _).trans List.perm_middle

/-- An empty slot that is posted leaves the books in order. -/
theorem Fair.postRx (hl : l.Fair full tracked []) {i b h da : Nat} (hi : i < l.params.nRx) (hnew : mapHas l.rxShadow i = false)
    (hh : mapHas l.liveMaps h = false) (hb : mapHas l.liveBuffers b = false) : (postRx i b h da l).Fair full tracked [] where
  txWf := hl.txWf
  rxWf := mapWf_mapSet _ _ _ hl.rxWf
  mapsWf := mapWf_mapSet _ _ _ hl.mapsWf
  buffersWf := mapWf_mapSet _ _ _ hl.buffersWf
  range j hj := by
    simp only [Ledger.postRx, mapHas_mapSet, Bool.or_eq_true, decide_eq_true_eq] at hj
    rcases hj with rfl | hj
    · exact hi
    · exact hl.range j hj
  posted hf j hj := by
    simp only [Ledger.postRx, mapHas_mapSet, hl.posted hf j hj, Bool.or_true]
  handles := by
    have hs : ((mapSet l.rxShadow i ⟨b, h⟩).map (·.2.handle)).Perm (h :: l.rxShadow.map (·.2.handle)) :=
      (perm_mapSet_fresh _ hnew).map _
    exact (keys_mapSet_fresh _ hh).trans ((hl.handles.cons h).trans (handles_rx (l := Ledger.postRx i b h da l) hs).symm)
  buffers ht := by
    have hs : (Ledger.postRx i b h da l).bufs.Perm (b :: l.bufs) := (perm_mapSet_fresh _ hnew).map _
    exact (keys_mapSet_fresh _ hb).trans (((hl.buffers ht).cons b).trans hs.symm)
  packets := hl.packets

/-- A posted slot that is emptied leaves the books in order. -/
theorem Fair.dropRx (hl : l.Fair full tracked []) {i : Nat} {e : RxEntry} (he : mapGet l.rxShadow i = some e)
    (hh : mapHas l.liveMaps e.handle = true) : (dropRx i e l).Fair False tracked [] where
  txWf := hl.txWf
  rxWf := mapWf_mapErase _ _ hl.rxWf
  mapsWf := mapWf_mapErase _ _ hl.mapsWf
  buffersWf := mapWf_mapErase _ _ hl.buffersWf
  range j hj := by
    simp only [Ledger.dropRx, mapHas_mapErase, Bool.and_eq_true] at hj
    exact hl.range j hj.2
  posted := False.elim
  handles := by
    have hs := handles_rx (t := mapErase l.rxShadow i) ((perm_mapErase hl.rxWf he).map _)
    exact List.Perm.cons_inv (((keys_mapErase hl.mapsWf hh).symm.trans hl.handles).trans hs)
  buffers ht := by
    have hs : l.bufs.Perm (e.buf :: (mapErase l.rxShadow i).map (·.2.buf)) := (perm_mapErase hl.rxWf he).map _
    have hb : mapHas l.liveBuffers e.buf = true := (mapHas_iff_mem_keys _ _).mpr
      ((hl.buffers ht).mem_iff.mpr (hs.mem_iff.mpr List.mem_cons_self))
    exact List.Perm.cons_inv (((keys_mapErase hl.buffersWf hb).symm.trans (hl.buffers ht)).trans hs)
  packets := hl.packets

/-- A posted slot that is posted anew, its old mapping and buffer then given up, leaves the books in order. -/
theorem Fair.replaceRx (hl : l.Fair full tracked []) {i b h da : Nat} {e : RxEntry} (he : mapGet l.rxShadow i = some e)
    (hh : mapHas l.liveMaps h = false) (hb : mapHas l.liveBuffers b = false)
    (hlive : mapHas (mapSet l.liveMaps h ⟨b, da⟩) e.handle = true) :
    (giveUp e (Ledger.postRx i b h da l)).Fair full tracked [] where
  txWf := hl.txWf
  rxWf := mapWf_mapSet _ _ _ hl.rxWf
  mapsWf := mapWf_mapErase _ _ (mapWf_mapSet _ _ _ hl.mapsWf)
  buffersWf := mapWf_mapErase _ _ (mapWf_mapSet _ _ _ hl.buffersWf)
  range j hj := by
    simp only [giveUp, Ledger.postRx, mapHas_mapSet, Bool.or_eq_true, decide_eq_true_eq] at hj
    rcases hj with rfl | hj
    · exact hl.range _ ((mapHas_iff _ _).mpr ⟨e, he⟩)
    · exact hl.range j hj
  posted hf j hj := by
    simp only [giveUp, Ledger.postRx, mapHas_mapSet, hl.posted hf j hj, Bool.or_true]
  handles := by
    have hold := handles_rx (t := mapErase l.rxShadow i) ((perm_mapErase hl.rxWf he).map _)
    have hnew : (giveUp e (Ledger.postRx i b h da l)).handles.Perm (h :: ({ l with rxShadow := mapErase l.rxShadow i } : Ledger).handles) :=
      handles_rx (l := giveUp e (Ledger.postRx i b h da l)) ((perm_mapSet_same _ hl.rxWf).map _)
    have hmaps := (keys_mapErase (mapWf_mapSet _ _ _ hl.mapsWf) hlive).symm.trans (keys_mapSet_fresh _ hh)
    refine List.Perm.cons_inv (a := e.handle) (hmaps.trans ?_)
    exact ((hl.handles.trans hold).cons h).trans ((List.Perm.swap _ _ _).trans (hnew.symm.cons _))
  buffers ht := by
    have hold : l.bufs.Perm (e.buf :: (mapErase l.rxShadow i).map (·.2.buf)) := (perm_mapErase hl.rxWf he).map _
    have hnew : (giveUp e (Ledger.postRx i b h da l)).bufs.Perm (b :: (mapErase l.rxShadow i).map (·.2.buf)) :=
      (perm_mapSet_same _ hl.rxWf).map _
    have hkeys := keys_mapSet_fresh (v := ()) hb
    have hlive : mapHas (mapSet l.liveBuffers b ()) e.buf = true := (mapHas_iff_mem_keys _ _).mpr
      (hkeys.mem_iff.mpr (List.mem_cons_of_mem _ ((hl.buffers ht).mem_iff.mpr (hold.mem_iff.mpr List.mem_cons_self))))
    have hbufs := (keys_mapErase (mapWf_mapSet _ _ _ hl.buffersWf) hlive).symm.trans hkeys
    refine List.Perm.cons_inv (a := e.buf) (hbufs.trans ?_)
    exact (((hl.buffers ht).trans hold).cons b).trans ((List.Perm.swap _ _ _).trans (hnew.symm.cons _))
  packets := hl.packets

/-! ### The transmit ring -/

/-- A transmit slot is emptied, and its packet released with the last fragment. -/
def dropTx (i : Nat) (e : TxEntry) (l : Ledger) : Ledger :=
  { l with
    liveMaps := mapErase l.liveMaps e.handle
    txShadow := mapErase l.txShadow i
    pkts := if e.eop then mapErase l.pkts e.pkt else l.pkts }

/-- A transmit slot comes into use. -/
def sendTx (i : Nat) (e : TxEntry) (l : Ledger) : Ledger := { l with txShadow := mapSet l.txShadow i e }

theorem Fair.dropTx (hl : l.Fair full tracked []) {i : Nat} {e : TxEntry} (he : mapGet l.txShadow i = some e)
    (hh : mapHas l.liveMaps e.handle = true) : (dropTx i e l).Fair full tracked [] where
  txWf := mapWf_mapErase _ _ hl.txWf
  rxWf := hl.rxWf
  mapsWf := mapWf_mapErase _ _ hl.mapsWf
  buffersWf := hl.buffersWf
  range := hl.range
  posted := hl.posted
  handles := by
    have hs : l.handles.Perm (e.handle :: (Ledger.dropTx i e l).handles) :=
      ((perm_mapErase hl.txWf he).map _).append_right _
    exact List.Perm.cons_inv (((keys_mapErase hl.mapsWf hh).symm.trans hl.handles).trans hs)
  buffers := hl.buffers
  packets k hk := by
    have hold : mapHas l.pkts k = true ∧ ¬ (e.eop = true ∧ e.pkt = k) := by
      simp only [Ledger.dropTx] at hk
      split at hk
      · rename_i heop
        simp only [mapHas_mapErase, Bool.and_eq_true, Bool.not_eq_true', decide_eq_false_iff_not] at hk
        exact ⟨hk.2, fun h => hk.1 h.2.symm⟩
      · rename_i heop
        exact ⟨hk, fun h => heop h.1⟩
    obtain ⟨slot, e', hget, heop, hpkt⟩ := hl.packets k hold.1
    have hne : slot ≠ i := by
      rintro rfl
      rw [he] at hget
      cases hget
      exact hold.2 ⟨heop, hpkt⟩
    exact ⟨slot, e', (mapGet_mapErase_other _ hne).trans hget, heop, hpkt⟩

theorem InFlight.sendTx {k i : Nat} {e : TxEntry} (h : l.InFlight k) (hi : mapHas l.txShadow i = false) :
    (sendTx i e l).InFlight k := by
  obtain ⟨slot, e', hget, hrest⟩ := h
  have hne : slot ≠ i := by
    rintro rfl
    simp [mapHas, hget] at hi
  exact ⟨slot, e', (mapGet_mapSet_other _ _ hne).trans hget, hrest⟩

theorem Fair.sendTx {extra : List Nat} {i : Nat} {e : TxEntry} (hl : l.Fair full tracked (e.handle :: extra))
    (hi : mapHas l.txShadow i = false) : (sendTx i e l).Fair full tracked extra where
  txWf := mapWf_mapSet _ _ _ hl.txWf
  rxWf := hl.rxWf
  mapsWf := hl.mapsWf
  buffersWf := hl.buffersWf
  range := hl.range
  posted := hl.posted
  handles := by
    have hs : (Ledger.sendTx i e l).handles.Perm (e.handle :: l.handles) := ((perm_mapSet_fresh _ hi).map _).append_right _
    exact hl.handles.trans (List.perm_middle.symm.trans (hs.symm.append_left _))
  buffers := hl.buffers
  packets k hk := (hl.packets k hk).sendTx hi

/-- The reclaim of the slot at the tail leaves the books in order (R161). -/
theorem Sound.reclaim (hl : l.Sound full tracked) {e : TxEntry} (he : mapGet l.txShadow l.tail = some e)
    (hh : mapHas l.liveMaps e.handle = true) :
    ({ Ledger.dropTx l.tail e l with tail := (l.tail + 1) % l.params.nTx } : Ledger).Sound full tracked :=
  have huse : l.InUse l.tail := (hl.slots _).mp ((mapHas_iff _ _).mpr ⟨e, he⟩)
  have hne : l.tail ≠ l.head := fun h => by
    obtain ⟨-, hlt⟩ := huse
    rw [← h] at hlt
    exact Nat.lt_irrefl _ hlt
  { hl.toFair.dropTx he hh with
    head := hl.head
    tail := Nat.mod_lt _ (Nat.zero_lt_of_lt hl.tail)
    cursor := hl.cursor
    slots := fun i => by
      refine Iff.trans ?_ (inUse_advanceTail hl.head hl.tail hne i).symm
      simp only [Ledger.dropTx, mapHas_mapErase, Bool.and_eq_true, Bool.not_eq_true', decide_eq_false_iff_not, hl.slots i, ne_eq] }

/-! ### Sending a packet -/

/-- A packet is being sent from the books `l₀`: the slots of the fragments `sent` are entered, the handles `hs` are still to be
entered. -/
structure Sending (full tracked : Prop) (l₀ : Ledger) (sent : Nat → Prop) (hs : List Nat) (l : Ledger) : Prop
    extends Fair full tracked hs l where
  same : l = { l₀ with txShadow := l.txShadow, liveMaps := l.liveMaps }
  slots : ∀ i, mapHas l.txShadow i = true ↔ l₀.InUse i ∨ ∃ j, sent j ∧ i = l₀.slotOf j

variable {l₀ : Ledger} {sent : Nat → Prop} {hs : List Nat}

theorem Fair.map {extra : List Nat} (hl : l.Fair full tracked extra) {h : Nat} (m : MapEntry) (hh : mapHas l.liveMaps h = false) :
    ({ l with liveMaps := mapSet l.liveMaps h m } : Ledger).Fair full tracked (h :: extra) :=
  { hl with
    mapsWf := mapWf_mapSet _ _ _ hl.mapsWf
    handles := (keys_mapSet_fresh _ hh).trans (hl.handles.cons h) }

theorem Fair.unmap {extra : List Nat} {h : Nat} (hl : l.Fair full tracked (h :: extra)) (hh : mapHas l.liveMaps h = true) :
    ({ l with liveMaps := mapErase l.liveMaps h } : Ledger).Fair full tracked extra :=
  { hl with
    mapsWf := mapWf_mapErase _ _ hl.mapsWf
    handles := List.Perm.cons_inv ((keys_mapErase hl.mapsWf hh).symm.trans hl.handles) }

theorem Fair.perm {extra extra' : List Nat} (hl : l.Fair full tracked extra) (h : extra.Perm extra') :
    l.Fair full tracked extra' := { hl with handles := hl.handles.trans (h.append_right _) }

theorem Sending.map (hl : Sending full tracked l₀ sent hs l) {h : Nat} (m : MapEntry) (hh : mapHas l.liveMaps h = false) :
    Sending full tracked l₀ sent (h :: hs) { l with liveMaps := mapSet l.liveMaps h m } :=
  { hl.toFair.map m hh with same := by rw [hl.same], slots := hl.slots }

theorem Sending.unmap {h : Nat} (hl : Sending full tracked l₀ sent (h :: hs) l) (hh : mapHas l.liveMaps h = true) :
    Sending full tracked l₀ sent hs { l with liveMaps := mapErase l.liveMaps h } :=
  { hl.toFair.unmap hh with same := by rw [hl.same], slots := hl.slots }

theorem Sending.perm (hl : Sending full tracked l₀ sent hs l) {hs' : List Nat} (h : hs.Perm hs') :
    Sending full tracked l₀ sent hs' l := { hl.toFair.perm h with same := hl.same, slots := hl.slots }

/-- A packet that is not begun. -/
theorem Sound.sending (hl : l.Sound full tracked) : Sending full tracked l (fun _ => False) [] l :=
  { hl.toFair with same := rfl, slots := fun i => by simp [hl.slots i] }

/-- A packet that is given up before its first slot is entered leaves the books in order (R155). -/
theorem Sending.abandon (h₀ : l₀.Sound full tracked) (hl : Sending full tracked l₀ (fun _ => False) [] l) : l.Sound full tracked := by
  have hslots := hl.slots
  have hfair := hl.toFair
  rw [hl.same] at hfair ⊢
  exact { hfair with
    head := h₀.head, tail := h₀.tail, cursor := h₀.cursor
    slots := fun i => (hslots i).trans (by
      simp only [false_and, exists_false, or_false]
      exact Iff.rfl) }

theorem Sending.inUse_iff (hl : Sending full tracked l₀ sent hs l) (i : Nat) : l.InUse i ↔ l₀.InUse i := by
  rw [hl.same]
  rfl

/-- The next fragment comes into use. -/
theorem Sending.send {j : Nat} {e : TxEntry} (hl : Sending full tracked l₀ sent (e.handle :: hs) l)
    (hnew : mapHas l.txShadow (l₀.slotOf j) = false) :
    Sending full tracked l₀ (fun x => sent x ∨ x = j) hs (sendTx (l₀.slotOf j) e l) :=
  { hl.toFair.sendTx hnew with
    same := by
      rw [hl.same]
      rfl
    slots := fun i => by
      simp only [Ledger.sendTx, mapHas_mapSet, Bool.or_eq_true, decide_eq_true_eq, hl.slots i]
      constructor
      · rintro (rfl | h | ⟨x, hx, rfl⟩)
        · exact .inr ⟨j, .inr rfl, rfl⟩
        · exact .inl h
        · exact .inr ⟨x, .inl hx, rfl⟩
      · rintro (h | ⟨x, hx | rfl, rfl⟩)
        · exact .inr (.inl h)
        · exact .inr (.inr ⟨x, hx, rfl⟩)
        · exact .inl rfl }

/-- The books after a packet of `k` fragments is sent (R158). -/
def sentPacket (k : Nat) (pkt : Packet) (l : Ledger) : Ledger :=
  { l with
    head := (l.head + k) % l.params.nTx
    pkts := mapSet l.pkts l.nextPkt pkt
    nextPkt := l.nextPkt + 1 }

/-- A packet that is sent whole leaves the books in order. -/
theorem Sending.finish (h₀ : l₀.Sound full tracked) {k : Nat} (hk : occupiedOf l₀.params.nTx l₀.head l₀.tail + k < l₀.params.nTx)
    (hl : Sending full tracked l₀ (fun j => 1 ≤ j ∧ j ≤ k) [] l) (hlast : l.InFlight l₀.nextPkt) (pkt : Packet) :
    (sentPacket k pkt l).Sound full tracked := by
  have hslots := hl.slots
  have hfair := hl.toFair
  rw [hl.same] at hfair hlast ⊢
  exact { hfair with
    head := Nat.mod_lt _ (Nat.zero_lt_of_lt h₀.head), tail := h₀.tail, cursor := h₀.cursor
    slots := fun i => (hslots i).trans (inUse_advanceHead h₀.head h₀.tail hk i).symm
    packets := fun x hx => by
      simp only [sentPacket, mapHas_mapSet, Bool.or_eq_true, decide_eq_true_eq] at hx
      rcases hx with rfl | hx
      · exact hlast
      · exact hfair.packets x hx }

/-! ### The receive ring of sound books -/

theorem Sound.postRx (hl : l.Sound full tracked) {i b h da : Nat} (hi : i < l.params.nRx) (hnew : mapHas l.rxShadow i = false)
    (hh : mapHas l.liveMaps h = false) (hb : mapHas l.liveBuffers b = false) : (Ledger.postRx i b h da l).Sound full tracked :=
  { hl.toFair.postRx hi hnew hh hb with head := hl.head, tail := hl.tail, cursor := hl.cursor, slots := hl.slots }

theorem Sound.dropRx (hl : l.Sound full tracked) {i : Nat} {e : RxEntry} (he : mapGet l.rxShadow i = some e)
    (hh : mapHas l.liveMaps e.handle = true) : (Ledger.dropRx i e l).Sound False tracked :=
  { hl.toFair.dropRx he hh with head := hl.head, tail := hl.tail, cursor := hl.cursor, slots := hl.slots }

theorem Sound.replaceRx (hl : l.Sound full tracked) {i b h da : Nat} {e : RxEntry} (he : mapGet l.rxShadow i = some e)
    (hh : mapHas l.liveMaps h = false) (hb : mapHas l.liveBuffers b = false)
    (hlive : mapHas (mapSet l.liveMaps h ⟨b, da⟩) e.handle = true) :
    (giveUp e (Ledger.postRx i b h da l)).Sound full tracked :=
  { hl.toFair.replaceRx he hh hb hlive with head := hl.head, tail := hl.tail, cursor := hl.cursor, slots := hl.slots }

theorem Sound.advanceCursor (hl : l.Sound full tracked) (i : Nat) :
    ({ l with cursor := (i + 1) % l.params.nRx } : Ledger).Sound full tracked :=
  { hl with cursor := Nat.mod_lt _ (Nat.zero_lt_of_lt hl.cursor) }

/-! ### Rings at rest -/

/-- Nothing is outstanding, and the transmit shadow is empty (R134). -/
structure TxEmpty (l : Ledger) : Prop where
  shadow : l.txShadow = []
  head : l.head = 0
  tail : l.tail = 0

/-- The books are in order for an adapter in its state: while it runs, every receive slot is posted (R55 item 4). -/
def Settled (tracked : Prop) (l : Ledger) : Prop := l.Sound (l.adapter = .running) tracked

theorem Sound.settled (hl : l.Sound full tracked) {a : AdapterState} (ha : a = .running → full) :
    ({ l with adapter := a } : Ledger).Settled tracked :=
  have h : l.Sound (a = .running) tracked := hl.imp ha
  { h with }

theorem Settled.forget (hl : l.Settled tracked) : l.Sound False tracked := Sound.imp hl False.elim

end Ledger

end Sys2Proof.Invariants
end

section
/-! PROOFS. What each program does to the rings' books: from books in order to books in order. -/

-- One theorem at a time: checked together they ask for more threads than the check allows.
set_option Elab.async false

namespace Sys2Proof.Invariants

open Sys2Proof.Machine Sys2Proof.Laws Ledger

/-- Any state: nothing is claimed of what a fault leaves. -/
abbrev anyEnd : State → Prop := fun _ => True

/-! ### Programs that leave the books alone -/

theorem CalmFrame.book {s t : State} (h : CalmFrame s t) : book t = book s := by
  simp only [Invariants.book, h.params, h.adapter, h.head, h.tail, h.rx, h.txShadow, h.liveMaps, h.liveBuffers, h.pkts,
    h.nextPkt]

theorem book_closed : Closed (ControlStep anyWrite) fun s t => book t = book s where
  refl _ := rfl
  trans h h' := h'.trans h
  step h := by
    cases h with
    | commit h =>
      cases h with
      | calm h => exact h.frame.book
      | committed m => rfl
    | control l b c => rfl

section Contracts

variable {α : Type} {E : State → Prop} {l : Ledger} {full tracked : Prop}

/-- A contract over the books may be shown one ledger at a time. -/
theorem Ensures.each {P : Ledger → Prop} {m : M α} {Q : α → State → Prop} (h : ∀ l, P l → Ensures (book · = l) m Q E) :
    Ensures (fun s => P (book s)) m Q E := fun s hs hP => h _ hP s hs rfl

theorem Ensures.opened {m : M α} {Q : α → State → Prop} {u : State} (h : Ensures (book · = book u) m Q E) :
    Ensures (· = u) m Q E := h.before fun _ hs => congrArg book hs

/-- A program that leaves the books alone, as a contract. -/
theorem Follows.booked {m : M α} (h : Follows (fun s t => book t = book s) m) (P : Ledger → Prop) :
    Ensures (fun s => P (book s)) m (fun _ s => P (book s)) anyEnd :=
  h.ensures (fun _ t hs ht => show P (book t) from ht ▸ hs) fun _ _ _ _ => trivial

theorem Follows.book_eq {m : M α} (h : Follows (fun s t => book t = book s) m) :
    Ensures (book · = l) m (fun _ s => book s = l) anyEnd := h.booked (· = l)

/-! ### Buffers and mappings -/

/-- What the answer of `DmaMap` of a buffer says of the books (R77). -/
def Mapping (b : Nat) (l l' : Ledger) : Option (Nat × Nat) → Prop
  | none => l' = l
  | some d => mapHas l.liveMaps d.1 = false ∧ l' = { l with liveMaps := mapSet l.liveMaps d.1 ⟨b, d.2⟩ }

/-- What the answer of `Alloc` says of the books (R79). -/
def Allocation (l l' : Ledger) : Option Nat → Prop
  | none => l' = l
  | some b => mapHas l.liveBuffers b = false ∧ l' = { l with liveBuffers := mapSet l.liveBuffers b () }

theorem checkMap_fresh {s : State} {raw : Option (Nat × Nat)} {d : Nat × Nat} (h : raw.bind (checkMap s) = some d) :
    mapHas s.liveMaps d.1 = false := by
  obtain ⟨x, -, hx⟩ := Option.bind_eq_some_iff.mp h
  unfold checkMap at hx
  split at hx
  · rename_i hc
    cases hx
    exact hc.1
  · cases hx

theorem checkAlloc_fresh {s : State} {raw : Option Nat} {b : Nat} (h : raw.bind (checkAlloc s) = some b) :
    mapHas s.liveBuffers b = false := by
  obtain ⟨x, -, hx⟩ := Option.bind_eq_some_iff.mp h
  unfold checkAlloc at hx
  split at hx
  · cases hx
  · rename_i hc
    cases hx
    simpa using hc

theorem boundary_book : Ensures (book · = l) boundary (fun _ s => book s = l) anyEnd :=
  (boundary_follows book_closed.calm_of_control).book_eq

theorem dmaMap_book (b : Nat) : Ensures (book · = l) (dmaMap b) (fun r s => Mapping b l (book s) r) anyEnd := by
  refine Ensures.bind boundary_book fun _ => Ensures.bind (drawDmaMap_follows book_closed.calm_of_control b).book_eq fun raw =>
    Ensures.read ?_
  rintro u rfl
  cases hc : raw.bind (checkMap u) with
  | none => exact Ensures.pure fun s h => h ▸ rfl
  | some d =>
    exact Ensures.bind (Q := fun _ s => Mapping b (book u) (book s) (some d))
      (Ensures.update fun s h => by subst h; exact ⟨checkMap_fresh hc, rfl⟩) fun _ => Ensures.pure fun _ h => h

theorem dmaUnmap_book (h : Nat) :
    Ensures (book · = l) (dmaUnmap h)
      (fun _ s => mapHas l.liveMaps h = true ∧ book s = { l with liveMaps := mapErase l.liveMaps h }) anyEnd := by
  refine Ensures.bind boundary_book fun _ => Ensures.read ?_
  rintro u rfl
  cases hg : mapGet u.liveMaps h with
  | none => exact Ensures.raise fun _ _ => trivial
  | some m => exact Ensures.update fun s hs => by subst hs; exact ⟨(mapHas_iff _ _).mpr ⟨m, hg⟩, rfl⟩

theorem alloc_book (size : Nat) (mode : AllocMode) :
    Ensures (book · = l) (alloc size mode) (fun r s => Allocation l (book s) r) anyEnd := by
  refine Ensures.bind boundary_book fun _ => Ensures.bind (drawAlloc_follows book_closed.calm_of_control mode size).book_eq fun raw =>
    Ensures.read ?_
  rintro u rfl
  cases hc : raw.bind (checkAlloc u) with
  | none =>
    exact Ensures.bind (Q := fun _ s => book s = book u) (Ensures.update fun s h => h ▸ rfl) fun _ => Ensures.pure fun _ h => h
  | some b =>
    exact Ensures.bind (Q := fun _ s => Allocation (book u) (book s) (some b))
      (Ensures.update fun s h => by subst h; exact ⟨checkAlloc_fresh hc, rfl⟩) fun _ => Ensures.pure fun _ h => h

theorem freeBuf_book (b : Nat) :
    Ensures (book · = l) (freeBuf b) (fun _ s => book s = { l with liveBuffers := mapErase l.liveBuffers b }) anyEnd :=
  Ensures.bind boundary_book fun _ => Ensures.update fun _ h => h ▸ rfl

theorem deliver_book (b len csum : Nat) :
    Ensures (book · = l) (deliver b len csum) (fun _ s => book s = { l with liveBuffers := mapErase l.liveBuffers b }) anyEnd :=
  Ensures.bind (Q := fun _ s => book s = { l with liveBuffers := mapErase l.liveBuffers b }) (Ensures.update fun _ h => h ▸ rfl)
    fun _ => Ensures.bind (emit_follows book_closed.calm_of_control _).book_eq fun _ =>
      (count_follows book_closed.calm_of_control _).book_eq

/-- A buffer that is taken and given back leaves the books as they were. -/
theorem take_giveBack {b : Nat} (hwf : mapWf l.liveBuffers = true) (hb : mapHas l.liveBuffers b = false) :
    ({ l with liveBuffers := mapErase (mapSet l.liveBuffers b ()) b } : Ledger) = l := by
  rw [mapErase_mapSet_fresh _ _ _ hwf hb]

/-! ### The reset of a ring (R134) -/

theorem releaseTxSlot_book (i : Nat) :
    Ensures (book · = l) (releaseTxSlot i)
      (fun _ s => mapHas l.txShadow i = false ∧ book s = l ∨
        ∃ e, mapGet l.txShadow i = some e ∧ mapHas l.liveMaps e.handle = true ∧ book s = dropTx i e l) anyEnd := by
  refine Ensures.read ?_
  rintro u rfl
  cases he : mapGet u.tx.shadow i with
  | none => exact Ensures.pure fun s h => by subst h; exact .inl ⟨by simp [mapHas, book, he], rfl⟩
  | some e =>
    refine Ensures.bind (Ensures.opened (dmaUnmap_book e.handle)) fun _ => Ensures.update (fun s h => ?_) fun s => ?_
    · refine .inr ⟨e, he, h.1, ?_⟩
      have hb := h.2
      simp only [book, Ledger.mk.injEq] at hb
      obtain ⟨hp, ha, hh, ht, hcur, htx, hrx, hm, hl, hk, hn⟩ := hb
      cases heop : e.eop <;>
        simp [book, dropTx, clearTxSlot, removePkt, hp, ha, hh, ht, hcur, htx, hrx, hm, hl, hk, hn, heop]
    · split <;> rfl

theorem releaseRxSlot_book (i : Nat) :
    Ensures (book · = l) (releaseRxSlot i)
      (fun _ s => mapHas l.rxShadow i = false ∧ book s = l ∨
        ∃ e, mapGet l.rxShadow i = some e ∧ mapHas l.liveMaps e.handle = true ∧ book s = dropRx i e l) anyEnd := by
  refine Ensures.read ?_
  rintro u rfl
  cases he : mapGet u.rx.shadow i with
  | none => exact Ensures.pure fun s h => by subst h; exact .inl ⟨by simp [mapHas, book, he], rfl⟩
  | some e =>
    refine Ensures.bind (Ensures.opened (dmaUnmap_book e.handle)) fun _ => ?_
    refine Ensures.bind (Q := fun _ s => mapHas (book u).liveMaps e.handle = true ∧ book s = giveUp e (book u)) ?_ fun _ =>
      Ensures.update fun s h => ?_
    · exact fun s hs h => ((freeBuf_book (l := book s) e.buf) s hs rfl).imp (fun _ t ht => ⟨h.1, ht.trans (h.2 ▸ rfl)⟩)
        fun _ _ => trivial
    · refine .inr ⟨e, he, h.1, ?_⟩
      have hb := h.2
      simp only [book, giveUp, Ledger.mk.injEq] at hb
      obtain ⟨hp, ha, hh, ht, hcur, htx, hrx, hm, hl, hk, hn⟩ := hb
      simp only [book, dropRx, giveUp, clearRxSlot, hp, ha, hh, ht, hcur, htx, hrx, hm, hl, hk, hn]

/-- The transmit ring is being released from slot `i` on. -/
structure ReleasingTx (full tracked : Prop) (p : Params) (i : Nat) (l : Ledger) : Prop extends Fair full tracked [] l where
  params : l.params = p
  nonempty : 0 < p.nTx
  cursor : l.cursor < l.params.nRx
  left : ∀ j, mapHas l.txShadow j = true → i ≤ j ∧ j < p.nTx

theorem ReleasingTx.drop {p : Params} {i : Nat} (h : ReleasingTx full tracked p i l) {e : TxEntry} (he : mapGet l.txShadow i = some e)
    (hh : mapHas l.liveMaps e.handle = true) : ReleasingTx full tracked p (i + 1) (dropTx i e l) :=
  { h.toFair.dropTx he hh with
    params := h.params, nonempty := h.nonempty, cursor := h.cursor
    left := fun j hj => by
      simp only [dropTx, mapHas_mapErase, Bool.and_eq_true, Bool.not_eq_true', decide_eq_false_iff_not] at hj
      have := h.left j hj.2
      omega }

theorem ReleasingTx.skip {p : Params} {i : Nat} (h : ReleasingTx full tracked p i l) (hi : mapHas l.txShadow i = false) :
    ReleasingTx full tracked p (i + 1) l :=
  { h with
    left := fun j hj => by
      have := h.left j hj
      have hne : j ≠ i := fun e => by simp [e, hi] at hj
      omega }

/-- A released transmit ring, its cursors back at 0. -/
theorem ReleasingTx.done {p : Params} (h : ReleasingTx full tracked p p.nTx l) :
    ({ l with head := 0, tail := 0 } : Ledger).Sound full tracked ∧ ({ l with head := 0, tail := 0 } : Ledger).TxEmpty := by
  have hnone : ∀ j, mapHas l.txShadow j = false := fun j => by
    cases hj : mapHas l.txShadow j with
    | false => rfl
    | true =>
      have := h.left j hj
      omega
  have hpos : 0 < l.params.nTx := h.params ▸ h.nonempty
  refine ⟨{ h.toFair with head := hpos, tail := hpos, cursor := h.cursor, slots := fun i => ?_ }, eq_nil_of_mapHas hnone, rfl, rfl⟩
  simp only [hnone i, Bool.false_eq_true, false_iff]
  exact not_inUse_zero rfl rfl i

/-- The neutral rewrite of a ring leaves the books alone. -/
theorem neutralSlots_follows (r : Ring) (n i : Nat) : Follows (fun s t => book t = book s) (forRange (neutralSlot r) n i) :=
  Follows.forRange book_closed.calm_of_control (neutralSlot_follows book_closed.calm_of_control fun _ _ => trivial) n i

theorem ringResetTx_book :
    Ensures (fun s => (book s).Sound full tracked) (ringReset .tx) (fun _ s => (book s).Sound full tracked ∧ (book s).TxEmpty)
      anyEnd := by
  refine Ensures.read fun u hu => Ensures.ite (fun _ => Ensures.raise fun _ _ => trivial) fun _ => ?_
  refine Ensures.bind (Q := fun _ s => ReleasingTx full tracked u.params u.params.nTx (book s)) ?_ fun _ =>
    Ensures.bind ((neutralSlots_follows .tx _ _).booked _) fun _ => Ensures.update fun s h => h.done
  refine (Ensures.forRange (I := fun i s => ReleasingTx full tracked u.params i (book s)) (k := u.params.nTx) (fun i _ => ?_)
    u.params.nTx 0 (by omega)).before fun s hs => ?_
  · refine Ensures.each fun l hl => (releaseTxSlot_book i).after fun _ s h => ?_
    rcases h with ⟨hi, h⟩ | ⟨e, he, hh, h⟩ <;> rw [h]
    · exact hl.skip hi
    · exact hl.drop he hh
  · subst hs
    exact { hu.toFair with
      params := rfl, nonempty := Nat.zero_lt_of_lt hu.head, cursor := hu.cursor
      left := fun j hj => ⟨Nat.zero_le j, ((hu.slots j).mp hj).1⟩ }

/-- The receive ring is being released from slot `i` on; the transmit ring is at rest. -/
structure ReleasingRx (tracked : Prop) (p : Params) (i : Nat) (l : Ledger) : Prop extends Sound False tracked l where
  empty : l.TxEmpty
  params : l.params = p
  left : ∀ j, mapHas l.rxShadow j = true → i ≤ j

theorem Ledger.TxEmpty.mono {l' : Ledger} (h : l.TxEmpty) (hs : l'.txShadow = l.txShadow) (hh : l'.head = l.head) (ht : l'.tail = l.tail) :
    l'.TxEmpty := ⟨hs.trans h.shadow, hh.trans h.head, ht.trans h.tail⟩

theorem ringResetRx_book :
    Ensures (fun s => (book s).Sound full tracked ∧ (book s).TxEmpty) (ringReset .rx)
      (fun _ s => (book s).Sound False tracked ∧ (book s).TxEmpty ∧ (book s).rxShadow = []) anyEnd := by
  refine Ensures.read fun u hu => Ensures.ite (fun _ => Ensures.raise fun _ _ => trivial) fun _ => ?_
  refine Ensures.bind (Q := fun _ s => ReleasingRx tracked u.params u.params.nRx (book s)) ?_ fun _ =>
    Ensures.bind ((neutralSlots_follows .rx _ _).booked _) fun _ => Ensures.update fun s h => ?_
  · refine (Ensures.forRange (I := fun i s => ReleasingRx tracked u.params i (book s)) (k := u.params.nRx) (fun i _ => ?_)
      u.params.nRx 0 (by omega)).before fun s hs => ?_
    · refine Ensures.each fun l hl => (releaseRxSlot_book i).after fun _ s h => ?_
      rcases h with ⟨hi, h⟩ | ⟨e, he, hh, h⟩ <;> rw [h]
      · exact { hl with
          left := fun j hj => by
            have := hl.left j hj
            have hne : j ≠ i := fun e => by simp [e, hi] at hj
            omega }
      · exact { hl.toSound.dropRx he hh with
          empty := hl.empty.mono rfl rfl rfl, params := hl.params
          left := fun j hj => by
            simp only [dropRx, mapHas_mapErase, Bool.and_eq_true, Bool.not_eq_true', decide_eq_false_iff_not] at hj
            have := hl.left j hj.2
            omega }
    · subst hs
      exact { hu.1.imp False.elim with empty := hu.2, params := rfl, left := fun j _ => Nat.zero_le j }
  · have hnone : ∀ j, mapHas s.rx.shadow j = false := fun j => by
      cases hj : mapHas s.rx.shadow j with
      | false => rfl
      | true =>
        have h1 := h.left j hj
        have h2 := h.range j hj
        rw [h.params] at h2
        omega
    exact ⟨{ h.toSound with cursor := Nat.zero_lt_of_lt h.cursor }, h.empty.mono rfl rfl rfl, eq_nil_of_mapHas hnone⟩

end Contracts

end Sys2Proof.Invariants
end

section
/-! PROOFS. Receive, transmit, reset and lifecycle keep the rings' books in order. -/

-- One theorem at a time: checked together they ask for more threads than the check allows.
set_option Elab.async false

namespace Sys2Proof.Invariants

open Sys2Proof.Machine Sys2Proof.Laws Ledger

section Contracts

variable {l : Ledger} {full tracked : Prop}

/-! ### The receive path (R180 to R189) -/

theorem dropNoMemory_book (c : Nat) : Ensures (book · = l) (dropNoMemory c) (fun _ s => book s = l) anyEnd :=
  (dropNoMemory_follows book_closed.calm_of_control fun _ _ => trivial).book_eq

theorem rxPost_book (c h : Nat) : Ensures (book · = l) (rxPost c h) (fun _ s => book s = l) anyEnd :=
  (rxPost_follows book_closed.calm_of_control h fun _ _ => trivial).book_eq

/-- The books are in order, and the transmit slots in use are those of before. -/
def RxKept (full tracked : Prop) (l l' : Ledger) : Prop := l'.Sound full tracked ∧ ∀ i, l'.InUse i ↔ l.InUse i

theorem rxKept_refl (hl : l.Sound full tracked) : RxKept full tracked l l := ⟨hl, fun _ => Iff.rfl⟩

theorem rxKept_of_eq (hl : l.Sound full tracked) {l' : Ledger} (h : l' = l) : RxKept full tracked l l' := by
  rw [h]
  exact rxKept_refl hl

theorem RxKept.trans {l' l'' : Ledger} (h : RxKept full tracked l l') (h' : RxKept full tracked l' l'') :
    RxKept full tracked l l'' := ⟨h'.1, fun i => (h'.2 i).trans (h.2 i)⟩

theorem zeroCopy_book (hl : l.Sound full tracked) {c len csum : Nat} {e : RxEntry} (he : mapGet l.rxShadow c = some e) :
    Ensures (book · = l) (zeroCopy c len csum e) (fun _ s => RxKept full tracked l (book s)) anyEnd := by
  refine Ensures.read fun u hu => Ensures.before ?_ fun s h => show book s = l from h ▸ hu
  refine Ensures.bind (alloc_book _ _) fun nb => ?_
  cases nb with
  | none => exact ((dropNoMemory_book c).before fun s h => h).after fun _ _ h => rxKept_of_eq hl h
  | some b =>
    refine Ensures.each (P := (Allocation l · (some b))) ?_
    rintro _ ⟨hb, rfl⟩
    refine Ensures.bind (dmaMap_book b) fun m => ?_
    cases m with
    | none =>
      refine Ensures.each (P := (Mapping b _ · none)) ?_
      rintro _ rfl
      refine Ensures.bind (freeBuf_book b) fun _ => (dropNoMemory_book c).after fun _ s h => ?_
      rw [h, take_giveBack hl.buffersWf hb]
      exact rxKept_refl hl
    | some d =>
      refine Ensures.each (P := (Mapping b _ · (some d))) ?_
      rintro _ ⟨hh, rfl⟩
      refine Ensures.bind (Q := fun _ s => book s = postRx c b d.1 d.2 l)
        (Ensures.update fun s h => ?_) fun _ => Ensures.bind (rxPost_book c d.1) fun _ =>
          Ensures.bind (dmaUnmap_book e.handle) fun _ => ?_
      · simp only [book, Ledger.mk.injEq] at h
        obtain ⟨hp, ha, hh, ht, hcur, htx, hrx, hm, hl, hk, hn⟩ := h
        simp only [book, setRxSlot, postRx, hp, ha, hh, ht, hcur, htx, hrx, hm, hl, hk, hn]
      · refine Ensures.each (P := fun l' => _ ∧ l' = _) ?_
        rintro _ ⟨hlive, rfl⟩
        exact (deliver_book e.buf len csum).after fun _ s h => h ▸ ⟨hl.replaceRx he hh hb hlive, fun _ => Iff.rfl⟩

theorem copyOut_book (hl : l.Sound full tracked) {c len csum : Nat} {e : RxEntry} :
    Ensures (book · = l) (copyOut c len csum e) (fun _ s => RxKept full tracked l (book s)) anyEnd := by
  refine Ensures.bind (alloc_book _ _) fun nb => ?_
  cases nb with
  | none => exact ((dropNoMemory_book c).before fun s h => h).after fun _ _ h => rxKept_of_eq hl h
  | some b =>
    refine Ensures.each (P := (Allocation l · (some b))) ?_
    rintro _ ⟨hb, rfl⟩
    refine Ensures.bind (dmaSyncForCpu_follows book_closed.calm_of_control _ _).book_eq fun _ =>
      Ensures.bind (copyPayload_follows book_closed.calm_of_control _ _ _).book_eq fun _ =>
        Ensures.bind (dmaSyncForDevice_follows book_closed.calm_of_control _ _).book_eq fun _ =>
          Ensures.bind (rxPost_book c e.handle) fun _ => (deliver_book b len csum).after fun _ s h => ?_
    rw [h, take_giveBack hl.buffersWf hb]
    exact rxKept_refl hl

theorem visit_book (hl : l.Sound full tracked) (c len : Nat) (ov : Bool) (csum : Nat) :
    Ensures (book · = l) (visit c len ov csum) (fun _ s => RxKept full tracked l (book s)) anyEnd := by
  refine Ensures.read ?_
  rintro u rfl
  refine Ensures.ite (fun _ => Ensures.raise fun _ _ => trivial) fun _ => Ensures.ite (fun _ => ?_) fun _ => ?_
  · exact Ensures.opened ((dropError_follows book_closed.calm_of_control fun _ _ => trivial).book_eq.after
      fun _ _ h => rxKept_of_eq hl h)
  · cases he : mapGet u.rx.shadow c with
    | none => exact Ensures.refuse
    | some e => exact Ensures.ite (fun _ => Ensures.opened (zeroCopy_book hl he)) fun _ => Ensures.opened (copyOut_book hl)

theorem receiveWalk_book (hl : l.Sound full tracked) : ∀ n,
    Ensures (fun s => RxKept full tracked l (book s)) (receiveWalk n) (fun _ s => RxKept full tracked l (book s)) anyEnd
  | 0 => Ensures.pure fun _ h => h
  | n + 1 => by
    refine Ensures.read fun u hu => Ensures.bind (Q := fun _ s => RxKept full tracked l (book s)) ?_ fun d => ?_
    · exact ((ringTryReclaim_follows book_closed.calm_of_control _ _).booked _).before fun s h => h ▸ hu
    · cases d with
      | none => exact Ensures.pure fun _ h => h
      | some x =>
        refine Ensures.bind (Q := fun _ s => RxKept full tracked l (book s))
          (Ensures.each fun l' h => (visit_book h.1 _ _ _ _).after fun _ _ h' => h.trans h') fun _ => ?_
        exact Ensures.bind (Q := fun _ s => RxKept full tracked l (book s))
          (Ensures.update fun s h => ⟨h.1.advanceCursor _, h.2⟩) fun _ => receiveWalk_book hl n

theorem rxReclaim_book (hl : l.Sound full tracked) :
    Ensures (book · = l) rxReclaim (fun _ s => RxKept full tracked l (book s)) anyEnd :=
  Ensures.read fun _ hu => (receiveWalk_book hl _).before fun _ h => rxKept_of_eq hl (h ▸ hu)

/-! ### The reclaim of transmitted slots (R161, R162) -/

theorem completeFragment_book (e : TxEntry) :
    Ensures (book · = l) (completeFragment e)
      (fun _ s => book s = { l with pkts := if e.eop then mapErase l.pkts e.pkt else l.pkts }) anyEnd := by
  refine Ensures.ite (fun h => ?_) fun h => Ensures.pure fun s hs => ?_
  · exact Ensures.bind (count_follows book_closed.calm_of_control _).book_eq fun _ =>
      Ensures.bind (Q := fun _ s => book s = { l with pkts := if e.eop then mapErase l.pkts e.pkt else l.pkts })
        (Ensures.update fun s hs => by rw [if_pos h, ← hs]; rfl) fun _ =>
        (emit_follows book_closed.calm_of_control _).book_eq
  · rw [hs, if_neg h]

theorem reclaimSlot_book (t : Nat) (e : TxEntry) :
    Ensures (book · = l) (reclaimSlot t e)
      (fun _ s => mapHas l.liveMaps e.handle = true ∧ book s = { dropTx t e l with tail := (t + 1) % l.params.nTx }) anyEnd := by
  rw [reclaimSlot_eq]
  refine Ensures.bind (dmaUnmap_book e.handle) fun _ => ?_
  refine Ensures.each (P := fun l' => _ ∧ l' = _) ?_
  rintro _ ⟨hlive, rfl⟩
  exact Ensures.bind (completeFragment_book e) fun _ => Ensures.update fun s h => ⟨hlive, by
    simp only [book, Ledger.mk.injEq] at h
    obtain ⟨hp, ha, hh, ht, hcur, htx, hrx, hm, hl, hk, hn⟩ := h
    simp only [book, advanceTail, clearTxSlot, dropTx, hp, ha, hh, ht, hcur, htx, hrx, hm, hl, hk, hn]⟩

theorem reclaimWalk_book : ∀ n,
    Ensures (fun s => (book s).Sound full tracked) (reclaimWalk n) (fun _ s => (book s).Sound full tracked) anyEnd
  | 0 => Ensures.pure fun _ h => h
  | n + 1 => by
    refine Ensures.read fun u hu => Ensures.ite (fun _ => Ensures.pure fun s h => h ▸ hu) fun _ => ?_
    refine Ensures.bind (Ensures.opened (ringTryReclaim_follows book_closed.calm_of_control _ _).book_eq) fun d => ?_
    cases d with
    | none => exact Ensures.pure fun s h => by rw [h]; exact hu
    | some x =>
      refine Ensures.read fun v hv => ?_
      split
      · exact Ensures.refuse
      · rename_i e he
        have hl : (book v).Sound full tracked := hv ▸ hu
        have htail : (book v).tail = u.tx.tail := by rw [hv]; rfl
        refine Ensures.bind (Ensures.opened (reclaimSlot_book _ e)) fun _ => (reclaimWalk_book n).before fun s h => ?_
        rw [h.2, ← htail]
        exact hl.reclaim (htail ▸ he) h.1

theorem txReclaim_book :
    Ensures (fun s => (book s).Sound full tracked) txReclaim (fun _ s => (book s).Sound full tracked) anyEnd :=
  Ensures.read fun _ hu => Ensures.bind ((reclaimWalk_book _).before fun _ h => h ▸ hu) fun _ =>
    (queueWake_follows book_closed.calm_of_control).booked _

theorem irqWalks_book (a b : Bool) :
    Ensures (fun s => (book s).Sound full tracked) (irqWalks a b) (fun _ s => (book s).Sound full tracked) anyEnd :=
  Ensures.bind (Q := fun _ s => (book s).Sound full tracked)
    (Ensures.ite (fun _ => txReclaim_book) fun _ => Ensures.pure fun _ h => h) fun _ =>
    Ensures.bind (Q := fun _ s => (book s).Sound full tracked)
      (Ensures.ite (fun _ => Ensures.each fun _ hl => (rxReclaim_book hl).after fun _ _ h => h.1) fun _ => Ensures.pure fun _ h => h)
      fun _ => Ensures.pure fun _ h => h

/-! ### Transmission (R150 to R160) -/

section Transmit

variable {l₀ : Ledger} {sent : Nat → Prop}

/-- The handles of mapped fragments. -/
def handlesOf (ms : List Mapped) : List Nat := ms.map (·.handle)

theorem unmapAll_book : ∀ ms,
    Ensures (fun s => Sending full tracked l₀ sent (handlesOf ms) (book s)) (unmapAll ms)
      (fun _ s => Sending full tracked l₀ sent [] (book s)) anyEnd
  | [] => Ensures.pure fun _ h => h
  | m :: ms => Ensures.bind (Q := fun _ s => Sending full tracked l₀ sent (handlesOf ms) (book s))
      (Ensures.each fun _ hl => (dmaUnmap_book m.handle).after fun _ _ h => h.2 ▸ Sending.unmap hl h.1) fun _ => unmapAll_book ms

/-- What the answer of the mapping phase says of the books (R155): the handles of all `n` fragments are still to be entered, or none
is left. -/
def MappedAll (full tracked : Prop) (l₀ : Ledger) (n : Nat) (l : Ledger) : Option (List Mapped) → Prop
  | none => Sending full tracked l₀ (fun _ => False) [] l
  | some ms => ms.length = n ∧ Sending full tracked l₀ (fun _ => False) (handlesOf ms) l

theorem mapFragments_book : ∀ fs done,
    Ensures (fun s => Sending full tracked l₀ (fun _ => False) (handlesOf done) (book s)) (mapFragments fs done)
      (fun r s => MappedAll full tracked l₀ (done.length + fs.length) (book s) r) anyEnd
  | [], done => Ensures.pure fun s h =>
      ⟨by simp, h.perm (by rw [handlesOf, handlesOf, List.map_reverse]; exact (List.reverse_perm _).symm)⟩
  | f :: fs, done => by
    refine Ensures.bind
      (Q := fun r s => Sending full tracked l₀ (fun _ => False) ((r.map (·.1)).toList ++ handlesOf done) (book s)) ?_ fun r => ?_
    · refine Ensures.each fun l hl => (dmaMap_book f.buf).after fun r s h => ?_
      cases r with
      | none => exact h ▸ hl
      | some d => exact h.2 ▸ hl.map _ h.1
    · cases r with
      | none => exact Ensures.bind (unmapAll_book done) fun _ => Ensures.pure fun _ h => h
      | some d =>
        have hlen : (⟨f, d.1, d.2⟩ :: done : List Mapped).length + fs.length = done.length + (f :: fs).length := by
          simp only [List.length_cons]
          omega
        exact hlen ▸ mapFragments_book fs (⟨f, d.1, d.2⟩ :: done)

/-- A fragment's slot is entered and published (R156). -/
theorem publishFragment_book (cs : CsRequest) (k total j : Nat) (m : Mapped) :
    Ensures (book · = l) (publishFragment cs k total j m)
      (fun _ s => book s = sendTx (l.slotOf j) ⟨l.nextPkt, j, m.handle, m.frag.len, j == k, total⟩ l) anyEnd := by
  refine Ensures.read ?_
  rintro u rfl
  exact Ensures.bind
    (Q := fun _ s => book s = sendTx ((book u).slotOf j) ⟨(book u).nextPkt, j, m.handle, m.frag.len, j == k, total⟩ (book u))
    (Ensures.update fun s h => by subst h; rfl) fun _ => (ringPublish_follows book_closed.calm_of_control _ _ fun _ _ => trivial).book_eq

/-- A packet of `k` fragments that fits is being sent from sound books. -/
structure Fits (full tracked : Prop) (k : Nat) (l₀ : Ledger) : Prop extends Sound full tracked l₀ where
  room : occupiedOf l₀.params.nTx l₀.head l₀.tail + k < l₀.params.nTx

theorem Fits.unsent {k : Nat} (h₀ : Fits full tracked k l₀) {hs : List Nat} (hl : Sending full tracked l₀ sent hs l)
    (hsent : ∀ x, sent x → 1 ≤ x ∧ x ≤ k) {j : Nat} (hj : 1 ≤ j ∧ j ≤ k) (hnew : ¬ sent j) :
    mapHas l.txShadow (l₀.slotOf j) = false := by
  rw [← Bool.not_eq_true, hl.slots]
  have hroom := h₀.room
  rintro (hu | ⟨x, hx, he⟩)
  · exact not_inUse_slotOf h₀.head h₀.tail hroom hj hu
  · have hx' := hsent x hx
    exact hnew (slotOf_inj h₀.head (i := j) (j := x) (by omega) (by omega) he ▸ hx)

/-- Fragments `j` to `k` are sent, with those before them but the first (R156); the last one is then in flight. -/
theorem publishFrom_book {k : Nat} (h₀ : Fits full tracked k l₀) (total : Nat) {hs : List Nat} : ∀ ms j, 2 ≤ j → j + ms.length = k + 1 →
    Ensures (fun s => Sending full tracked l₀ (fun x => 2 ≤ x ∧ x < j) (handlesOf ms ++ hs) (book s) ∧
        (j = k + 1 → k = 1 ∨ (book s).InFlight l₀.nextPkt))
      (publishFrom k total j ms)
      (fun _ s => Sending full tracked l₀ (fun x => 2 ≤ x ∧ x ≤ k) hs (book s) ∧ (k = 1 ∨ (book s).InFlight l₀.nextPkt)) anyEnd
  | [], j, h2, hj => Ensures.pure fun s h => by
    have hjk : j = k + 1 := hj
    subst hjk
    exact ⟨by simpa [handlesOf, Nat.lt_succ_iff] using h.1, h.2 rfl⟩
  | m :: ms, j, h2, hj => by
    have hj' : j + 1 + ms.length = k + 1 := by
      rw [← hj, List.length_cons]
      omega
    refine Ensures.bind (Q := fun _ s => Sending full tracked l₀ (fun x => 2 ≤ x ∧ x < j + 1) (handlesOf ms ++ hs) (book s) ∧
        (j + 1 = k + 1 → k = 1 ∨ (book s).InFlight l₀.nextPkt)) ?_ fun _ => publishFrom_book h₀ total ms (j + 1) (by omega) hj'
    refine Ensures.each (P := fun l => Sending full tracked l₀ (fun x => 2 ≤ x ∧ x < j) (handlesOf (m :: ms) ++ hs) l ∧
      (j = k + 1 → k = 1 ∨ l.InFlight l₀.nextPkt)) fun l hl => (publishFragment_book _ k total j m).after fun _ s h => ?_
    have hnew := h₀.unsent hl.1 (fun x hx => ⟨by omega, by omega⟩) (j := j) (by omega) (by omega)
    have hslot : l.slotOf j = l₀.slotOf j := by rw [hl.1.same]; rfl
    have hpkt : l.nextPkt = l₀.nextPkt := by rw [hl.1.same]
    rw [h, hslot, hpkt]
    refine ⟨?_, fun hjk => .inr ⟨l₀.slotOf j, _, mapGet_mapSet_same _ _ _, ?_, rfl⟩⟩
    · have hs := hl.1.send (j := j) (e := ⟨l₀.nextPkt, j, m.handle, m.frag.len, j == k, total⟩) hnew
      have hsent : (fun x => (2 ≤ x ∧ x < j) ∨ x = j) = fun x => 2 ≤ x ∧ x < j + 1 := by
        funext x
        exact propext (by omega)
      rwa [hsent] at hs
    · simpa using hjk

/-- Fragments 2 to `k`, and then the first (R156, R157). -/
theorem publishPacket_book {pkt : Packet} (h₀ : Fits full tracked pkt.frags.length l₀) :
    ∀ ms : List Mapped, 1 ≤ ms.length → ms.length = pkt.frags.length →
      Ensures (fun s => Sending full tracked l₀ (fun _ => False) (handlesOf ms) (book s)) (publishPacket pkt ms)
        (fun _ s => Sending full tracked l₀ (fun j => 1 ≤ j ∧ j ≤ pkt.frags.length) [] (book s) ∧ (book s).InFlight l₀.nextPkt) anyEnd
  | [], h1, _ => absurd h1 (by simp)
  | m :: ms, _, hk => by
    have hk' : 2 + ms.length = pkt.frags.length + 1 := by
      rw [← hk, List.length_cons]
      omega
    refine Ensures.bind ((publishFrom_book h₀ (packetLen pkt.frags) (hs := [m.handle]) ms 2 (le_refl 2) hk').before
      fun s h => ⟨?_, fun h => .inl (by omega)⟩) fun _ => ?_
    · have hsent : (fun x => 2 ≤ x ∧ x < 2) = fun _ : Nat => False := by
        funext x
        exact eq_false (by omega)
      rw [hsent]
      exact h.perm (List.perm_append_comm (l₁ := [m.handle]))
    · refine Ensures.each (P := fun l => Sending full tracked l₀ (fun x => 2 ≤ x ∧ x ≤ pkt.frags.length) [m.handle] l ∧
        (pkt.frags.length = 1 ∨ l.InFlight l₀.nextPkt)) fun l hl => (publishFragment_book _ _ _ 1 m).after fun _ s h => ?_
      have hnew := h₀.unsent hl.1 (fun x hx => ⟨by omega, by omega⟩) (j := 1) (by omega) (by omega)
      have hslot : l.slotOf 1 = l₀.slotOf 1 := by rw [hl.1.same]; rfl
      have hpkt : l.nextPkt = l₀.nextPkt := by rw [hl.1.same]
      rw [h, hslot, hpkt]
      constructor
      · have hs := hl.1.send (j := 1) (e := ⟨l₀.nextPkt, 1, m.handle, m.frag.len, 1 == pkt.frags.length, packetLen pkt.frags⟩) hnew
        have hsent : (fun x => (2 ≤ x ∧ x ≤ pkt.frags.length) ∨ x = 1) = fun x => 1 ≤ x ∧ x ≤ pkt.frags.length := by
          funext x
          exact propext (by omega)
        rwa [hsent] at hs
      · rcases hl.2 with hone | hfl
        · exact ⟨l₀.slotOf 1, _, mapGet_mapSet_same _ _ _, by simp [hone], rfl⟩
        · exact hfl.sendTx hnew

end Transmit

/-- A packet the checks admit has a fragment (R151). -/
theorem frags_of_valid {p : Params} {pkt : Packet} (h : validatePacket p pkt = none) : 1 ≤ pkt.frags.length := by
  unfold validatePacket at h
  split at h
  · cases h
  · omega

/-- Slot `i` is one of those that a packet of `k` fragments takes. -/
def Ledger.Takes (k : Nat) (l : Ledger) (i : Nat) : Prop := ∃ j, (1 ≤ j ∧ j ≤ k) ∧ i = l.slotOf j

/-- What a transmission has done to the books `l`: they are in order, and the slots of an accepted packet have come into use. -/
def Transmitted (full tracked : Prop) (k : Nat) (l : Ledger) (o : OpOutcome) (l' : Ledger) : Prop :=
  l'.Sound full tracked ∧ ∀ i, l'.InUse i ↔ l.InUse i ∨ o = .accepted ∧ l.Takes k i

theorem transmitted_of_refused {l' : Ledger} {k : Nat} {o : OpOutcome} (ho : o ≠ .accepted) (hl : l'.Sound full tracked)
    (hi : ∀ i, l'.InUse i ↔ l.InUse i) : Transmitted full tracked k l o l' :=
  ⟨hl, fun i => by simp only [hi i, ho, false_and, or_false]⟩

/-- The books of a packet that is sent whole (R158). -/
theorem Ledger.Sending.transmitted {l' : Ledger} {pkt : Packet} (h₀ : Fits full tracked pkt.frags.length l)
    (h : Sending full tracked l (fun j => 1 ≤ j ∧ j ≤ pkt.frags.length) [] l') (hlast : l'.InFlight l.nextPkt) :
    Transmitted full tracked pkt.frags.length l .accepted (sentPacket pkt.frags.length pkt l') := by
  have hs := h.finish h₀.toSound h₀.room hlast pkt
  exact ⟨hs, fun i => (hs.slots i).symm.trans ((h.slots i).trans (by simp [Takes]))⟩

theorem transmit_book (hl : l.Sound full tracked) (pkt : Packet) :
    Ensures (book · = l) (transmit pkt) (fun o s => Transmitted full tracked pkt.frags.length l o (book s)) anyEnd := by
  refine Ensures.read ?_
  rintro u rfl
  have hbusy : Ensures (· = u) (pure OpOutcome.busy)
      (fun o s => Transmitted full tracked pkt.frags.length (book u) o (book s)) anyEnd :=
    Ensures.pure fun s h => transmitted_of_refused nofun (h ▸ hl) fun _ => by rw [h]
  cases hv : validatePacket u.params pkt with
  | some r => exact Ensures.refuse
  | none =>
    refine Ensures.ite (fun _ => hbusy) fun _ => Ensures.ite (fun _ => hbusy) fun _ => Ensures.ite (fun _ => hbusy) fun hroom => ?_
    have hk := frags_of_valid hv
    have h₀ : Fits full tracked pkt.frags.length (book u) :=
      { hl with
        room := by
          simp only [freeSlots, occupied] at hroom
          simp only [book]
          omega }
    refine Ensures.bind ((mapFragments_book (l₀ := book u) pkt.frags []).before fun s h => by subst h; exact hl.sending) fun r => ?_
    cases r with
    | none =>
      exact Ensures.bind ((count_follows book_closed.calm_of_control _).booked _) fun _ =>
        Ensures.pure fun s h => transmitted_of_refused nofun (Sending.abandon hl h) (Sending.inUse_iff h)
    | some ms =>
      refine Ensures.bind (Q := fun _ s => Sending full tracked (book u) (fun j => 1 ≤ j ∧ j ≤ pkt.frags.length) [] (book s) ∧
        (book s).InFlight (book u).nextPkt) (fun s hs h => ?_) fun _ => ?_
      · have hlen : ms.length = pkt.frags.length := h.1.trans (Nat.zero_add _)
        exact publishPacket_book h₀ ms (hlen ▸ hk) hlen s hs h.2
      · refine Ensures.bind (Q := fun _ s => Transmitted full tracked pkt.frags.length (book u) .accepted (book s))
          (Ensures.update fun s h => Sending.transmitted h₀ h.1 h.2) fun _ => ?_
        have hcalm := book_closed.calm_of_control
        exact Ensures.bind ((backpressure_follows hcalm).booked (Transmitted full tracked pkt.frags.length (book u) .accepted)) fun _ =>
          Ensures.bind ((mmioWrite_follows hcalm (by simp) _).booked _) fun _ => Ensures.pure fun _ h => h

end Contracts

end Sys2Proof.Invariants
end

section
/-! PROOFS. What operations keep once reset, teardown, transmission and the walks do; and the rings' books, which they keep in order. -/

-- One theorem at a time: checked together they ask for more threads than the check allows.
set_option Elab.async false

namespace Sys2Proof.Invariants

open Sys2Proof.Machine Sys2Proof.Laws Ledger

/-! ### What operations keep -/

/-- The program keeps the property. -/
abbrev Keeps (P : State → Prop) {α : Type} (m : M α) : Prop := Ensures P m (fun _ => P) anyEnd

/-- The end of an opening once interrupt delivery is acquired (R260, R261). -/
def openFinish : M OpOutcome := do
  let o ← resetInit .process
  if o = .ok then pure .ok
  else do
    teardown
    awaitFreeSlots
    pure o

/-- Two contracts of one program. -/
theorem Ends.and {α : Type} {Q Q' : α → State → Prop} {E E' : State → Prop} {x : EStateM.Result Stop State α} (h : Ends Q E x)
    (h' : Ends Q' E' x) : Ends (fun a t => Q a t ∧ Q' a t) (fun t => E t ∧ E' t) x := by
  cases x with
  | ok a t => exact ⟨⟨h.1, h'.1⟩, h.2⟩
  | error e t =>
    cases e with
    | faulted => exact ⟨⟨h.1, h'.1⟩, h.2⟩
    | refused r => trivial

theorem Ensures.and {α : Type} {P P' : State → Prop} {m : M α} {Q Q' : α → State → Prop} (h : Ensures P m Q anyEnd)
    (h' : Ensures P' m Q' anyEnd) : Ensures (fun s => P s ∧ P' s) m (fun a s => Q a s ∧ Q' a s) anyEnd := fun s hs hP =>
  (Ends.and (h s hs hP.1) (h' s hs hP.2)).imp (fun _ _ => id) fun _ _ => trivial

/-- A property that the micro-steps outside the rings keep, and every program that works on the rings. -/
structure Lasting (P : State → Prop) : Prop where
  control : Closed (ControlStep noWrite) fun s t => P s → P t
  reset : ∀ ctx, Keeps P (resetAndReturn ctx)
  opening : Keeps P openFinish
  closing : Keeps P (do teardown; awaitFreeSlots)
  walks : ∀ a b, Keeps P (irqWalks a b)
  sending : ∀ pkt, Keeps P (transmit pkt)

section Lasting

variable {α β : Type} {P : State → Prop}

theorem Follows.keeps {m : M α} (h : Follows (fun s t => P s → P t) m) : Keeps P m :=
  h.ensures (fun _ _ hs ht => ht hs) fun _ _ _ _ => trivial

theorem Keeps.pure (a : α) : Keeps P (pure a) := Ensures.pure fun _ h => h

theorem Keeps.bind {m : M α} {f : α → M β} (hm : Keeps P m) (hf : ∀ a, Keeps P (f a)) : Keeps P (m >>= f) := Ensures.bind hm hf

theorem Keeps.read {f : State → M β} (h : ∀ u, Keeps P (f u)) : Keeps P (getState >>= f) :=
  Ensures.read fun u hu => (h u).before fun _ hs => hs ▸ hu

theorem Keeps.ite {c : Prop} [Decidable c] {m n : M α} (hm : Keeps P m) (hn : Keeps P n) : Keeps P (if c then m else n) :=
  Ensures.ite (fun _ => hm) fun _ => hn

variable (h : Lasting P)

include h

theorem Lasting.emit (e : Event) : Keeps P (emit e) := (emit_follows h.control.calm_of_control e).keeps

theorem Lasting.forcedDown : Keeps P forcedDown :=
  Keeps.read fun _ => Keeps.ite
    (Keeps.ite (Keeps.bind (h.emit _) fun _ => h.reset _) (linkForce_follows h.control _).keeps) (armTimer_follows h.control).keeps

theorem Lasting.tickForced : Keeps P tickForced :=
  Keeps.read fun _ => Keeps.ite (toggleTransceiver_follows h.control _).keeps
    (Keeps.ite (toggleTransceiver_follows h.control _).keeps
      (Keeps.bind (mgmtRead_follows h.control.calm_of_control _).keeps fun _ =>
        Keeps.ite (forcedUp_follows h.control).keeps h.forcedDown))

theorem Lasting.linkTick : Keeps P linkTick := by
  refine Keeps.read fun s => ?_
  split
  · exact Keeps.pure ()
  · exact h.reset _
  · split
    · exact Keeps.pure ()
    · exact Keeps.pure ()
    · exact Keeps.bind (countTick_follows h.control).keeps fun _ => (tickArbitration_follows h.control).keeps
    · exact Keeps.bind (countTick_follows h.control).keeps fun _ => (tickLinkUp_follows h.control).keeps
    · exact Keeps.bind (countTick_follows h.control).keeps fun _ => h.tickForced

theorem Lasting.timerFiring : Keeps P timerFiring :=
  Keeps.bind (cancelTimer_follows h.control).keeps fun _ => Keeps.bind h.linkTick fun _ => Keeps.pure _

theorem Lasting.irqHandler : Keeps P irqHandler := by
  rw [irqHandler_eq]
  exact Keeps.bind (mmioReadStatus_follows h.control.calm_of_control).keeps fun _ => Keeps.read fun _ => Keeps.ite (Keeps.pure _)
    (Keeps.ite (Keeps.pure _) (Keeps.ite
      (Keeps.bind (h.emit _) fun _ => Keeps.bind (h.reset _) fun _ => Keeps.pure _) (h.walks _ _)))

theorem Lasting.openAdapter : Keeps P openAdapter :=
  Keeps.read fun _ => Keeps.ite (Keeps.pure _) (Keeps.bind (drawIrqAcquire_follows h.control.calm_of_control).keeps fun _ => Keeps.ite
    (Keeps.bind (setAcquired_follows h.control true).keeps fun _ => Keeps.bind (h.emit _) fun _ => h.opening) (Keeps.pure _))

theorem Lasting.closeAdapter : Keeps P closeAdapter := by
  have hclose : Machine.closeAdapter = (do
      let s ← getState
      if s.adapter = .closed then pure .ok
      else do
        (do teardown; awaitFreeSlots)
        pure .ok) := by
    unfold Machine.closeAdapter
    simp only [bind_assoc]
  rw [hclose]
  exact Keeps.read fun _ => Keeps.ite (Keeps.pure _) (Keeps.bind h.closing fun _ => Keeps.pure _)

theorem Lasting.txTimeout : Keeps P txTimeout :=
  Keeps.read fun _ => Keeps.ite (Keeps.pure _) (Keeps.bind (h.reset _) fun _ => Keeps.pure _)

/-- What runs keeps the property, unless a rule of the block invokes it. -/
def RunLasting (P : State → Prop) : Running → Prop
  | .agent a => ∀ s t, agentStep a s = some t → P s → P t
  | .host _ body => Keeps P body
  | .internal _ => True

theorem Lasting.runningOf (i : Instr) : RunLasting P (runningOf i) := by
  have hagent : ∀ a s t, agentStep a s = some t → P s → P t := fun _ _ _ ha => h.control.step (.commit (.calm (.agent ha)))
  cases i with
  | transmit pkt => exact h.sending pkt
  | irq => exact h.irqHandler
  | linkTick => exact h.timerFiring
  | reconfigureLink an sp dx => exact (reconfigureLink_follows h.control an sp dx).keeps
  | openAdapter => exact h.openAdapter
  | closeAdapter => exact h.closeAdapter
  | txTimeout => exact h.txTimeout
  | setMcast req => exact (setMcast_follows h.control.calm_of_control req).keeps
  | timerFire => exact h.timerFiring
  | watchdogFire => exact h.txTimeout
  | envVisible _ => exact hagent _
  | devTxDone _ => exact hagent _
  | devRxDone _ _ _ _ => exact hagent _
  | devStatus _ => exact hagent _
  | macDrained => exact hagent _
  | _ => trivial

/-- An operation from outside that ends without a fault keeps a lasting property that sees nothing of lock and outcome. -/
theorem Lasting.exec (henter : ∀ ctx s, P s → P (enter ctx s)) (hleave : ∀ o s, P s → P (leave o s)) {i : Instr} {s t : State}
    (hi : i.opClass ≠ .internal) (he : exec i s = .next t) (ht : t.fault = none) (hs : P s) : P t := by
  have hk := h.runningOf i
  obtain ⟨⟨hn, -⟩, hr⟩ := exec_next he
  cases hrun : Invariants.runningOf i with
  | agent a =>
    rw [hrun] at hk hr
    exact hk s t hr hs
  | host ctx body =>
    rw [hrun] at hk hr
    rcases Ends.next (hk (enter ctx s) hn (henter ctx s hs)) hr.2 with ⟨o, u, hu, -, rfl⟩ | ⟨-, hu⟩
    · exact hleave o u hu
    · exact absurd ht hu
  | internal body => exact absurd (internal_of_runningOf hrun) hi

end Lasting

/-! ### Reset and teardown (R330 to R344, R262) -/

section Books

variable {l : Ledger} {full tracked : Prop}

theorem resetRelease_book :
    Ensures (fun s => (book s).Sound full tracked) resetRelease
      (fun _ s => (book s).Sound False tracked ∧ (book s).TxEmpty ∧ (book s).rxShadow = []) anyEnd :=
  Ensures.bind ((cancelTimer_follows book_closed).booked _) fun _ => Ensures.bind ((updateLink_follows book_closed _).booked _) fun _ =>
    Ensures.bind ((mmioWrite_follows book_closed.calm_of_control (by simp) _).booked _) fun _ =>
      Ensures.bind ((mmioWrite_follows book_closed.calm_of_control (by simp) _).booked _) fun _ =>
        Ensures.bind ringResetTx_book fun _ => Ensures.bind ringResetRx_book fun _ =>
          (setStopped_follows book_closed.calm_of_control true).booked
            fun l => l.Sound False tracked ∧ l.TxEmpty ∧ l.rxShadow = []

/-- The receive ring is being refilled: the slots before `i` are posted, and the transmit ring is at rest. -/
structure Filling (tracked : Prop) (i : Nat) (l : Ledger) : Prop extends Sound False tracked l where
  empty : l.TxEmpty
  filled : ∀ j, mapHas l.rxShadow j = true ↔ j < i

theorem Filling.post {i b h da : Nat} (hl : Filling tracked i l) (hi : i < l.params.nRx) (hh : mapHas l.liveMaps h = false)
    (hb : mapHas l.liveBuffers b = false) : Filling tracked (i + 1) (postRx i b h da l) :=
  { hl.toSound.postRx hi (by rw [← Bool.not_eq_true, hl.filled]; exact Nat.lt_irrefl i) hh hb with
    empty := hl.empty.mono rfl rfl rfl
    filled := fun j => by
      simp only [postRx, mapHas_mapSet, Bool.or_eq_true, decide_eq_true_eq, hl.filled]
      omega }

/-- The refill (R334): all slots are posted, or the refill fails. -/
theorem refill_book (mode : AllocMode) {p : Params} : ∀ n i, i + n = p.nRx →
    Ensures (fun s => Filling tracked i (book s) ∧ (book s).params = p) (refill mode n i)
      (fun r s => (book s).Sound (r = true) tracked ∧ (book s).TxEmpty) anyEnd
  | 0, i, hi => Ensures.pure fun s h => by
    obtain ⟨h, rfl⟩ := h
    exact ⟨{ h.toSound with posted := fun _ j hj => (h.filled j).mpr (Nat.lt_of_lt_of_eq hj hi.symm) }, h.empty⟩
  | n + 1, i, hi => by
    have hfail : ∀ l, Filling tracked i l → l.Sound (false = true) tracked ∧ l.TxEmpty := fun l h =>
      ⟨h.toSound.imp (by simp), h.empty⟩
    refine Ensures.read fun u hu => Ensures.bind (Ensures.opened (alloc_book _ _)) fun b => ?_
    cases b with
    | none =>
      refine Ensures.pure fun s h => ?_
      rw [h]
      exact hfail _ hu.1
    | some buf =>
      refine Ensures.each (P := (Allocation (book u) · (some buf))) ?_
      rintro _ ⟨hb, rfl⟩
      refine Ensures.bind (dmaMap_book buf) fun m => ?_
      cases m with
      | none =>
        refine Ensures.each (P := (Mapping buf _ · none)) ?_
        rintro _ rfl
        refine Ensures.bind (freeBuf_book buf) fun _ => Ensures.pure fun s h => ?_
        rw [h, take_giveBack hu.1.buffersWf hb]
        exact hfail _ hu.1
      | some d =>
        refine Ensures.each (P := (Mapping buf _ · (some d))) ?_
        rintro _ ⟨hh, rfl⟩
        refine Ensures.bind (Q := fun _ s => book s = postRx i buf d.1 d.2 (book u)) (Ensures.update fun s h => ?_) fun _ =>
          Ensures.bind (rxPost_book i d.1) fun _ => (refill_book mode (p := p) n (i + 1) (by omega)).before fun s h => ?_
        · simp only [book, Ledger.mk.injEq] at h
          obtain ⟨hp, ha, hh, ht, hcur, htx, hrx, hm, hl, hk, hn⟩ := h
          simp only [book, setRxSlot, postRx, hp, ha, hh, ht, hcur, htx, hrx, hm, hl, hk, hn]
        · rw [h]
          exact ⟨hu.1.post (by rw [hu.2]; omega) hh hb, hu.2⟩

theorem setAdapter_book (a : AdapterState) :
    Ensures (book · = l) (setAdapter a) (fun _ s => book s = { l with adapter := a }) anyEnd :=
  Ensures.update fun _ h => h ▸ rfl

theorem notReady_book : Ensures (book · = l) notReady (fun _ s => book s = { l with adapter := .notReady }) anyEnd :=
  Ensures.bind (setAdapter_book _) fun _ => Ensures.bind (updateLink_follows book_closed _).book_eq fun _ =>
    (armTimer_follows book_closed).book_eq

theorem resetStart_book : Ensures (book · = l) resetStart (fun _ s => book s = { l with adapter := .running }) anyEnd := by
  rw [resetStart_eq]
  exact Ensures.bind (resetMac_follows book_closed.commit_of_control).book_eq fun _ =>
    Ensures.bind (mmioWrite_follows book_closed.calm_of_control (by simp) _).book_eq fun _ =>
      Ensures.bind (mmioWrite_follows book_closed.calm_of_control (by simp) _).book_eq fun _ =>
        Ensures.bind (setStopped_follows book_closed.calm_of_control false).book_eq fun _ =>
          Ensures.bind (emit_follows book_closed.calm_of_control _).book_eq fun _ =>
            Ensures.bind (setAdapter_book _) fun _ => (restartNegotiation_follows book_closed).book_eq

/-- The books are in order, and the transmit ring is at rest. -/
def AtRest (tracked : Prop) (l : Ledger) : Prop := l.Settled tracked ∧ l.TxEmpty

theorem atRest_adapter (h : l.Sound full tracked) (ht : l.TxEmpty) {a : AdapterState} (ha : a = .running → full) :
    AtRest tracked { l with adapter := a } := ⟨h.settled ha, ht.mono rfl rfl rfl⟩

theorem resetFinish_book (filled : Bool) :
    Ensures (fun s => (book s).Sound (filled = true) tracked ∧ (book s).TxEmpty) (resetFinish filled)
      (fun _ s => AtRest tracked (book s)) anyEnd := by
  refine Ensures.ite (fun hf => ?_) fun _ => ?_
  · refine Ensures.bind ((drawTcvrKnown_follows book_closed.calm_of_control).booked
      fun l => l.Sound (filled = true) tracked ∧ l.TxEmpty) fun known => Ensures.ite (fun _ => ?_) fun _ => ?_
    · refine Ensures.bind (Q := fun _ s => AtRest tracked (book s)) (Ensures.each
        (P := fun l => l.Sound (filled = true) tracked ∧ l.TxEmpty)
        fun l hl => resetStart_book.after fun _ s h => ?_)
        fun _ => Ensures.pure fun _ h => h
      exact h ▸ atRest_adapter hl.1 hl.2 fun _ => hf
    · refine Ensures.bind ((emit_follows book_closed.calm_of_control _).booked
        fun l => l.Sound (filled = true) tracked ∧ l.TxEmpty) fun _ => ?_
      refine Ensures.bind (Q := fun _ s => AtRest tracked (book s)) (Ensures.each
        (P := fun l => l.Sound (filled = true) tracked ∧ l.TxEmpty)
        fun l hl => notReady_book.after fun _ s h => ?_)
        fun _ => Ensures.pure fun _ h => h
      exact h ▸ atRest_adapter hl.1 hl.2 nofun
  · refine Ensures.bind ringResetRx_book fun _ => Ensures.bind ((emit_follows book_closed.calm_of_control _).booked
      fun l => l.Sound False tracked ∧ l.TxEmpty ∧ l.rxShadow = []) fun _ => ?_
    refine Ensures.bind (Q := fun _ s => AtRest tracked (book s)) (Ensures.each
        (P := fun l => l.Sound False tracked ∧ l.TxEmpty ∧ l.rxShadow = [])
      fun l hl => notReady_book.after fun _ s h => ?_)
      fun _ => Ensures.pure fun _ h => h
    exact h ▸ atRest_adapter hl.1 hl.2.1 nofun

theorem resetInit_book (ctx : Context) :
    Ensures (fun s => (book s).Sound full tracked) (resetInit ctx) (fun _ s => AtRest tracked (book s)) anyEnd := by
  rw [resetInit_eq]
  refine Ensures.bind resetRelease_book fun _ => Ensures.read fun u hu => ?_
  refine Ensures.bind ((refill_book (tracked := tracked) (allocMode ctx) (p := u.params) u.params.nRx 0
    (Nat.zero_add _)).before fun s h => ?_) fun filled => resetFinish_book filled
  subst h
  exact ⟨{ hu.1 with empty := hu.2.1, filled := fun j => by simp [hu.2.2, mapHas] }, rfl⟩

theorem awaitFreeSlots_book (P : Ledger → Prop) :
    Ensures (fun s => P (book s)) awaitFreeSlots (fun _ s => P (book s)) anyEnd :=
  (awaitFreeSlots_follows book_closed.calm_of_control).booked P

theorem teardown_book :
    Ensures (fun s => (book s).Sound full tracked) teardown (fun _ s => AtRest tracked (book s)) anyEnd := by
  have hcalm := book_closed.calm_of_control
  refine Ensures.bind ((cancelTimer_follows book_closed).booked _) fun _ =>
    Ensures.bind ((mmioWrite_follows hcalm (by simp) _).booked _) fun _ =>
      Ensures.bind ((mmioWrite_follows hcalm (by simp) _).booked _) fun _ =>
        Ensures.bind ringResetTx_book fun _ => Ensures.bind ringResetRx_book fun _ =>
          Ensures.each (P := fun l => l.Sound False tracked ∧ l.TxEmpty ∧ l.rxShadow = []) fun l hl => ?_
  refine Ensures.bind (setStopped_follows hcalm true).book_eq fun _ => Ensures.bind (updateLink_follows book_closed _).book_eq fun _ =>
    Ensures.bind (setAcquired_follows book_closed false).book_eq fun _ => Ensures.bind (emit_follows hcalm _).book_eq fun _ =>
      (setAdapter_book _).after fun _ s h => ?_
  exact h ▸ atRest_adapter hl.1 hl.2.1 nofun

theorem openFinish_book :
    Ensures (fun s => (book s).Sound full tracked) openFinish (fun _ s => (book s).Settled tracked) anyEnd :=
  Ensures.bind (resetInit_book _) fun _ => Ensures.ite (fun _ => Ensures.pure fun _ h => h.1) fun _ =>
    Ensures.bind (teardown_book.before fun _ h => h.1.forget) fun _ => Ensures.bind (awaitFreeSlots_book (AtRest tracked)) fun _ =>
      Ensures.pure fun _ h => h.1

/-- Ring programs leave the adapter alone. -/
theorem adapter_closed : Closed (RingStep anyWrite) fun s t => t.adapter = s.adapter where
  refl _ := rfl
  trans h h' := h'.trans h
  step h := h.frame.adapter

/-- A ring program that keeps books sound keeps them settled. -/
theorem settled_of_sound {α : Type} {m : M α} (hm : ∀ full, Keeps (fun s => (book s).Sound full tracked) m)
    (hf : Follows (fun s t => t.adapter = s.adapter) m) : Keeps (fun s => (book s).Settled tracked) m := by
  intro s hs h
  refine (Ends.and (hm (s.adapter = .running) s hs h) (hf s hs)).imp (fun _ t ht => ?_) fun _ _ => trivial
  exact Sound.imp ht.1 fun hr => ht.2 ▸ hr

/-- Every operation keeps the books settled. -/
theorem settled_lasting : Lasting fun s => (book s).Settled tracked where
  control :=
    ⟨⟨fun _ h => h, fun h h' x => h' (h x)⟩, fun hst h => show (book _).Settled tracked from book_closed.step hst.any ▸ h⟩
  reset ctx := Ensures.bind ((resetInit_book ctx).before fun _ h => Settled.forget h) fun _ =>
    (awaitFreeSlots_book (AtRest tracked)).after fun _ _ h => h.1
  opening := openFinish_book.before fun _ h => Settled.forget h
  closing := Ensures.bind (teardown_book.before fun _ h => Settled.forget h) fun _ =>
    (awaitFreeSlots_book (AtRest tracked)).after fun _ _ h => h.1
  walks a b := settled_of_sound (fun _ => irqWalks_book a b) (irqWalks_follows adapter_closed (fun _ _ _ => trivial) a b)
  sending pkt := settled_of_sound
    (fun _ => Ensures.each fun _ hl => (transmit_book hl pkt).after fun _ _ h => h.1)
    (transmit_follows adapter_closed (fun _ _ _ => trivial) pkt)

end Books

end Sys2Proof.Invariants
end

section
/-! PROOFS. Who owns a transmit slot: a FLAGS word in memory with the writes pending to it, and what micro-steps do to them. -/

-- One theorem at a time: checked together they ask for more threads than the check allows.
set_option Elab.async false

namespace Sys2Proof.Invariants

open Sys2Proof.Machine Sys2Proof.Laws

/-! ### A word with the pending writes (R44, R45) -/

/-- One word of descriptor memory as the device sees it, with the pending writes and the epoch in force. -/
structure Store where
  word : Word32
  wb : List WbEntry
  epoch : Nat

/-- The store of the word at `a`. -/
def storeAt (a : Nat) (s : State) : Store := ⟨readWord s.params.desc.byteOrder s.mem a, s.wb, s.epoch⟩

/-- What a micro-step does to the store of the FLAGS word at `a`; of the host's writes to it, only values of `W`. -/
inductive StoreStep (d : DescProfile) (W : Word32 → Prop) (a : Nat) : Store → Store → Prop
  | left {x : Store} {w : Word32} {e : Nat} (hw : w = x.word ∨ owned d w = false) (he : x.epoch ≤ e) :
      StoreStep d W a x ⟨w, x.wb, e⟩
  | shown {x : Store} {b : Nat} {e : WbEntry} (h : wbFirst x.wb b = some e) :
      StoreStep d W a x ⟨if a = b then e.val else x.word, wbDropFirst x.wb b, x.epoch⟩
  | drained {x : Store} : StoreStep d W a x ⟨(wbLast x.wb a).getD x.word, [], x.epoch⟩
  | written {x : Store} {b : Nat} {v : Word32} (h : b = a → W v) :
      StoreStep d W a x ⟨x.word, x.wb ++ [⟨b, v, x.epoch⟩], x.epoch⟩

/-- No write to `a` is pending. -/
def Unwritten (a : Nat) (x : Store) : Prop := ∀ e ∈ x.wb, e.addr ≠ a

/-- The FLAGS word at `a` shows the slot as the host's, and so it stays when pending writes become visible. -/
structure HostOwned (d : DescProfile) (a : Nat) (x : Store) : Prop where
  word : owned d x.word = false
  pending : ∀ e ∈ x.wb, e.addr = a → owned d e.val = false

/-- The FLAGS word at `a` becomes the host's with the oldest pending write to it, made in epoch `E`, before which no write is pending. -/
structure Awaited (d : DescProfile) (a E : Nat) (x : Store) : Prop where
  epoch : E ≤ x.epoch
  least : ∀ e ∈ x.wb, E ≤ e.epoch
  pending : ∀ e ∈ x.wb, e.addr = a → owned d e.val = false ∧ e.epoch = E
  waits : owned d x.word = true → ∃ e ∈ x.wb, e.addr = a

theorem wbLast_mem {l : List WbEntry} {a : Nat} {v : Word32} (h : wbLast l a = some v) : ∃ e ∈ l, e.addr = a ∧ e.val = v := by
  induction l with
  | nil => cases h
  | cons x l ih =>
    simp only [wbLast] at h
    cases hl : wbLast l a with
    | some w =>
      rw [hl] at h
      obtain ⟨e, he, hrest⟩ := ih (hl.trans h)
      exact ⟨e, List.mem_cons_of_mem _ he, hrest⟩
    | none =>
      rw [hl] at h
      simp only [Option.ite_none_right_eq_some, Option.some.injEq] at h
      exact ⟨x, List.mem_cons_self, h⟩

theorem wbLast_none {l : List WbEntry} {a : Nat} (h : wbLast l a = none) : ∀ e ∈ l, e.addr ≠ a := by
  induction l with
  | nil => exact fun e he => absurd he List.not_mem_nil
  | cons x l ih =>
    simp only [wbLast] at h
    cases hl : wbLast l a with
    | some w => rw [hl] at h; cases h
    | none =>
      rw [hl] at h
      intro e he
      rcases List.mem_cons.mp he with rfl | he
      · intro hx
        simp [hx] at h
      · exact ih hl e he

theorem wbFirst_of_mem {l : List WbEntry} {a : Nat} (h : ∃ e ∈ l, e.addr = a) : ∃ e, wbFirst l a = some e := by
  induction l with
  | nil =>
    obtain ⟨e, he, -⟩ := h
    exact absurd he List.not_mem_nil
  | cons x l ih =>
    simp only [wbFirst]
    split
    · exact ⟨x, rfl⟩
    · rename_i hx
      obtain ⟨e, he, ha⟩ := h
      rcases List.mem_cons.mp he with rfl | he
      · exact absurd ha hx
      · exact ih ⟨e, he, ha⟩

theorem mem_wbDropFirst {l : List WbEntry} {b : Nat} {e : WbEntry} (he : e ∈ l) (hb : e.addr ≠ b) : e ∈ wbDropFirst l b := by
  induction l with
  | nil => exact absurd he List.not_mem_nil
  | cons x l ih =>
    simp only [wbDropFirst]
    rcases List.mem_cons.mp he with rfl | he
    · rw [if_neg hb]
      exact List.mem_cons_self
    · split
      · exact he
      · exact List.mem_cons_of_mem _ (ih he)

section Stores

variable {d : DescProfile} {W : Word32 → Prop} {a : Nat} {x y : Store}

/-- Where nothing writes to the word, no write to it comes to be pending. -/
theorem Unwritten.step (h : Unwritten a x) (hs : StoreStep d W a x y) (hW : ∀ v, ¬ W v) : Unwritten a y := by
  cases hs with
  | left hw he => exact h
  | shown hb => exact fun e he => h e ((wbDropFirst_sublist _ _).subset he)
  | drained => exact fun e he => absurd he List.not_mem_nil
  | written hb =>
    intro e he
    rcases List.mem_append.mp he with he | he
    · exact h e he
    · rw [List.mem_singleton.mp he]
      exact fun hba => hW _ (hb hba)

/-- A slot of the host's stays so while only values that clear `OWN` are written to its FLAGS word. -/
theorem HostOwned.step (h : HostOwned d a x) (hs : StoreStep d W a x y) (hW : ∀ v, W v → owned d v = false) :
    HostOwned d a y := by
  obtain ⟨hword, hpend⟩ := h
  cases hs with
  | left hw he => exact ⟨hw.elim (fun h => h ▸ hword) id, hpend⟩
  | shown hb =>
    obtain ⟨hmem, haddr⟩ := wbFirst_mem hb
    refine ⟨?_, fun e he => hpend e ((wbDropFirst_sublist _ _).subset he)⟩
    split
    · rename_i hab
      exact hpend _ hmem (haddr.trans hab.symm)
    · exact hword
  | drained =>
    refine ⟨?_, fun e he => absurd he List.not_mem_nil⟩
    cases hl : wbLast x.wb a with
    | none => exact hword
    | some v =>
      obtain ⟨e, he, ha, rfl⟩ := wbLast_mem hl
      exact hpend e he ha
  | written hb =>
    refine ⟨hword, fun e he ha => ?_⟩
    rcases List.mem_append.mp he with he | he
    · exact hpend e he ha
    · rw [List.mem_singleton.mp he] at ha ⊢
      exact hW _ (hb ha)

/-- Until its write is visible, a slot that becomes the host's is still to become so. -/
theorem Awaited.step {E : Nat} (h : Awaited d a E x) (hs : StoreStep d W a x y) (hW : ∀ v, ¬ W v) : Awaited d a E y := by
  obtain ⟨hepoch, hleast, hpend, hwaits⟩ := h
  cases hs with
  | left hw he =>
    refine ⟨hepoch.trans he, hleast, hpend, fun ho => ?_⟩
    rcases hw with rfl | hw
    · exact hwaits ho
    · rw [hw] at ho
      cases ho
  | shown hb =>
    obtain ⟨hmem, haddr⟩ := wbFirst_mem hb
    refine ⟨hepoch, fun e he => hleast e ((wbDropFirst_sublist _ _).subset he),
      fun e he => hpend e ((wbDropFirst_sublist _ _).subset he), fun ho => ?_⟩
    simp only at ho
    split at ho
    · rename_i hab
      rw [(hpend _ hmem (haddr.trans hab.symm)).1] at ho
      cases ho
    · rename_i hab
      obtain ⟨e, he, ha⟩ := hwaits ho
      exact ⟨e, mem_wbDropFirst he (ha ▸ hab), ha⟩
  | drained =>
    refine ⟨hepoch, fun e he => absurd he List.not_mem_nil, fun e he => absurd he List.not_mem_nil, fun ho => ?_⟩
    simp only at ho
    cases hl : wbLast x.wb a with
    | none =>
      rw [hl] at ho
      obtain ⟨e, he, ha⟩ := hwaits ho
      exact absurd ha (wbLast_none hl e he)
    | some v =>
      obtain ⟨e, he, ha, rfl⟩ := wbLast_mem hl
      rw [hl, Option.getD_some, (hpend e he ha).1] at ho
      cases ho
  | written hb =>
    refine ⟨hepoch, fun e he => ?_, fun e he ha => ?_, fun ho => ?_⟩
    · rcases List.mem_append.mp he with he | he
      · exact hleast e he
      · rw [List.mem_singleton.mp he]
        exact hepoch
    · rcases List.mem_append.mp he with he | he
      · exact hpend e he ha
      · rw [List.mem_singleton.mp he] at ha
        exact absurd (hb ha) (hW _)
    · obtain ⟨e, he, ha⟩ := hwaits ho
      exact ⟨e, List.mem_append_left _ he, ha⟩

/-- With nothing pending any more, an awaited slot is the host's. -/
theorem Awaited.hostOwned {E : Nat} (h : Awaited d a E x) (hx : owned d x.word = false) : HostOwned d a x :=
  ⟨hx, fun e he ha => (h.pending e he ha).1⟩

theorem Awaited.empty {E : Nat} (h : Awaited d a E x) (hx : x.wb = []) : HostOwned d a x := by
  refine h.hostOwned ?_
  cases ho : owned d x.word with
  | false => rfl
  | true =>
    obtain ⟨e, he, -⟩ := h.waits ho
    rw [hx] at he
    exact absurd he List.not_mem_nil

end Stores

/-! ### The FLAGS word of a transmit slot -/

/-- The rings lie as they must, the transmit ring of a block with parameters `p` at `base`. -/
structure Site (p : Params) (base : Nat) (s : State) : Prop extends Geometry s where
  params : s.params = p
  base : s.tx.base = some base

/-- The address of the FLAGS word of transmit slot `i`. -/
def flagsAt (p : Params) (base i : Nat) : Nat := descWordAddr p.desc base i .flags

/-- The store of the FLAGS word of transmit slot `i`. -/
def slotStore (p : Params) (base i : Nat) (s : State) : Store := storeAt (flagsAt p base i) s

/-- Which values `A` lets the host write to the FLAGS word of transmit slot `i`. -/
def Writes.toFlags (A : Writes) (i : Nat) : Word32 → Prop := A .tx i .flags

theorem own_lt {d : DescProfile} (h : descValid d = true) : d.own < 32 := by
  simp only [descValid, txFields, fieldsDisjoint, Bool.and_eq_true, decide_eq_true_eq] at h
  have : d.own + 1 ≤ 32 := h.1.2.1.1
  omega

/-- The engine's write clears `OWN` (R281). -/
theorem owned_putBit_own {d : DescProfile} (h : descValid d = true) (v : Word32) : owned d (putBit d.own v false) = false := by
  have hlt := own_lt h
  rw [owned, getBit_eq _ _ hlt, putBit, getLsbD_putField _ _ _ _ (show d.own + 1 ≤ 32 by omega)]
  simp [bitField]

theorem owned_zero {d : DescProfile} (h : descValid d = true) : owned d 0 = false := by
  rw [owned, getBit_eq _ _ (own_lt h)]
  simp

/-- A drained word is its last pending write, or else what it was (R67). -/
theorem readWord_drainList {a : Nat} (ha : a % 4 = 0) : ∀ (l : List WbEntry) (s : State), (∀ e ∈ l, e.addr % 4 = 0) →
    readWord s.params.desc.byteOrder (drainList l s).mem a = (wbLast l a).getD (readWord s.params.desc.byteOrder s.mem a)
  | [], _, _ => rfl
  | e :: l, s, h => by
    have ih := readWord_drainList ha l (writeVisible e.addr e.val s) fun x hx => h x (List.mem_cons_of_mem _ hx)
    have he := h e List.mem_cons_self
    simp only [drainList, writeVisible_params, writeVisible_mem, readWord_writeWord_aligned _ _ _ _ _ he ha] at ih ⊢
    rw [ih]
    simp only [wbLast]
    cases wbLast l a with
    | some v => rfl
    | none =>
      by_cases hea : e.addr = a
      · simp [hea]
      · simp [hea, Ne.symm hea]

theorem regEffect_store (reg : MmioReg) (v : RegVal) (s : State) (a : Nat) : storeAt a (regEffect reg v s) = storeAt a s := by
  unfold regEffect
  split <;> rfl

section Slot

variable {p : Params} {base i : Nat}

theorem Site.descValid {s : State} (h : Site p base s) : descValid p.desc = true :=
  h.params ▸ (ringParams_of_valid h.valid).2.2

theorem Site.aligned {s : State} (h : Site p base s) : flagsAt p base i % 4 = 0 :=
  descWordAddr_aligned h.descValid (LaidOut.aligned h.laidOut (r := .tx) h.base) i .flags

/-- What an agent step does to a transmit slot's FLAGS word: it shows a write, or the transmit engine clears `OWN`, or nothing. -/
theorem agentStep_store {a : AgentStep} {s t : State} (h : Site p base s) (hi : i < p.nTx) (ht : agentStep a s = some t)
    (W : Word32 → Prop) : StoreStep p.desc W (flagsAt p base i) (slotStore p base i s) (slotStore p base i t) := by
  have hd := h.descValid
  have ha := h.aligned (i := i)
  have hsame : slotStore p base i t = slotStore p base i s →
      StoreStep p.desc W (flagsAt p base i) (slotStore p base i s) (slotStore p base i t) := fun he =>
    he ▸ .left (.inl rfl) (le_refl _)
  cases a with
  | envVisible b =>
    simp only [agentStep, stepVisible] at ht
    split at ht
    · cases ht
    · rename_i e he
      split at ht <;> cases ht
      have hb : b % 4 = 0 := (wbFirst_mem he).2 ▸ (h.ordered.2 e (wbFirst_mem he).1).2
      have hstep := StoreStep.shown (d := p.desc) (W := W) (a := flagsAt p base i) (x := slotStore p base i s) he
      simpa only [slotStore, storeAt, writeVisible_params, writeVisible_mem, writeVisible_wb, writeVisible_epoch,
        readWord_writeWord_aligned _ _ _ _ _ hb ha] using hstep
  | devTxDone j =>
    simp only [agentStep, stepTxDone] at ht
    split at ht
    · cases ht
    · rename_i b hb
      have hbase : b = base := Option.some.inj (hb.symm.trans h.base)
      subst hbase
      split at ht <;> cases ht
      refine .left ?_ (le_refl _)
      have haj : descWordAddr s.params.desc b j .flags % 4 = 0 := by
        rw [h.params]
        exact h.aligned (i := j)
      simp only [slotStore, storeAt, readWord_writeWord_aligned _ _ _ _ _ haj ha]
      split
      · right
        rw [h.params]
        exact owned_putBit_own hd _
      · exact .inl rfl
  | devRxDone j len ov csum =>
    simp only [agentStep, stepRxDone] at ht
    split at ht
    · cases ht
    · rename_i b hb
      split at ht
      · rename_i hc
        cases ht
        simp only [Bool.and_eq_true, decide_eq_true_eq, h.params] at hc
        have hne := descWordAddr_apart (w := .flags) (w' := .flags) hd hi hc.1.1.1.2 (h.params ▸ h.laidOut.2.2 base b h.base hb)
        have haj : descWordAddr p.desc b j .flags % 4 = 0 :=
          descWordAddr_aligned hd (LaidOut.aligned h.laidOut (r := .rx) hb) j .flags
        refine hsame ?_
        simp only [slotStore, storeAt, writeRxFlags, writePayload, h.params]
        rw [readWord_writeWord_aligned _ _ _ _ _ haj ha, if_neg (show flagsAt p base i ≠ _ from hne)]
      · cases ht
  | devStatus bits =>
    simp only [agentStep, stepStatus] at ht
    split at ht <;> cases ht
    exact hsame rfl
  | macDrained =>
    simp only [agentStep, stepMacDrained] at ht
    split at ht <;> cases ht
    exact hsame rfl

/-- What a calm micro-step does to a transmit slot's FLAGS word. -/
theorem CalmStep.store {A : Writes} {s t : State} (hst : CalmStep A s t) (h : Site p base s) (hi : i < p.nTx) :
    StoreStep p.desc (A.toFlags i) (flagsAt p base i) (slotStore p base i s) (slotStore p base i t) := by
  have hd := h.descValid
  cases hst with
  | agent ht => exact agentStep_store h hi ht _
  | register reg v =>
    have hdrain : slotStore p base i (drain s) = ⟨(wbLast s.wb (flagsAt p base i)).getD (slotStore p base i s).word, [], s.epoch⟩ := by
      have hp : (drain s).params = s.params := (hostSide_fields (drain_hostSide s)).1
      have he : (drain s).epoch = s.epoch := hostSide_epoch (drain_hostSide s)
      simp only [slotStore, storeAt, hp, he, drain_wb, Store.mk.injEq, and_true]
      exact readWord_drainList h.aligned s.wb s fun e he => (h.ordered.2 e he).2
    have heq : slotStore p base i (regEffect reg v (drain s)) = _ := (regEffect_store reg v (drain s) _).trans hdrain
    rw [heq]
    exact .drained
  | write hA hb hs ha =>
    refine .written fun he => ?_
    rename_i r j b w v
    rw [h.params] at he hs
    cases r with
    | tx =>
      have hbb : b = base := Option.some.inj (hb.symm.trans h.base)
      subst hbb
      obtain ⟨rfl, rfl⟩ := descWordAddr_inj hd he
      exact hA
    | rx => exact absurd he.symm (descWordAddr_apart hd hi hs (h.params ▸ h.laidOut.2.2 base b h.base hb))
  | barrier => exact .left (.inl rfl) (Nat.le_succ _)
  | _ => exact .left (.inl rfl) (le_refl _)

/-- What a micro-step does to a transmit slot's FLAGS word. -/
theorem HostStep.store {A : Writes} {s t : State} (hst : HostStep A s t) (h : Site p base s) (hi : i < p.nTx) :
    StoreStep p.desc (A.toFlags i) (flagsAt p base i) (slotStore p base i s) (slotStore p base i t) := by
  have hsame : slotStore p base i t = slotStore p base i s →
      StoreStep p.desc (A.toFlags i) (flagsAt p base i) (slotStore p base i s) (slotStore p base i t) := fun he =>
    he ▸ .left (.inl rfl) (le_refl _)
  cases hst with
  | ring hst =>
    cases hst with
    | calm hst => exact hst.store h hi
    | cursorsZeroed r => cases r <;> exact hsame rfl
    | _ => exact hsame rfl
  | control hst =>
    cases hst with
    | commit hst =>
      cases hst with
      | calm hst => exact hst.store h hi
      | committed m => exact hsame rfl
    | control l b c => exact hsame rfl
  | adapter a => exact hsame rfl

theorem HostStep.site {A : Writes} {s t : State} (hst : HostStep A s t) (h : Site p base s) : Site p base t :=
  { hst.geometry h.toGeometry with params := hst.frame.params.trans h.params, base := hst.frame.txBase.trans h.base }

/-- A property of the slot's store that the steps of `A` keep is carried along, with the rings' layout. -/
def Stable (A : Writes) (p : Params) (base i : Nat) (K : Store → Prop) : Prop :=
  ∀ x y, StoreStep p.desc (A.toFlags i) (flagsAt p base i) x y → K x → K y

/-- The rings lie as they must, and the store of the slot's FLAGS word has the property. -/
structure At (p : Params) (base i : Nat) (K : Store → Prop) (s : State) : Prop where
  site : Site p base s
  holds : K (slotStore p base i s)

theorem at_closed {A : Writes} {K : Store → Prop} (hK : Stable A p base i K) (hi : i < p.nTx) :
    Closed (HostStep A) fun s t => At p base i K s → At p base i K t where
  refl _ h := h
  trans h h' x := h' (h x)
  step hst h := ⟨hst.site h.site, hK _ _ (hst.store h.site hi) h.holds⟩

end Slot

end Sys2Proof.Invariants
end

section
/-! PROOFS. Transmission and the walks keep free transmit slots the host's, and leave no write to an outstanding slot pending. -/

-- One theorem at a time: checked together they ask for more threads than the check allows.
set_option Elab.async false

namespace Sys2Proof.Invariants

open Sys2Proof.Machine Sys2Proof.Laws Ledger

/-! ### What is stable -/

/-- Writes to descriptors of the receive ring. -/
def rxWrites : Writes := fun r _ _ _ => r = .rx

/-- With `b` the slot's FLAGS word has no pending write; without it the slot is the host's. -/
def Held (b : Prop) (d : DescProfile) (a : Nat) (x : Store) : Prop := (b → Unwritten a x) ∧ (¬ b → HostOwned d a x)

section Slot

variable {p : Params} {base i : Nat} {A : Writes} {α : Type}

theorem stable_unwritten (hA : ∀ v, ¬ A.toFlags i v) : Stable A p base i (Unwritten (flagsAt p base i)) :=
  fun _ _ hs h => h.step hs hA

theorem stable_hostOwned (hA : ∀ v, ¬ A.toFlags i v) : Stable A p base i (HostOwned p.desc (flagsAt p base i)) :=
  fun _ _ hs h => h.step hs fun v hv => absurd hv (hA v)

theorem stable_awaited (hA : ∀ v, ¬ A.toFlags i v) (E : Nat) : Stable A p base i (Awaited p.desc (flagsAt p base i) E) :=
  fun _ _ hs h => h.step hs hA

theorem stable_held (hA : ∀ v, ¬ A.toFlags i v) (b : Prop) : Stable A p base i (Held b p.desc (flagsAt p base i)) :=
  fun x y hs h => ⟨fun hb => stable_unwritten hA x y hs (h.1 hb), fun hb => stable_hostOwned hA x y hs (h.2 hb)⟩

theorem noWrite_toFlags (v : Word32) : ¬ noWrite.toFlags i v := id

theorem rxWrites_toFlags (v : Word32) : ¬ rxWrites.toFlags i v := nofun

theorem At.imp {K K' : Store → Prop} {s : State} (h : At p base i K s) (hK : ∀ x, K x → K' x) : At p base i K' s :=
  ⟨h.site, hK _ h.holds⟩

theorem Held.congr {b b' : Prop} {d : DescProfile} {a : Nat} {x : Store} (h : Held b d a x) (hb : b' ↔ b) : Held b' d a x :=
  ⟨fun h' => h.1 (hb.mp h'), fun h' => h.2 fun h'' => h' (hb.mpr h'')⟩

/-- R55 item 3 for one transmit slot, with what keeps it so: in use, no write to its FLAGS word is pending; free, it is the host's. -/
def SlotSettled (p : Params) (base i : Nat) (s : State) : Prop :=
  At p base i (Held ((book s).InUse i) p.desc (flagsAt p base i)) s

/-- A register write leaves nothing pending. -/
theorem mmioWrite_drains {reg : MmioReg} (hreg : reg ≠ .macTxcfg) (v : RegVal) {K : Store → Prop} (hK : Stable noWrite p base i K)
    (hi : i < p.nTx) : Ensures (At p base i K) (mmioWrite reg v) (fun _ s => At p base i K s ∧ s.wb = []) anyEnd := by
  intro s hs h
  refine (Ends.and ((mmioWrite_follows (at_closed hK hi).calm_of_host hreg v).keeps s hs h)
    (Q' := fun _ t => t.wb = []) (E' := anyEnd) ?_).imp (fun _ _ => id) fun _ _ => trivial
  rw [run_mmioWrite]
  exact ⟨regEffect_wb reg v _, (regEffect_fault reg v _).trans ((drain_fault _).trans ((hostSide_fault (interleave_hostSide s)).trans hs))⟩

theorem unwritten_of_empty {a : Nat} {x : Store} (h : x.wb = []) : Unwritten a x := fun e he => by
  rw [h] at he
  exact absurd he List.not_mem_nil

/-! ### The walks (R161, R182) -/

/-- A slot that the host reads as its own, with no write to it pending, is its own in memory. -/
theorem hostOwned_of_read {s : State} (h : At p base i (Unwritten (flagsAt p base i)) s) (ho : hostSeesOwned s base i = false) :
    HostOwned p.desc (flagsAt p base i) (slotStore p base i s) := by
  refine ⟨?_, fun e he ha => absurd ha (h.holds e he)⟩
  cases hd : deviceOwns s base i with
  | false =>
    simp only [deviceOwns, deviceView, h.site.params] at hd
    simpa only [slotStore, storeAt, flagsAt, h.site.params] using hd
  | true =>
    obtain ⟨w, hw, ha⟩ := pending_of_views_differ ho hd
    rw [h.site.params] at ha
    exact absurd ha (h.holds w hw)

/-- What the look at a slot with no write pending says: a completed slot is the host's (R133). -/
theorem ringTryReclaim_slot (hi : i < p.nTx) :
    Ensures (At p base i (Unwritten (flagsAt p base i))) (ringTryReclaim .tx i)
      (fun d s => At p base i (Unwritten (flagsAt p base i)) s ∧ (d ≠ none → At p base i (HostOwned p.desc (flagsAt p base i)) s))
      anyEnd := by
  intro s hs h
  have hstep := (at_closed (stable_unwritten noWrite_toFlags) hi (p := p) (base := base)).calm_of_host
  have hstep' := (at_closed (stable_hostOwned noWrite_toFlags) hi (p := p) (base := base)).calm_of_host
  have h1 := interleave_kept hstep s h
  have hn1 := (hostSide_fault (interleave_hostSide s)).trans hs
  rw [run_ringTryReclaim (by rw [h.site.params]; exact h.site.descValid) h.site.laidOut (r := .tx) h.site.base
    (by rw [h.site.params]; exact hi)]
  cases ho : hostSeesOwned (interleave s) base i with
  | true => exact ⟨⟨h1, fun hd => absurd rfl hd⟩, hn1⟩
  | false =>
    have h2 := interleave_kept hstep _ h1
    have h3 := interleave_kept hstep' _ ⟨h1.site, hostOwned_of_read h1 ho⟩
    exact ⟨⟨h2, fun _ => h3⟩, (hostSide_fault (interleave_hostSide _)).trans hn1⟩

/-- The look at the tail: a completed slot is held as one that is no longer in use. -/
theorem tryReclaimTail_slot (hi : i < p.nTx) {l : Ledger} (hne : l.tail ≠ l.head) (hh : l.head < l.params.nTx)
    (ht : l.tail < l.params.nTx) :
    Ensures (At p base i (Held (l.InUse i) p.desc (flagsAt p base i))) (ringTryReclaim .tx l.tail)
      (fun d s => At p base i (Held (l.InUse i) p.desc (flagsAt p base i)) s ∧
        (d ≠ none → At p base i (Held (i ≠ l.tail ∧ l.InUse i) p.desc (flagsAt p base i)) s)) anyEnd := by
  by_cases hit : i = l.tail
  · subst hit
    have huse : l.InUse l.tail := by
      refine ⟨ht, ?_⟩
      rw [occupiedOf_eq ht ht, occupiedOf_eq hh ht]
      split_ifs <;> omega
    refine ((ringTryReclaim_slot hi).before fun s h => h.imp fun x hx => hx.1 huse).after fun d s h =>
      ⟨h.1.imp fun x hx => ⟨fun _ => hx, fun hb => absurd huse hb⟩, fun hd => (h.2 hd).imp fun x hx =>
        ⟨fun hb => absurd rfl hb.1, fun _ => hx⟩⟩
  · refine (ringTryReclaim_follows (at_closed (stable_held noWrite_toFlags (l.InUse i)) hi).calm_of_host .tx l.tail).keeps.after
      fun d s h => ⟨h, fun _ => h.imp fun x hx => hx.congr ?_⟩
    simp [hit]

/-- The reclaim of the tail leaves a slot settled that is held as it will be (R161). -/
theorem reclaimSlot_slot (hi : i < p.nTx) {l : Ledger} (hne : l.tail ≠ l.head) (hh : l.head < l.params.nTx)
    (ht : l.tail < l.params.nTx) (e : TxEntry) :
    Ensures (fun s => book s = l ∧ At p base i (Held (i ≠ l.tail ∧ l.InUse i) p.desc (flagsAt p base i)) s)
      (reclaimSlot l.tail e) (fun _ => SlotSettled p base i) anyEnd := by
  have hkeeps : Keeps (At p base i (Held (i ≠ l.tail ∧ l.InUse i) p.desc (flagsAt p base i))) (reclaimSlot l.tail e) :=
    (reclaimSlot_follows (at_closed (stable_held noWrite_toFlags _) hi).ring_of_host l.tail e).keeps
  refine ((reclaimSlot_book l.tail e).and hkeeps).after fun _ s h => h.2.imp fun x hx => hx.congr ?_
  rw [h.1.2]
  exact inUse_advanceTail hh ht hne i

theorem reclaimWalk_slot (hi : i < p.nTx) : ∀ n, Keeps (SlotSettled p base i) (reclaimWalk n)
  | 0 => Keeps.pure ()
  | n + 1 => by
    refine Ensures.read fun u hu => Ensures.ite (fun _ => Ensures.pure fun s h => h ▸ hu) fun hne => ?_
    obtain ⟨hh, ht, -⟩ := hu.site.cursors
    refine Ensures.bind (Q := fun d s => book s = book u ∧ At p base i (Held ((book u).InUse i) p.desc (flagsAt p base i)) s ∧
        (d ≠ none → At p base i (Held (i ≠ u.tx.tail ∧ (book u).InUse i) p.desc (flagsAt p base i)) s)) ?_ fun d => ?_
    · exact ((ringTryReclaim_follows book_closed.calm_of_control _ _).book_eq.and
        (tryReclaimTail_slot hi (l := book u) hne hh ht)).before fun s h => by subst h; exact ⟨rfl, hu⟩
    · cases d with
      | none =>
        refine Ensures.pure fun s h => ?_
        rw [SlotSettled, h.1]
        exact h.2.1
      | some x =>
        refine Ensures.read fun v hv => ?_
        split
        · exact Ensures.refuse
        · rename_i e he
          refine Ensures.bind (Q := fun _ => SlotSettled p base i) ?_ fun _ => reclaimWalk_slot hi n
          refine (reclaimSlot_slot hi (l := book u) hne hh ht e).before fun s h => ?_
          subst h
          exact ⟨hv.1, hv.2.2 nofun⟩

/-- A program that leaves the slots in use alone and writes no transmit FLAGS word keeps a slot settled. -/
theorem slot_of_inUse {P : State → Prop} {m : M α} (hA : ∀ v, ¬ A.toFlags i v) (hi : i < p.nTx)
    (hf : ∀ {R : State → State → Prop}, Closed (RingStep A) R → Follows R m)
    (hb : ∀ u, P u → Ensures (· = u) m (fun _ s => (book s).InUse i ↔ (book u).InUse i) anyEnd) :
    Ensures (fun s => P s ∧ SlotSettled p base i s) m (fun _ => SlotSettled p base i) anyEnd := by
  intro s hs ⟨hP, h⟩
  refine (Ends.and ((hf (at_closed (stable_held hA ((book s).InUse i)) hi).ring_of_host).keeps s hs h) (hb s hP s hs rfl)).imp
    (fun _ t ht => ht.1.imp fun x hx => hx.congr ht.2) fun _ _ => trivial

theorem txReclaim_slot (hi : i < p.nTx) : Keeps (SlotSettled p base i) txReclaim := by
  refine Ensures.read fun u hu => Ensures.bind ((reclaimWalk_slot hi _).before fun s h => h ▸ hu) fun _ => ?_
  refine (slot_of_inUse (P := fun _ => True) noWrite_toFlags hi (fun hR => queueWake_follows hR.calm_of_ring) fun u _ => ?_).before
    fun _ h => ⟨trivial, h⟩
  exact Ensures.opened ((queueWake_follows book_closed.calm_of_control).book_eq.after fun _ _ h => by rw [h])

theorem rxReclaim_slot (hi : i < p.nTx) :
    Ensures (fun s => (book s).Sound False False ∧ SlotSettled p base i s) rxReclaim (fun _ => SlotSettled p base i) anyEnd :=
  slot_of_inUse (A := rxWrites) rxWrites_toFlags hi (fun hR => rxReclaim_follows hR fun _ _ _ => rfl) fun _ hu =>
    Ensures.opened ((rxReclaim_book hu).after fun _ _ h => h.2 i)

theorem irqWalks_slot (hi : i < p.nTx) (a b : Bool) :
    Ensures (fun s => (book s).Sound False False ∧ SlotSettled p base i s) (irqWalks a b) (fun _ => SlotSettled p base i) anyEnd := by
  refine Ensures.bind (Q := fun _ s => (book s).Sound False False ∧ SlotSettled p base i s)
    (Ensures.ite (fun _ => txReclaim_book.and (txReclaim_slot hi)) fun _ => Ensures.pure fun _ h => h) fun _ => ?_
  exact Ensures.bind (Q := fun _ => SlotSettled p base i)
    (Ensures.ite (fun _ => rxReclaim_slot hi) fun _ => Ensures.pure fun _ h => h.2) fun _ => Ensures.pure fun _ h => h

/-! ### Transmission (R150 to R160) -/

/-- Writes to descriptors of other slots. -/
def otherSlots (i : Nat) : Writes := fun _ j _ _ => j ≠ i

theorem otherSlots_toFlags (v : Word32) : ¬ (otherSlots i).toFlags i v := fun h => h rfl

/-- A slot that no fragment takes stays the host's while the head stands still. -/
theorem publishing_closed (hi : i < p.nTx) (h : Nat) :
    Closed (CalmStep (otherSlots i)) fun s t => At p base i (HostOwned p.desc (flagsAt p base i)) s ∧ s.tx.head = h →
      At p base i (HostOwned p.desc (flagsAt p base i)) t ∧ t.tx.head = h where
  refl _ h := h
  trans h h' x := h' (h x)
  step hst h := ⟨(at_closed (stable_hostOwned otherSlots_toFlags) hi).calm_of_host.step hst h.1, hst.frame.head.trans h.2⟩

theorem publishFragment_slot (hi : i < p.nTx) {h : Nat} (cs : CsRequest) (k total : Nat) {j : Nat} (m : Mapped)
    (hj : i ≠ (h + j - 1) % p.nTx) :
    Keeps (fun s => At p base i (HostOwned p.desc (flagsAt p base i)) s ∧ s.tx.head = h) (publishFragment cs k total j m) := by
  refine Ensures.read fun u hu => ?_
  have hslot : fragSlot u j = (h + j - 1) % p.nTx := by rw [fragSlot, hu.2, hu.1.site.params]
  refine Ensures.bind (Q := fun _ s => At p base i (HostOwned p.desc (flagsAt p base i)) s ∧ s.tx.head = h)
    (Ensures.update fun s hs => ?_) fun _ => ?_
  · subst hs
    exact ⟨(at_closed (stable_hostOwned noWrite_toFlags) hi).ring_of_host.step (.txEntered _ _) hu.1, hu.2⟩
  · exact (ringPublish_follows (publishing_closed hi h) _ _ fun _ _ => (hslot ▸ hj.symm :)).keeps

theorem publishFrom_slot (hi : i < p.nTx) {h : Nat} (k total : Nat) : ∀ (ms : List Mapped) (j : Nat),
    (∀ x, j ≤ x ∧ x < j + ms.length → i ≠ (h + x - 1) % p.nTx) →
      Keeps (fun s => At p base i (HostOwned p.desc (flagsAt p base i)) s ∧ s.tx.head = h) (publishFrom k total j ms)
  | [], _, _ => Keeps.pure ()
  | m :: ms, j, hj => Keeps.bind (publishFragment_slot hi _ k total m (hj j (by simp))) fun _ =>
      publishFrom_slot hi k total ms (j + 1) fun x hx => hj x (by simp only [List.length_cons]; omega)

theorem publishPacket_slot (hi : i < p.nTx) {h : Nat} (pkt : Packet) : ∀ ms : List Mapped,
    (∀ x, 1 ≤ x ∧ x ≤ ms.length → i ≠ (h + x - 1) % p.nTx) →
      Keeps (fun s => At p base i (HostOwned p.desc (flagsAt p base i)) s ∧ s.tx.head = h) (publishPacket pkt ms)
  | [], _ => Keeps.pure ()
  | m :: ms, hj => Keeps.bind (publishFrom_slot hi _ _ ms 2 fun x hx => hj x (by simp only [List.length_cons]; omega)) fun _ =>
      publishFragment_slot hi _ _ _ m (hj 1 (by simp))

/-- What a transmission does to a slot that was settled in the books `l`: if a packet is accepted, no write is pending, and a slot
that stays free is the host's. -/
def Sent (p : Params) (base i k : Nat) (l : Ledger) (o : OpOutcome) (s : State) : Prop :=
  (o ≠ .accepted → At p base i (Held (l.InUse i) p.desc (flagsAt p base i)) s) ∧
    (o = .accepted → s.wb = [] ∧ At p base i (fun x => ¬ l.InUse i → ¬ l.Takes k i → HostOwned p.desc (flagsAt p base i) x) s)

theorem Sent.settled {k : Nat} {l : Ledger} {o : OpOutcome} {s : State} (h : Sent p base i k l o s)
    (hu : (book s).InUse i ↔ l.InUse i ∨ o = .accepted ∧ l.Takes k i) : SlotSettled p base i s := by
  by_cases ho : o = .accepted
  · obtain ⟨hwb, hat⟩ := h.2 ho
    refine ⟨hat.site, fun _ => unwritten_of_empty hwb, fun hn => hat.holds (fun hb => hn (hu.mpr (.inl hb))) fun ht => ?_⟩
    exact hn (hu.mpr (.inr ⟨ho, ht⟩))
  · exact (h.1 ho).imp fun x hx => hx.congr (by simp [hu, ho])

/-- The publication of a packet leaves the free slots it does not take the host's. -/
theorem publishPacket_sent (hi : i < p.nTx) {l : Ledger} (hl : l.params = p) {pkt : Packet} {ms : List Mapped}
    (hlen : ms.length = pkt.frags.length) :
    Ensures (fun s => At p base i (Held (l.InUse i) p.desc (flagsAt p base i)) s ∧ s.tx.head = l.head) (publishPacket pkt ms)
      (fun _ => At p base i fun x => ¬ l.InUse i → ¬ l.Takes pkt.frags.length i → HostOwned p.desc (flagsAt p base i) x) anyEnd := by
  by_cases hb : l.InUse i ∨ l.Takes pkt.frags.length i
  · have hany : Stable anyWrite p base i fun _ => True := fun _ _ _ _ => trivial
    refine ((publishPacket_follows (at_closed hany hi).ring_of_host (fun _ _ _ => trivial) pkt ms).keeps.before
      fun s h => h.1.imp fun _ _ => trivial).after fun _ s h => h.imp fun _ _ h1 h2 => absurd hb (not_or.mpr ⟨h1, h2⟩)
  · rw [not_or] at hb
    refine ((publishPacket_slot hi (h := l.head) pkt ms fun x hx he => hb.2 ⟨x, hlen ▸ hx, ?_⟩).before
      fun s h => ⟨h.1.imp fun x hx => hx.2 hb.1, h.2⟩).after fun _ s h => h.1.imp fun _ hx _ _ => hx
    rw [he, slotOf, hl]

theorem transmit_sent (hi : i < p.nTx) {u : State} (hl : (book u).Sound False False) (hu : SlotSettled p base i u) (pkt : Packet) :
    Ensures (· = u) (transmit pkt) (Sent p base i pkt.frags.length (book u)) anyEnd := by
  have hkept : ∀ (o : OpOutcome), o ≠ .accepted → ∀ s, At p base i (Held ((book u).InUse i) p.desc (flagsAt p base i)) s →
      Sent p base i pkt.frags.length (book u) o s := fun o ho s h => ⟨fun _ => h, fun h' => absurd h' ho⟩
  have hbusy : Ensures (· = u) (pure .busy) (Sent p base i pkt.frags.length (book u)) anyEnd :=
    Ensures.pure fun s h => hkept .busy nofun s (h ▸ hu)
  refine Ensures.read fun v hv => ?_
  subst hv
  cases hval : validatePacket v.params pkt with
  | some r => exact Ensures.refuse
  | none =>
    refine Ensures.ite (fun _ => hbusy) fun _ => Ensures.ite (fun _ => hbusy) fun _ => Ensures.ite (fun _ => hbusy) fun _ => ?_
    have hheld := at_closed (A := noWrite) (stable_held (base := base) noWrite_toFlags ((book v).InUse i)) hi
    refine Ensures.bind (((mapFragments_book (full := False) (tracked := False) (l₀ := book v) pkt.frags []).and
      (mapFragments_follows hheld.ring_of_host pkt.frags []).keeps).before fun s h => by subst h; exact ⟨hl.sending, hu⟩) fun r => ?_
    cases r with
    | none =>
      exact Ensures.bind ((count_follows hheld.calm_of_host _).keeps.before fun _ h => h.2) fun _ =>
        Ensures.pure fun s h => hkept .droppedMapping nofun s h
    | some ms =>
      have hfree : Stable noWrite p base i fun x => ¬ (book v).InUse i → ¬ (book v).Takes pkt.frags.length i →
          HostOwned p.desc (flagsAt p base i) x := fun x y hs h h1 h2 => stable_hostOwned noWrite_toFlags x y hs (h h1 h2)
      have hclosed := at_closed hfree hi
      refine Ensures.bind (Q := fun _ => At p base i fun x => ¬ (book v).InUse i → ¬ (book v).Takes pkt.frags.length i →
        HostOwned p.desc (flagsAt p base i) x) (fun s hs h => ?_) fun _ => ?_
      · have hhead : (book s).head = (book v).head := by rw [h.1.2.same]
        exact publishPacket_sent hi hu.site.params (h.1.1.trans (Nat.zero_add _)) s hs ⟨h.2, hhead⟩
      · exact Ensures.bind (Ensures.update fun s h => hclosed.ring_of_host.step (.headAdvanced pkt) h) fun _ =>
          Ensures.bind (backpressure_follows hclosed.calm_of_host).keeps fun _ =>
            Ensures.bind (mmioWrite_drains (by simp) _ hfree hi) fun _ =>
              Ensures.pure fun s h => ⟨fun h' => absurd rfl h', fun _ => ⟨h.2, h.1⟩⟩

theorem transmit_slot (hi : i < p.nTx) (pkt : Packet) :
    Ensures (fun s => (book s).Sound False False ∧ SlotSettled p base i s) (transmit pkt) (fun _ => SlotSettled p base i) anyEnd :=
  fun s hs h => (Ends.and (transmit_sent hi h.1 h.2 pkt s hs rfl) (transmit_book h.1 pkt s hs rfl)).imp
    (fun _ _ ht => ht.1.settled (ht.2.2 i)) fun _ _ => trivial

end Slot

end Sys2Proof.Invariants
end

section
/-! PROOFS. Reset and teardown give every transmit slot back to the host, once their writes are visible. -/

-- One theorem at a time: checked together they ask for more threads than the check allows.
set_option Elab.async false

namespace Sys2Proof.Invariants

open Sys2Proof.Machine Sys2Proof.Laws Ledger

section Slot

variable {p : Params} {base i : Nat} {α : Type}

/-! ### The neutral rewrite (R134) -/

/-- Every pending write is of epoch `E`, the one in force, and clears `OWN`. -/
structure Neutral (d : DescProfile) (E : Nat) (s : State) : Prop where
  epoch : s.epoch = E
  pending : ∀ e ∈ s.wb, e.epoch = E ∧ owned d e.val = false

theorem Neutral.sublist {d : DescProfile} {E : Nat} {s t : State} (h : Neutral d E s) (hw : t.wb.Sublist s.wb)
    (he : t.epoch = s.epoch) : Neutral d E t := ⟨he.trans h.epoch, fun e hm => h.pending e (hw.subset hm)⟩

theorem interleave_wb (s : State) : (interleave s).wb.Sublist s.wb :=
  interleave_carries (R := fun s t => t.wb.Sublist s.wb) ⟨fun _ => .refl _, fun h h' => h'.trans h⟩
    (fun _ _ _ h => agentStep_wb h) (fun _ _ => .refl _) s

theorem Neutral.interleave {d : DescProfile} {E : Nat} {s : State} (h : Neutral d E s) : Neutral d E (interleave s) :=
  h.sublist (interleave_wb s) (hostSide_epoch (interleave_hostSide s))

/-- A neutral write to a word at `a` is awaited there. -/
theorem Neutral.awaited {d : DescProfile} {a E : Nat} {s : State} (h : Neutral d E s) :
    Awaited d a E (storeAt a s) ↔ (owned d (storeAt a s).word = true → ∃ e ∈ s.wb, e.addr = a) :=
  ⟨fun h' => h'.waits, fun h' => ⟨h.epoch.ge, fun e he => (h.pending e he).1.ge, fun e he _ => (h.pending e he).symm, h'⟩⟩

/-- The transmit ring is being rewritten in epoch `E`, and slot `i` is awaited once `b`. -/
structure Rewriting (p : Params) (base i E : Nat) (b : Prop) (s : State) : Prop where
  site : Site p base s
  neutral : Neutral p.desc E s
  awaited : b → Awaited p.desc (flagsAt p base i) E (slotStore p base i s)

/-- A neutral write keeps what is pending neutral; that to the slot's own FLAGS word makes it awaited. -/
theorem memWrite_rewriting (hi : i < p.nTx) {E : Nat} {b : Prop} (j : Nat) (w : DescWord) :
    Ensures (Rewriting p base i E b) (memWrite .tx j w 0)
      (fun _ => Rewriting p base i E (b ∨ j = i ∧ w = .flags)) anyEnd := by
  intro s hs h
  have hn : (interleave s).fault = none := (hostSide_fault (interleave_hostSide s)).trans hs
  have hany : Stable noWrite p base i fun _ => True := fun _ _ _ _ => trivial
  have hsite : Site p base (interleave s) := (interleave_kept (at_closed hany hi).calm_of_host s ⟨h.site, trivial⟩).site
  have hd := hsite.descValid
  rcases memWrite_cases .tx j w 0 s with ⟨e, he⟩ | he | ⟨c, hc, hj, ha, he⟩ <;> rw [he]
  · trivial
  · exact ⟨trivial, Option.some_ne_none _⟩
  · have hbase : c = base := Option.some.inj (hc.symm.trans hsite.base)
    subst hbase
    have hstep : CalmStep anyWrite (interleave s) _ := .write (v := 0) trivial hc hj ha
    have hsite' := (HostStep.ring (.calm hstep)).site hsite
    have hneutral : Neutral p.desc E (pushWrite (descWordAddr (interleave s).params.desc c j w) 0 (interleave s)) := by
      refine ⟨h.neutral.interleave.epoch, fun e hm => ?_⟩
      rcases List.mem_append.mp hm with hm | hm
      · exact h.neutral.interleave.pending e hm
      · rw [List.mem_singleton.mp hm]
        exact ⟨h.neutral.interleave.epoch, owned_zero hd⟩
    refine ⟨⟨hsite', hneutral, fun hb => hneutral.awaited.mpr fun ho => ?_⟩, hn⟩
    rcases hb with hb | ⟨rfl, rfl⟩
    · have haw := (interleave_kept (at_closed (stable_awaited noWrite_toFlags E) hi).calm_of_host s ⟨h.site, h.awaited hb⟩).holds
      obtain ⟨e, hm, hea⟩ := haw.waits ho
      exact ⟨e, List.mem_append_left _ hm, hea⟩
    · exact ⟨_, List.mem_append_right _ (List.mem_singleton.mpr rfl), by rw [hsite.params]; rfl⟩

theorem neutralSlots_rewriting (hi : i < p.nTx) {E : Nat} :
    Ensures (Rewriting p base i E False) (forRange (neutralSlot .tx) p.nTx 0) (fun _ => Rewriting p base i E True) anyEnd := by
  have himp : ∀ {b b' : Prop} {s : State}, (b' → b) → Rewriting p base i E b s → Rewriting p base i E b' s := fun hb h =>
    ⟨h.site, h.neutral, fun hb' => h.awaited (hb hb')⟩
  refine ((Ensures.forRange (I := fun j => Rewriting p base i E (i < j)) (k := p.nTx) (fun j _ => ?_) p.nTx 0 (Nat.zero_add _)).before
    fun s h => himp (Nat.not_lt_zero i) h).after fun _ s h => himp (fun _ => hi) h
  refine Ensures.bind (memWrite_rewriting hi j .addr) fun _ => (memWrite_rewriting hi j .flags).after fun _ s h => himp (fun hij => ?_) h
  rcases Nat.lt_succ_iff_lt_or_eq.mp hij with hlt | rfl
  · exact .inl (.inl hlt)
  · exact .inr ⟨rfl, rfl⟩

/-- The slot is to become the host's with a neutral write that is the oldest pending. -/
def Returning (p : Params) (base i : Nat) (x : Store) : Prop := ∃ E, Awaited p.desc (flagsAt p base i) E x

theorem stable_returning {A : Writes} (hA : ∀ v, ¬ A.toFlags i v) : Stable A p base i (Returning p base i) :=
  fun x y hs ⟨E, h⟩ => ⟨E, stable_awaited hA E x y hs h⟩

/-- Ring programs that write no descriptor leave nothing pending where nothing was. -/
theorem noPending_closed : Closed (RingStep noWrite) fun s t => s.wb = [] → t.wb = [] where
  refl _ h := h
  trans h h' x := h' (h x)
  step hst h := by
    cases hst with
    | calm hst =>
      cases hst with
      | agent ht => exact List.sublist_nil.mp (h ▸ agentStep_wb ht)
      | register reg v => exact regEffect_wb reg v _
      | write hA => exact hA.elim
      | _ => exact h
    | cursorsZeroed r => cases r <;> exact h
    | _ => exact h

/-- The reset of the transmit ring, with nothing pending: every slot is awaited (R134). -/
theorem ringResetTx_slot (hi : i < p.nTx) :
    Ensures (fun s => Site p base s ∧ s.wb = []) (ringReset .tx) (fun _ => At p base i (Returning p base i)) anyEnd := by
  have hany : Stable noWrite p base i fun _ => True := fun _ _ _ _ => trivial
  have hsite := at_closed hany hi
  refine Ensures.read fun u hu => Ensures.ite (fun _ => Ensures.raise fun _ _ => trivial) fun _ => ?_
  have hcap : capacity u.params .tx = p.nTx := by rw [hu.1.params]; rfl
  rw [hcap]
  refine Ensures.bind (Q := fun _ s => Site p base s ∧ s.wb = []) ?_ fun _ =>
    Ensures.bind (Q := fun _ => At p base i (Returning p base i)) (fun s hs h => ?_) fun _ => ?_
  · refine (((Follows.forRange hsite.ring_of_host (releaseSlot_follows hsite.ring_of_host .tx) p.nTx 0).keeps.and
      (Follows.forRange noPending_closed (releaseSlot_follows noPending_closed .tx) p.nTx 0).keeps).before fun s h => ?_).after
      fun _ s h => ⟨h.1.site, h.2⟩
    subst h
    exact ⟨⟨hu.1, trivial⟩, hu.2⟩
  · refine (neutralSlots_rewriting hi (E := s.epoch) s hs ⟨h.1, ⟨rfl, fun e he => ?_⟩, False.elim⟩).imp
      (fun _ t ht => ⟨ht.site, s.epoch, ht.awaited trivial⟩) fun _ _ => trivial
    rw [h.2] at he
    exact absurd he List.not_mem_nil
  · exact Ensures.update fun s h => (at_closed (stable_returning noWrite_toFlags) hi).ring_of_host.step (.cursorsZeroed .tx) h

theorem returning_rx (hi : i < p.nTx) :
    Closed (HostStep rxWrites) fun s t => At p base i (Returning p base i) s → At p base i (Returning p base i) t :=
  at_closed (stable_returning rxWrites_toFlags) hi

theorem returning_control (hi : i < p.nTx) :
    Closed (HostStep noWrite) fun s t => At p base i (Returning p base i) s → At p base i (Returning p base i) t :=
  at_closed (stable_returning noWrite_toFlags) hi

/-- Quiescing, masking and resetting both rings: every transmit slot is awaited (R332, R333, R262). -/
theorem quiesceAndReset_slot (hi : i < p.nTx) {m : M α} {Q : α → State → Prop}
    (hm : Ensures (At p base i (Returning p base i)) m Q anyEnd) :
    Ensures (Site p base) (do
      mmioWrite .txrxCtrl .quiesce
      mmioWrite .intMask .masked
      ringReset .tx
      ringReset .rx
      m) Q anyEnd := by
  have hany : Stable noWrite p base i fun _ => True := fun _ _ _ _ => trivial
  refine Ensures.bind ((mmioWrite_drains (by simp) _ hany hi).before fun s h => ⟨h, trivial⟩) fun _ =>
    Ensures.bind ((mmioWrite_drains (by simp) _ hany hi).before fun s h => h.1) fun _ =>
      Ensures.bind ((ringResetTx_slot hi).before fun s h => ⟨h.1.site, h.2⟩) fun _ =>
        Ensures.bind (ringReset_follows (returning_rx hi).ring_of_host fun _ _ => rfl).keeps fun _ => hm

/-! ### Reset and teardown (R330 to R344, R262) -/

theorem site_closed {A : Writes} : Closed (HostStep A) fun s t => Site p base s → Site p base t :=
  ⟨⟨fun _ h => h, fun h h' x => h' (h x)⟩, fun hst h => hst.site h⟩

/-- The slot is the host's, or is to become so. -/
def Back (p : Params) (base i : Nat) (x : Store) : Prop := Returning p base i x ∨ HostOwned p.desc (flagsAt p base i) x

theorem stable_back {A : Writes} (hA : ∀ v, ¬ A.toFlags i v) : Stable A p base i (Back p base i) := fun x y hs h =>
  h.imp (stable_returning hA x y hs) (stable_hostOwned hA x y hs)

theorem resetRelease_slot (hi : i < p.nTx) : Ensures (Site p base) resetRelease (fun _ => At p base i (Returning p base i)) anyEnd :=
  Ensures.bind (cancelTimer_follows (A := noWrite) site_closed.control_of_host).keeps fun _ =>
    Ensures.bind (updateLink_follows (A := noWrite) site_closed.control_of_host _).keeps fun _ =>
      quiesceAndReset_slot hi (setStopped_follows (returning_control hi).calm_of_host true).keeps

/-- The end of a reset (R340 to R342): the write that turns DMA on makes every slot the host's. -/
theorem resetRun_slot (hi : i < p.nTx) :
    Ensures (At p base i (Returning p base i)) resetRun (fun _ => At p base i (HostOwned p.desc (flagsAt p base i))) anyEnd := by
  have hown := at_closed (base := base) (stable_hostOwned noWrite_toFlags) hi
  refine Ensures.bind (Q := fun _ => At p base i (HostOwned p.desc (flagsAt p base i)))
    ((mmioWrite_drains (by simp) _ (stable_returning noWrite_toFlags) hi).after fun _ s h => ⟨h.1.site, ?_⟩) fun _ => ?_
  · obtain ⟨E, hE⟩ := h.1.holds
    exact hE.empty h.2
  · exact Ensures.bind (mmioWrite_follows hown.calm_of_host (by simp) _).keeps fun _ =>
      Ensures.bind (setStopped_follows hown.calm_of_host false).keeps fun _ =>
        Ensures.bind (emit_follows hown.calm_of_host _).keeps fun _ => Ensures.bind (setAdapter_follows hown _).keeps fun _ =>
          (restartNegotiation_follows hown.control_of_host).keeps

/-- What a reset has made of a slot, by its outcome. -/
def Reset (p : Params) (base i : Nat) (o : OpOutcome) (s : State) : Prop :=
  At p base i (Back p base i) s ∧ (o = .ok → At p base i (HostOwned p.desc (flagsAt p base i)) s)

theorem resetFinish_slot (hi : i < p.nTx) (filled : Bool) :
    Ensures (At p base i (Returning p base i)) (resetFinish filled) (Reset p base i) anyEnd := by
  have hfail : ∀ o : OpOutcome, o ≠ .ok → ∀ s, At p base i (Returning p base i) s → Reset p base i o s := fun o ho s h =>
    ⟨h.imp fun _ => .inl, fun h' => absurd h' ho⟩
  have hret := returning_control (base := base) hi
  refine Ensures.ite (fun _ => ?_) fun _ => ?_
  · refine Ensures.bind (drawTcvrKnown_follows hret.calm_of_host).keeps fun known => Ensures.ite (fun _ => ?_) fun _ => ?_
    · rw [resetStart_eq]
      refine Ensures.bind (Ensures.bind (resetMac_follows hret.control_of_host.commit_of_control).keeps fun _ => resetRun_slot hi)
        fun _ => Ensures.pure fun s h => ⟨h.imp fun _ => .inr, fun _ => h⟩
    · exact Ensures.bind (emit_follows hret.calm_of_host _).keeps fun _ => Ensures.bind (notReady_follows hret).keeps fun _ =>
        Ensures.pure fun s h => hfail .linkTypeUnknown nofun s h
  · exact Ensures.bind (ringReset_follows (returning_rx hi).ring_of_host fun _ _ => rfl).keeps fun _ =>
      Ensures.bind (emit_follows hret.calm_of_host _).keeps fun _ => Ensures.bind (notReady_follows hret).keeps fun _ =>
        Ensures.pure fun s h => hfail .resourceExhausted nofun s h

theorem resetInit_slot (hi : i < p.nTx) (ctx : Context) : Ensures (Site p base) (resetInit ctx) (Reset p base i) anyEnd := by
  rw [resetInit_eq]
  exact Ensures.bind (resetRelease_slot hi) fun _ => Ensures.read fun u hu =>
    Ensures.bind ((refill_follows (returning_rx hi).ring_of_host (fun _ _ _ => rfl) _ _ _).keeps.before fun s h => h ▸ hu) fun filled =>
      resetFinish_slot hi filled

theorem teardown_slot (hi : i < p.nTx) : Ensures (Site p base) teardown (fun _ => At p base i (Returning p base i)) anyEnd := by
  have hret := returning_control (base := base) hi
  exact Ensures.bind (cancelTimer_follows (A := noWrite) site_closed.control_of_host).keeps fun _ => quiesceAndReset_slot hi
    (Ensures.bind (setStopped_follows hret.calm_of_host true).keeps fun _ =>
      Ensures.bind (updateLink_follows hret.control_of_host _).keeps fun _ =>
        Ensures.bind (setAcquired_follows hret.control_of_host false).keeps fun _ =>
          Ensures.bind (emit_follows hret.calm_of_host _).keeps fun _ => (setAdapter_follows hret _).keeps)

/-! ### The wait (R55 item 3) -/

theorem outstanding_iff {s : State} (hs : s.params = p) (hi : i < p.nTx) : outstanding s i = true ↔ (book s).InUse i :=
  have hlt : i < s.params.nTx := hs ▸ hi
  ⟨fun h => ⟨hlt, of_decide_eq_true h⟩, fun h => decide_eq_true h.2⟩

theorem back_closed (hi : i < p.nTx) :
    Closed (HostStep noWrite) fun s t => At p base i (Back p base i) s → At p base i (Back p base i) t :=
  at_closed (stable_back noWrite_toFlags) hi

/-- A relation that agent steps keep, the show of a slot keeps. -/
theorem showFreeSlot_kept {R : State → State → Prop} (hR : Closed (HostStep noWrite) R) (j : Nat) (s : State) :
    R s (showFreeSlot base j s) := by
  rcases showFreeSlot_cases base j s with h | h
  · rw [h]
    exact hR.refl s
  · exact hR.calm_of_host.step (.agent (a := .envVisible _) h)

/-- The show of a free slot makes it the host's: the write that is awaited may become visible, being the oldest pending (R64). -/
theorem showFreeSlot_hostOwned (hi : i < p.nTx) {s : State} (h : At p base i (Back p base i) s) (ho : ¬ (book s).InUse i) :
    At p base i (HostOwned p.desc (flagsAt p base i)) (showFreeSlot base i s) := by
  have hown := at_closed (base := base) (A := noWrite) (stable_hostOwned noWrite_toFlags) hi
  rcases h.holds with ⟨E, hE⟩ | hh
  · have hsite := h.site
    have hfree : outstanding s i = false := by
      rw [← Bool.not_eq_true, outstanding_iff hsite.params hi]
      exact ho
    have hdev : deviceOwns s base i = owned p.desc (slotStore p base i s).word := by
      rw [← hsite.params]
      rfl
    cases hd : deviceOwns s base i with
    | false =>
      rw [showFreeSlot, hd, Bool.false_and, if_neg Bool.false_ne_true]
      exact ⟨hsite, hE.hostOwned (hdev.symm.trans hd)⟩
    | true =>
      obtain ⟨e, he⟩ := wbFirst_of_mem (hE.waits (hdev.symm.trans hd))
      obtain ⟨hmem, haddr⟩ := wbFirst_mem he
      obtain ⟨hclear, hepoch⟩ := hE.pending e hmem haddr
      have hleast : leastEpoch s.wb e.epoch = true := by
        simp only [leastEpoch, List.all_eq_true, decide_eq_true_eq, hepoch]
        exact hE.least
      have he' : wbFirst s.wb (flagsAt p base i) = some e := he
      have hshow : stepVisible (flagsAt p base i) s =
          some (writeVisible (flagsAt p base i) e.val { s with wb := wbDropFirst s.wb (flagsAt p base i) }) := by
        rw [stepVisible, he']
        simp only [hleast, if_true]
      have heq : showFreeSlot base i s =
          writeVisible (flagsAt p base i) e.val { s with wb := wbDropFirst s.wb (flagsAt p base i) } := by
        have hdesc : s.params.desc = p.desc := by rw [hsite.params]
        rw [showFreeSlot, hd, hfree, hdesc]
        simp only [Bool.not_false, Bool.and_self, if_true]
        rw [show descWordAddr p.desc base i .flags = flagsAt p base i from rfl, hshow, Option.getD_some]
      have hstep := (at_closed (A := noWrite) (stable_awaited noWrite_toFlags E) hi).calm_of_host.step
        (.agent (a := .envVisible _) hshow) ⟨hsite, hE⟩
      rw [heq]
      refine ⟨hstep.site, hstep.holds.hostOwned ?_⟩
      simp only [slotStore, storeAt, writeVisible_params, writeVisible_mem, readWord_writeWord_same]
      exact hclear
  · exact showFreeSlot_kept hown i s ⟨h.site, hh⟩

theorem showFreeSlots_hostOwned (hi : i < p.nTx) : ∀ n j (s : State), At p base i (Back p base i) s → ¬ (book s).InUse i →
    (i < j → At p base i (HostOwned p.desc (flagsAt p base i)) s) → i < j + n →
      At p base i (HostOwned p.desc (flagsAt p base i)) (showFreeSlots base n j s)
  | 0, _, _, _, _, hdone, hn => hdone hn
  | n + 1, j, s, h, ho, hdone, hn => by
    have hbook : book (showFreeSlot base j s) = book s := by
      rcases showFreeSlot_cases base j s with he | he
      · rw [he]
      · exact (calmFrame_of_hostSide (stepVisible_hostSide he)).book
    refine showFreeSlots_hostOwned hi n (j + 1) _ (showFreeSlot_kept (back_closed hi) j s h) (hbook ▸ ho) (fun hij => ?_) (by omega)
    rcases Nat.lt_succ_iff_lt_or_eq.mp hij with hlt | rfl
    · exact showFreeSlot_kept (at_closed (stable_hostOwned noWrite_toFlags) hi) j s (hdone hlt)
    · exact showFreeSlot_hostOwned hi h ho

/-- After the wait, a free slot is the host's. -/
theorem awaitFreeSlots_slot (hi : i < p.nTx) :
    Ensures (fun s => At p base i (Back p base i) s ∧ ¬ (book s).InUse i) awaitFreeSlots (fun _ => SlotSettled p base i) anyEnd := by
  refine Ensures.bind ((boundary_follows (back_closed hi).calm_of_host).keeps.and
    ((boundary_follows book_closed.calm_of_control).booked fun l => ¬ l.InUse i)) fun _ => ?_
  refine Ensures.update (fun s h => ?_) fun s => hostSide_fault (freeSlotsShown_hostSide s)
  have hbook : book (freeSlotsShown s) = book s := (calmFrame_of_hostSide (freeSlotsShown_hostSide s)).book
  have hshown : freeSlotsShown s = showFreeSlots base p.nTx 0 s := by
    simp only [freeSlotsShown, h.1.site.base, h.1.site.params]
  have hown : At p base i (HostOwned p.desc (flagsAt p base i)) (freeSlotsShown s) :=
    hshown ▸ showFreeSlots_hostOwned hi p.nTx 0 s h.1 h.2 (fun hn => absurd hn (Nat.not_lt_zero i)) (by omega)
  exact hown.imp fun x hx => ⟨fun hu => absurd (hbook ▸ hu) h.2, fun _ => hx⟩

/-! ### Every operation -/

theorem atRest_not_inUse {l : Ledger} {tracked : Prop} (h : AtRest tracked l) : ¬ l.InUse i := not_inUse_zero h.2.head h.2.tail i

/-- The books are settled, and so is transmit slot `i`. -/
def Owned (p : Params) (base i : Nat) (s : State) : Prop := (book s).Settled False ∧ SlotSettled p base i s

theorem owned_of_slot {m : M α} (hs : Keeps (fun s => (book s).Settled False) m)
    (h : Ensures (fun s => (book s).Sound False False ∧ SlotSettled p base i s) m (fun _ => SlotSettled p base i) anyEnd) :
    Keeps (Owned p base i) m :=
  (hs.and h).before fun _ h' => ⟨h'.1, h'.1.forget, h'.2⟩

theorem closing_slot (hi : i < p.nTx) :
    Ensures (fun s => (book s).Sound False False ∧ Site p base s) (do teardown; awaitFreeSlots) (fun _ => SlotSettled p base i) anyEnd :=
  Ensures.bind ((teardown_book (full := False) (tracked := False)).and (teardown_slot hi)) fun _ =>
    (awaitFreeSlots_slot hi).before fun _ h => ⟨h.2.imp fun _ => .inl, atRest_not_inUse h.1⟩

theorem reset_slot (hi : i < p.nTx) (ctx : Context) :
    Ensures (fun s => (book s).Sound False False ∧ Site p base s) (resetAndReturn ctx) (fun _ => SlotSettled p base i) anyEnd :=
  Ensures.bind ((resetInit_book (full := False) (tracked := False) ctx).and (resetInit_slot hi ctx)) fun _ =>
    (awaitFreeSlots_slot hi).before fun _ h => ⟨h.2.1, atRest_not_inUse h.1⟩

theorem openFinish_slot (hi : i < p.nTx) :
    Ensures (fun s => (book s).Sound False False ∧ Site p base s) openFinish (fun _ => SlotSettled p base i) anyEnd := by
  have hopen : openFinish = (do
      let o ← resetInit .process
      if o = .ok then pure .ok
      else do
        (do teardown; awaitFreeSlots)
        pure o) := by
    simp only [openFinish, bind_assoc]
  rw [hopen]
  refine Ensures.bind ((resetInit_book (full := False) (tracked := False) .process).and (resetInit_slot hi .process)) fun o =>
    Ensures.ite (fun ho => Ensures.pure fun s h => ?_) fun _ => ?_
  · exact (h.2.2 ho).imp fun x hx => ⟨fun hu => absurd hu (atRest_not_inUse h.1), fun _ => hx⟩
  · exact Ensures.bind ((closing_slot hi).before fun s h => ⟨h.1.1.forget, h.2.1.site⟩) fun _ => Ensures.pure fun _ h => h

/-- Every operation keeps a transmit slot settled, with the books. -/
theorem owned_lasting (hi : i < p.nTx) : Lasting (Owned p base i) where
  control :=
    ⟨⟨fun _ h => h, fun h h' x => h' (h x)⟩, fun {s t} hst h => by
      have hb : book t = book s := book_closed.step hst.any
      have hat := (at_closed (A := noWrite) (stable_held noWrite_toFlags ((book s).InUse i)) hi).step (.control hst) h.2
      exact ⟨show (book t).Settled False from hb ▸ h.1, hat.imp fun x hx => hx.congr (by rw [hb])⟩⟩
  reset ctx := owned_of_slot (settled_lasting.reset ctx) ((reset_slot hi ctx).before fun _ h => ⟨h.1, h.2.site⟩)
  opening := owned_of_slot settled_lasting.opening ((openFinish_slot hi).before fun _ h => ⟨h.1, h.2.site⟩)
  closing := owned_of_slot settled_lasting.closing ((closing_slot hi).before fun _ h => ⟨h.1, h.2.site⟩)
  walks a b := owned_of_slot (settled_lasting.walks a b) (irqWalks_slot hi a b)
  sending pkt := owned_of_slot (settled_lasting.sending pkt) (transmit_slot hi pkt)

end Slot

end Sys2Proof.Invariants
end

section
/-! PROOFS. Shadows, cursors, mappings and buffers stay consistent, and free transmit slots the host's (R55, R47, R46). -/

-- One theorem at a time: checked together they ask for more threads than the check allows.
set_option Elab.async false

namespace Sys2Proof.Invariants

open Sys2Proof.Machine Sys2Proof.Laws Ledger

/-! ### The books and the statement's terms -/

theorem mem_iff_mapGet {β : Type} {t : Table β} (h : mapWf t = true) (k : Nat) (v : β) : (k, v) ∈ t ↔ mapGet t k = some v := by
  induction t with
  | nil => simp [mapGet]
  | cons e t ih =>
    obtain ⟨k', v'⟩ := e
    simp only [mapWf, Bool.and_eq_true] at h
    simp only [mapGet, List.mem_cons, Prod.mk.injEq, ih h.2]
    by_cases hk : k = k'
    · subst hk
      simp only [true_and, if_true, mapGet_none_of_keysAbove h.1, reduceCtorEq, or_false, Option.some.injEq]
      exact eq_comm
    · simp [hk]

theorem mem_bufs_iff {t : Table RxEntry} (h : mapWf t = true) (b : Nat) :
    b ∈ t.map (·.2.buf) ↔ ∃ i e, mapGet t i = some e ∧ e.buf = b := by
  simp only [List.mem_map, Prod.exists, mem_iff_mapGet h]

/-- Two tables' worth of names agree once neither repeats one. -/
theorem perm_keys_iff {β : Type} {t : Table β} (h : mapWf t = true) (l : List Nat) :
    (keys t).Perm l ↔ l.Nodup ∧ ∀ k, k ∈ l ↔ mapHas t k = true := by
  constructor
  · intro hp
    exact ⟨hp.nodup_iff.mp (keys_nodup h), fun k => (hp.mem_iff.symm).trans (mapHas_iff_mem_keys t k).symm⟩
  · rintro ⟨hnd, hmem⟩
    exact (List.perm_ext_iff_of_nodup (keys_nodup h) hnd).mpr fun k => (mapHas_iff_mem_keys t k).symm.trans (hmem k).symm

/-- The canonical tables of a consistent state are books in order. -/
theorem settled_of_consistent {s : State} (hc : Canonical s) (h : ShadowsConsistent s) : (book s).Settled (BuffersHeld s) := by
  obtain ⟨-, htx, hrx, hbuf, hmaps, -⟩ := hc
  obtain ⟨⟨hhead, htail, hcur⟩, hslots, hrange, hposted, hnodup, hmem, hpkts⟩ := h
  refine
    { txWf := htx, rxWf := hrx, mapsWf := hmaps, buffersWf := hbuf
      range := hrange, posted := hposted, handles := ?_, buffers := ?_, packets := hpkts
      head := hhead, tail := htail, cursor := hcur, slots := fun i => (hslots i).trans ?_ }
  · exact (perm_keys_iff hmaps _).mpr ⟨hnodup, hmem⟩
  · rintro ⟨hnd, hheld⟩
    exact (perm_keys_iff hbuf _).mpr ⟨hnd, fun b => (mem_bufs_iff hrx b).trans (hheld b).symm⟩
  · exact ⟨fun ⟨hi, ho⟩ => (outstanding_iff rfl hi).mp ho, fun hu => ⟨hu.1, (outstanding_iff rfl hu.1).mpr hu⟩⟩

/-- Books in order are those of a consistent state. -/
theorem consistent_of_settled {s : State} {tracked : Prop} (h : (book s).Settled tracked) :
    ShadowsConsistent s ∧ (tracked → BuffersHeld s) := by
  obtain ⟨hnodup, hmem⟩ := (perm_keys_iff h.mapsWf _).mp h.handles
  refine ⟨⟨⟨h.head, h.tail, h.cursor⟩, fun i => (h.slots i).trans ?_, h.range, h.posted, hnodup, hmem, h.packets⟩, fun ht => ?_⟩
  · exact ⟨fun hu => ⟨hu.1, (outstanding_iff rfl hu.1).mpr hu⟩, fun ⟨hi, ho⟩ => (outstanding_iff rfl hi).mp ho⟩
  · obtain ⟨hnd, hheld⟩ := (perm_keys_iff h.buffersWf _).mp (h.buffers ht)
    exact ⟨hnd, fun b => (hheld b).symm.trans (mem_bufs_iff h.rxWf b)⟩

theorem Ledger.Settled.untracked {l : Ledger} {tracked : Prop} (h : l.Settled tracked) : l.Settled False :=
  have hs : l.Sound (l.adapter = .running) tracked := h
  show l.Sound (l.adapter = .running) False from { hs with buffers := False.elim }

theorem Site.same {p : Params} {base : Nat} {s t : State} (h : Site p base s) (hp : t.params = s.params) (htx : t.tx = s.tx)
    (hrx : t.rx = s.rx) (hw : t.wb = s.wb) (he : t.epoch = s.epoch) : Site p base t where
  valid := hp ▸ h.valid
  cursors := by rw [CursorsInRange, hp, htx, hrx]; exact h.cursors
  laidOut := by rw [LaidOut, hp, htx, hrx]; exact h.laidOut
  ordered := by rw [WritesOrdered, hw, he]; exact h.ordered
  params := hp.trans h.params
  base := htx ▸ h.base

/-- What item 3 and its companion say of one slot. -/
theorem slotSettled_of_owned {s : State} (hg : Geometry s) {base i : Nat} (hb : s.tx.base = some base) (hi : i < s.params.nTx)
    (hfree : FreeSlotsHostOwned s) (hset : TxWritesSettled s) : SlotSettled s.params base i s := by
  refine ⟨{ hg with params := rfl, base := hb }, fun hu e he ha => ?_, fun hu => ?_⟩
  · have ho := (hset base i hb hi e he ha).1
    rw [(outstanding_iff rfl hi).mpr hu] at ho
    cases ho
  · have ho : outstanding s i = false := by
      rw [← Bool.not_eq_true, outstanding_iff rfl hi]
      exact hu
    exact ⟨(hfree base i hb hi ho).1, fun e he ha => (hset base i hb hi e he ha).2⟩

/-- A free slot that is settled is the host's in both views of memory. -/
theorem SlotSettled.free {p : Params} {base i : Nat} {s : State} (h : SlotSettled p base i s) (hi : i < p.nTx)
    (ho : outstanding s i = false) : deviceOwns s base i = false ∧ hostSeesOwned s base i = false := by
  have hu : ¬ (book s).InUse i := by
    rw [← outstanding_iff h.site.params hi, ho]
    exact Bool.false_ne_true
  obtain ⟨hword, hpend⟩ := h.holds.2 hu
  have hp := h.site.params
  subst hp
  refine ⟨hword, ?_⟩
  simp only [hostSeesOwned, hostView]
  cases hl : wbLast s.wb (descWordAddr s.params.desc base i .flags) with
  | none => exact hword
  | some v =>
    obtain ⟨e, he, ha, rfl⟩ := wbLast_mem hl
    exact hpend e he ha

theorem SlotSettled.pending {p : Params} {base i : Nat} {s : State} (h : SlotSettled p base i s) (hi : i < p.nTx) {w : WbEntry}
    (hw : w ∈ s.wb) (ha : w.addr = flagsAt p base i) : outstanding s i = false ∧ owned p.desc w.val = false := by
  have hu : ¬ (book s).InUse i := fun hu => h.holds.1 hu w hw ha
  refine ⟨?_, (h.holds.2 hu).pending w hw ha⟩
  rw [← Bool.not_eq_true, outstanding_iff h.site.params hi]
  exact hu

/-! ### Every operation -/

/-- A relation that every micro-step but those of creation keeps, as what every operation keeps. -/
theorem lasting_of_closed {P : State → Prop} (h : Closed (HostStep anyWrite) fun s t => P s → P t) : Lasting P where
  control := h.control_of_host.mono fun _ _ hst => hst.any
  reset ctx := (resetAndReturn_follows h ctx).keeps
  opening := (Follows.bind h (resetInit_follows h _) fun _ => Follows.ite (Follows.pure h _)
    (Follows.bind h (teardown_follows h) fun _ => Follows.bind h (awaitFreeSlots_follows h.calm_of_host) fun _ => Follows.pure h _)).keeps
  closing := (Follows.bind h (teardown_follows h) fun _ => awaitFreeSlots_follows h.calm_of_host).keeps
  walks a b := (irqWalks_follows h.ring_of_host (fun _ _ _ => trivial) a b).keeps
  sending pkt := (transmit_follows h.ring_of_host (fun _ _ _ => trivial) pkt).keeps

/-- Where the transmit ring of a block lies, and its parameters. -/
def Placed (p : Params) (b : Option Nat) (s : State) : Prop := s.params = p ∧ s.tx.base = b

theorem placed_lasting (p : Params) (b : Option Nat) : Lasting (Placed p b) :=
  lasting_of_closed ⟨⟨fun _ h => h, fun h h' x => h' (h x)⟩, fun hst h =>
    ⟨hst.frame.params.trans h.1, hst.frame.txBase.trans h.2⟩⟩

/-- Settles O55: the books are kept in order by every program that works on the rings, and each transmit slot is the host's or is free
of pending writes; a reset drains what is pending before it rewrites the slots, so that its own writes are the oldest. -/
theorem operationsKeepTheShadowsConsistent : Obligations.OperationsKeepTheShadowsConsistent := by
  intro i s t hclass hvalid hcanon hsh he ht
  have hset := settled_of_consistent hcanon hsh
  have hkept := consistent_of_settled
    (settled_lasting.exec (P := fun s' => (book s').Settled (BuffersHeld s)) (fun _ _ h => h) (fun _ _ h => h) hclass he ht hset)
  refine ⟨hkept.1, fun hl hw hfree hwrites => ?_, hkept.2⟩
  obtain ⟨hp, hbase⟩ := (placed_lasting s.params s.tx.base).exec (fun _ _ h => h) (fun _ _ h => h) hclass he ht ⟨rfl, rfl⟩
  have hg : Geometry s := ⟨hvalid, hsh.1, hl, hw⟩
  have hslot : ∀ base j, t.tx.base = some base → j < t.params.nTx → SlotSettled t.params base j t := by
    intro base j hb hj
    rw [hp] at hj ⊢
    have hown : Owned s.params base j s := ⟨hset.untracked, slotSettled_of_owned hg (hbase ▸ hb) hj hfree hwrites⟩
    exact ((owned_lasting hj).exec (fun ctx s' h => ⟨h.1, h.2.site.same rfl rfl rfl rfl rfl, h.2.holds⟩)
      (fun o s' h => ⟨h.1, h.2.site.same rfl rfl rfl rfl rfl, h.2.holds⟩) hclass he ht hown).2
  exact ⟨fun base j hb hj ho => (hslot base j hb hj).free hj ho, fun base j hb hj w hmem ha => (hslot base j hb hj).pending hj hmem ha⟩

end Sys2Proof.Invariants
end

section
/-! PROOFS. The visibility step: which pending write reaches memory, and when the step is refused (R64, R280). -/

namespace Sys2Proof.Visibility

open Sys2Proof.Machine Sys2Proof.Laws

/-! ### The earliest pending write to an address -/

section Pending

variable {pre post : List WbEntry} {e : WbEntry}

theorem wbFirst_split (h : ∀ w ∈ pre, w.addr ≠ e.addr) : wbFirst (pre ++ e :: post) e.addr = some e := by
  induction pre with
  | nil => exact if_pos rfl
  | cons x pre ih =>
    obtain ⟨hx, hpre⟩ := List.forall_mem_cons.mp h
    exact (if_neg hx).trans (ih hpre)

theorem wbDropFirst_split (h : ∀ w ∈ pre, w.addr ≠ e.addr) : wbDropFirst (pre ++ e :: post) e.addr = pre ++ post := by
  induction pre with
  | nil => exact if_pos rfl
  | cons x pre ih =>
    obtain ⟨hx, hpre⟩ := List.forall_mem_cons.mp h
    exact (if_neg hx).trans (congrArg (x :: ·) (ih hpre))

end Pending

theorem wbFirst_eq_none {l : List WbEntry} {a : Nat} (h : ∀ w ∈ l, w.addr ≠ a) : wbFirst l a = none := by
  refine Option.eq_none_iff_forall_not_mem.mpr fun e he => ?_
  obtain ⟨hmem, haddr⟩ := wbFirst_mem he
  exact h e hmem haddr

theorem leastEpoch_iff {l : List WbEntry} {m : Nat} : leastEpoch l m = true ↔ ∀ w ∈ l, m ≤ w.epoch := by
  simp only [leastEpoch, List.all_eq_true, decide_eq_true_eq]

/-! ### The step -/

section Step

variable {s : State} {a : Nat}

theorem stepVisible_of_none (h : wbFirst s.wb a = none) : stepVisible a s = none := by
  rw [stepVisible, h]

theorem stepVisible_of_first {e : WbEntry} (h : wbFirst s.wb a = some e) :
    stepVisible a s =
      if leastEpoch s.wb e.epoch then some (writeVisible a e.val { s with wb := wbDropFirst s.wb a }) else none := by
  rw [stepVisible, h]

theorem exec_envVisible_of_some {t : State} (hs : Alive s) (h : stepVisible a s = some t) :
    exec (.envVisible a) s = .next t := by
  have hstep : agentStep (.envVisible a) s = some t := h
  exact (agentOp_running hs _).trans (by rw [hstep])

theorem exec_envVisible_of_none (hs : Alive s) (h : stepVisible a s = none) :
    exec (.envVisible a) s = .refused .agentNotEnabled := by
  have hstep : agentStep (.envVisible a) s = none := h
  exact (agentOp_running hs _).trans (by rw [hstep])

end Step

/-- Settles O8: the step looks up the earliest pending write to the address, and the test of its epoch decides. -/
theorem visibilityStep : Obligations.VisibilityStep := by
  refine ⟨fun s pre post e hs hwb hpre hleast => ?enabled, fun s a hs hnone => ?noWrite,
    fun s pre post e w hs hwb hpre hw hlt => ?laterEpoch⟩
  case enabled =>
    have hfirst : wbFirst s.wb e.addr = some e := hwb ▸ wbFirst_split hpre
    have hdrop : wbDropFirst s.wb e.addr = pre ++ post := hwb ▸ wbDropFirst_split hpre
    have hstep := (stepVisible_of_first hfirst).trans (if_pos (leastEpoch_iff.mpr hleast))
    rw [hdrop] at hstep
    exact exec_envVisible_of_some hs hstep
  case noWrite => exact exec_envVisible_of_none hs (stepVisible_of_none (wbFirst_eq_none hnone))
  case laterEpoch =>
    have hfirst : wbFirst s.wb e.addr = some e := hwb ▸ wbFirst_split hpre
    have hnot : ¬ leastEpoch s.wb e.epoch = true := fun h => Nat.not_lt.mpr (leastEpoch_iff.mp h w hw) hlt
    exact exec_envVisible_of_none hs ((stepVisible_of_first hfirst).trans (if_neg hnot))

end Sys2Proof.Visibility
end

section
/-! PROOFS. Records: an instruction decodes from its own record, and every code of the map, and no other, spells an operation
(R120, R123). -/

namespace Sys2Proof.Encoding

open Sys2Proof.Laws

/-! ### Operand words

Each operand is read back from the word that its value is written to. -/

section Words

variable {α : Type} {n : Nat}

theorem fits32_iff : fits32 n = true ↔ n < 2 ^ 32 := by simp only [fits32, decide_eq_true_eq]

theorem fits64_iff : fits64 n = true ↔ n < 2 ^ 64 := by simp only [fits64, decide_eq_true_eq]

@[simp] theorem fits32_toNat (v : Word32) : fits32 v.toNat = true := fits32_iff.mpr v.isLt

theorem wordAt_putWord (hn : fits32 n = true) (rest : List Byte) : wordAt (putWord n ++ rest) = n := by
  have hlt := fits32_iff.mp hn
  simp only [wordAt, putWord, List.cons_append, List.getD_cons_zero, List.getD_cons_succ, BitVec.toNat_ofNat]
  omega

@[simp] theorem withWord_putWord (hn : fits32 n = true) (rest : List Byte) (k : Nat → List Byte → α) :
    withWord (putWord n ++ rest) k = k n rest :=
  congrArg (k · rest) (wordAt_putWord hn rest)

variable (rest : List Byte)

@[simp] theorem withBool_boolWord (b : Bool) (k : Bool → List Byte → α) :
    withBool (putWord (boolWord b) ++ rest) k = k b rest := by
  cases b <;> exact withWord_putWord (by decide) ..

@[simp] theorem withRing_ringWord (r : Ring) (k : Ring → List Byte → α) :
    withRing (putWord (ringWord r) ++ rest) k = k r rest := by
  cases r with
  | tx => exact withBool_boolWord rest false _
  | rx => exact withBool_boolWord rest true _

@[simp] theorem withContext_contextWord (c : Context) (k : Context → List Byte → α) :
    withContext (putWord (contextWord c) ++ rest) k = k c rest := by
  cases c <;> exact withWord_putWord (by decide) ..

@[simp] theorem withMode_modeWord (m : Mode) (k : Mode → List Byte → α) :
    withMode (putWord (modeWord m) ++ rest) k = k m rest := by
  obtain ⟨_ | _, _ | _⟩ := m <;> exact withWord_putWord (by decide) ..

@[simp] theorem withPerm_val (p : Fin 4) (k : Fin 4 → List Byte → α) : withPerm (putWord p.val ++ rest) k = k p rest :=
  (withWord_putWord (fits32_iff.mpr (by omega)) ..).trans (congrArg (k · rest) (Fin.ofNat_val_eq_self p))

@[simp] theorem withAutoneg_autonegWord (an : AutonegArg) (k : AutonegArg → List Byte → α) :
    withAutoneg (putWord (autonegWord an) ++ rest) k = k an rest := by
  cases an <;> exact withWord_putWord (by decide) ..

@[simp] theorem withDuplexArg_duplexArgWord (dx : DuplexArg) (k : DuplexArg → List Byte → α) :
    withDuplexArg (putWord (duplexArgWord dx) ++ rest) k = k dx rest := by
  cases dx <;> exact withWord_putWord (by decide) ..

/-! ### Operands of several words -/

@[simp] theorem withCs_csBytes {cs : CsRequest} (h : cs.wellFormed = true) (k : CsRequest → List Byte → α) :
    withCs (csBytes cs ++ rest) k = k cs rest := by
  cases cs with
  | none => exact withBool_boolWord rest false _
  | offsets start stuff =>
    obtain ⟨hstart, hstuff⟩ : fits32 start = true ∧ fits32 stuff = true := by simpa [CsRequest.wellFormed] using h
    simp only [csBytes, List.append_assoc]
    refine (withBool_boolWord _ true _).trans ?_
    simp [hstart, hstuff]

/-- The readers of lists stop where the record ends, and it has not ended where a word begins. -/
theorem withFrags_succ_putWord (m : Nat) (k : List Fragment → List Byte → α) :
    withFrags (n + 1) (putWord m ++ rest) k =
      withWord (putWord m ++ rest) fun buf r => withWord r fun len r' =>
        withFrags n r' fun fs r'' => k (⟨buf, len⟩ :: fs) r'' := rfl

theorem withFrags_fragsBytes {fs : List Fragment} (h : ∀ f ∈ fs, fits32 f.buf = true ∧ fits32 f.len = true)
    (k : List Fragment → List Byte → α) : withFrags fs.length (fragsBytes fs ++ rest) k = k fs rest := by
  induction fs generalizing k with
  | nil => rfl
  | cons f fs ih =>
    obtain ⟨⟨hbuf, hlen⟩, hfs⟩ := List.forall_mem_cons.mp h
    simp only [fragsBytes, List.append_assoc, List.length_cons, withFrags_succ_putWord]
    rw [withWord_putWord hbuf, withWord_putWord hlen, ih hfs]

theorem withAddresses_succ_putWord (m : Nat) (k : List Nat → List Byte → α) :
    withAddresses (n + 1) (putWord m ++ rest) k =
      withWord (putWord m ++ rest) fun lo r => withWord r fun hi r' =>
        withAddresses n r' fun as r'' => k ((lo + 2 ^ 32 * hi) :: as) r'' := rfl

theorem withAddresses_addressesBytes {as : List Nat} (h : ∀ a ∈ as, fits64 a = true)
    (k : List Nat → List Byte → α) : withAddresses as.length (addressesBytes as ++ rest) k = k as rest := by
  induction as generalizing k with
  | nil => rfl
  | cons a as ih =>
    obtain ⟨ha, has⟩ := List.forall_mem_cons.mp h
    have hlt := fits64_iff.mp ha
    have hlo : fits32 (a % 2 ^ 32) = true := fits32_iff.mpr (by omega)
    have hhi : fits32 (a / 2 ^ 32) = true := fits32_iff.mpr (by omega)
    simp only [addressesBytes, List.append_assoc, List.length_cons, withAddresses_succ_putWord]
    rw [withWord_putWord hlo, withWord_putWord hhi, ih has, Nat.mod_add_div]

end Words

/-! ### The round trip -/

theorem decode_encode_append (i : Instr) (rest : List Byte) :
    decode (encode i ++ rest) = decodeArgs i.code.toNat (encodeArgs i ++ rest) := rfl

/-- Settles O1: the code selects the reader of the instruction's own argument record, which reads each operand from its words. -/
theorem decodeEncodeRoundTrip : Obligations.DecodeEncodeRoundTrip := by
  intro i rest h
  rw [decode_encode_append]
  cases i with
  | ringNextFree | txReclaim | rxReclaim | irq | linkBegin | linkTick | openAdapter | closeAdapter | txTimeout
  | macDrained | timerFire | watchdogFire => rfl
  | ringReset | linkCommit | linkForce | resetInit | devStatus =>
    simp [Instr.code, encodeArgs, decodeArgs]
  | ringAlloc | ringPublish | ringTryReclaim | rxPost | rxRecycle | reconfigureLink | envVisible | devTxDone | devRxDone =>
    simp only [Instr.wellFormed, Bool.and_eq_true] at h
    simp [Instr.code, encodeArgs, decodeArgs, h]
  | transmit pkt =>
    obtain ⟨⟨hcount, hfrags⟩, hcs⟩ :
        (fits32 pkt.frags.length = true ∧ ∀ f ∈ pkt.frags, fits32 f.buf = true ∧ fits32 f.len = true) ∧
          pkt.cs.wellFormed = true := by
      simpa [Instr.wellFormed, Packet.wellFormed] using h
    simp [Instr.code, encodeArgs, decodeArgs, hcount, hcs, withFrags_fragsBytes _ hfrags]
  | setMcast req =>
    obtain ⟨hcount, haddresses⟩ :
        fits32 req.addresses.length = true ∧ ∀ a ∈ req.addresses, fits64 a = true := by
      simpa [Instr.wellFormed] using h
    simp [Instr.code, encodeArgs, decodeArgs, hcount, withAddresses_addressesBytes _ haddresses]

/-- Settles O2, by decoding each table word. -/
theorem tableWordsDecode : Obligations.TableWordsDecode :=
  ⟨rfl, rfl, rfl, rfl, rfl, rfl, rfl, rfl⟩

end Sys2Proof.Encoding
end

section
/-! PROOFS. Taking a command: which records a step refuses, and which it runs (R53, R120, R123, R124). -/

namespace Sys2Proof.Encoding

open Sys2Proof.Machine

/-! ### Codes -/

/-- The codes of the opcode map (R120). -/
def opcodes : List Byte :=
  [0x01#8, 0x02#8, 0x03#8, 0x04#8, 0x05#8, 0x10#8, 0x11#8, 0x20#8, 0x21#8, 0x22#8, 0x30#8, 0x40#8, 0x41#8, 0x42#8,
    0x43#8, 0x44#8, 0x50#8, 0x51#8, 0x52#8, 0x53#8, 0x54#8, 0x80#8, 0x81#8, 0x82#8, 0x83#8, 0x84#8, 0x85#8, 0x86#8]

theorem decodeArgs_unknown {n : Nat} (h : n ∉ opcodes.map BitVec.toNat) (bs : List Byte) :
    decodeArgs n bs = .error (.unknownCode (BitVec.ofNat 8 n)) := by
  unfold decodeArgs
  split
  case h_29 => rfl
  all_goals exact absurd (by decide) h

theorem decode_unknown {code : Byte} (h : code ∉ opcodes) (rest : List Byte) :
    decode (code :: rest) = .error (.unknownCode code) := by
  have hn : code.toNat ∉ opcodes.map BitVec.toNat := by
    rwa [List.mem_map_of_injective fun _ _ => BitVec.eq_of_toNat_eq]
  exact (decodeArgs_unknown hn rest).trans (by rw [BitVec.ofNat_toNat, BitVec.setWidth_eq])

/-! ### Codes of the map

Whatever follows such a code, an operation of that code is read: a reader goes on with some operand. -/

section Readers

variable {α : Type}

theorem withFrags_reads (n : Nat) (bs : List Byte) (k : List Fragment → List Byte → α) :
    ∃ fs rest, withFrags n bs k = k fs rest := by
  induction n generalizing bs k with
  | zero => exact ⟨_, _, rfl⟩
  | succ n ih =>
    cases bs with
    | nil => exact ⟨_, _, rfl⟩
    | cons b bs =>
      obtain ⟨fs, rest, h⟩ := ih _ fun fs rest => k (_ :: fs) rest
      exact ⟨_, _, h⟩

theorem withAddresses_reads (n : Nat) (bs : List Byte) (k : List Nat → List Byte → α) :
    ∃ as rest, withAddresses n bs k = k as rest := by
  induction n generalizing bs k with
  | zero => exact ⟨_, _, rfl⟩
  | succ n ih =>
    cases bs with
    | nil => exact ⟨_, _, rfl⟩
    | cons b bs =>
      obtain ⟨as, rest, h⟩ := ih _ fun as rest => k (_ :: as) rest
      exact ⟨_, _, h⟩

theorem withCs_reads (bs : List Byte) (k : CsRequest → List Byte → α) : ∃ cs rest, withCs bs k = k cs rest := by
  simp only [withCs, withBool, withWord]
  split <;> exact ⟨_, _, rfl⟩

end Readers

theorem decode_code (i : Instr) (rest : List Byte) :
    ∃ j bs, decode (i.code :: rest) = .ok (j, bs) ∧ j.opClass = i.opClass := by
  cases i with
  | transmit pkt =>
    obtain ⟨fs, b, hfs⟩ := withFrags_reads (wordAt rest) (rest.drop 4) fun fs b =>
      withCs b fun cs b => Except.ok (Instr.transmit ⟨fs, cs⟩, b)
    obtain ⟨cs, bs, hcs⟩ := withCs_reads b fun cs b => Except.ok (Instr.transmit ⟨fs, cs⟩, b)
    exact ⟨_, bs, hfs.trans hcs, rfl⟩
  | setMcast req =>
    obtain ⟨as, b, has⟩ := withAddresses_reads (wordAt rest) (rest.drop 4) fun as b =>
      withBool b fun p b => withBool b fun m b => Except.ok (Instr.setMcast ⟨as, ⟨p, m⟩⟩, b)
    exact ⟨_, _, has, rfl⟩
  | _ => exact ⟨_, _, rfl, rfl⟩

/-! ### The step of a state with a command waiting -/

section Step

variable {s : State} {c : Command} {q : List Command} {i : Instr} {bs : List Byte}

theorem step_waiting (hp : paramsValid s.params = true) (hq : s.queue = c :: q) : step s = take c { s with queue := q } := by
  have hdrop : dropFirst s = { s with queue := q } := by rw [dropFirst, hq, List.tail_cons]
  rw [step, hq, ← hdrop]
  exact if_pos hp

theorem take_undecoded {e : DecodeError} (h : decode c.bytes = .error e) : take c s = .refused (decodeRefusal e) := by
  rw [take, commandInstr, h]

theorem take_of_invokerProblem {r : Refusal} (h : decode c.bytes = .ok (i, bs)) (hr : invokerProblem c.invoker i = some r) :
    take c s = .refused r := by
  simp only [take, commandInstr, h, hr]

theorem take_of_entitled (h : decode c.bytes = .ok (i, bs)) (hc : c.invoker = rightfulInvoker i.opClass) :
    take c s = exec i s := by
  have hn : invokerProblem c.invoker i = none := if_pos hc
  simp only [take, commandInstr, h, hn]

theorem invokerProblem_caller_internal (h : i.opClass = .internal) :
    invokerProblem .caller i = some .internalCodeFromCaller := by
  rw [invokerProblem, h]
  rfl

end Step

/-- Settles O3: no reader has an unknown code, and the class of an operation is that of its code, whatever its operands. -/
theorem codesOutsideTheMapAreRefused : Obligations.CodesOutsideTheMapAreRefused := by
  refine ⟨fun s who code rest q hp hq hcode => ?unknown, fun s i rest q hp hi hq => ?internal⟩
  case unknown => exact (step_waiting hp hq).trans (take_undecoded (decode_unknown hcode rest))
  case internal =>
    obtain ⟨j, bs, hdec, hj⟩ := decode_code i rest
    exact (step_waiting hp hq).trans (take_of_invokerProblem hdec (invokerProblem_caller_internal (hj.trans hi)))

/-- Settles O4: the record decodes to the instruction (O1), and its invoker is the one entitled to it. -/
theorem stepRunsDecoded : Obligations.StepRunsDecoded := fun _ _ i rest _ hp hwf hwho hq =>
  (step_waiting hp hq).trans (take_of_entitled (decodeEncodeRoundTrip i rest hwf) hwho)

end Sys2Proof.Encoding
end

section
/-! PROOFS. Parameters: what the construction checks say of them and of their formats (R12, R99). -/

namespace Sys2Proof.Encoding

open Sys2Proof.Machine

/-! ### Well-formed formats (R99) -/

/-- The field lies within bits 31:0. -/
def Fits (f : Field) : Prop := f.lo + f.w ≤ 32

/-- The bit is none of the field's. -/
def Outside (f : Field) (b : Nat) : Prop := b < f.lo ∨ f.lo + f.w ≤ b

/-- Two fields share no bit. -/
def Apart (f g : Field) : Prop := f.w = 0 ∨ g.w = 0 ∨ f.lo + f.w ≤ g.lo ∨ g.lo + g.w ≤ f.lo

/-- The fields of a format lie within the word and share no bit. -/
structure Format (fs : List Field) : Prop where
  fits : ∀ f ∈ fs, Fits f
  apart : fs.Pairwise Apart

theorem not_outside {f : Field} {b : Nat} (hlo : f.lo ≤ b) (hhi : b < f.lo + f.w) : ¬ Outside f b :=
  not_or.mpr ⟨Nat.not_lt.mpr hlo, Nat.not_le.mpr hhi⟩

theorem outside_bitField {n b : Nat} (h : b ≠ n) : Outside (bitField n) b := h.lt_or_gt

theorem Apart.symm {f g : Field} (h : Apart f g) : Apart g f := by
  unfold Apart at *
  omega

theorem Apart.outside {f g : Field} (h : Apart f g) {b : Nat} (hb : ¬ Outside f b) : Outside g b := by
  unfold Apart Outside at *
  omega

theorem disjointFields_iff {f g : Field} : disjointFields f g = true ↔ Apart f g := by
  simp only [disjointFields, Apart, Bool.or_eq_true, decide_eq_true_eq, or_assoc]

theorem format_nil : Format [] := ⟨nofun, .nil⟩

theorem format_cons {f : Field} {fs : List Field} : Format (f :: fs) ↔ (Fits f ∧ ∀ g ∈ fs, Apart f g) ∧ Format fs := by
  constructor
  · rintro ⟨hfits, hapart⟩
    obtain ⟨hf, hfs⟩ := List.forall_mem_cons.mp hfits
    obtain ⟨ha, has⟩ := List.pairwise_cons.mp hapart
    exact ⟨⟨hf, ha⟩, hfs, has⟩
  · rintro ⟨⟨hf, ha⟩, hfs, has⟩
    exact ⟨List.forall_mem_cons.mpr ⟨hf, hfs⟩, List.pairwise_cons.mpr ⟨ha, has⟩⟩

theorem Format.sublist {fs gs : List Field} (h : Format fs) (hs : gs.Sublist fs) : Format gs :=
  ⟨fun f hf => h.fits f (hs.subset hf), h.apart.sublist hs⟩

theorem fieldsDisjoint_iff {fs : List Field} : fieldsDisjoint fs = true ↔ Format fs := by
  induction fs with
  | nil => exact iff_of_true rfl format_nil
  | cons f fs ih =>
    simp only [fieldsDisjoint, Bool.and_eq_true, decide_eq_true_eq, List.all_eq_true, disjointFields_iff, ih, format_cons,
      Fits]

theorem descValid_iff {d : DescProfile} : descValid d = true ↔
    (d.flagsOffset = 0 ∧ d.addrOffset = 4 ∨ d.flagsOffset = 4 ∧ d.addrOffset = 0) ∧ d.addrBits ≤ 32 ∧
      Format (txFields d) ∧ Format (rxFields d) := by
  simp only [descValid, fieldsDisjoint_iff, Bool.and_eq_true, Bool.or_eq_true, beq_iff_eq, decide_eq_true_eq, and_assoc]

/-! ### The construction checks (R12) -/

theorem isPow2_iff {n : Nat} : isPow2 n = true ↔ ∃ k, n = 2 ^ k := by
  rw [isPow2, Bool.and_eq_true, decide_eq_true_eq, beq_iff_eq, Nat.pos_iff_ne_zero]
  exact Nat.ne_zero_and_sub_one_eq_zero_iff_isPowerOfTwo

theorem statusValid_iff {m : StatusProfile} : statusValid m = true ↔
    m.fatalMask ≠ 0 ∧ m.txDoneMask ≠ 0 ∧ m.rxDoneMask ≠ 0 ∧ m.fatalMask &&& m.txDoneMask = 0 ∧
      m.fatalMask &&& m.rxDoneMask = 0 ∧ m.txDoneMask &&& m.rxDoneMask = 0 := by
  simp only [statusValid, Bool.and_eq_true, bne_iff_ne, beq_iff_eq, and_assoc]

theorem paramsValid_iff {p : Params} : paramsValid p = true ↔
    (∃ k, p.nTx = 2 ^ k) ∧ 2 ≤ p.nTx ∧ (∃ k, p.nRx = 2 ^ k) ∧ 2 ≤ p.nRx ∧ 1 ≤ p.kMax ∧ p.rxMinFrame ≤ p.rxBufSize ∧
      p.rxBufSize ≤ fieldMax p.desc.rxSize ∧ 1 ≤ p.anRestartPollBudget ∧ 1 ≤ p.macDrainPollBudget ∧ p.advertised ≠ [] ∧
      descValid p.desc = true ∧ statusValid p.status = true ∧ 1 ≤ p.mgmt.width ∧ p.mgmt.width ≤ 32 ∧
      p.mac.txEnable ≠ p.mac.fullDuplex ∧ p.mac.txEnable < 32 ∧ p.mac.fullDuplex < 32 := by
  simp only [paramsValid, isPow2_iff, Bool.and_eq_true, decide_eq_true_eq, Bool.not_eq_true', List.isEmpty_eq_false_iff,
    bne_iff_ne, and_assoc]

theorem step_of_invalid {s : State} (h : ¬ paramsValid s.params = true) : step s = .refused .badParameters := by
  rw [step]
  split <;> exact if_neg h

/-- Settles O5: every step, with or without a command waiting, is admitted only with valid parameters. -/
theorem badParametersAreRefused : Obligations.BadParametersAreRefused := by
  intro s hstep
  have hp : paramsValid s.params = true := by_contra fun h => hstep (step_of_invalid h)
  obtain ⟨hnTx, hnTx2, hnRx, hnRx2, hkMax, hmin, hmax, hrestart, hdrain, hadvertised, hdesc, hstatus, -⟩ :=
    paramsValid_iff.mp hp
  obtain ⟨-, haddr, htx, hrx⟩ := descValid_iff.mp hdesc
  obtain ⟨-, -, -, hfatalTx, hfatalRx, htxRx⟩ := statusValid_iff.mp hstatus
  exact ⟨hnTx, hnTx2, hnRx, hnRx2, hkMax, hmin, hmax, hfatalTx, hfatalRx, htxRx, hrestart, hdrain, hadvertised, haddr,
    htx.apart, hrx.apart, List.forall_mem_append.mpr ⟨htx.fits, hrx.fits⟩⟩

end Sys2Proof.Encoding
end

section
/-! PROOFS. The FLAGS words: every field of a format reads back, and the other bits are 0 or as they were (R98 to R103, R282). -/

namespace Sys2Proof.Encoding

open Sys2Proof.Machine Sys2Proof.Laws

/-! ### Reading a field after an update (R98) -/

section Fields

variable {f g : Field} {x y : Word32} {v b : Nat}

theorem getLsbD_putField_outside (hf : Fits f) (hb : Outside f b) : (putField f x v).getLsbD b = x.getLsbD b := by
  rw [getLsbD_putField f x v b hf]
  exact if_neg (by unfold Outside at hb; omega)

theorem getLsbD_putField_inside (hf : Fits f) (hb : ¬ Outside f b) :
    (putField f x v).getLsbD b = v.testBit (b - f.lo) := by
  rw [getLsbD_putField f x v b hf]
  exact if_pos (by unfold Outside at hb; omega)

theorem getField_putField_same (hf : Fits f) (hv : v ≤ fieldMax f) : getField f (putField f x v) = v := by
  have hw : v < 2 ^ f.w := by
    have := Nat.two_pow_pos f.w
    unfold fieldMax at hv
    omega
  refine Nat.eq_of_testBit_eq fun i => ?_
  rw [getField_eq f _ hf, Nat.testBit_mod_two_pow, Nat.testBit_div_two_pow]
  by_cases hi : i < f.w
  · have hbit := getLsbD_putField f x v (i + f.lo) hf
    rw [if_pos (by omega), Nat.add_sub_cancel] at hbit
    rw [decide_eq_true hi, Bool.true_and]
    exact hbit
  · have hge : 2 ^ f.w ≤ 2 ^ i := Nat.pow_le_pow_right (by omega) (by omega)
    simp [hi, Nat.testBit_lt_two_pow (hw.trans_le hge)]

theorem getField_putField_apart (hf : Fits f) (hg : Fits g) (h : Apart f g) :
    getField f (putField g x v) = getField f x :=
  getField_congr f _ _ hf fun _ hlo hhi => getLsbD_putField_outside hg (h.outside (not_outside hlo hhi))

theorem getField_zero (f : Field) : getField f 0 = 0 := by simp [getField]

theorem getField_or : getField f (x ||| y) = getField f x ||| getField f y := by
  simp only [getField, BitVec.ushiftRight_or_distrib, ← BitVec.toNat_or, BitVec.and_or_distrib_right]

theorem putField_zero_zero (f : Field) : putField f 0#32 0 = 0#32 := by simp [putField]

theorem putBit_eq (n : Nat) (x : Word32) (c : Bool) : putBit n x c = putField (bitField n) x (boolWord c) := rfl

/-- A one-bit field that holds the word of a truth value shows that value. -/
theorem getBit_of_boolWord {n : Nat} {c : Bool} (h : getField (bitField n) x = boolWord c) : getBit n x = c := by
  rw [getBit, h]
  cases c <;> rfl

theorem boolWord_le_fieldMax (n : Nat) (c : Bool) : boolWord c ≤ fieldMax (bitField n) := by
  cases c
  · exact Nat.zero_le _
  · exact Nat.le_refl _

end Fields

/-! ### Words made of the fields of a format -/

/-- The word that holds these values in these fields, and 0 elsewhere. -/
def pack : List (Field × Nat) → Word32
  | [] => 0
  | p :: l => putField p.1 0 p.2 ||| pack l

section Pack

variable {l : List (Field × Nat)}

theorem getLsbD_pack_outside (hl : ∀ f ∈ l.map Prod.fst, Fits f) {b : Nat} (hb : ∀ f ∈ l.map Prod.fst, Outside f b) :
    (pack l).getLsbD b = false := by
  induction l with
  | nil => simp [pack]
  | cons p l ih =>
    obtain ⟨hp, hl⟩ := List.forall_mem_cons.mp hl
    obtain ⟨hpb, hb⟩ := List.forall_mem_cons.mp hb
    simp [pack, getLsbD_putField_outside hp hpb, ih hl hb]

theorem getField_pack_apart {f : Field} (hf : Fits f) (hl : ∀ g ∈ l.map Prod.fst, Fits g ∧ Apart f g) :
    getField f (pack l) = 0 := by
  induction l with
  | nil => exact getField_zero f
  | cons p l ih =>
    obtain ⟨⟨hp, hfp⟩, hl⟩ := List.forall_mem_cons.mp hl
    rw [pack, getField_or, getField_putField_apart hf hp hfp, getField_zero, ih hl, Nat.or_self]

theorem getField_pack (hl : Format (l.map Prod.fst)) {f : Field} {v : Nat} (hm : (f, v) ∈ l) (hv : v ≤ fieldMax f) :
    getField f (pack l) = v := by
  induction l with
  | nil => cases hm
  | cons p l ih =>
    obtain ⟨⟨hp, hapart⟩, htail⟩ := format_cons.mp hl
    rw [pack, getField_or]
    rcases List.mem_cons.mp hm with rfl | hm
    · have hrest : getField f (pack l) = 0 := getField_pack_apart hp fun g hg => ⟨htail.fits g hg, hapart g hg⟩
      rw [getField_putField_same hp hv, hrest, Nat.or_zero]
    · have hfl : f ∈ l.map Prod.fst := List.mem_map_of_mem hm
      rw [getField_putField_apart (htail.fits f hfl) hp (hapart f hfl).symm, getField_zero, ih htail hm, Nat.zero_or]

end Pack

/-! ### The transmit FLAGS word (R100) -/

/-- The words of `CS_EN`, `CS_START` and `CS_STUFF`, which are 0 where nothing is requested. -/
def csWords : CsRequest → Nat × Nat × Nat
  | .none => (0, 0, 0)
  | .offsets start stuff => (1, start, stuff)

/-- The transmit fields with the values that `enc_tx` gives them. -/
def txValues (d : DescProfile) (sop eop : Bool) (cs : CsRequest) (size : Nat) : List (Field × Nat) :=
  [(bitField d.own, 1), (bitField d.sop, boolWord sop), (bitField d.eop, boolWord eop), (bitField d.csEn, (csWords cs).1),
    (d.csStuff, (csWords cs).2.2), (d.csStart, (csWords cs).2.1), (d.txSize, size)]

theorem encTx_eq_pack (d : DescProfile) (sop eop : Bool) (cs : CsRequest) (size : Nat) :
    encTx d sop eop cs size = pack (txValues d sop eop cs size) := by
  cases cs with
  | none =>
    simp only [encTx, pack, txValues, csWords, putBit_eq, boolWord, putField_zero_zero, BitVec.ofNat_eq_ofNat, BitVec.or_zero,
      BitVec.zero_or, BitVec.or_assoc, ↓reduceIte]
  | offsets start stuff =>
    simp only [encTx, pack, txValues, csWords, putBit_eq, boolWord, BitVec.ofNat_eq_ofNat, BitVec.or_zero, ↓reduceIte]
    ac_rfl

/-- What `TRANSMIT` may ask for fits the format (R12, R151). -/
theorem txValues_le {d : DescProfile} {sop eop : Bool} {cs : CsRequest} {size : Nat} (hsize : size ≤ fieldMax d.txSize)
    (hcs : ∀ start stuff, cs = .offsets start stuff → start ≤ fieldMax d.csStart ∧ stuff ≤ fieldMax d.csStuff) :
    ∀ p ∈ txValues d sop eop cs size, p.2 ≤ fieldMax p.1 := by
  have hwords : (csWords cs).1 ≤ 1 ∧ (csWords cs).2.1 ≤ fieldMax d.csStart ∧ (csWords cs).2.2 ≤ fieldMax d.csStuff := by
    cases cs with
    | none => exact ⟨Nat.zero_le _, Nat.zero_le _, Nat.zero_le _⟩
    | offsets start stuff => exact ⟨Nat.le_refl _, hcs start stuff rfl⟩
  obtain ⟨hen, hstart, hstuff⟩ := hwords
  have hsop := boolWord_le_fieldMax d.sop sop
  have heop := boolWord_le_fieldMax d.eop eop
  simp only [txValues, List.forall_mem_cons]
  exact ⟨Nat.le_refl _, hsop, heop, hen, hstuff, hstart, hsize, nofun⟩

/-- Settles O6: the word holds a value in every transmit field, which the format keeps apart. -/
theorem transmitFlagsReadBack : Obligations.TransmitFlagsReadBack := by
  intro d sop eop cs size hd hsize hcs
  obtain ⟨-, -, htx, -⟩ := descValid_iff.mp hd
  have hformat : Format ((txValues d sop eop cs size).map Prod.fst) := htx
  have hle := txValues_le (sop := sop) (eop := eop) hsize hcs
  have hread : ∀ p ∈ txValues d sop eop cs size, getField p.1 (encTx d sop eop cs size) = p.2 := fun p hp =>
    (encTx_eq_pack ..).symm ▸ getField_pack hformat hp (hle p hp)
  simp only [txValues, List.forall_mem_cons] at hread
  obtain ⟨hown, hsop, heop, hen, hstuff, hstart, hsize, -⟩ := hread
  refine ⟨getBit_of_boolWord (c := true) hown, getBit_of_boolWord hsop, getBit_of_boolWord heop, hsize,
    ?none, ?offsets, ?reserved⟩
  case none =>
    rintro rfl
    exact ⟨getBit_of_boolWord (c := false) hen, hstart, hstuff⟩
  case offsets =>
    rintro start stuff rfl
    exact ⟨getBit_of_boolWord (c := true) hen, hstart, hstuff⟩
  case reserved =>
    intro b hb
    rw [encTx_eq_pack]
    exact getLsbD_pack_outside hformat.fits hb

/-! ### The receive FLAGS words (R101, R282) -/

theorem encRxPost_eq_pack (p : Params) : encRxPost p = pack [(bitField p.desc.own, 1), (p.desc.rxSize, p.rxBufSize)] := by
  simp only [encRxPost, pack, putBit_eq, boolWord, BitVec.ofNat_eq_ofNat, BitVec.or_zero, ↓reduceIte]

/-- The mask clears a field as an update to 0 does. -/
theorem reservedMask_cons (f : Field) (fs : List Field) : reservedMask (f :: fs) = putField f (reservedMask fs) 0 := by
  simp [reservedMask, putField]

theorem getLsbD_reservedMask {fs : List Field} (hfs : ∀ f ∈ fs, Fits f) {b : Nat} (hb : b < 32) :
    (reservedMask fs).getLsbD b = true ↔ ∀ f ∈ fs, Outside f b := by
  induction fs with
  | nil => exact iff_of_true (BitVec.getLsbD_allOnes.trans (decide_eq_true hb)) nofun
  | cons f fs ih =>
    obtain ⟨hf, hfs⟩ := List.forall_mem_cons.mp hfs
    rw [reservedMask_cons, List.forall_mem_cons]
    by_cases h : Outside f b
    · rw [getLsbD_putField_outside hf h, ih hfs, and_iff_right h]
    · refine iff_of_false ?_ fun hall => h hall.1
      rw [getLsbD_putField_inside hf h, Nat.zero_testBit]
      exact Bool.false_ne_true

theorem getLsbD_reserved_outside {fs : List Field} (hfs : ∀ f ∈ fs, Fits f) (x : Word32) {b : Nat}
    (hb : ∀ f ∈ fs, Outside f b) : (x &&& reservedMask fs).getLsbD b = x.getLsbD b := by
  by_cases hlt : b < 32
  · rw [BitVec.getLsbD_and, (getLsbD_reservedMask hfs hlt).mpr hb, Bool.and_true]
  · rw [BitVec.getLsbD_of_ge _ _ (by omega), BitVec.getLsbD_of_ge _ _ (by omega)]

theorem getField_reserved {fs : List Field} (hfs : ∀ f ∈ fs, Fits f) (x : Word32) {f : Field} (hf : f ∈ fs) :
    getField f (x &&& reservedMask fs) = 0 := by
  rw [← getField_zero f]
  refine getField_congr f _ _ (hfs f hf) fun b hlo hhi => ?_
  have hb : b < 32 := Nat.lt_of_lt_of_le hhi (hfs f hf)
  have hmask : ¬ (reservedMask fs).getLsbD b = true := fun h => not_outside hlo hhi ((getLsbD_reservedMask hfs hb).mp h f hf)
  rw [BitVec.getLsbD_and, Bool.eq_false_of_not_eq_true hmask, Bool.and_false]
  exact BitVec.getLsbD_zero.symm

/-- The receive fields with the values that `enc_rx_post` gives them: `OWN` and the capacity, and the others left clear. -/
theorem encRxPost_reads {p : Params} (hrx : Format (rxFields p.desc)) (hbuf : p.rxBufSize ≤ fieldMax p.desc.rxSize) :
    owned p.desc (encRxPost p) = true ∧ getField p.desc.rxSize (encRxPost p) = p.rxBufSize ∧
      ∀ b, Outside (bitField p.desc.own) b → Outside p.desc.rxSize b → (encRxPost p).getLsbD b = false := by
  have hposted : Format ([(bitField p.desc.own, 1), (p.desc.rxSize, p.rxBufSize)].map Prod.fst) :=
    hrx.sublist (.cons_cons _ (.cons _ (.cons_cons _ (List.nil_sublist _))))
  rw [encRxPost_eq_pack]
  refine ⟨getBit_of_boolWord (c := true) (getField_pack hposted (List.mem_cons_self ..) (Nat.le_refl _)),
    getField_pack hposted (by simp) hbuf, fun b hown hsize => getLsbD_pack_outside hposted.fits ?_⟩
  exact List.forall_mem_cons.mpr ⟨hown, List.forall_mem_cons.mpr ⟨hsize, nofun⟩⟩

theorem encRxDone_reads {d : DescProfile} (hrx : Format (rxFields d)) (x : Word32) {len csum : Nat} (ov : Bool)
    (hlen : len ≤ fieldMax d.rxSize) (hcsum : csum ≤ fieldMax d.rxCsum) :
    owned d (encRxDone d x len ov csum) = false ∧ getField d.rxSize (encRxDone d x len ov csum) = len ∧
      getBit d.overflow (encRxDone d x len ov csum) = ov ∧ getField d.rxCsum (encRxDone d x len ov csum) = csum ∧
      ∀ b, (∀ f ∈ rxFields d, Outside f b) → (encRxDone d x len ov csum).getLsbD b = x.getLsbD b := by
  have hreserved := getField_reserved hrx.fits x (f := bitField d.own) List.mem_cons_self
  have hfields := hrx
  simp only [rxFields, format_cons, List.forall_mem_cons] at hfields
  obtain ⟨⟨hown, hownOv, hownSize, hownCsum, -⟩, ⟨hov, hovSize, hovCsum, -⟩, ⟨hsize, hsizeCsum, -⟩, ⟨hsum, -⟩, -⟩ := hfields
  have hovLe := boolWord_le_fieldMax d.overflow ov
  unfold encRxDone
  refine ⟨getBit_of_boolWord (c := false) ?own, ?size, getBit_of_boolWord ?overflow, ?csum, fun b hb => ?reserved⟩
  case own =>
    rw [getField_putField_apart hown hsize hownSize, putBit_eq, getField_putField_apart hown hov hownOv,
      getField_putField_apart hown hsum hownCsum, hreserved]
    rfl
  case size => rw [getField_putField_same hsize hlen]
  case overflow => rw [getField_putField_apart hov hsize hovSize, putBit_eq, getField_putField_same hov hovLe]
  case csum =>
    rw [getField_putField_apart hsum hsize hsizeCsum.symm, putBit_eq, getField_putField_apart hsum hov hovCsum.symm,
      getField_putField_same hsum hcsum]
  case reserved =>
    have hout := hb
    simp only [rxFields, List.forall_mem_cons] at hout
    obtain ⟨-, hbOv, hbSize, hbCsum, -⟩ := hout
    rw [getLsbD_putField_outside hsize hbSize, putBit_eq, getLsbD_putField_outside hov hbOv,
      getLsbD_putField_outside hsum hbCsum, getLsbD_reserved_outside hrx.fits x hb]

/-- Settles O7: in either word each receive field holds its value, or is clear, and the other bits are as they were. -/
theorem receiveFlagsReadBack : Obligations.ReceiveFlagsReadBack := by
  intro p hp
  obtain ⟨-, -, -, -, -, -, hbuf, -, -, -, hdesc, -⟩ := paramsValid_iff.mp hp
  obtain ⟨-, -, -, hrx⟩ := descValid_iff.mp hdesc
  obtain ⟨hown, hsize, hclear⟩ := encRxPost_reads hrx hbuf
  refine ⟨⟨hown, hsize, fun b hb => hclear b (outside_bitField hb)⟩, fun x len ov csum hlen hcsum => ?_⟩
  exact encRxDone_reads hrx x ov hlen hcsum

end Sys2Proof.Encoding
end

section
/-! PROOFS. The ring primitives for one slot: which is free next, giving it to the device, taking it back (R131 to R133). -/

namespace Sys2Proof.Rings

open Sys2Proof.Machine Sys2Proof.Laws

/-! ### The rings' place on the host's side -/

theorem descValid_of_paramsValid {p : Params} (h : paramsValid p = true) : descValid p.desc = true := by
  obtain ⟨-, -, -, -, -, -, -, -, -, -, hdesc, -⟩ := Encoding.paramsValid_iff.mp h
  exact hdesc

section HostSide

variable {s t : State} (h : hostSide t = hostSide s)

include h

theorem params_of_hostSide : t.params = s.params := (hostSide_fields h).1

theorem ringBase_of_hostSide (r : Ring) : ringBase t r = ringBase s r := by
  cases r <;> simp only [ringBase, hostSide_fields h]

theorem dmaOn_of_hostSide (r : Ring) : dmaOn t r = dmaOn s r := by
  cases r <;> simp only [dmaOn, hostSide_fields h]

theorem laidOut_of_hostSide (hl : LaidOut s) : LaidOut t := by
  simpa only [LaidOut, hostSide_fields h] using hl

end HostSide

/-! ### What `RING_NEXT_FREE` answers (R131) -/

theorem run_ringNextFree (s : State) :
    ringNextFree s = if occupied s = s.params.nTx - 1 then .ok .full s else .ok (.slot s.tx.head) s := by
  simp only [ringNextFree, run_bind, run_getState, run_ite, run_pure]

/-- Settles O15: the answer turns on the occupancy, which is read and not changed. -/
theorem ringNextFreeAnswers : Obligations.RingNextFreeAnswers := by
  intro s ha
  have hrun : exec .ringNextFree s =
      finish conclude (if occupied s = s.params.nTx - 1 then .ok .full s else .ok (.slot s.tx.head) s) :=
    (internalOp_running ha _).trans (congrArg _ (run_ringNextFree s))
  constructor
  · intro hfull
    rw [hrun, if_pos (show occupied s = _ from hfull)]
    rfl
  · intro hroom
    rw [hrun, if_neg (show ¬ occupied s = _ from hroom)]
    rfl

/-! ### Publishing a slot (R132) -/

/-- Settles O16: the first write faults on a slot the engine owns; on any other both writes enter the buffer, a barrier between them. -/
theorem ringPublishWritesInOrder : Obligations.RingPublishWritesInOrder := by
  have hexec : ∀ {s : State} (r : Ring) (slot : Nat) (a f : Word32), Alive s →
      exec (.ringPublish r slot a f) s = finish conclude ((do ringPublish r slot a f; pure .ok : M OpOutcome) s) :=
    fun r slot a f ha => internalOp_running ha _
  refine ⟨fun r slot a f s ha hown => ?_, fun r slot base a f s ha hp hl hbase hslot hown hsees hdma => ?_,
    fun r slot base a f s ha hp hl hwb hbase hslot hown hfree => ?_⟩
  · rw [hexec r slot a f ha]
    simp only [ringPublish, run_bind, run_getState, run_ite, hown, Bool.false_eq_true, if_false, run_refuse, finish]
  · have hdenied := run_memWrite_denied (descValid_of_paramsValid hp) hl hbase hslot hsees hdma .addr a
    rw [hexec r slot a f ha]
    simp only [ringPublish, run_bind, run_getState, run_ite, hown, if_true, hdenied, finish]
  · have hi := interleave_hostSide s
    have hw : HostWrites (interleave s) r slot base := by
      refine ⟨?_, laidOut_of_hostSide hi hl, interleave_aligned hwb, ?_, (ringBase_of_hostSide hi r).trans hbase, ?_⟩
      · rw [params_of_hostSide hi]
        exact descValid_of_paramsValid hp
      · rw [params_of_hostSide hi]
        exact hslot
      · rw [dmaOn_of_hostSide hi]
        exact hfree
    obtain ⟨t, hrun, hside, hexact, -⟩ := run_ringPublish hw a f hown
    refine ⟨conclude .ok t, ?_, ?_, fun hs => ?_⟩
    · rw [hexec r slot a f ha]
      simp only [run_bind, hrun, run_pure, finish]
    · rw [hostSide_conclude, hside]
      simp only [hostSide, hostTrace, List.filterMap_append, List.filterMap_cons, List.filterMap_nil, hostEvent]
      rfl
    · rw [hexact hs]
      rfl

/-! ### Reclaiming a slot (R133) -/

/-- Settles O17: the read of the FLAGS word decides, and either read changes nothing of its own. -/
theorem ringTryReclaimReadsOnly : Obligations.RingTryReclaimReadsOnly := by
  rintro r slot base s f ha hp hl hbase hslot rfl
  have hrun := run_ringTryReclaim (descValid_of_paramsValid hp) hl hbase hslot
  have hexec : exec (.ringTryReclaim r slot) s = finish conclude ((do
      let d ← ringTryReclaim r slot
      match d with
      | none => pure .notReady
      | some (f, a) => pure (.desc f a) : M OpOutcome) s) := internalOp_running ha _
  have hsees : hostSeesOwned (interleave s) base slot =
      owned s.params.desc (hostView (interleave s) (base + 8 * slot + s.params.desc.flagsOffset)) := by
    rw [hostSeesOwned, params_of_hostSide (interleave_hostSide s)]
    rfl
  rw [hsees] at hrun
  constructor
  · intro hown
    rw [hexec]
    simp only [run_bind, hrun, hown, if_true, run_pure, finish]
    rfl
  · intro hown
    rw [hexec]
    simp only [run_bind, hrun, hown, Bool.false_eq_true, if_false, run_pure, finish]
    rfl

end Sys2Proof.Rings
end

section
/-! PROOFS. Creation of a ring: which memory is granted, and what the ring is then (R51, R61, R104, R130, R345). -/

namespace Sys2Proof.Rings

open Sys2Proof.Machine Sys2Proof.Laws

/-! ### Loops and what agent steps leave of buffer memory -/

/-- Induction over a loop whose every pass returns: `I i` holds before the pass for `i`. -/
theorem forRange_returns {body : Nat → M Unit} {I : Nat → State → Prop} {k : Nat}
    (h : ∀ i s, i < k → I i s → ∃ t, body i s = .ok () t ∧ I (i + 1) t) :
    ∀ n i s, i + n = k → I i s → ∃ t, forRange body n i s = .ok () t ∧ I k t
  | 0, i, s, hi, hs => ⟨s, rfl, by rwa [← hi]⟩
  | n + 1, i, s, hi, hs => by
    obtain ⟨u, hu, hIu⟩ := h i s (by omega) hs
    obtain ⟨t, ht, hIt⟩ := forRange_returns h n (i + 1) u (by omega) hIu
    exact ⟨t, by simp only [forRange, run_bind, hu, ht], hIt⟩

/-- What the host sees of buffers is no agent's to change (R78). -/
theorem agentStep_bufMem {a : AgentStep} {s t : State} (h : agentStep a s = some t) : t.bufMem = s.bufMem := by
  cases a with
  | envVisible a =>
    simp only [agentStep, stepVisible] at h
    split at h
    · cases h
    · split at h <;> cases h
      rfl
  | devTxDone slot =>
    simp only [agentStep, stepTxDone] at h
    split at h
    · cases h
    · split at h <;> cases h
      rfl
  | devRxDone slot len ov csum =>
    simp only [agentStep, stepRxDone] at h
    split at h
    · cases h
    · split at h <;> cases h
      rfl
  | devStatus bits =>
    simp only [agentStep, stepStatus] at h
    split at h <;> cases h
    rfl
  | macDrained =>
    simp only [agentStep, stepMacDrained] at h
    split at h <;> cases h
    rfl

theorem interleave_bufMem (s : State) : (interleave s).bufMem = s.bufMem :=
  interleave_carries (R := fun s t => t.bufMem = s.bufMem) ⟨fun _ => rfl, fun h h' => h'.trans h⟩
    (fun _ _ _ h => agentStep_bufMem h) (fun _ _ => rfl) s

/-! ### Neutral descriptors (R104) -/

/-- Of the aligned words, the two of the slot become 0 and no other changes. -/
theorem deviceView_neutralInMem {s : State} (hd : descValid s.params.desc = true) {base a : Nat} (hb : base % 4 = 0)
    (ha : a % 4 = 0) (slot : Nat) :
    deviceView (neutralInMem base slot s) a =
      if a = descWordAddr s.params.desc base slot .addr then 0
      else if a = descWordAddr s.params.desc base slot .flags then 0 else deviceView s a := by
  simp only [deviceView, neutralInMem,
    readWord_writeWord_aligned _ _ _ _ _ (descWordAddr_aligned hd hb slot _) ha]

theorem readByte_neutralInMem {s : State} (hd : descValid s.params.desc = true) {base a slot : Nat}
    (ha : a < base + descBytes * slot ∨ base + descBytes * (slot + 1) ≤ a) :
    readByte (neutralInMem base slot s).mem a = readByte s.mem a := by
  have hout : ∀ w, a < descWordAddr s.params.desc base slot w ∨ descWordAddr s.params.desc base slot w + 4 ≤ a := by
    intro w
    have := (wordOffset_lt hd w).1
    simp only [descWordAddr, descBytes] at ha ⊢
    omega
  simp only [neutralInMem, readByte_writeWord_other _ _ _ _ _ (hout _)]

/-- From `s` to `t` memory alone has changed: the first `n` descriptors at `base` are neutral, and other bytes are as they were. -/
structure Neutralised (base n : Nat) (s t : State) : Prop where
  frame : ∃ m, t = { s with mem := m }
  neutral : ∀ i, i < n → ∀ w, deviceView t (descWordAddr s.params.desc base i w) = 0
  outside : ∀ a, a < base ∨ base + descBytes * n ≤ a → readByte t.mem a = readByte s.mem a

theorem Neutralised.next {base i : Nat} {s t : State} (hd : descValid s.params.desc = true) (hb : base % 4 = 0)
    (h : Neutralised base i s t) : Neutralised base (i + 1) s (neutralInMem base i t) := by
  obtain ⟨m, ht⟩ := h.frame
  have hp : t.params = s.params := by rw [ht]
  have hdt : descValid t.params.desc = true := hp ▸ hd
  refine ⟨⟨_, by rw [ht]; rfl⟩, fun j hj w => ?_, fun a ha => ?_⟩
  · rw [deviceView_neutralInMem hdt hb (descWordAddr_aligned hd hb j w), hp]
    rcases Nat.lt_succ_iff_lt_or_eq.mp hj with hlt | rfl
    · rw [h.neutral j hlt w, ite_self, ite_self]
    · cases w with
      | addr => exact if_pos rfl
      | flags => rw [if_pos rfl, ite_self]
  · simp only [descBytes] at ha
    rw [readByte_neutralInMem hdt (by simp only [descBytes]; omega), h.outside a (by simp only [descBytes]; omega)]

/-- The loop of `RING_ALLOC` makes every descriptor neutral. -/
theorem run_neutralise {base : Nat} {s : State} (hd : descValid s.params.desc = true) (hb : base % 4 = 0) (n : Nat) :
    ∃ t, forRange (fun i => update (neutralInMem base i)) n 0 s = .ok () t ∧ Neutralised base n s t :=
  forRange_returns (I := fun i t => Neutralised base i s t) (k := n) (fun _ _ _ h => ⟨_, rfl, h.next hd hb⟩) n 0 s (Nat.zero_add n)
    ⟨⟨s.mem, rfl⟩, fun _ hi => absurd hi (Nat.not_lt_zero _), fun _ _ => rfl⟩

/-! ### `RING_ALLOC` (R130) -/

/-- The rings would not share memory, were this ring's at `base` (R293). -/
def ApartFromOther (s : State) (r : Ring) (base : Nat) : Prop :=
  (r = .tx → ∀ b, s.rx.base = some b → BasesApart s.params base b) ∧
    (r = .rx → ∀ b, s.tx.base = some b → BasesApart s.params b base)

theorem apartFromOther_eq_true {s : State} {r : Ring} {base : Nat} (h : ApartFromOther s r base) :
    apartFromOther s r base (capacity s.params r) = true := by
  cases r with
  | tx =>
    cases hb : s.rx.base with
    | none => simp only [apartFromOther, ringBase, hb]
    | some b =>
      have hap : BasesApart s.params base b := h.1 rfl b hb
      simpa only [apartFromOther, ringBase, hb, Bool.or_eq_true, decide_eq_true_eq, BasesApart] using hap
  | rx =>
    cases hb : s.tx.base with
    | none => simp only [apartFromOther, ringBase, hb]
    | some b =>
      have hap : BasesApart s.params b base := h.2 rfl b hb
      simpa only [apartFromOther, ringBase, hb, Bool.or_eq_true, decide_eq_true_eq, BasesApart] using hap.symm

/-- Ring memory that R51, R61 and R293 allow is granted, whatever agents have done meanwhile. -/
theorem checkRingMemory_allowed {s : State} {r : Ring} {base : Nat} (hal : BaseAllowed s.params r base)
    (hap : ApartFromOther s r base) : checkRingMemory (interleave s) r (capacity s.params r) base = some base := by
  have hi := interleave_hostSide s
  have hother : apartFromOther (interleave s) r base (capacity s.params r) = true := by
    rw [← apartFromOther_eq_true hap]
    simp only [apartFromOther, ringBase_of_hostSide hi, params_of_hostSide hi]
  rw [checkRingMemory, params_of_hostSide hi]
  exact if_pos ⟨hal.1, hal.2, hother⟩

/-- Valid parameters give either ring a capacity that `RING_ALLOC` takes. -/
theorem capacity_valid {p : Params} (hp : paramsValid p = true) (r : Ring) :
    isPow2 (capacity p r) = true ∧ 2 ≤ capacity p r := by
  obtain ⟨htx, htx2, hrx, hrx2, -⟩ := Encoding.paramsValid_iff.mp hp
  cases r with
  | tx => exact ⟨Encoding.isPow2_iff.mpr htx, htx2⟩
  | rx => exact ⟨Encoding.isPow2_iff.mpr hrx, hrx2⟩

theorem capacity_accepted {p : Params} (hp : paramsValid p = true) (r : Ring) :
    (!isPow2 (capacity p r) || decide (capacity p r < 2) || capacity p r != capacity p r) = false := by
  obtain ⟨hpow, htwo⟩ := capacity_valid hp r
  simp only [hpow, Nat.not_lt.mpr htwo, decide_false, bne_self_eq_false, Bool.not_true, Bool.or_self]

/-- The state in which `RING_ALLOC` has taken its answer (R17, R130). -/
def withRingDraws (rest : List (Option Nat)) (s : State) : State := { s with draws := { s.draws with ringMemory := rest } }

/-- `RING_ALLOC` with a draw of memory that is allowed: memory alone changes, and then the ring's own fields. -/
theorem run_ringAlloc_ok {s : State} {r : Ring} {base : Nat} {rest : List (Option Nat)} (hp : paramsValid s.params = true)
    (hnone : ringBase s r = none) (hd : s.draws.ringMemory = some base :: rest) (hal : BaseAllowed s.params r base)
    (hap : ApartFromOther s r base) :
    ∃ u, Neutralised base (capacity s.params r) (withRingDraws rest (interleave s)) u ∧
      ringAlloc r (capacity s.params r) s = .ok .ok (setAllocated r base u) := by
  have hpi : (interleave s).params = s.params := params_of_hostSide (interleave_hostSide s)
  have hdesc : descValid (interleave s).params.desc = true := hpi ▸ descValid_of_paramsValid hp
  have hbase : base % 4 = 0 := by
    have := BaseAllowed.aligned hal
    omega
  obtain ⟨u, hrun, hu⟩ := run_neutralise (s := withRingDraws rest (interleave s)) hdesc hbase (capacity s.params r)
  refine ⟨u, hu, ?_⟩
  rw [withRingDraws] at hrun
  simp only [ringAlloc, run_bind, run_getState, run_ite, capacity_accepted hp r, hnone, Option.isSome_none,
    Bool.false_eq_true, if_false, run_drawRingMemory hd,
    Option.bind_some, checkRingMemory_allowed hal hap, hrun, run_update, run_pure]

/-- A refused draw of memory ends creation (R345). -/
theorem run_ringAlloc_fail {s : State} {r : Ring} {rest : List (Option Nat)} (hp : paramsValid s.params = true)
    (hnone : ringBase s r = none) (hd : s.draws.ringMemory = none :: rest) :
    ringAlloc r (capacity s.params r) s = .ok .resourceExhausted (markAbsent (withRingDraws rest (interleave s))) := by
  simp only [ringAlloc, run_bind, run_getState, run_ite, capacity_accepted hp r, hnone, Option.isSome_none,
    Bool.false_eq_true, if_false, run_drawRingMemory hd,
    Option.bind_none, run_update, run_pure]
  rfl

theorem hostSide_withRingDraws (rest : List (Option Nat)) (s : State) :
    hostSide (withRingDraws rest s) = withRingDraws rest (hostSide s) := rfl

theorem hostSide_markAbsent (s : State) : hostSide (markAbsent s) = markAbsent (hostSide s) := rfl

theorem ringAlloc_badCapacity {n : Nat} (hn : (¬∃ k, n = 2 ^ k) ∨ n < 2) (r : Ring) (s : State) :
    ringAlloc r n s = .error (.refused .badCapacity) s := by
  have hbad : (!isPow2 n || decide (n < 2) || n != capacity s.params r) = true := by
    rw [← Encoding.isPow2_iff, Bool.not_eq_true] at hn
    rcases hn with hpow | hsmall
    · rw [hpow]
      rfl
    · rw [decide_eq_true hsmall, Bool.or_true, Bool.true_or]
  simp only [ringAlloc, run_bind, run_getState, run_ite, hbad, if_true, run_refuse]

@[simp] theorem setAllocated_mem (r : Ring) (base : Nat) (s : State) : (setAllocated r base s).mem = s.mem := by
  cases r <;> rfl

@[simp] theorem setAllocated_bufMem (r : Ring) (base : Nat) (s : State) : (setAllocated r base s).bufMem = s.bufMem := by
  cases r <;> rfl

theorem deviceView_setAllocated (r : Ring) (base : Nat) (s : State) (a : Nat) :
    deviceView (setAllocated r base s) a = deviceView s a := by
  cases r <;> rfl

@[simp] theorem ringBase_setAllocated (r : Ring) (base : Nat) (s : State) :
    ringBase (setAllocated r base s) r = some base := by
  cases r <;> rfl

/-- Of the host's side, `RING_ALLOC` changes the draws and the ring's own fields. -/
theorem hostSide_allocated (r : Ring) (base : Nat) (rest : List (Option Nat)) (m : List Host.Cell) (s : State) :
    hostSide (conclude .ok (setAllocated r base { withRingDraws rest (interleave s) with mem := m })) =
      hostSide { withRingDraws rest s with
        tx := (setAllocated r base s).tx, rx := (setAllocated r base s).rx, outcome := some .ok } := by
  have h : ∀ u, hostSide (conclude .ok (setAllocated r base { withRingDraws rest u with mem := m })) =
      conclude .ok (setAllocated r base (withRingDraws rest (hostSide u))) := fun u => by cases r <;> rfl
  rw [h, interleave_hostSide]
  cases r <;> rfl

/-- Settles O14: creation draws memory, makes it neutral and gives it to the ring, and no other micro-step follows the draw. -/
theorem ringAllocGivesANeutralRing : Obligations.RingAllocGivesANeutralRing := by
  have hexec : ∀ {s : State} (r : Ring) (n : Nat), Alive s →
      exec (.ringAlloc r n) s = finish conclude (ringAlloc r n s) := fun r n ha => internalOp_running ha _
  refine ⟨⟨fun r s base rest ha hp hnone hd hal htx hrx => ?_, fun r s rest ha hp hnone hd => ?_⟩,
    fun r n s ha hn => ?_, fun r s ha hp hsome => ?_⟩
  · obtain ⟨u, ⟨⟨m, rfl⟩, hneutral, hout⟩, hrun⟩ := run_ringAlloc_ok hp hnone hd hal ⟨htx, hrx⟩
    have hpi : (interleave s).params = s.params := params_of_hostSide (interleave_hostSide s)
    obtain ⟨-, hadapter, hirq, htxs, hrxs, hlink, htimer, hcounters, -, -, -, hmac, -, hbufs, hmaps, hpkts, -, -, houtcome, -, -, -,
      htrace, hwindows, habsent⟩ := hostSide_fields (hostSide_allocated r base rest m s)
    have hzero : ∀ i, i < capacity s.params r → ∀ w, deviceView
        (conclude .ok (setAllocated r base { withRingDraws rest (interleave s) with mem := m }))
        (descWordAddr s.params.desc base i w) = 0 := fun i hi w =>
      hpi ▸ (deviceView_setAllocated r base _ _).trans (hneutral i hi w)
    refine ⟨_, (hexec r _ ha).trans (congrArg _ hrun), houtcome, ringBase_setAllocated r base _, ?tx, ?rx,
      fun i hi => ⟨hzero i hi .flags, hzero i hi .addr⟩, hlink, hcounters, hadapter, hmaps, hbufs, hpkts, htimer, hirq, hmac,
      htrace, ?payload, hwindows, habsent, ?outside⟩
    case tx =>
      rintro rfl
      exact ⟨htxs, hrxs⟩
    case rx =>
      rintro rfl
      exact ⟨hrxs, htxs⟩
    case payload => rw [conclude_bufMem, setAllocated_bufMem, ← interleave_bufMem s]; rfl
    case outside =>
      intro hs a ha'
      have hmem := hout a ha'
      rw [interleave_nil s hs] at hmem
      rwa [conclude_mem, setAllocated_mem]
  · refine ⟨conclude .resourceExhausted (markAbsent (withRingDraws rest (interleave s))), ?_, ?_, fun hs => ?_⟩
    · rw [hexec r _ ha, run_ringAlloc_fail hp hnone hd]
      rfl
    · rw [hostSide_conclude, hostSide_markAbsent, hostSide_withRingDraws, interleave_hostSide]
      rfl
    · rw [interleave_nil s hs]
      rfl
  · rw [hexec r n ha, ringAlloc_badCapacity hn]
    rfl
  · rw [hexec r _ ha]
    simp only [ringAlloc, run_bind, run_getState, run_ite, capacity_accepted hp r, Bool.false_eq_true, if_false, hsome,
      if_true, run_refuse, finish]

end Sys2Proof.Rings
end

section
/-! PROOFS. The micro-steps of `RING_RESET`, and what every one of them keeps: other state, descriptor words, payloads (R134). -/

namespace Sys2Proof.Rings

open Sys2Proof.Machine Sys2Proof.Laws Sys2Proof.Invariants

/-! ### The micro-steps of `RING_RESET` (R134) -/

/-- The micro-steps of `DmaUnmap` (R77). -/
inductive UnmapStep (s : State) : State → Prop
  | env : UnmapStep s (interleave s)
  | event (e : Event) : UnmapStep s (emitted e s)
  | faulted (f : Fault) : UnmapStep s { s with fault := some f }
  | unmapped {h : Nat} {m : MapEntry} (hm : mapGet s.liveMaps h = some m) : UnmapStep s (releaseMap h m s)

/-- The micro-steps of `RING_RESET r`: entries leave the shadow, and the ring's own words are written with 0. -/
inductive ResetStep (r : Ring) (s : State) : State → Prop
  | unmap {t : State} (h : UnmapStep s t) : ResetStep r s t
  | freed {slot : Nat} {e : RxEntry} (hr : r = .rx) (he : mapGet s.rx.shadow slot = some e) : ResetStep r s
      { s with
        liveBuffers := mapErase s.liveBuffers e.buf
        bufMem := mapErase s.bufMem e.buf
        dmaMem := mapErase s.dmaMem e.buf }
  | txCleared (hr : r = .tx) (slot : Nat) : ResetStep r s (clearTxSlot slot s)
  | rxCleared (hr : r = .rx) (slot : Nat) : ResetStep r s (clearRxSlot slot s)
  | pktRemoved (hr : r = .tx) (k : Nat) : ResetStep r s (removePkt k s)
  | written {slot base : Nat} {w : DescWord} (hb : ringBase s r = some base) (hs : slot < capacity s.params r)
      (ha : descWordAddr s.params.desc base slot w % 4 = 0) :
      ResetStep r s (pushWrite (descWordAddr s.params.desc base slot w) 0 s)
  | zeroed : ResetStep r s (zeroCursors r s)

theorem UnmapStep.rx {s t : State} (h : UnmapStep s t) : t.rx = s.rx := by
  cases h with
  | env => simp only [hostSide_fields (interleave_hostSide s)]
  | _ => rfl

section Programs

variable {r : Ring} {R : State → State → Prop}

theorem boundary_unmapStep (hR : Closed UnmapStep R) : Follows R boundary :=
  Follows.update (fun _ => hR.step .env) fun s => hostSide_fault (interleave_hostSide s)

theorem dmaUnmap_unmapStep (hR : Closed UnmapStep R) (h : Nat) : Follows R (dmaUnmap h) := by
  refine Follows.bind hR (boundary_unmapStep hR) fun _ => Ensures.follows fun s₀ => Ensures.read ?_
  rintro u rfl
  cases hm : mapGet u.liveMaps h with
  | none =>
    refine Ensures.raise fun s hs => ?_
    subst hs
    exact hR.step (.faulted _)
  | some m =>
    refine Ensures.update fun s hs => ?_
    subst hs
    exact hR.trans (hR.step (.unmapped hm)) (hR.step (.event _))

theorem Closed.unmap_of_reset (hR : Closed (ResetStep r) R) : Closed UnmapStep R := hR.mono fun _ _ => .unmap

/-- What a relation says, and that the receive ring is as it was, is kept while a mapping is released. -/
theorem Closed.with_rx (hR : Closed UnmapStep R) : Closed UnmapStep fun s t => R s t ∧ t.rx = s.rx where
  refl s := ⟨hR.refl s, rfl⟩
  trans h h' := ⟨hR.trans h.1 h'.1, h'.2.trans h.2⟩
  step h := ⟨hR.step h, h.rx⟩

theorem releaseTxSlot_resetStep (hR : Closed (ResetStep .tx) R) (slot : Nat) : Follows R (releaseTxSlot slot) := by
  refine Follows.bind hR (Follows.getState hR) fun s => ?_
  cases mapGet s.tx.shadow slot with
  | none => exact Follows.pure hR ()
  | some e =>
    refine Follows.bind hR (dmaUnmap_unmapStep (Closed.unmap_of_reset hR) _) fun _ =>
      Follows.update (fun s => hR.trans ?_ (hR.step (.txCleared rfl slot))) fun s => ?_
    · split
      · exact hR.step (.pktRemoved rfl _)
      · exact hR.refl s
    · split <;> rfl

/-- The buffer freed is that of the slot: releasing its mapping has left the entry in place. -/
theorem releaseRxSlot_resetStep (hR : Closed (ResetStep .rx) R) (slot : Nat) : Follows R (releaseRxSlot slot) := by
  have hU := Closed.with_rx (Closed.unmap_of_reset hR)
  refine Ensures.follows fun s₀ => Ensures.read ?_
  rintro u rfl
  cases he : mapGet u.rx.shadow slot with
  | none => exact Ensures.pure fun s hs => hs ▸ hR.refl s
  | some e =>
    refine Ensures.bind (Q := fun _ s => R u s ∧ s.rx = u.rx) ?unmap fun _ =>
      Ensures.bind (Q := fun _ s => R u s)
        (Ensures.bind (Q := fun _ s => R u s ∧ s.rx = u.rx) ?env fun _ => Ensures.update fun s h => ?free)
        fun _ => Ensures.update fun s h => ?clear
    case unmap =>
      refine ((dmaUnmap_unmapStep hU e.handle).ensures (P := (· = u)) (fun s t hs h => ?_)
        (E := fun s => R u s ∧ s.rx = u.rx) fun s t hs h => ?_).weaken fun _ h => h.1 <;> subst hs <;> exact h
    case env =>
      exact (boundary_unmapStep hU).ensures (fun s t hs h => hU.trans hs h) fun s t hs h => (hU.trans hs h).1
    case free => exact hR.trans h.1 (hR.trans (hR.step (.freed rfl (by rw [h.2]; exact he))) (hR.step (.unmap (.event _))))
    case clear => exact hR.trans h (hR.step (.rxCleared rfl slot))

theorem releaseSlot_resetStep (hR : Closed (ResetStep r) R) (slot : Nat) : Follows R (releaseSlot r slot) := by
  cases r with
  | tx => exact releaseTxSlot_resetStep hR slot
  | rx => exact releaseRxSlot_resetStep hR slot

theorem memWrite_resetStep (hR : Closed (ResetStep r) R) (slot : Nat) (w : DescWord) : Follows R (memWrite r slot w 0) := by
  intro s hs
  have hi : R s (interleave s) := hR.step (.unmap .env)
  rcases memWrite_cases r slot w 0 s with ⟨e, he⟩ | he | ⟨base, hb, hc, ha, he⟩ <;> rw [he]
  · trivial
  · exact ⟨hR.trans hi (hR.step (.unmap (.faulted _))), Option.some_ne_none _⟩
  · exact ⟨hR.trans hi (hR.step (.written hb hc ha)), (hostSide_fault (interleave_hostSide s)).trans hs⟩

theorem neutralSlot_resetStep (hR : Closed (ResetStep r) R) (slot : Nat) : Follows R (neutralSlot r slot) :=
  Follows.bind hR (memWrite_resetStep hR slot .addr) fun _ => memWrite_resetStep hR slot .flags

theorem ringReset_resetStep (hR : Closed (ResetStep r) R) : Follows R (ringReset r) :=
  Follows.bind hR (Follows.getState hR) fun _ => Follows.ite
    (Follows.raise _ fun _ => hR.step (.unmap (.faulted _)))
    (Follows.bind hR (Follows.forRange hR (releaseSlot_resetStep hR) _ _) fun _ =>
      Follows.bind hR (Follows.forRange hR (neutralSlot_resetStep hR) _ _) fun _ =>
        Follows.update (fun _ => hR.step .zeroed) (zeroCursors_fault r))

end Programs

/-! ### What the reset of a ring leaves alone -/

/-- The host's side without what the reset of a ring may change. -/
def beyondRing (r : Ring) (u : State) : State :=
  match r with
  | .tx => { u with
      tx := { u.tx with head := 0, tail := 0, shadow := [] }
      pkts := [], liveMaps := [], syncWindows := [], trace := [], fault := none }
  | .rx => { u with
      rx := { u.rx with cursor := 0, shadow := [] }
      liveBuffers := [], liveMaps := [], syncWindows := [], trace := [], fault := none }

/-- The two states differ, on the host's side, in the ring's own fields at most. -/
def SameBeyond (r : Ring) (s t : State) : Prop := beyondRing r (hostSide t) = beyondRing r (hostSide s)

theorem sameBeyond_closed (r : Ring) : Closed (ResetStep r) (SameBeyond r) where
  refl _ := rfl
  trans h h' := h'.trans h
  step {s t} h := by
    cases h with
    | unmap h =>
      cases h with
      | env => exact congrArg (beyondRing r) (interleave_hostSide s)
      | _ => cases r <;> rfl
    | freed hr he => subst hr; rfl
    | txCleared hr slot => subst hr; rfl
    | rxCleared hr slot => subst hr; rfl
    | pktRemoved hr k => subst hr; rfl
    | _ => cases r <;> rfl

section SameBeyond

variable {r : Ring} {s t : State} (h : SameBeyond r s t)

include h

theorem SameBeyond.eq : beyondRing r (hostSide t) = beyondRing r (hostSide s) := h

theorem SameBeyond.params : t.params = s.params := by
  have hp := congrArg State.params h.eq
  cases r <;> exact hp

theorem SameBeyond.base : ringBase t r = ringBase s r := by
  cases r with
  | tx => exact congrArg (·.tx.base) h.eq
  | rx => exact congrArg (·.rx.base) h.eq

end SameBeyond

/-! ### Descriptor words that the environment leaves alone -/

/-- No engine that is on may write the word at `a`, and what is pending are words. -/
structure Quiet (s : State) (a : Nat) : Prop where
  desc : descValid s.params.desc = true
  pending : ∀ w ∈ s.wb, w.addr % 4 = 0
  word : a % 4 = 0
  apart : ∀ r b, ringBase s r = some b → dmaOn s r = true → OutsideRing b (capacity s.params r) a

theorem Quiet.mono {s t : State} {a : Nat} (h : Quiet s a) (hp : t.params = s.params) (hb : ∀ r, ringBase t r = ringBase s r)
    (hd : ∀ r, dmaOn t r = dmaOn s r) (hw : ∀ w ∈ t.wb, w.addr % 4 = 0) : Quiet t a where
  desc := hp ▸ h.desc
  pending := hw
  word := h.word
  apart r b hbase hdma := hp ▸ h.apart r b (hb r ▸ hbase) (hd r ▸ hdma)

/-- A descriptor of a ring does not meet a word outside its memory. -/
theorem descWordAddr_outside {d : DescProfile} (hd : descValid d = true) {base n a slot : Nat} (h : OutsideRing base n a)
    (hs : slot < n) (w : DescWord) :
    a + 4 ≤ descWordAddr d base slot w ∨ descWordAddr d base slot w + 4 ≤ a := by
  have := (wordOffset_lt hd w).1
  simp only [OutsideRing, descWordAddr, descBytes] at h ⊢
  omega

/-- An engine that is on writes no such word (R281, R282). -/
theorem Quiet.engineWrite {s : State} {a b slot : Nat} {r : Ring} (h : Quiet s a) (hb : ringBase s r = some b)
    (hd : dmaOn s r = true) (hs : slot < capacity s.params r) (v : Word32) :
    hostView { s with mem := writeWord s.params.desc.byteOrder s.mem (descWordAddr s.params.desc b slot .flags) v } a =
      hostView s a := by
  simp only [hostView, deviceView,
    readWord_writeWord_other _ _ _ _ _ (descWordAddr_outside h.desc (h.apart r b hb hd) hs .flags)]

/-- No agent step changes what the host reads there. -/
theorem Quiet.agentStep_hostView {s t : State} {a : Nat} {x : AgentStep} (h : Quiet s a) (ht : agentStep x s = some t) :
    hostView t a = hostView s a := by
  cases x with
  | envVisible x => exact hostView_stepVisible h.pending h.word ht
  | devTxDone slot =>
    simp only [agentStep, stepTxDone] at ht
    split at ht
    · cases ht
    · rename_i b hb
      split at ht
      · rename_i hc
        cases ht
        simp only [Bool.and_eq_true, decide_eq_true_eq] at hc
        obtain ⟨⟨⟨hdma, hslot⟩, -⟩, -⟩ := hc
        exact h.engineWrite (r := .tx) hb hdma hslot _
      · cases ht
  | devRxDone slot len ov csum =>
    simp only [agentStep, stepRxDone] at ht
    split at ht
    · cases ht
    · rename_i b hb
      split at ht
      · rename_i hc
        cases ht
        simp only [Bool.and_eq_true, decide_eq_true_eq] at hc
        obtain ⟨⟨⟨⟨hdma, hslot⟩, -⟩, -⟩, -⟩ := hc
        exact h.engineWrite (r := .rx) hb hdma hslot _
      · cases ht
  | devStatus bits =>
    simp only [agentStep, stepStatus] at ht
    split at ht <;> cases ht
    rfl
  | macDrained =>
    simp only [agentStep, stepMacDrained] at ht
    split at ht <;> cases ht
    rfl

theorem Quiet.of_hostSide {s t : State} {a : Nat} (h : Quiet s a) (hs : hostSide t = hostSide s) (hw : t.wb.Sublist s.wb) :
    Quiet t a :=
  h.mono (params_of_hostSide hs) (ringBase_of_hostSide hs) (dmaOn_of_hostSide hs) fun w hm => h.pending w (hw.subset hm)

theorem Quiet.interleave {s : State} {a : Nat} (h : Quiet s a) :
    Quiet (interleave s) a ∧ hostView (Machine.interleave s) a = hostView s a := by
  refine interleave_carries (R := fun s t => Quiet s a → Quiet t a ∧ hostView t a = hostView s a)
    ⟨fun _ h => ⟨h, rfl⟩, fun h h' x => ?_⟩ ?_ (fun _ _ h => ⟨h.mono rfl (fun _ => rfl) (fun _ => rfl) h.pending, rfl⟩) s h
  · obtain ⟨hq, hv⟩ := h x
    obtain ⟨hq', hv'⟩ := h' hq
    exact ⟨hq', hv'.trans hv⟩
  · exact fun x s t ht h => ⟨h.of_hostSide (agentStep_hostSide ht) (agentStep_wb ht), h.agentStep_hostView ht⟩

/-- The environment leaves the word at `a` alone: it does not act at all, or the word is none an engine writes. -/
def Steady (s : State) (a : Nat) : Prop := s.sched = [] ∨ Quiet s a

theorem Steady.interleave {s : State} {a : Nat} (h : Steady s a) :
    Steady (interleave s) a ∧ hostView (Machine.interleave s) a = hostView s a := by
  rcases h with hs | hq
  · rw [interleave_nil s hs]
    exact ⟨.inl hs, rfl⟩
  · exact hq.interleave.imp_left .inr

/-- Every micro-step of the reset leaves the word so: it turns no engine on, and writes words only. -/
theorem steady_closed (r : Ring) (a : Nat) : Closed (ResetStep r) fun s t => Steady s a → Steady t a where
  refl _ h := h
  trans h h' x := h' (h x)
  step {s t} hst h := by
    have hsame : t.sched = s.sched → t.params = s.params → (∀ r, ringBase t r = ringBase s r) → (∀ r, dmaOn t r = dmaOn s r) →
        ((∀ w ∈ s.wb, w.addr % 4 = 0) → ∀ w ∈ t.wb, w.addr % 4 = 0) → Steady t a := fun hs hp hb hd hw =>
      h.imp hs.trans fun h => h.mono hp hb hd (hw h.pending)
    cases hst with
    | unmap hst =>
      cases hst with
      | env => exact h.interleave.1
      | _ => exact hsame rfl rfl (fun _ => rfl) (fun _ => rfl) id
    | written hb hs ha =>
      refine hsame rfl rfl (fun _ => rfl) (fun _ => rfl) fun hw w hm => ?_
      rcases List.mem_append.mp hm with hm | hm
      · exact hw w hm
      · rw [List.mem_singleton.mp hm]
        exact ha
    | zeroed => cases r <;> exact hsame rfl rfl (fun x => by cases x <;> rfl) (fun x => by cases x <;> rfl) id
    | _ => exact hsame rfl rfl (fun x => by cases x <;> rfl) (fun x => by cases x <;> rfl) id

theorem hostView_pushWrite (s : State) (x a : Nat) (v : Word32) :
    hostView (pushWrite x v s) a = if x = a then v else hostView s a := by
  simp only [hostView, pushWrite_wb, wbLast_append]
  split <;> rfl

/-- The host reads `v` at `a`, and the reset of the ring is not to change that: `v` is what it writes, or it does not write there. -/
structure Shows (r : Ring) (a : Nat) (v : Word32) (s : State) : Prop where
  steady : Steady s a
  view : hostView s a = v
  spared : v = 0 ∨ descValid s.params.desc = true ∧ ∀ b, ringBase s r = some b → OutsideRing b (capacity s.params r) a

theorem Shows.mono {r : Ring} {a : Nat} {v : Word32} {s t : State} (h : Shows r a v s) (hs : Steady t a)
    (hv : hostView t a = hostView s a) (hp : t.params = s.params) (hb : ringBase t r = ringBase s r) : Shows r a v t where
  steady := hs
  view := hv.trans h.view
  spared := by rw [hp, hb]; exact h.spared

theorem shows_closed (r : Ring) (a : Nat) (v : Word32) : Closed (ResetStep r) fun s t => Shows r a v s → Shows r a v t where
  refl _ h := h
  trans h h' x := h' (h x)
  step {s t} hst h := by
    have hsteady := (steady_closed r a).step hst h.steady
    cases hst with
    | unmap hst =>
      cases hst with
      | env =>
        have hi := interleave_hostSide s
        exact h.mono hsteady h.steady.interleave.2 (params_of_hostSide hi) (ringBase_of_hostSide hi r)
      | _ => exact h.mono hsteady rfl rfl rfl
    | @written slot base w hb hs ha =>
      refine ⟨hsteady, ?_, h.spared⟩
      rw [hostView_pushWrite]
      split
      · rename_i heq
        rcases h.spared with hv | ⟨hd, hout⟩
        · exact hv.symm
        · have := descWordAddr_outside hd (hout _ hb) hs w
          omega
      · exact h.view
    | zeroed => cases r <;> exact h.mono hsteady rfl rfl rfl
    | _ => exact h.mono hsteady rfl rfl (by cases r <;> rfl)

/-! ### Payloads that the reset leaves alone (R76, R77, R79) -/

/-- The buffer stands in no receive slot and no live mapping is to it. -/
def Spared (b : Nat) (s : State) : Prop := (∀ h m, mapGet s.liveMaps h = some m → m.buf ≠ b) ∧ ¬RingBuffer s b

theorem spared_closed (r : Ring) (b : Nat) :
    Closed (ResetStep r) fun s t => Spared b s → Spared b t ∧ mapGet t.bufMem b = mapGet s.bufMem b where
  refl _ h := ⟨h, rfl⟩
  trans h h' x := by
    obtain ⟨hs, hv⟩ := h x
    obtain ⟨hs', hv'⟩ := h' hs
    exact ⟨hs', hv'.trans hv⟩
  step {s t} hst h := by
    obtain ⟨hmaps, hring⟩ := h
    cases hst with
    | unmap hst =>
      cases hst with
      | env =>
        have hf := hostSide_fields (interleave_hostSide s)
        exact ⟨by simpa only [Spared, RingBuffer, hf] using ⟨hmaps, hring⟩, congrArg (mapGet · b) (interleave_bufMem s)⟩
      | unmapped hm =>
        refine ⟨⟨fun h' m' hm' => ?_, hring⟩, mapGet_showBytes_other _ (hmaps _ _ hm).symm _ _⟩
        rw [releaseMap_liveMaps, mapGet_mapErase] at hm'
        split at hm'
        · cases hm'
        · exact hmaps h' m' hm'
      | _ => exact ⟨⟨hmaps, hring⟩, rfl⟩
    | freed hr he => exact ⟨⟨hmaps, hring⟩, mapGet_mapErase_other _ fun hb => hring ⟨_, _, he, hb.symm⟩⟩
    | rxCleared hr slot =>
      refine ⟨⟨hmaps, fun ⟨i, e, he, hb⟩ => hring ⟨i, e, ?_, hb⟩⟩, rfl⟩
      simp only [clearRxSlot, mapGet_mapErase] at he
      split at he
      · cases he
      · exact he
    | zeroed => cases r <;> exact ⟨⟨hmaps, hring⟩, rfl⟩
    | _ => exact ⟨⟨hmaps, hring⟩, rfl⟩

end Sys2Proof.Rings
end

section
/-! PROOFS. `RING_RESET` with the engine off: it returns, and the ring is then empty and neutral (R104, R134). -/

namespace Sys2Proof.Rings

open Sys2Proof.Machine Sys2Proof.Laws Sys2Proof.Invariants Ledger

section Reset

variable {r : Ring} {p : Params} {base : Nat} {s t : State}

/-! ### Every micro-step of the reset succeeds -/

theorem Ends.of_ok {α : Type} {Q : α → State → Prop} {E : State → Prop} {x : EStateM.Result Stop State α} {a : α}
    (h : Ends Q E x) (hx : x = .ok a t) : Q a t ∧ t.fault = none := by
  subst hx
  exact h

/-- The books are in order, whatever is posted or outstanding: every handle in a shadow is live. -/
abbrev Booked (s : State) : Prop := (book s).Fair False False []

theorem Booked.live (h : Booked s) {x : Nat} (hx : x ∈ shadowHandles s) : ∃ m, mapGet s.liveMaps x = some m :=
  (mapHas_iff _ _).mp ((mapHas_iff_mem_keys _ _).mpr (h.handles.mem_iff.mpr hx))

theorem handle_mem_of_tx (h : Booked s) {i : Nat} {e : TxEntry} (he : mapGet s.tx.shadow i = some e) :
    e.handle ∈ shadowHandles s :=
  List.mem_append_left _ (List.mem_map.mpr ⟨(i, e), (mem_iff_mapGet h.txWf i e).mpr he, rfl⟩)

theorem handle_mem_of_rx (h : Booked s) {i : Nat} {e : RxEntry} (he : mapGet s.rx.shadow i = some e) :
    e.handle ∈ shadowHandles s :=
  List.mem_append_right _ (List.mem_map.mpr ⟨(i, e), (mem_iff_mapGet h.rxWf i e).mpr he, rfl⟩)

theorem releaseTxSlot_returns (h : Booked s) (i : Nat) : ∃ t, releaseTxSlot i s = .ok () t := by
  simp only [releaseTxSlot, run_bind, run_getState]
  cases he : mapGet s.tx.shadow i with
  | none => exact ⟨s, rfl⟩
  | some e =>
    obtain ⟨m, hm⟩ := h.live (handle_mem_of_tx h he)
    simp only [run_bind, run_dmaUnmap hm, run_update]
    exact ⟨_, rfl⟩

theorem releaseRxSlot_returns (h : Booked s) (i : Nat) : ∃ t, releaseRxSlot i s = .ok () t := by
  simp only [releaseRxSlot, run_bind, run_getState]
  cases he : mapGet s.rx.shadow i with
  | none => exact ⟨s, rfl⟩
  | some e =>
    obtain ⟨m, hm⟩ := h.live (handle_mem_of_rx h he)
    simp only [run_bind, run_dmaUnmap hm, run_freeBuf, run_update]
    exact ⟨_, rfl⟩

/-- A slot's mapping is live, so its release returns, and leaves the books in order. -/
theorem releaseSlot_returns (r : Ring) (hs : s.fault = none) (h : Booked s) (i : Nat) :
    ∃ t, releaseSlot r i s = .ok () t ∧ t.fault = none ∧ Booked t := by
  cases r with
  | tx =>
    obtain ⟨t, ht⟩ := releaseTxSlot_returns h i
    obtain ⟨hbook, hf⟩ := Ends.of_ok (releaseTxSlot_book i s hs rfl) ht
    refine ⟨t, ht, hf, ?_⟩
    rcases hbook with ⟨-, hb⟩ | ⟨e, he, hh, hb⟩ <;> rw [Booked, hb]
    · exact h
    · exact h.dropTx he hh
  | rx =>
    obtain ⟨t, ht⟩ := releaseRxSlot_returns h i
    obtain ⟨hbook, hf⟩ := Ends.of_ok (releaseRxSlot_book i s hs rfl) ht
    refine ⟨t, ht, hf, ?_⟩
    rcases hbook with ⟨-, hb⟩ | ⟨e, he, hh, hb⟩ <;> rw [Booked, hb]
    · exact h
    · exact h.dropRx he hh

/-- The host may write every slot of the ring at `base`: its engine is off (R63). -/
structure Writable (r : Ring) (p : Params) (base : Nat) (s : State) : Prop where
  params : s.params = p
  desc : descValid s.params.desc = true
  laidOut : LaidOut s
  pending : ∀ w ∈ s.wb, w.addr % 4 = 0
  base : ringBase s r = some base
  off : dmaOn s r = false

theorem Writable.hostWrites (h : Writable r p base s) {slot : Nat} (hs : slot < capacity p r) : HostWrites s r slot base :=
  ⟨h.desc, h.laidOut, h.pending, h.params ▸ hs, h.base, .inr h.off⟩

theorem Writable.of_hostSide (h : Writable r p base s) (hs : hostSide t = hostSide s) (hw : ∀ w ∈ t.wb, w.addr % 4 = 0) :
    Writable r p base t where
  params := (params_of_hostSide hs).trans h.params
  desc := params_of_hostSide hs ▸ h.desc
  laidOut := laidOut_of_hostSide hs h.laidOut
  pending := hw
  base := (ringBase_of_hostSide hs r).trans h.base
  off := (dmaOn_of_hostSide hs r).trans h.off

theorem Writable.interleave (h : Writable r p base s) : Writable r p base (interleave s) :=
  h.of_hostSide (interleave_hostSide s) (interleave_aligned h.pending)

theorem writable_closed : Closed (ResetStep r) fun s t => Writable r p base s → Writable r p base t where
  refl _ h := h
  trans h h' x := h' (h x)
  step {s t} hst h := by
    cases hst with
    | unmap hst =>
      cases hst with
      | env => exact h.interleave
      | _ => exact ⟨h.params, h.desc, h.laidOut, h.pending, h.base, h.off⟩
    | written hb hs ha =>
      refine ⟨h.params, h.desc, h.laidOut, fun w hm => ?_, h.base, h.off⟩
      rcases List.mem_append.mp hm with hm | hm
      · exact h.pending w hm
      · rw [List.mem_singleton.mp hm]
        exact ha
    | zeroed => cases r <;> exact ⟨h.params, h.desc, h.laidOut, h.pending, h.base, h.off⟩
    | _ => cases r <;> exact ⟨h.params, h.desc, h.laidOut, h.pending, h.base, h.off⟩

/-- A write of 0 to a slot of such a ring is pending, and nothing else happens. -/
theorem memWrite_returns (h : Writable r p base s) {slot : Nat} (hs : slot < capacity p r) (w : DescWord) :
    ∃ t, memWrite r slot w 0 s = .ok () t ∧ Writable r p base t := by
  have hrun := run_memWrite (h.interleave.hostWrites hs) w 0
  have hi := h.interleave
  have ha := descWordAddr_aligned hi.desc (LaidOut.aligned hi.laidOut hi.base) slot w
  refine ⟨_, hrun, writable_closed.step ?_ hi⟩
  rw [← params_of_hostSide (interleave_hostSide s)]
  exact .written hi.base (by rw [hi.params]; exact hs) ha

theorem neutralSlot_returns (h : Writable r p base s) {slot : Nat} (hs : slot < capacity p r) :
    ∃ t, neutralSlot r slot s = .ok () t ∧ Writable r p base t := by
  obtain ⟨u, hu, hwu⟩ := memWrite_returns h hs .addr
  obtain ⟨t, ht, hwt⟩ := memWrite_returns hwu hs .flags
  exact ⟨t, by simp only [neutralSlot, run_bind, hu, ht], hwt⟩

/-- With the engine off the reset of the ring returns. -/
theorem ringReset_returns (hs : s.fault = none) (hb : Booked s) (hw : Writable r s.params base s) :
    ∃ t, ringReset r s = .ok () t := by
  obtain ⟨u, hu, -⟩ := forRange_returns (I := fun _ s => s.fault = none ∧ Booked s)
    (fun i _ _ h => releaseSlot_returns r h.1 h.2 i) (capacity s.params r) 0 s (Nat.zero_add _) ⟨hs, hb⟩
  have hwu := (Ends.of_ok (Follows.forRange writable_closed (releaseSlot_resetStep writable_closed) _ _ s hs) hu).1 hw
  obtain ⟨t, ht, -⟩ := forRange_returns (I := fun _ => Writable r s.params base)
    (fun i _ hi h => neutralSlot_returns h hi) (capacity s.params r) 0 u (Nat.zero_add _) hwu
  refine ⟨zeroCursors r t, ?_⟩
  simp only [ringReset, run_bind, run_getState, run_ite, hw.off, Bool.false_eq_true, if_false, hu, ht, run_update]

/-! ### The ring's descriptors are neutral -/

/-- The ring at `base` is being reset: the environment leaves the word of slot `i` alone, and the host reads 0 there once `b`. -/
structure Rewritten (r : Ring) (p : Params) (base i : Nat) (w : DescWord) (b : Prop) (s : State) : Prop where
  params : s.params = p
  placed : ringBase s r = some base
  steady : Steady s (descWordAddr p.desc base i w)
  zero : b → hostView s (descWordAddr p.desc base i w) = 0

variable {i : Nat} {w : DescWord} {b : Prop}

theorem rewritten_closed : Closed (ResetStep r) fun s t => Rewritten r p base i w b s → Rewritten r p base i w b t where
  refl _ h := h
  trans h h' x := h' (h x)
  step {s t} hst h := by
    have hsame := (sameBeyond_closed r).step hst
    refine ⟨hsame.params.trans h.params, hsame.base.trans h.placed, (steady_closed r _).step hst h.steady, fun hb => ?_⟩
    exact ((shows_closed r _ 0).step hst ⟨h.steady, h.zero hb, .inl rfl⟩).view

theorem Rewritten.imp {b' : Prop} (h : Rewritten r p base i w b s) (hb : b' → b) : Rewritten r p base i w b' s :=
  ⟨h.params, h.placed, h.steady, fun h' => h.zero (hb h')⟩

/-- A write of 0 to the word itself makes it read 0. -/
theorem memWrite_rewritten (j : Nat) (v : DescWord) :
    Ensures (Rewritten r p base i w b) (memWrite r j v 0) (fun _ => Rewritten r p base i w (b ∨ j = i ∧ v = w)) anyEnd := by
  intro s hs h
  have hkept := memWrite_resetStep (rewritten_closed (r := r) (base := base) (p := p) (i := i) (w := w) (b := b)) j v s hs
  rcases memWrite_cases r j v 0 s with ⟨e, he⟩ | he | ⟨c, hc, -, -, he⟩ <;> rw [he] at hkept ⊢
  · trivial
  · exact ⟨trivial, hkept.2⟩
  · have ht := hkept.1 h
    refine ⟨⟨ht.params, ht.placed, ht.steady, fun hb => ?_⟩, hkept.2⟩
    rcases hb with hb | ⟨rfl, rfl⟩
    · exact ht.zero hb
    · have hcb : c = base := Option.some.inj (hc.symm.trans ht.placed)
      have hp : (Machine.interleave s).params = p := ht.params
      rw [hostView_pushWrite, hp, hcb, if_pos rfl]

/-- The neutral rewrite reaches both words of every slot (R134). -/
theorem neutralSlots_rewritten (hi : i < capacity p r) :
    Ensures (Rewritten r p base i w False) (forRange (neutralSlot r) (capacity p r) 0)
      (fun _ => Rewritten r p base i w True) anyEnd := by
  refine ((Ensures.forRange (I := fun j => Rewritten r p base i w (i < j)) (k := capacity p r) (fun j _ => ?_) (capacity p r) 0
    (Nat.zero_add _)).before fun s h => h.imp (Nat.not_lt_zero i)).after fun _ s h => h.imp fun _ => hi
  refine Ensures.bind (memWrite_rewritten j .addr) fun _ =>
    (memWrite_rewritten j .flags).after fun _ s h => h.imp fun hij => ?_
  rcases Nat.lt_succ_iff_lt_or_eq.mp hij with hlt | rfl
  · exact .inl (.inl hlt)
  · cases w with
    | addr => exact .inl (.inr ⟨rfl, rfl⟩)
    | flags => exact .inr ⟨rfl, rfl⟩

theorem ringReset_rewritten (hi : i < capacity p r) :
    Ensures (Rewritten r p base i w False) (ringReset r) (fun _ => Rewritten r p base i w True) anyEnd := by
  refine Ensures.read fun u hu => Ensures.ite (fun _ => Ensures.raise fun _ _ => trivial) fun _ => ?_
  rw [hu.params]
  refine Ensures.bind (Q := fun _ => Rewritten r p base i w False) ?_ fun _ =>
    Ensures.bind (neutralSlots_rewritten hi) fun _ =>
      Ensures.update (fun s h => rewritten_closed.step .zeroed h) (zeroCursors_fault r)
  exact (Follows.forRange rewritten_closed (releaseSlot_resetStep rewritten_closed) _ _).ensures
    (fun s t hs h => h (hs ▸ hu)) fun _ _ _ _ => trivial

/-! ### The ring's books -/

/-- The receive ring, with books `l₀`, has been released up to slot `i`, and its buffers there freed. -/
structure EmptiedRx (l₀ : Ledger) (i : Nat) (l : Ledger) : Prop extends Fair False False [] l where
  left : ∀ j, mapGet l.rxShadow j = if j < i then none else mapGet l₀.rxShadow j
  held : ∀ b, mapHas l.liveBuffers b = true ↔
    mapHas l₀.liveBuffers b = true ∧ ∀ j e, j < i → mapGet l₀.rxShadow j = some e → e.buf ≠ b

theorem EmptiedRx.skip {l₀ l : Ledger} (h : EmptiedRx l₀ i l) (hi : mapHas l.rxShadow i = false) :
    EmptiedRx l₀ (i + 1) l := by
  have hnone : mapGet l.rxShadow i = none := by simpa [mapHas] using hi
  have hfree : mapGet l₀.rxShadow i = none := by simpa only [h.left i, Nat.lt_irrefl, if_false] using hnone
  refine ⟨h.toFair, fun j => ?_, fun b => (h.held b).trans (and_congr_right fun _ => ?_)⟩
  · rcases Nat.lt_trichotomy j i with hlt | rfl | hgt
    · rw [h.left j, if_pos hlt, if_pos (Nat.lt_succ_of_lt hlt)]
    · rw [hnone, if_pos (Nat.lt_succ_self j)]
    · rw [h.left j, if_neg (Nat.lt_asymm hgt), if_neg (by omega)]
  · refine forall_congr' fun j => forall_congr' fun e => ⟨fun hj hlt he => ?_, fun hj hlt => hj (Nat.lt_succ_of_lt hlt)⟩
    rcases Nat.lt_succ_iff_lt_or_eq.mp hlt with hlt | rfl
    · exact hj hlt he
    · rw [hfree] at he
      cases he

theorem EmptiedRx.drop {l₀ l : Ledger} {e : RxEntry} (h : EmptiedRx l₀ i l) (he : mapGet l.rxShadow i = some e)
    (hh : mapHas l.liveMaps e.handle = true) : EmptiedRx l₀ (i + 1) (dropRx i e l) := by
  have he₀ : mapGet l₀.rxShadow i = some e := by simpa only [h.left i, Nat.lt_irrefl, if_false] using he
  refine ⟨h.toFair.dropRx he hh, fun j => ?_, fun b => ?_⟩
  · rw [show (dropRx i e l).rxShadow = mapErase l.rxShadow i from rfl, mapGet_mapErase, h.left j]
    rcases Nat.lt_trichotomy j i with hlt | rfl | hgt
    · rw [if_neg (Nat.ne_of_lt hlt), if_pos hlt, if_pos (Nat.lt_succ_of_lt hlt)]
    · rw [if_pos rfl, if_pos (Nat.lt_succ_self j)]
    · rw [if_neg (Nat.ne_of_gt hgt), if_neg (Nat.lt_asymm hgt), if_neg (by omega)]
  · rw [show (dropRx i e l).liveBuffers = mapErase l.liveBuffers e.buf from rfl, mapHas_mapErase, Bool.and_eq_true,
      Bool.not_eq_true', decide_eq_false_iff_not, h.held b]
    constructor
    · rintro ⟨hne, hlive, hbefore⟩
      refine ⟨hlive, fun j e' hj he' => ?_⟩
      rcases Nat.lt_succ_iff_lt_or_eq.mp hj with hlt | rfl
      · exact hbefore j e' hlt he'
      · rw [he₀] at he'
        cases he'
        exact Ne.symm hne
    · rintro ⟨hlive, hall⟩
      exact ⟨(hall i e (Nat.lt_succ_self i) he₀).symm, hlive, fun j e' hj => hall j e' (Nat.lt_succ_of_lt hj)⟩

/-- The reset of the receive ring empties its shadow and frees the buffers that stood in it. -/
theorem ringResetRx_empties {l₀ : Ledger} :
    Ensures (fun s => book s = l₀ ∧ Booked s) (ringReset .rx) (fun _ s => Booked s ∧ s.rx.cursor = 0 ∧ s.rx.shadow = [] ∧
      ∀ b, mapHas s.liveBuffers b = true ↔
        mapHas l₀.liveBuffers b = true ∧ ∀ j e, mapGet l₀.rxShadow j = some e → e.buf ≠ b) anyEnd := by
  refine Ensures.read fun u ⟨hl₀, hu⟩ => Ensures.ite (fun _ => Ensures.raise fun _ _ => trivial) fun _ => ?_
  have hrange : ∀ {j e}, mapGet l₀.rxShadow j = some e → j < capacity u.params .rx := by
    subst hl₀
    exact fun he => hu.range _ ((mapHas_iff _ _).mpr ⟨_, he⟩)
  refine Ensures.bind (Q := fun _ s => EmptiedRx l₀ (capacity u.params .rx) (book s)) ?release fun _ =>
    Ensures.bind ((neutralSlots_follows .rx _ _).booked _) fun _ => Ensures.update fun s h => ?zeroed
  case release =>
    refine (Ensures.forRange (I := fun i s => EmptiedRx l₀ i (book s)) (k := capacity u.params .rx) (fun i _ => ?_)
      (capacity u.params .rx) 0 (Nat.zero_add _)).before fun s hs => ?_
    · refine Ensures.each fun l hl => (releaseRxSlot_book i).after fun _ s h => ?_
      rcases h with ⟨hi, h⟩ | ⟨e, he, hh, h⟩ <;> rw [h]
      · exact hl.skip hi
      · exact hl.drop he hh
    · subst hs hl₀
      exact ⟨hu, fun j => rfl, fun b => ⟨fun h => ⟨h, fun j _ hj => absurd hj (Nat.not_lt_zero j)⟩, And.left⟩⟩
  case zeroed =>
    refine ⟨{ h.toFair with }, rfl, eq_nil_of_mapHas fun j => ?_, fun b => (h.held b).trans (and_congr_right fun _ => ?_)⟩
    · have hj := h.left j
      rw [mapHas, show (zeroCursors .rx s).rx.shadow = (book s).rxShadow from rfl, hj]
      split
      · rfl
      · cases he : mapGet l₀.rxShadow j with
        | none => rfl
        | some e => exact absurd (hrange he) ‹_›
    · exact forall₂_congr fun j e => ⟨fun hb he => hb (hrange he) he, fun hb _ => hb⟩

/-- The reset of the transmit ring empties its shadow, and no packet is left. -/
theorem ringResetTx_empties {full : Prop} :
    Ensures (fun s => (book s).Sound full False) (ringReset .tx) (fun _ s => Booked s ∧ s.tx.head = 0 ∧ s.tx.tail = 0 ∧
      s.tx.shadow = [] ∧ s.pkts = []) anyEnd := by
  refine ringResetTx_book.after fun _ s ⟨hsound, hempty⟩ => ?_
  refine ⟨(hsound.imp False.elim).toFair, hempty.head, hempty.tail, hempty.shadow, eq_nil_of_mapHas fun k => ?_⟩
  rw [← Bool.not_eq_true]
  intro hk
  obtain ⟨slot, e, he, -⟩ := hsound.packets k hk
  rw [hempty.shadow] at he
  cases he

/-- What the reset of a ring leaves of its books. -/
theorem ringReset_empties {full : Prop} (hs : s.fault = none) (hsound : (book s).Sound full False)
    (ht : ringReset r s = .ok () t) :
    Booked t ∧ (r = .tx → t.tx.head = 0 ∧ t.tx.tail = 0 ∧ t.tx.shadow = [] ∧ t.pkts = []) ∧
      (r = .rx → t.rx.cursor = 0 ∧ t.rx.shadow = [] ∧
        ∀ b, mapHas t.liveBuffers b = true ↔ mapHas s.liveBuffers b = true ∧ ¬RingBuffer s b) := by
  cases r with
  | tx =>
    obtain ⟨hbooked, hempty⟩ := (Ends.of_ok (ringResetTx_empties s hs hsound) ht).1
    exact ⟨hbooked, fun _ => hempty, nofun⟩
  | rx =>
    obtain ⟨hbooked, hcursor, hshadow, hbufs⟩ :=
      (Ends.of_ok (ringResetRx_empties s hs ⟨rfl, (hsound.imp False.elim).toFair⟩) ht).1
    refine ⟨hbooked, nofun, fun _ => ⟨hcursor, hshadow, fun b => (hbufs b).trans (and_congr_right fun _ => ?_)⟩⟩
    exact ⟨fun h ⟨i, e, he, hb⟩ => h i e he hb, fun h i e he hb => h ⟨i, e, he, hb⟩⟩

/-! ### The reset as a whole -/

/-- With its engine off, no engine writes the ring's own words: the other ring lies elsewhere (R293). -/
theorem Writable.quiet (h : Writable r p base s) {i : Nat} (hi : i < capacity p r) (w : DescWord) :
    Quiet s (descWordAddr p.desc base i w) := by
  have hd : descValid p.desc = true := h.params ▸ h.desc
  refine ⟨h.desc, h.pending, descWordAddr_aligned hd (LaidOut.aligned h.laidOut h.base) i w, fun x b hb hon => ?_⟩
  have hw := (wordOffset_lt hd w).1
  have hapart : ∀ tx rx, s.tx.base = some tx → s.rx.base = some rx → BasesApart p tx rx := fun tx rx htx hrx =>
    h.params ▸ h.laidOut.2.2 tx rx htx hrx
  have hbase := h.base
  have hoff := h.off
  rw [h.params]
  cases r <;> cases x
  case tx.tx | rx.rx => exact absurd (hon.symm.trans hoff) (by decide)
  case tx.rx =>
    have := hapart base b hbase hb
    simp only [BasesApart, OutsideRing, descWordAddr, descBytes] at this ⊢
    omega
  case rx.tx =>
    have := hapart b base hb hbase
    simp only [BasesApart, OutsideRing, descWordAddr, descBytes] at this ⊢
    omega

/-- No engine writes a word outside both rings. -/
theorem Writable.quiet_outside (h : Writable r p base s) {a : Nat} (ha : a % 4 = 0) (hout : OutsideRings s a) : Quiet s a :=
  ⟨h.desc, h.pending, ha, fun x b hb _ => by
    cases x with
    | tx => exact hout.1 b hb
    | rx => exact hout.2 b hb⟩

/-- The books of a ready adapter are in order. -/
theorem RingsReady.sound (h : RingsReady s) : (book s).Sound (s.adapter = .running) False := by
  obtain ⟨-, -, -, -, -, hcanon, hsh⟩ := h
  exact (settled_of_consistent hcanon hsh).untracked

theorem RingsReady.writable (h : RingsReady s) (hoff : dmaOn s r = false) (hbase : ringBase s r = some base) :
    Writable r s.params base s := by
  obtain ⟨hp, -, -, hl, ⟨-, hw⟩, -⟩ := h
  exact ⟨rfl, descValid_of_paramsValid hp, hl, fun e he => (hw e he).2, hbase, hoff⟩

theorem SameBeyond.fields (h : SameBeyond r s t) :
    t.counters = s.counters ∧ t.link = s.link ∧ t.adapter = s.adapter ∧ t.timerArmed = s.timerArmed ∧
      t.irqAcquired = s.irqAcquired ∧ t.nextPkt = s.nextPkt ∧ t.dev.macTxcfg = s.dev.macTxcfg ∧
      t.dev.intArmed = s.dev.intArmed ∧ t.dev.txDmaOn = s.dev.txDmaOn ∧ t.dev.rxDmaOn = s.dev.rxDmaOn := by
  have h := h.eq
  cases r <;>
    exact ⟨congrArg (·.counters) h, congrArg (·.link) h, congrArg (·.adapter) h, congrArg (·.timerArmed) h,
      congrArg (·.irqAcquired) h, congrArg (·.nextPkt) h, congrArg (·.dev.macTxcfg) h, congrArg (·.dev.intArmed) h,
      congrArg (·.dev.txDmaOn) h, congrArg (·.dev.rxDmaOn) h⟩

/-- The transmit ring once it is empty, and what the receive ring keeps. -/
theorem SameBeyond.tx (h : SameBeyond .tx s t) (hhead : t.tx.head = 0) (htail : t.tx.tail = 0) (hshadow : t.tx.shadow = []) :
    t.tx = { s.tx with head := 0, tail := 0, shadow := [] } ∧ t.rx = s.rx ∧ t.liveBuffers = s.liveBuffers := by
  have hbase : t.tx.base = s.tx.base := h.base
  have hstopped : t.tx.stopped = s.tx.stopped := congrArg (·.tx.stopped) h.eq
  refine ⟨?_, congrArg (·.rx) h.eq, congrArg (·.liveBuffers) h.eq⟩
  calc t.tx = ⟨t.tx.base, t.tx.head, t.tx.tail, t.tx.shadow, t.tx.stopped⟩ := rfl
    _ = ⟨s.tx.base, 0, 0, [], s.tx.stopped⟩ := by rw [hbase, hstopped, hhead, htail, hshadow]

theorem SameBeyond.rx (h : SameBeyond .rx s t) (hcursor : t.rx.cursor = 0) (hshadow : t.rx.shadow = []) :
    t.rx = { s.rx with cursor := 0, shadow := [] } ∧ t.tx = s.tx ∧ t.pkts = s.pkts := by
  have hbase : t.rx.base = s.rx.base := h.base
  refine ⟨?_, congrArg (·.tx) h.eq, congrArg (·.pkts) h.eq⟩
  calc t.rx = ⟨t.rx.base, t.rx.cursor, t.rx.shadow⟩ := rfl
    _ = ⟨s.rx.base, 0, []⟩ := by rw [hbase, hcursor, hshadow]

end Reset

/-- Settles O18: every mapping of the ring is live, so with the engine off the reset runs to its end; what it leaves alone is what
each of its micro-steps does. -/
theorem ringResetEmptiesTheRing : Obligations.RingResetEmptiesTheRing := by
  have hexec : ∀ {s : State} (r : Ring), Alive s →
      exec (.ringReset r) s = finish conclude ((do ringReset r; pure .ok : M OpOutcome) s) := fun r ha => internalOp_running ha _
  refine ⟨fun r s ha hon => ?_, fun r s base ha hready hoff hbase => ?_⟩
  · rw [hexec r ha]
    simp only [ringReset, run_bind, run_getState, run_ite, hon, if_true, run_raise, finish]
  have hsound := RingsReady.sound hready
  have hwritable := RingsReady.writable hready hoff hbase
  obtain ⟨t, ht⟩ := ringReset_returns ha.1 (hsound.imp False.elim).toFair hwritable
  have hkept : ∀ {R : State → State → Prop}, Closed (ResetStep r) R → R s t ∧ t.fault = none := fun {R} hR =>
    Ends.of_ok (Q := fun _ => R s) (ringReset_resetStep hR s ha.1) ht
  obtain ⟨hsame, hfault⟩ := hkept (sameBeyond_closed r)
  obtain ⟨hbooked, htx, hrx⟩ := ringReset_empties ha.1 hsound ht
  have hzero : ∀ i, i < capacity s.params r → ∀ w, hostView t (descWordAddr s.params.desc base i w) = 0 := fun i hi w =>
    (Ends.of_ok (ringReset_rewritten hi s ha.1 ⟨rfl, hbase, .inr (hwritable.quiet hi w), False.elim⟩) ht).1.zero trivial
  have hviews : ∀ a, Steady s a → OutsideRing base (capacity s.params r) a → hostView t a = hostView s a := fun a hsteady hout =>
    ((hkept (shows_closed r a (hostView s a))).1 ⟨hsteady, rfl, .inr ⟨hwritable.desc, fun b hb => by
      rw [hbase] at hb
      cases hb
      exact hout⟩⟩).view
  refine ⟨conclude .ok t, ?runs, hfault, rfl, ?tx, ?rx, fun i hi => ⟨hzero i hi .flags, hzero i hi .addr⟩,
    fun h => ((mapHas_iff_mem_keys _ h).trans hbooked.handles.mem_iff), ?txBuffers, fun h => (hrx h).2.2,
    fun b hmaps hring => ((hkept (spared_closed r b)).1 ⟨hmaps, hring⟩).2, fun a hal hout => ?beyond,
    fun hs a hal hout => hviews a (.inl hs) hout, hsame.fields⟩
  case runs =>
    rw [hexec r ha]
    simp only [run_bind, ht, run_pure, finish]
  case tx =>
    rintro rfl
    obtain ⟨hhead, htail, hshadow, hpkts⟩ := htx rfl
    obtain ⟨htx', hrx', -⟩ := hsame.tx hhead htail hshadow
    exact ⟨htx', hrx', hpkts⟩
  case rx =>
    rintro rfl
    obtain ⟨hcursor, hshadow, -⟩ := hrx rfl
    exact hsame.rx hcursor hshadow
  case txBuffers =>
    rintro rfl
    obtain ⟨hhead, htail, hshadow, -⟩ := htx rfl
    obtain ⟨-, -, hbufs⟩ := hsame.tx hhead htail hshadow
    exact hbufs
  case beyond =>
    refine hviews a (.inr (hwritable.quiet_outside hal hout)) ?_
    cases r with
    | tx => exact hout.1 base hbase
    | rx => exact hout.2 base hbase

end Sys2Proof.Rings
end

section
/-! PROOFS. The admission of a packet: which packets `TRANSMIT` refuses, and which it turns away as busy (R151 to R154). -/

namespace Sys2Proof.Transmit

open Sys2Proof.Machine Sys2Proof.Laws

section Admission

variable {p : Params} {pkt : Packet} {s : State}

/-! ### What R151 finds wrong -/

/-- No fragment's length is out of range (R151). -/
def LengthsFit (p : Params) (pkt : Packet) : Prop := ∀ f ∈ pkt.frags, 1 ≤ f.len ∧ f.len ≤ fieldMax p.desc.txSize

theorem any_badLength_iff : (pkt.frags.any fun f => decide (f.len < 1) || decide (fieldMax p.desc.txSize < f.len)) = true ↔
    ¬ LengthsFit p pkt := by
  simp only [LengthsFit, List.any_eq_true, Bool.or_eq_true, decide_eq_true_eq, not_forall, not_and_or, Nat.not_le, exists_prop]

theorem validatePacket_badCount (h : pkt.frags.length < 1 ∨ p.kMax < pkt.frags.length) :
    validatePacket p pkt = some .badFragmentCount := if_pos h

theorem validatePacket_badLength (h : ¬ (pkt.frags.length < 1 ∨ p.kMax < pkt.frags.length)) (hlen : ¬ LengthsFit p pkt) :
    validatePacket p pkt = some .badFragmentLength := by
  rw [validatePacket, if_neg h, if_pos (any_badLength_iff.mpr hlen)]

/-- What R151 finds wrong with a checksum request. -/
def checksumProblem (p : Params) : CsRequest → Option Refusal
  | .none => none
  | .offsets start stuff =>
    if fieldMax p.desc.csStart < start ∨ fieldMax p.desc.csStuff < stuff then some .checksumOffsetRange else none

/-- With count and lengths in order, the checksum request decides. -/
theorem validatePacket_checksum (h : ¬ (pkt.frags.length < 1 ∨ p.kMax < pkt.frags.length)) (hlen : LengthsFit p pkt) :
    validatePacket p pkt = checksumProblem p pkt.cs := by
  rw [validatePacket, if_neg h, if_neg (mt any_badLength_iff.mp (not_not.mpr hlen))]
  cases pkt.cs <;> rfl

theorem validatePacket_badChecksum {start stuff : Nat} (h : ¬ (pkt.frags.length < 1 ∨ p.kMax < pkt.frags.length))
    (hlen : LengthsFit p pkt) (hcs : pkt.cs = .offsets start stuff)
    (hbad : fieldMax p.desc.csStart < start ∨ fieldMax p.desc.csStuff < stuff) :
    validatePacket p pkt = some .checksumOffsetRange := by
  rw [validatePacket_checksum h hlen, hcs]
  exact if_pos hbad

theorem validatePacket_valid (h : PacketValid p pkt) : validatePacket p pkt = none := by
  obtain ⟨hpos, hmax, hlen, hcs⟩ := h
  rw [validatePacket_checksum (by omega) hlen]
  cases hreq : pkt.cs with
  | none => rfl
  | offsets start stuff =>
    obtain ⟨hstart, hstuff⟩ := hcs start stuff hreq
    exact if_neg (not_or.mpr ⟨Nat.not_lt.mpr hstart, Nat.not_lt.mpr hstuff⟩)

/-! ### Admission (R151 to R154) -/

theorem exec_transmit (hr : Ready s) (pkt : Packet) :
    exec (.transmit pkt) s = finish leave (transmit pkt (enter .process s)) := hostOp_ready hr .process (transmit pkt)

theorem transmit_refused {r : Refusal} (h : validatePacket s.params pkt = some r) :
    transmit pkt s = .error (.refused r) s := by
  simp only [transmit, run_bind, run_getState, h, run_refuse]

theorem transmit_busy (hv : validatePacket s.params pkt = none)
    (h : s.adapter ≠ .running ∨ s.tx.stopped = true ∨ freeSlots s < pkt.frags.length + 1) :
    transmit pkt s = .ok .busy s := by
  simp only [transmit, run_bind, run_getState, hv, run_ite, run_pure]
  by_cases hadapter : s.adapter ≠ .running
  · exact if_pos hadapter
  · by_cases hstopped : s.tx.stopped = true
    · rw [if_neg hadapter, if_pos hstopped]
    · have hroom : freeSlots s < pkt.frags.length + 1 := (h.resolve_left hadapter).resolve_left hstopped
      rw [if_neg hadapter, if_neg hstopped, if_pos hroom]

/-- What `TRANSMIT` does with the answer of the mapping phase (R155 to R160). -/
def sendOrDrop (pkt : Packet) : Option (List Mapped) → M OpOutcome
  | none => do
    count fun c => { c with txDropped := c.txDropped + 1 }
    pure .droppedMapping
  | some ms => do
    publishPacket pkt ms
    update (advanceHead pkt)
    backpressure
    mmioWrite .doorbell .kick
    pure .accepted

/-- `TRANSMIT` looks at the packet, and it finds the adapter running, the queue started and room (R151 to R154). -/
structure Admits (s : State) (pkt : Packet) : Prop where
  valid : PacketValid s.params pkt
  adapter : s.adapter = .running
  started : s.tx.stopped = false
  room : pkt.frags.length + 1 ≤ freeSlots s

theorem transmit_admitted (h : Admits s pkt) : transmit pkt s = (mapFragments pkt.frags [] >>= sendOrDrop pkt) s := by
  obtain ⟨hv, hadapter, hstarted, hroom⟩ := h
  simp only [transmit, run_bind, run_getState, validatePacket_valid hv, run_ite, hadapter, hstarted, Nat.not_lt.mpr hroom,
    ne_eq, not_true_eq_false, Bool.false_eq_true, if_false]
  split
  · split <;> rfl
  · rfl

theorem exec_transmit_refused {r : Refusal} (hr : Ready s) (h : validatePacket s.params pkt = some r) :
    exec (.transmit pkt) s = .refused r := by
  rw [exec_transmit hr, transmit_refused (s := enter .process s) h]
  rfl

end Admission

/-- Settles O19: the checks run in the order of R151 to R154, and the first that fails answers before any micro-step. -/
theorem transmitTurnsPacketsAway : Obligations.TransmitTurnsPacketsAway := by
  refine ⟨fun s pkt hr => ⟨fun hcount => ?count, fun hpos hmax hlen => ?length, fun hpos hmax hlen hcs => ?checksum⟩,
    fun s pkt hr hv hbusy => ?busy⟩
  case count => exact exec_transmit_refused hr (validatePacket_badCount hcount)
  case length =>
    obtain ⟨f, hf, hbad⟩ := hlen
    refine exec_transmit_refused hr (validatePacket_badLength (by omega) fun hfit => ?_)
    obtain ⟨hlow, hhigh⟩ := hfit f hf
    exact hbad.elim (Nat.not_lt.mpr hlow) (Nat.not_lt.mpr hhigh)
  case checksum =>
    obtain ⟨start, stuff, hreq, hbad⟩ := hcs
    exact exec_transmit_refused hr (validatePacket_badChecksum (by omega) hlen hreq hbad)
  case busy =>
    obtain ⟨halive, hlock⟩ := hr
    rw [exec_transmit ⟨halive, hlock⟩, transmit_busy (s := enter .process s) (validatePacket_valid hv) hbusy]
    simp only [finish, leave, enter, hlock]

end Sys2Proof.Transmit
end

section
/-! PROOFS. A state that is another but for what the environment did meanwhile; and the mapping phase of `TRANSMIT`, whose failure
gives back every mapping (R14, R77, R155). -/

namespace Sys2Proof.Transmit

open Sys2Proof.Machine Sys2Proof.Laws

/-! ### Runs that agent steps fall into (R14) -/

/-- The state `t` is `u` but for what agent steps have done: their host's sides are equal, and with no schedule they are one. -/
structure Tracks (t u : State) : Prop where
  side : hostSide t = hostSide u
  same : u.sched = [] → t = u

/-- The update reads and writes the host's side alone, and leaves the schedule as it is. -/
structure HostUpdate (f : State → State) : Prop where
  side : ∃ g : State → State, ∀ s, hostSide (f s) = g (hostSide s)
  sched : ∀ s, (f s).sched = s.sched

theorem HostUpdate.comp {f g : State → State} (hf : HostUpdate f) (hg : HostUpdate g) : HostUpdate fun s => f (g s) := by
  obtain ⟨⟨f', hf'⟩, hfs⟩ := hf
  obtain ⟨⟨g', hg'⟩, hgs⟩ := hg
  exact ⟨⟨fun s => f' (g' s), fun s => by rw [hf', hg']⟩, fun s => (hfs _).trans (hgs s)⟩

theorem hostUpdate_emitted (e : Event) : HostUpdate (emitted e) :=
  ⟨⟨fun u => { u with trace := u.trace ++ (hostEvent e).toList }, hostSide_emitted e⟩, fun _ => rfl⟩

section Tracks

variable {t u : State}

theorem Tracks.refl (s : State) : Tracks s s := ⟨rfl, fun _ => rfl⟩

/-- What the environment does before a micro-step is not seen. -/
theorem Tracks.interleave (h : Tracks t u) : Tracks (interleave t) u :=
  ⟨(interleave_hostSide t).trans h.side, fun hs => by rw [h.same hs, interleave_nil u hs]⟩

theorem Tracks.update {f : State → State} (hf : HostUpdate f) (h : Tracks t u) : Tracks (f t) (f u) := by
  obtain ⟨⟨g, hg⟩, hsched⟩ := hf
  exact ⟨by rw [hg, hg, h.side], fun hs => by rw [h.same ((hsched u).symm.trans hs)]⟩

/-- A micro-step: the environment acts, and then the host. -/
theorem Tracks.step {f : State → State} (hf : HostUpdate f) (h : Tracks t u) : Tracks (f (Machine.interleave t)) (f u) :=
  h.interleave.update hf

theorem Tracks.liveMaps (h : Tracks t u) : t.liveMaps = u.liveMaps := by simp only [hostSide_fields h.side]

theorem Tracks.params (h : Tracks t u) : t.params = u.params := by simp only [hostSide_fields h.side]

theorem Tracks.dmaMap (h : Tracks t u) : t.draws.dmaMap = u.draws.dmaMap := by
  obtain ⟨-, -, -, hdraws, -⟩ := Alike.draws h.side
  exact hdraws

end Tracks

/-- An operation that returns in a state that is `u` but for agent steps completes as `u` says. -/
theorem completes_of_tracks {i : Instr} {s t u : State} (hrun : exec i s = .next t) (h : Tracks t u) (hs : u.sched = s.sched) :
    Completes i s u := ⟨t, hrun, h.side, fun hnil => h.same (hs.trans hnil)⟩

/-! ### Mapping a fragment (R77) -/

/-- A mapping is granted: the answer `d` is taken, and the mapping is live. -/
def granted (buf : Nat) (d : Nat × Nat) (rest : List (Option (Nat × Nat))) (s : State) : State :=
  emitted (.map buf d.1)
    { s with draws := { s.draws with dmaMap := rest }, liveMaps := mapSet s.liveMaps d.1 ⟨buf, d.2⟩ }

theorem hostUpdate_granted (buf : Nat) (d : Nat × Nat) (rest : List (Option (Nat × Nat))) : HostUpdate (granted buf d rest) :=
  (hostUpdate_emitted _).comp ⟨⟨fun u => { u with
    draws := { u.draws with dmaMap := rest }, liveMaps := mapSet u.liveMaps d.1 ⟨buf, d.2⟩ }, fun _ => rfl⟩, fun _ => rfl⟩

theorem run_dmaMap_granted {s : State} {d : Nat × Nat} {rest : List (Option (Nat × Nat))}
    (h : s.draws.dmaMap = some d :: rest) (hok : checkMap s d = some d) (buf : Nat) :
    dmaMap buf s = .ok (some d) (granted buf d rest (interleave s)) := by
  have hmaps : (interleave s).liveMaps = s.liveMaps := by simp only [hostSide_fields (interleave_hostSide s)]
  rw [run_dmaMap_ok h hok buf, granted, hmaps]

/-- A mapping is refused: the answer is taken. -/
def withMapDraws (rest : List (Option (Nat × Nat))) (s : State) : State := { s with draws := { s.draws with dmaMap := rest } }

theorem hostUpdate_withMapDraws (rest : List (Option (Nat × Nat))) : HostUpdate (withMapDraws rest) :=
  ⟨⟨withMapDraws rest, fun _ => rfl⟩, fun _ => rfl⟩

/-! ### Mapping a packet's fragments (R155) -/

/-- The fragments with the answers of `DmaMap` to them. -/
def fragsWith (fs : List Fragment) (maps : List (Nat × Nat)) : List Mapped := (fs.zip maps).map fun fd => ⟨fd.1, fd.2.1, fd.2.2⟩

/-- The live mappings once those of `done` are made, the newest first. -/
def withMaps (done : List Mapped) (l : Table MapEntry) : Table MapEntry :=
  done.foldr (fun m l => mapSet l m.handle ⟨m.frag.buf, m.da⟩) l

/-- The mapping phase with the fragments of `done` mapped, the newest first, and the answers `rest` still to come. -/
def mappingState (s : State) (done : List Mapped) (rest : List (Option (Nat × Nat))) : State :=
  { s with
    draws := { s.draws with dmaMap := rest }
    liveMaps := withMaps done s.liveMaps
    trace := s.trace ++ done.reverse.map fun m => .map m.frag.buf m.handle }

theorem granted_mappingState (s : State) (done : List Mapped) (f : Fragment) (d : Nat × Nat)
    (rest rest' : List (Option (Nat × Nat))) :
    granted f.buf d rest (mappingState s done rest') = mappingState s (⟨f, d.1, d.2⟩ :: done) rest := by
  simp only [granted, mappingState, emitted, withMaps, List.foldr_cons, List.reverse_cons, List.map_append, List.map_cons,
    List.map_nil, List.append_assoc]

/-- The handles of `done` and of the answers `maps` are one for each fragment, and none of them was live. -/
structure FreshHandles (l : Table MapEntry) (done : List Mapped) (maps : List (Nat × Nat)) : Prop where
  nodup : (done.map (·.handle) ++ maps.map (·.1)).Nodup
  unused : ∀ h ∈ done.map (·.handle) ++ maps.map (·.1), mapHas l h = false

theorem mapHas_withMaps {l : Table MapEntry} {h : Nat} : ∀ {done : List Mapped}, h ∉ done.map (·.handle) →
    mapHas (withMaps done l) h = mapHas l h
  | [], _ => rfl
  | m :: done, hnew => by
    rw [List.map_cons, List.mem_cons, not_or] at hnew
    obtain ⟨hne, hnew⟩ := hnew
    rw [show withMaps (m :: done) l = mapSet (withMaps done l) m.handle ⟨m.frag.buf, m.da⟩ from rfl, mapHas_mapSet,
      decide_eq_false hne, Bool.false_or, mapHas_withMaps hnew]

theorem mapWf_withMaps {l : Table MapEntry} (hl : mapWf l = true) : ∀ done : List Mapped, mapWf (withMaps done l) = true
  | [] => hl
  | _ :: done => mapWf_mapSet _ _ _ (mapWf_withMaps hl done)

theorem FreshHandles.shift {l : Table MapEntry} {done : List Mapped} {d : Nat × Nat} {maps : List (Nat × Nat)} (f : Fragment)
    (h : FreshHandles l done (d :: maps)) : FreshHandles l (⟨f, d.1, d.2⟩ :: done) maps := by
  have hperm : ((⟨f, d.1, d.2⟩ :: done).map Mapped.handle ++ maps.map (·.1)).Perm
      (done.map Mapped.handle ++ (d :: maps).map (·.1)) := List.perm_middle.symm
  exact ⟨hperm.nodup_iff.mpr h.nodup, fun x hx => h.unused x (hperm.mem_iff.mp hx)⟩

theorem FreshHandles.next {l : Table MapEntry} {done : List Mapped} {d : Nat × Nat} {maps : List (Nat × Nat)}
    (h : FreshHandles l done (d :: maps)) : mapHas (withMaps done l) d.1 = false := by
  have hnew : d.1 ∉ done.map Mapped.handle := fun hd => (List.nodup_append.mp h.nodup).2.2 _ hd _ (List.mem_cons_self ..) rfl
  rw [mapHas_withMaps hnew]
  exact h.unused d.1 (List.mem_append_right _ List.mem_cons_self)

/-- Device addresses that `DmaMap` may answer (R77, R293). -/
def AddressesAllowed (p : Params) (maps : List (Nat × Nat)) : Prop := ∀ d ∈ maps, d.2 < 2 ^ p.desc.addrBits ∧ d.2 % 4 = 0

/-- The mapping phase takes every granted answer in turn. What mapping keeps whatever the environment does, the phase keeps. -/
theorem mapFragments_granted {I : State → Prop} (hI : ∀ buf d rest s, I s → I (granted buf d rest (interleave s)))
    {s : State} {rest : List (Option (Nat × Nat))} :
    ∀ (maps : List (Nat × Nat)) (fs : List Fragment) (done : List Mapped) (t : State), maps.length ≤ fs.length →
      FreshHandles s.liveMaps done maps → AddressesAllowed s.params maps →
      Tracks t (mappingState s done (maps.map some ++ rest)) → I t →
      ∃ t', mapFragments fs done t =
          mapFragments (fs.drop maps.length) ((fragsWith fs maps).reverse ++ done) t' ∧
        Tracks t' (mappingState s ((fragsWith fs maps).reverse ++ done) rest) ∧ I t'
  | [], fs, done, t, _, _, _, ht, hIt => ⟨t, by simp [fragsWith], by simpa [fragsWith] using ht, hIt⟩
  | d :: maps, [], _, _, hlen, _, _, _, _ => absurd hlen (by simp)
  | d :: maps, f :: fs, done, t, hlen, hfresh, haddr, ht, hIt => by
    obtain ⟨hd, haddr'⟩ := List.forall_mem_cons.mp haddr
    have hcheck : checkMap t d = some d := by
      rw [checkMap, ht.liveMaps, ht.params]
      exact if_pos ⟨hfresh.next, hd⟩
    have hrun := run_dmaMap_granted (ht.dmaMap) hcheck f.buf
    have hstep := ht.step (hostUpdate_granted f.buf d (maps.map some ++ rest))
    rw [granted_mappingState] at hstep
    obtain ⟨t', hrun', ht', hI'⟩ := mapFragments_granted hI maps fs (⟨f, d.1, d.2⟩ :: done) _ (Nat.le_of_succ_le_succ hlen)
      (hfresh.shift f) haddr' hstep (hI f.buf d _ t hIt)
    have hdone : (fragsWith (f :: fs) (d :: maps)).reverse ++ done =
        (fragsWith fs maps).reverse ++ ⟨f, d.1, d.2⟩ :: done := by
      simp only [fragsWith, List.zip_cons_cons, List.map_cons, List.reverse_cons, List.append_assoc, List.singleton_append]
    refine ⟨t', ?_, hdone ▸ ht', hI'⟩
    rw [mapFragments, run_bind, hrun, hdone]
    exact hrun'

/-! ### Giving the mappings back (R155) -/

/-- One mapping is given back. -/
def unmapped (m : Mapped) (s : State) : State := emitted (.unmap m.handle) (releaseMap m.handle ⟨m.frag.buf, m.da⟩ s)

theorem hostUpdate_unmapped (m : Mapped) : HostUpdate (unmapped m) :=
  (hostUpdate_emitted _).comp ⟨⟨fun u => { u with
    syncWindows := mapErase u.syncWindows m.da, liveMaps := mapErase u.liveMaps m.handle }, fun _ => rfl⟩, fun _ => rfl⟩

/-- The mappings of `ms` are given back in this order, which leaves the live mappings `l`. -/
def unwound (ms : List Mapped) (l : Table MapEntry) (s : State) : State :=
  { s with
    liveMaps := l
    bufMem := ms.foldl (fun b m => showAll s.dmaMem m.frag.buf b) s.bufMem
    syncWindows := ms.foldl (fun w m => mapErase w m.da) s.syncWindows
    trace := s.trace ++ ms.map fun m => .unmap m.handle }

theorem unwound_unmapped (m : Mapped) (ms : List Mapped) (l : Table MapEntry) (s : State) :
    unwound ms l (unmapped m s) = unwound (m :: ms) l s := by
  simp only [unwound, unmapped, emitted, releaseMap, List.foldl_cons, List.map_cons, List.append_assoc, List.singleton_append]

theorem unmapAll_unwinds {l : Table MapEntry} (hl : mapWf l = true) :
    ∀ (ms : List Mapped) (t u : State), FreshHandles l ms [] → u.liveMaps = withMaps ms l → Tracks t u →
      ∃ t', unmapAll ms t = .ok () t' ∧ Tracks t' (unwound ms l u)
  | [], t, u, _, hmaps, ht => by
    have hu : unwound [] l u = u := by
      simp only [unwound, List.foldl_nil, List.map_nil, List.append_nil, ← hmaps.trans (show withMaps [] l = l from rfl)]
    exact ⟨t, rfl, hu.symm ▸ ht⟩
  | m :: ms, t, u, hfresh, hmaps, ht => by
    have hrest : FreshHandles l ms [(m.handle, m.da)] := by
      have hperm : ((m :: ms).map Mapped.handle ++ []).Perm (ms.map Mapped.handle ++ [m.handle]) := by
        simpa using (List.perm_append_comm (l₁ := [m.handle]))
      exact ⟨hperm.nodup_iff.mp hfresh.nodup, fun x hx => hfresh.unused x (hperm.mem_iff.mpr hx)⟩
    have hlive : mapGet t.liveMaps m.handle = some ⟨m.frag.buf, m.da⟩ := by
      rw [ht.liveMaps, hmaps]
      exact mapGet_mapSet_same ..
    have hleft : (unmapped m u).liveMaps = withMaps ms l := by
      show mapErase u.liveMaps m.handle = withMaps ms l
      rw [hmaps]
      exact mapErase_mapSet_fresh _ _ _ (mapWf_withMaps hl ms) hrest.next
    have htail : FreshHandles l ms [] := by
      obtain ⟨hnodup, hunused⟩ := hrest
      exact ⟨by simpa using (List.nodup_append.mp hnodup).1,
        fun x hx => hunused x (List.mem_append_left _ (by simpa using hx))⟩
    obtain ⟨t', hrun, ht'⟩ := unmapAll_unwinds hl ms _ _ htail hleft (ht.step (hostUpdate_unmapped m))
    refine ⟨t', ?_, unwound_unmapped m ms l u ▸ ht'⟩
    rw [unmapAll, run_bind, run_dmaUnmap hlive]
    exact hrun

end Sys2Proof.Transmit
end

section
/-! PROOFS. `TRANSMIT` of a packet one of whose mappings fails: the mappings before it are given back, and a drop is counted (R155). -/

namespace Sys2Proof.Transmit

open Sys2Proof.Machine Sys2Proof.Laws

section Failure

variable {s t : State} {fs : List Fragment} {maps : List (Nat × Nat)} {rest : List (Option (Nat × Nat))}

theorem mappingState_nil {rest : List (Option (Nat × Nat))} (h : s.draws.dmaMap = rest) : mappingState s [] rest = s := by
  subst h
  simp only [mappingState, withMaps, List.foldr_nil, List.reverse_nil, List.map_nil, List.append_nil]

theorem freshHandles_of_allowed (h : MappingsAllowed s maps) : FreshHandles s.liveMaps [] maps := by
  obtain ⟨hnodup, hok⟩ := h
  refine ⟨hnodup, fun x hx => ?_⟩
  obtain ⟨d, hd, rfl⟩ := List.mem_map.mp (show x ∈ maps.map (·.1) from hx)
  exact (hok d hd).1

theorem addressesAllowed_of_allowed (h : MappingsAllowed s maps) : AddressesAllowed s.params maps := fun d hd => (h.2 d hd).2

/-- The answer of `DmaMap` to a fragment. -/
def answerOf (m : Mapped) : Nat × Nat := (m.handle, m.da)

theorem answers_fragsWith (hlen : maps.length ≤ fs.length) : (fragsWith fs maps).map answerOf = maps := by
  rw [fragsWith, List.map_map]
  exact List.map_snd_zip hlen

theorem handles_fragsWith (hlen : maps.length ≤ fs.length) : (fragsWith fs maps).map (·.handle) = maps.map (·.1) := by
  conv_rhs => rw [← answers_fragsWith hlen, List.map_map]
  rfl

/-- The mapping phase with a failure after the granted answers unwinds them. -/
theorem mapFragments_fails (hwf : mapWf s.liveMaps = true) (hmaps : MappingsAllowed s maps) (hlen : maps.length < fs.length)
    (hdraws : s.draws.dmaMap = maps.map some ++ none :: rest) :
    ∃ t, mapFragments fs [] s = .ok none t ∧
      Tracks t (unwound (fragsWith fs maps).reverse s.liveMaps (mappingState s (fragsWith fs maps).reverse rest)) := by
  have hfresh := freshHandles_of_allowed hmaps
  obtain ⟨u, hrun, hu, -⟩ := mapFragments_granted (I := fun _ => True) (fun _ _ _ _ _ => trivial) maps fs [] s hlen.le hfresh
    (addressesAllowed_of_allowed hmaps) (by rw [mappingState_nil hdraws]; exact Tracks.refl s) trivial
  obtain ⟨f, fs', hdrop⟩ : ∃ f fs', fs.drop maps.length = f :: fs' :=
    List.exists_cons_of_ne_nil fun h => absurd (List.drop_eq_nil_iff.mp h) (Nat.not_le.mpr hlen)
  rw [List.append_nil] at hrun hu
  have hfail : dmaMap f.buf u = .ok none (withMapDraws rest (interleave u)) := run_dmaMap_fail hu.dmaMap f.buf
  have hdone : FreshHandles s.liveMaps (fragsWith fs maps).reverse [] := by
    have hperm : ((fragsWith fs maps).reverse.map Mapped.handle ++ ([] : List (Nat × Nat)).map (·.1)).Perm (maps.map (·.1)) := by
      rw [List.map_nil, List.append_nil, ← handles_fragsWith hlen.le]
      exact (List.reverse_perm _).map _
    exact ⟨hperm.nodup_iff.mpr hfresh.nodup, fun x hx => hfresh.unused x (hperm.mem_iff.mp hx)⟩
  obtain ⟨t, hunmap, ht⟩ := unmapAll_unwinds hwf _ _ _ hdone rfl (hu.step (hostUpdate_withMapDraws rest))
  refine ⟨t, ?_, ht⟩
  rw [hrun, hdrop, mapFragments, run_bind, hfail]
  simp only [run_bind, hunmap, run_pure]

end Failure

/-- The update of the counters with which a dropped packet ends (R155), and the return (R311). -/
def droppedReturn (s : State) : State :=
  leave .droppedMapping { s with counters := { s.counters with txDropped := s.counters.txDropped + 1 } }

theorem hostUpdate_droppedReturn : HostUpdate droppedReturn := ⟨⟨droppedReturn, fun _ => rfl⟩, fun _ => rfl⟩

/-- Settles O20: the mapping phase keeps the books of what it has mapped, and gives all of it back when an answer fails. -/
theorem transmitDropsOnMappingFailure : Obligations.TransmitDropsOnMappingFailure := by
  intro s pkt maps rest hr hv hadapter hstarted hroom hwf hmaps hlen hdraws
  obtain ⟨t, hrun, ht⟩ := mapFragments_fails (s := enter .process s) hwf hmaps hlen hdraws
  have hexec : exec (.transmit pkt) s = .next (droppedReturn t) := by
    rw [exec_transmit hr, transmit_admitted (s := enter .process s) ⟨hv, hadapter, hstarted, hroom⟩, run_bind, hrun]
    rfl
  have hfinal := ht.update hostUpdate_droppedReturn
  refine completes_of_tracks hexec ?_ rfl
  convert hfinal using 1
  obtain ⟨-, hlock⟩ := hr
  have hanswers : maps.reverse = (fragsWith pkt.frags maps).reverse.map answerOf := by
    rw [List.map_reverse, answers_fragsWith hlen.le]
  rw [hanswers]
  simp only [droppedReturn, leave, unwound, mappingState, enter, fragsWith, hlock, List.map_reverse, List.reverse_reverse,
    List.foldl_reverse, List.foldr_map, List.map_map]
  rfl

end Sys2Proof.Transmit
end

section
/-! PROOFS. The publication of a packet: what each fragment writes, and what the whole has written, under every interleaving
(R132, R156, R157). -/

namespace Sys2Proof.Transmit

open Sys2Proof.Machine Sys2Proof.Laws

/-! ### Folds of updates -/

section Folds

variable {σ β : Type} {get : σ → β} {upd : Nat → σ → σ} {js : List Nat}

/-- What none of the updates touches stays. -/
theorem foldl_kept (h : ∀ j ∈ js, ∀ s, get (upd j s) = get s) (s : σ) : get (js.foldl (fun s j => upd j s) s) = get s := by
  induction js generalizing s with
  | nil => rfl
  | cons j js ih =>
    obtain ⟨hj, hjs⟩ := List.forall_mem_cons.mp h
    exact (ih hjs (upd j s)).trans (hj s)

/-- What one of the updates sets, and no other touches, is set. -/
theorem foldl_set {i : Nat} {val : β} (hi : i ∈ js) (hset : ∀ s, get (upd i s) = val)
    (hother : ∀ j ∈ js, j ≠ i → ∀ s, get (upd j s) = get s) (s : σ) : get (js.foldl (fun s j => upd j s) s) = val := by
  induction js generalizing s with
  | nil => cases hi
  | cons j js ih =>
    obtain ⟨-, hjs⟩ := List.forall_mem_cons.mp hother
    by_cases hmem : i ∈ js
    · exact ih hmem hjs (upd j s)
    · have hij : i = j := (List.mem_cons.mp hi).resolve_right hmem
      subst hij
      exact (foldl_kept (fun x hx => hjs x hx fun h => hmem (h ▸ hx)) (upd i s)).trans (hset s)

end Folds

/-! ### Publishing one slot (R132) -/

/-- A slot of the transmit ring at `base` is given to the device. -/
def posted (d : DescProfile) (base slot : Nat) (a f : Word32) (s : State) : State :=
  { s with
    wb := s.wb ++ [⟨descWordAddr d base slot .addr, a, s.epoch⟩, ⟨descWordAddr d base slot .flags, f, s.epoch + 1⟩]
    epoch := s.epoch + 1
    syncWindows := mapErase s.syncWindows a.toNat
    trace := s.trace ++ [.descW (descWordAddr d base slot .addr) a, .barrier, .descW (descWordAddr d base slot .flags) f] }

theorem hostSide_posted (d : DescProfile) (base slot : Nat) (a f : Word32) (s : State) :
    hostSide (posted d base slot a f s) = { hostSide s with
      epoch := s.epoch + 1
      syncWindows := mapErase s.syncWindows a.toNat
      trace := hostTrace s ++
        [.descW (descWordAddr d base slot .addr) a, .barrier, .descW (descWordAddr d base slot .flags) f] } := by
  simp only [hostSide, hostTrace, posted, List.filterMap_append, List.filterMap_cons, List.filterMap_nil, hostEvent]

/-- Of the words the host reads, the two of the slot are as written, the FLAGS word last. -/
theorem hostView_posted (d : DescProfile) (base slot : Nat) (a f : Word32) (s : State) (x : Nat) :
    hostView (posted d base slot a f s) x =
      if descWordAddr d base slot .flags = x then f
      else if descWordAddr d base slot .addr = x then a else hostView s x := by
  have hlast : wbLast (posted d base slot a f s).wb x =
      if descWordAddr d base slot .flags = x then some f
      else if descWordAddr d base slot .addr = x then some a else wbLast s.wb x := by
    rw [show (posted d base slot a f s).wb = (s.wb ++ [⟨descWordAddr d base slot .addr, a, s.epoch⟩]) ++
      [⟨descWordAddr d base slot .flags, f, s.epoch + 1⟩] by simp [posted], wbLast_append, wbLast_append]
  rw [hostView, hlast, show deviceView (posted d base slot a f s) x = deviceView s x from rfl]
  split_ifs <;> rfl

theorem carried_bufMem : Carried fun s t => t.bufMem = s.bufMem := ⟨fun _ => rfl, fun h h' => h'.trans h⟩

theorem memWrite_bufMem (r : Ring) (slot : Nat) (w : DescWord) (v : Word32) :
    Keeps (fun s t => t.bufMem = s.bufMem) (memWrite r slot w v) := by
  intro s
  rcases Invariants.memWrite_cases r slot w v s with ⟨e, he⟩ | he | ⟨base, -, -, -, he⟩ <;> rw [he]
  all_goals exact Rings.interleave_bufMem s

/-- Publishing a slot writes no buffer. -/
theorem ringPublish_bufMem (r : Ring) (slot : Nat) (a f : Word32) :
    Keeps (fun s t => t.bufMem = s.bufMem) (ringPublish r slot a f) :=
  Keeps.bind carried_bufMem (Keeps.getState carried_bufMem) fun _ => Keeps.ite
    (Keeps.bind carried_bufMem (memWrite_bufMem _ _ _ _) fun _ =>
      Keeps.bind carried_bufMem (fun s => Rings.interleave_bufMem s) fun _ =>
        Keeps.bind carried_bufMem (memWrite_bufMem _ _ _ _) fun _ => Keeps.update fun _ => rfl)
    (Keeps.refuse carried_bufMem _)

/-- `RING_PUBLISH` of a slot the host may write, in a state that is `u` but for agent steps. -/
theorem ringPublish_tracks {t u : State} {base slot : Nat} {a f : Word32} (hw : HostWrites t .tx slot base) (ht : Tracks t u)
    (hf : owned u.params.desc f = true) :
    ∃ t', ringPublish .tx slot a f t = .ok () t' ∧ Tracks t' (posted u.params.desc base slot a f u) ∧
      t'.bufMem = t.bufMem ∧ ∀ slot', slot' ≠ slot → HostWrites t .tx slot' base → HostWrites t' .tx slot' base := by
  have hp := ht.params
  obtain ⟨t', hrun, hside, hexact, hothers⟩ := run_ringPublish hw.interleave a f (hp ▸ hf)
  have hbuf := ringPublish_bufMem .tx slot a f t
  rw [hrun] at hbuf
  refine ⟨t', hrun, ⟨?_, fun hs => ?_⟩, hbuf, hothers⟩
  · rw [hside, hostSide_posted, hp, ht.side]
    simp only [hostSide_fields ht.side]
  · have htu := ht.same hs
    subst htu
    exact hexact hs

/-! ### Publishing the fragments of a packet (R156, R157) -/

/-- Fragment `j` (from 0) of the packet, which begins where `v` stands, is entered and given to the device. -/
def publishedAt (v : State) (base : Nat) (pkt : Packet) (maps : List (Nat × Nat)) (j : Nat) (s : State) : State :=
  posted v.params.desc base (fragmentSlot v j) (encAddr (maps.getD j (0, 0)).2) (fragmentFlags v.params pkt j)
    (setTxSlot (fragmentSlot v j) (fragmentEntry v pkt maps j) s)

/-- The fragments of `js` are published from `v` on, in this order. -/
def publishedAll (v : State) (base : Nat) (pkt : Packet) (maps : List (Nat × Nat)) (js : List Nat) : State :=
  js.foldl (fun s j => publishedAt v base pkt maps j s) v

/-- Fragment `j` (from 0) with its mapping. -/
def fragAt (pkt : Packet) (maps : List (Nat × Nat)) (j : Nat) : Mapped :=
  ⟨pkt.frags.getD j ⟨0, 0⟩, (maps.getD j (0, 0)).1, (maps.getD j (0, 0)).2⟩

section Publication

variable {v : State} {base : Nat} {pkt : Packet} {maps : List (Nat × Nat)}

/-- The entries of the fragments of `js` come into the shadow. -/
def shadowWith (v : State) (pkt : Packet) (maps : List (Nat × Nat)) (js : List Nat) : Table TxEntry :=
  js.foldl (fun m j => mapSet m (fragmentSlot v j) (fragmentEntry v pkt maps j)) v.tx.shadow

/-- The windows of the buffers of the fragments of `js` are closed. -/
def windowsWith (v : State) (maps : List (Nat × Nat)) (js : List Nat) : Table Nat :=
  js.foldl (fun w j => mapErase w (encAddr (maps.getD j (0, 0)).2).toNat) v.syncWindows

/-- The publication of fragments writes the shadow, the pending writes, the windows and the trace, and nothing else. -/
theorem publishedAll_eq (v : State) (base : Nat) (pkt : Packet) (maps : List (Nat × Nat)) (js : List Nat) :
    publishedAll v base pkt maps js = { v with
      tx := { v.tx with shadow := shadowWith v pkt maps js }
      wb := (publishedAll v base pkt maps js).wb
      epoch := v.epoch + js.length
      syncWindows := windowsWith v maps js
      trace := v.trace ++ js.flatMap (fragmentEvents v base pkt maps) } := by
  have hfold : ∀ s : State, js.foldl (fun s j => publishedAt v base pkt maps j s) s = { s with
      tx := { s.tx with
        shadow := js.foldl (fun m j => mapSet m (fragmentSlot v j) (fragmentEntry v pkt maps j)) s.tx.shadow }
      wb := (js.foldl (fun s j => publishedAt v base pkt maps j s) s).wb
      epoch := s.epoch + js.length
      syncWindows := js.foldl (fun w j => mapErase w (encAddr (maps.getD j (0, 0)).2).toNat) s.syncWindows
      trace := s.trace ++ js.flatMap (fragmentEvents v base pkt maps) } := by
    induction js with
    | nil =>
      intro s
      simp only [List.foldl_nil, List.flatMap_nil, List.append_nil, List.length_nil, Nat.add_zero]
    | cons j js ih =>
      intro s
      rw [List.foldl_cons, ih]
      simp only [List.foldl_cons, List.flatMap_cons, List.length_cons, publishedAt, posted, setTxSlot, List.append_assoc,
        Nat.add_assoc, Nat.add_comm 1]
      rfl
  exact hfold v

theorem publishedAll_params (v : State) (base : Nat) (pkt : Packet) (maps : List (Nat × Nat)) (js : List Nat) :
    (publishedAll v base pkt maps js).params = v.params := by rw [publishedAll_eq]

theorem publishedAll_snoc (js : List Nat) (j : Nat) :
    publishedAll v base pkt maps (js ++ [j]) = publishedAt v base pkt maps j (publishedAll v base pkt maps js) := by
  rw [publishedAll, List.foldl_append]
  rfl

/-- `TRANSMIT` writes FLAGS words that show `OWN` (R157). -/
theorem owned_fragmentFlags {p : Params} (hd : descValid p.desc = true) (hv : PacketValid p pkt) {j : Nat}
    (hj : j < pkt.frags.length) : owned p.desc (fragmentFlags p pkt j) = true := by
  obtain ⟨-, -, hlen, hcs⟩ := hv
  have hmem : pkt.frags.getD j ⟨0, 0⟩ ∈ pkt.frags := by
    rw [List.getD_eq_getElem _ _ hj]
    exact List.getElem_mem hj
  obtain ⟨-, hsize⟩ := hlen _ hmem
  have hrequest : ∀ start stuff, (if j = 0 then pkt.cs else .none) = .offsets start stuff →
      start ≤ fieldMax p.desc.csStart ∧ stuff ≤ fieldMax p.desc.csStuff := fun start stuff h => by
    split at h
    · exact hcs start stuff h
    · cases h
  obtain ⟨hown, -⟩ := Encoding.transmitFlagsReadBack p.desc (j == 0) (j + 1 == pkt.frags.length) _ _ hd hsize hrequest
  exact hown

/-- How far the publication that began in `v` has come: the fragments of `js` are published, those left are the host's to write. -/
structure Publishing (v : State) (base : Nat) (pkt : Packet) (maps : List (Nat × Nat)) (js : List Nat) (t : State) : Prop where
  tracks : Tracks t (publishedAll v base pkt maps js)
  writable : ∀ i, i < pkt.frags.length → i ∉ js → HostWrites t .tx (fragmentSlot v i) base
  bufMem : t.bufMem = v.bufMem

/-- What publication rests on: the FLAGS words show `OWN`, and fragments stand in different slots. -/
structure Publishable (v : State) (pkt : Packet) : Prop where
  flags : ∀ j, j < pkt.frags.length → owned v.params.desc (fragmentFlags v.params pkt j) = true
  slots : ∀ i j, i < pkt.frags.length → j < pkt.frags.length → fragmentSlot v i = fragmentSlot v j → i = j

theorem publishFragment_publishes (hv : Publishable v pkt) {js : List Nat} {t : State} {j : Nat} {cs : CsRequest}
    (h : Publishing v base pkt maps js t) (hj : j < pkt.frags.length) (hnew : j ∉ js)
    (hcs : (if j + 1 == 1 then cs else .none) = if j = 0 then pkt.cs else .none) :
    ∃ t', publishFragment cs pkt.frags.length (packetLen pkt.frags) (j + 1) (fragAt pkt maps j) t = .ok () t' ∧
      Publishing v base pkt maps (js ++ [j]) t' := by
  obtain ⟨htracks, hwritable, hbuf⟩ := h
  have hpar : t.params = v.params := htracks.params.trans (publishedAll_params ..)
  have htx : t.tx = { v.tx with shadow := shadowWith v pkt maps js } := by
    have : t.tx = (publishedAll v base pkt maps js).tx := by simp only [hostSide_fields htracks.side]
    rw [this, publishedAll_eq]
  have hnext : t.nextPkt = v.nextPkt := by
    have : t.nextPkt = (publishedAll v base pkt maps js).nextPkt := by simp only [hostSide_fields htracks.side]
    rw [this, publishedAll_eq]
  have hslot : fragSlot t (j + 1) = fragmentSlot v j := by rw [fragSlot, htx, hpar]; rfl
  have hflags : encTx v.params.desc (j + 1 == 1) (j + 1 == pkt.frags.length) (if j + 1 == 1 then cs else .none)
      (fragAt pkt maps j).frag.len = fragmentFlags v.params pkt j := by
    rw [hcs, fragmentFlags, show (j + 1 == 1) = (j == 0) by simp]
    rfl
  have hset : HostUpdate (setTxSlot (fragmentSlot v j) (fragmentEntry v pkt maps j)) :=
    ⟨⟨setTxSlot _ _, fun _ => rfl⟩, fun _ => rfl⟩
  have hown : owned (publishedAll v base pkt maps js).params.desc (fragmentFlags v.params pkt j) = true := by
    rw [publishedAll_params]
    exact hv.flags j hj
  obtain ⟨t', hrun, ht', hbuf', hothers⟩ := ringPublish_tracks (base := base) (a := encAddr (maps.getD j (0, 0)).2)
    (show HostWrites (setTxSlot (fragmentSlot v j) (fragmentEntry v pkt maps j) t) .tx (fragmentSlot v j) base from
      hwritable j hj hnew) (htracks.update hset) hown
  refine ⟨t', ?_, ?_, fun i hi hmem => ?_, hbuf'.trans hbuf⟩
  · simp only [publishFragment, run_bind, run_getState, run_update, hslot, hpar, hflags, hnext]
    exact hrun
  · rw [show (setTxSlot _ _ (publishedAll v base pkt maps js)).params = v.params from publishedAll_params ..] at ht'
    rwa [publishedAll_snoc]
  · rw [List.mem_append, List.mem_singleton, not_or] at hmem
    obtain ⟨hold, hne⟩ := hmem
    exact hothers _ (fun he => hne (hv.slots i j hi hj he)) (hwritable i hi hold)

/-- Fragments `j + 1` to `K` are published in order (R156). -/
theorem publishFrom_publishes (hv : Publishable v pkt) : ∀ (n j : Nat) (js : List Nat) (t : State), 1 ≤ j →
    j + n = pkt.frags.length → (∀ i ∈ js, i < j) → Publishing v base pkt maps js t →
      ∃ t', publishFrom pkt.frags.length (packetLen pkt.frags) (j + 1) ((List.range' j n).map (fragAt pkt maps)) t = .ok () t' ∧
        Publishing v base pkt maps (js ++ List.range' j n) t'
  | 0, _, js, t, _, _, _, h => ⟨t, rfl, by simpa using h⟩
  | n + 1, j, js, t, hpos, hk, hjs, h => by
    obtain ⟨u, hrun, hu⟩ := publishFragment_publishes (cs := .none) hv h (by omega) (fun hmem => absurd (hjs j hmem) (by omega))
      (by simp [Nat.ne_of_gt hpos])
    obtain ⟨t', hrun', ht'⟩ := publishFrom_publishes hv n (j + 1) (js ++ [j]) u (by omega) (by omega) (fun i hi => by
      rcases List.mem_append.mp hi with hi | hi
      · exact Nat.lt_succ_of_lt (hjs i hi)
      · rw [List.mem_singleton.mp hi]
        exact Nat.lt_succ_self j) hu
    refine ⟨t', ?_, by simpa [List.range'_succ] using ht'⟩
    rw [List.range'_succ, List.map_cons, publishFrom, run_bind, hrun]
    exact hrun'

/-- The order in which the fragments of a packet are published (R157): the first, which the device waits for, comes last. -/
def publishOrder (pkt : Packet) : List Nat := List.range' 1 (pkt.frags.length - 1) ++ [0]

theorem range_eq_cons {k : Nat} (hk : 1 ≤ k) : List.range k = 0 :: List.range' 1 (k - 1) := by
  obtain ⟨n, rfl⟩ : ∃ n, k = n + 1 := ⟨k - 1, by omega⟩
  rw [List.range_eq_range', List.range'_succ, Nat.add_sub_cancel]

theorem publishPacket_publishes (hv : Publishable v pkt) (hpos : 1 ≤ pkt.frags.length) {t : State}
    (h : Publishing v base pkt maps [] t) :
    ∃ t', publishPacket pkt ((List.range pkt.frags.length).map (fragAt pkt maps)) t = .ok () t' ∧
      Publishing v base pkt maps (publishOrder pkt) t' := by
  obtain ⟨u, hrun, hu⟩ := publishFrom_publishes hv (pkt.frags.length - 1) 1 [] t (Nat.le_refl 1) (by omega) nofun h
  rw [List.nil_append] at hu
  obtain ⟨t', hrun', ht'⟩ := publishFragment_publishes (cs := pkt.cs) hv hu (j := 0) (by omega) (by simp) rfl
  refine ⟨t', ?_, ht'⟩
  rw [range_eq_cons hpos, List.map_cons, publishPacket, run_bind, hrun]
  exact hrun'

end Publication

end Sys2Proof.Transmit
end

section
/-! PROOFS. `TRANSMIT` of a packet whose mappings are all granted: what it leaves on the host's side under every interleaving, and what
memory then holds when no agent acts (R155 to R160, R165). -/

namespace Sys2Proof.Transmit

open Sys2Proof.Machine Sys2Proof.Laws

/-! ### The end of an accepted transmission (R158 to R160) -/

/-- Backpressure stops the queue in this state (R159). -/
def stops (s : State) : Bool := decide (freeSlots s < s.params.txLowWater)

/-- The state after backpressure (R159). -/
def pressured (s : State) : State :=
  { s with
    tx := { s.tx with stopped := s.tx.stopped || stops s }
    trace := s.trace ++ if stops s then [.queueStop] else [] }

/-- The state after the doorbell's kick, before which every pending write becomes visible (R67, R160). -/
def kicked (s : State) : State := emitted (.mmioW .doorbell .kick) (drain s)

theorem drainList_frame (l : List WbEntry) (s : State) : { drainList l s with mem := s.mem, trace := s.trace } = s := by
  induction l generalizing s with
  | nil => rfl
  | cons e l ih => exact congrArg (fun x => { x with mem := s.mem, trace := s.trace }) (ih (writeVisible e.addr e.val s))

/-- A hold writes memory, the trace and the pending writes, and nothing else (R67). -/
theorem drain_frame (s : State) : { drain s with mem := s.mem, trace := s.trace, wb := s.wb } = s :=
  (congrArg (fun x => { x with wb := s.wb }) (drainList_frame s.wb s) :)

theorem kicked_bufMem (s : State) : (kicked s).bufMem = s.bufMem := (congrArg State.bufMem (drain_frame s) :)

theorem hostSide_kicked (s : State) : hostSide (kicked s) = hostSide (emitted (.mmioW .doorbell .kick) s) := by
  rw [kicked, hostSide_emitted, hostSide_emitted, drain_hostSide]

theorem hostUpdate_kicked : HostUpdate kicked := by
  obtain ⟨⟨g, hg⟩, -⟩ := hostUpdate_emitted (.mmioW .doorbell .kick)
  exact ⟨⟨g, fun s => (hostSide_kicked s).trans (hg s)⟩, fun s => (congrArg State.sched (drain_frame s) :)⟩

/-- What the host reads is what the device sees once every pending write is visible. -/
theorem deviceView_kicked {s : State} {a : Nat} (hwb : ∀ w ∈ s.wb, w.addr % 4 = 0) (ha : a % 4 = 0) :
    deviceView (kicked s) a = hostView s a := by
  have hp : (drain s).params = s.params := (congrArg State.params (drain_frame s) :)
  have hmem := Invariants.readWord_drainList ha s.wb s hwb
  rw [show deviceView (kicked s) a = readWord (drain s).params.desc.byteOrder (drainList s.wb s).mem a from rfl, hp]
  exact hmem

theorem hostUpdate_advanceHead (pkt : Packet) : HostUpdate (advanceHead pkt) := ⟨⟨advanceHead pkt, fun _ => rfl⟩, fun _ => rfl⟩

theorem hostUpdate_leave (o : OpOutcome) : HostUpdate (leave o) := ⟨⟨leave o, fun _ => rfl⟩, fun _ => rfl⟩

theorem backpressure_tracks {t u : State} (h : Tracks t u) :
    ∃ t', backpressure t = .ok () t' ∧ Tracks t' (pressured u) ∧ t'.bufMem = t.bufMem := by
  have hfree : freeSlots t = freeSlots u := by simp only [freeSlots, occupied, hostSide_fields h.side]
  simp only [backpressure, run_bind, run_getState, run_ite, run_update, run_pure, run_emit, hfree, h.params]
  by_cases hlow : freeSlots u < u.params.txLowWater
  · have hstop : HostUpdate (setStopped true) := ⟨⟨setStopped true, fun _ => rfl⟩, fun _ => rfl⟩
    have hu : pressured u = emitted .queueStop (setStopped true u) := by
      simp only [pressured, stops, hlow, decide_true, Bool.or_true, if_true]
      rfl
    rw [if_pos hlow, hu]
    exact ⟨_, rfl, (h.update hstop).step (hostUpdate_emitted .queueStop), Rings.interleave_bufMem _⟩
  · have hu : pressured u = u := by
      simp only [pressured, stops, hlow, decide_false, Bool.or_false, Bool.false_eq_true, if_false, List.append_nil]
    rw [if_neg hlow, hu]
    exact ⟨t, rfl, h, rfl⟩

section Sent

variable {v t : State} {base : Nat} {pkt : Packet} {maps : List (Nat × Nat)}

/-- The end of a transmission that began to publish in `v`, up to its return. -/
def sentFrom (v : State) (base : Nat) (pkt : Packet) (maps : List (Nat × Nat)) : State :=
  leave .accepted (kicked (pressured (advanceHead pkt (publishedAll v base pkt maps (publishOrder pkt)))))

theorem sendOrDrop_sends (hv : Publishable v pkt) (hpos : 1 ≤ pkt.frags.length) (h : Publishing v base pkt maps [] t) :
    ∃ t', sendOrDrop pkt (some ((List.range pkt.frags.length).map (fragAt pkt maps))) t = .ok .accepted t' ∧
      Tracks (leave .accepted t') (sentFrom v base pkt maps) ∧ t'.wb = [] ∧ t'.bufMem = v.bufMem := by
  obtain ⟨t₁, hrun₁, htracks₁, -, hbuf₁⟩ := publishPacket_publishes hv hpos h
  obtain ⟨t₂, hrun₂, htracks₂, hbuf₂⟩ := backpressure_tracks (htracks₁.update (hostUpdate_advanceHead pkt))
  refine ⟨kicked (interleave t₂), ?_, (htracks₂.step hostUpdate_kicked).update (hostUpdate_leave .accepted), rfl, ?_⟩
  · simp only [sendOrDrop, run_bind, hrun₁, run_update, hrun₂, run_mmioWrite, run_pure]
    rfl
  · rw [kicked_bufMem, Rings.interleave_bufMem, hbuf₂]
    exact hbuf₁

/-! ### The host's side of an accepted transmission -/

/-- An accepted transmission that began to publish in `v`, but for memory and the writes that became visible. -/
def sentSide (v : State) (base : Nat) (pkt : Packet) (maps : List (Nat × Nat)) : State :=
  { v with
    tx := { v.tx with
      head := (v.tx.head + pkt.frags.length) % v.params.nTx
      shadow := shadowWith v pkt maps (publishOrder pkt)
      stopped := v.tx.stopped || stops (advanceHead pkt v) }
    pkts := mapSet v.pkts v.nextPkt pkt
    nextPkt := v.nextPkt + 1
    epoch := v.epoch + (publishOrder pkt).length
    syncWindows := windowsWith v maps (publishOrder pkt)
    trace := v.trace ++ (publishOrder pkt).flatMap (fragmentEvents v base pkt maps) ++
      (if stops (advanceHead pkt v) then [.queueStop] else []) ++ [.mmioW .doorbell .kick]
    lock := none
    outcome := some .accepted }

theorem hostSide_sentFrom (v : State) (base : Nat) (pkt : Packet) (maps : List (Nat × Nat)) :
    hostSide (sentFrom v base pkt maps) = hostSide (sentSide v base pkt maps) := by
  rw [sentFrom, hostSide_leave, hostSide_kicked, publishedAll_eq]
  rfl

/-- What the host did between `v` and the return of an accepted transmission. -/
theorem hostTrace_sentSide (v : State) (base : Nat) (pkt : Packet) (maps : List (Nat × Nat)) :
    hostTrace (sentSide v base pkt maps) = hostTrace v ++ (publishOrder pkt).flatMap (fragmentEvents v base pkt maps) ++
      (if stops (advanceHead pkt v) then [.queueStop] else []) ++ [.mmioW .doorbell .kick] := by
  have hevents : ((publishOrder pkt).flatMap (fragmentEvents v base pkt maps)).filterMap hostEvent =
      (publishOrder pkt).flatMap (fragmentEvents v base pkt maps) := by
    rw [List.filterMap_flatMap]
    rfl
  have hstop : (if stops (advanceHead pkt v) then [Event.queueStop] else []).filterMap hostEvent =
      if stops (advanceHead pkt v) then [Event.queueStop] else [] := by split <;> rfl
  simp only [hostTrace, sentSide, List.filterMap_append, hevents, hstop]
  rfl

theorem mem_publishOrder (hpos : 1 ≤ pkt.frags.length) {j : Nat} : j ∈ publishOrder pkt ↔ j < pkt.frags.length := by
  simp only [publishOrder, List.mem_append, List.mem_range'_1, List.mem_singleton]
  omega

theorem publishOrder_perm (hpos : 1 ≤ pkt.frags.length) : (publishOrder pkt).Perm (List.range pkt.frags.length) := by
  rw [range_eq_cons hpos]
  exact List.perm_append_comm (l₂ := [0])

theorem mapGet_shadowWith_same (hv : Publishable v pkt) (hpos : 1 ≤ pkt.frags.length) {j : Nat} (hj : j < pkt.frags.length) :
    mapGet (shadowWith v pkt maps (publishOrder pkt)) (fragmentSlot v j) = some (fragmentEntry v pkt maps j) :=
  foldl_set (get := (mapGet · (fragmentSlot v j))) (upd := fun j m => mapSet m (fragmentSlot v j) (fragmentEntry v pkt maps j))
    ((mem_publishOrder hpos).mpr hj) (fun _ => mapGet_mapSet_same _ _ _) (fun i hi hne _ => mapGet_mapSet_other _ _ fun he =>
      hne (hv.slots i j ((mem_publishOrder hpos).mp hi) hj he.symm)) v.tx.shadow

theorem mapGet_shadowWith_other (hpos : 1 ≤ pkt.frags.length) {i : Nat} (hi : ∀ j, j < pkt.frags.length → i ≠ fragmentSlot v j) :
    mapGet (shadowWith v pkt maps (publishOrder pkt)) i = mapGet v.tx.shadow i :=
  foldl_kept (get := (mapGet · i)) (upd := fun j m => mapSet m (fragmentSlot v j) (fragmentEntry v pkt maps j))
    (fun j hj _ => mapGet_mapSet_other _ _ (hi j ((mem_publishOrder hpos).mp hj))) v.tx.shadow

theorem mapErase_comm {β : Type} (t : Table β) (a b : Nat) : mapErase (mapErase t a) b = mapErase (mapErase t b) a := by
  induction t with
  | nil => rfl
  | cons e t ih =>
    obtain ⟨k, x⟩ := e
    simp only [mapErase]
    split_ifs <;> simp_all [mapErase]

/-- The windows closed are those at the device addresses of the mappings, in whatever order (R78). -/
theorem windowsWith_eq (hpos : 1 ≤ pkt.frags.length) (hlen : maps.length = pkt.frags.length) (hbits : v.params.desc.addrBits ≤ 32)
    (haddr : AddressesAllowed v.params maps) :
    windowsWith v maps (publishOrder pkt) = maps.foldl (fun w d => mapErase w d.2) v.syncWindows := by
  have : RightCommutative fun (w : Table Nat) j => mapErase w (encAddr (maps.getD j (0, 0)).2).toNat :=
    ⟨fun w i j => mapErase_comm w _ _⟩
  have hda : ∀ d ∈ maps, (encAddr d.2).toNat = d.2 := fun d hd => by
    obtain ⟨hlt, -⟩ := haddr d hd
    have hpow := Nat.pow_le_pow_right (n := 2) (by omega) hbits
    rw [encAddr, BitVec.toNat_ofNat, Nat.mod_eq_of_lt (by omega)]
  have hmaps : (List.range pkt.frags.length).map (fun j => (encAddr (maps.getD j (0, 0)).2).toNat) = maps.map (·.2) := by
    refine List.ext_getElem (by simp [hlen]) fun j hj hj' => ?_
    have hjm : j < maps.length := by simpa using hj'
    simp only [List.getElem_map, List.getElem_range, List.getD_eq_getElem _ _ hjm]
    exact hda _ (List.getElem_mem hjm)
  rw [windowsWith, (publishOrder_perm hpos).foldl_eq, ← List.foldl_map (g := mapErase), hmaps, List.foldl_map]

end Sent

end Sys2Proof.Transmit
end

section
/-! PROOFS. `TRANSMIT` of a packet that is accepted, from its entry to its return; and the descriptors it leaves (R155 to R160, R165). -/

namespace Sys2Proof.Transmit

open Sys2Proof.Machine Sys2Proof.Laws

section Descriptors

variable {v : State} {base : Nat} {pkt : Packet} {maps : List (Nat × Nat)}

/-! ### The descriptors of the packet (R156) -/

theorem publishedAll_aligned (hd : descValid v.params.desc = true) (hbase : base % 4 = 0) (hwb : ∀ w ∈ v.wb, w.addr % 4 = 0)
    (js : List Nat) : ∀ w ∈ (publishedAll v base pkt maps js).wb, w.addr % 4 = 0 := by
  refine List.foldlRecOn js (fun s j => publishedAt v base pkt maps j s) (motive := fun s => ∀ w ∈ s.wb, w.addr % 4 = 0) hwb
    fun s hs j _ w hw => ?_
  simp only [publishedAt, posted, List.mem_append, List.mem_cons, List.not_mem_nil, or_false] at hw
  rcases hw with hw | rfl | rfl
  · exact hs w hw
  · exact descWordAddr_aligned hd hbase _ _
  · exact descWordAddr_aligned hd hbase _ _

/-- A fragment writes no descriptor word but its own two. -/
theorem hostView_publishedAt_other {a j : Nat} (h : ∀ w, descWordAddr v.params.desc base (fragmentSlot v j) w ≠ a) (s : State) :
    hostView (publishedAt v base pkt maps j s) a = hostView s a := by
  rw [publishedAt, hostView_posted, if_neg (h .flags), if_neg (h .addr)]
  rfl

theorem hostView_publishedAll_other {js : List Nat} {a : Nat}
    (h : ∀ j ∈ js, ∀ w, descWordAddr v.params.desc base (fragmentSlot v j) w ≠ a) :
    hostView (publishedAll v base pkt maps js) a = hostView v a :=
  foldl_kept (get := (hostView · a)) (upd := publishedAt v base pkt maps) (fun j hj => hostView_publishedAt_other (h j hj)) v

/-- The words of fragment `j` as the host has written them. -/
def fragmentWord (v : State) (pkt : Packet) (maps : List (Nat × Nat)) (j : Nat) : DescWord → Word32
  | .flags => fragmentFlags v.params pkt j
  | .addr => encAddr (maps.getD j (0, 0)).2

theorem hostView_publishedAll_same (hd : descValid v.params.desc = true) (hv : Publishable v pkt) (hpos : 1 ≤ pkt.frags.length)
    {j : Nat} (hj : j < pkt.frags.length) (w : DescWord) :
    hostView (publishedAll v base pkt maps (publishOrder pkt)) (descWordAddr v.params.desc base (fragmentSlot v j) w) =
      fragmentWord v pkt maps j w := by
  refine foldl_set (get := (hostView · (descWordAddr v.params.desc base (fragmentSlot v j) w)))
    (upd := publishedAt v base pkt maps) ((mem_publishOrder hpos).mpr hj) (fun s => ?_) (fun i hi hne s => ?_) v
  · simp only [publishedAt, hostView_posted]
    cases w with
    | flags => exact if_pos rfl
    | addr =>
      have hne : descWordAddr v.params.desc base (fragmentSlot v j) .flags ≠
          descWordAddr v.params.desc base (fragmentSlot v j) .addr := fun he => nomatch (descWordAddr_inj hd he).2
      rw [if_neg hne, if_pos rfl]
      rfl
  · exact hostView_publishedAt_other (fun w' he =>
      hne (hv.slots i j ((mem_publishOrder hpos).mp hi) hj (descWordAddr_inj hd he).1)) s

/-- With no agent step in between, what the device sees at the end is what the host had written when it was done publishing. -/
theorem deviceView_sentFrom (hd : descValid v.params.desc = true) (hbase : base % 4 = 0) (hwb : ∀ w ∈ v.wb, w.addr % 4 = 0)
    {a : Nat} (ha : a % 4 = 0) :
    deviceView (sentFrom v base pkt maps) a = hostView (publishedAll v base pkt maps (publishOrder pkt)) a :=
  deviceView_kicked (s := pressured (advanceHead pkt (publishedAll v base pkt maps (publishOrder pkt))))
    (publishedAll_aligned hd hbase hwb _) ha

theorem sentFrom_sched (v : State) (base : Nat) (pkt : Packet) (maps : List (Nat × Nat)) :
    (sentFrom v base pkt maps).sched = v.sched :=
  (hostUpdate_kicked.sched _).trans (congrArg State.sched (publishedAll_eq v base pkt maps (publishOrder pkt)) :)

end Descriptors

/-! ### The cursors (R154, R158, R165) -/

theorem occupiedOf_advance {n head tail k : Nat} (hh : head < n) (ht : tail < n) (hk : occupiedOf n head tail + k < n) :
    occupiedOf n ((head + k) % n) tail = occupiedOf n head tail + k := by
  have hh' : (head + k) % n < n := Nat.mod_lt _ (by omega)
  rw [Invariants.Ledger.occupiedOf_eq hh ht] at hk ⊢
  rw [Invariants.Ledger.occupiedOf_eq hh' ht, Invariants.Ledger.mod_of_lt_double (by omega)]
  split_ifs at hk ⊢ <;> omega

theorem add_mod_inj {n a i j : Nat} (hi : i < n) (hj : j < n) (h : (a + i) % n = (a + j) % n) : i = j := by
  have hij : i % n = j % n := Nat.ModEq.add_left_cancel' a h
  rwa [Nat.mod_eq_of_lt hi, Nat.mod_eq_of_lt hj] at hij

section Accepted

variable {s : State} {base : Nat} {pkt : Packet} {maps : List (Nat × Nat)} {rest : List (Option (Nat × Nat))}

/-! ### The mapping phase with every answer granted (R155) -/

theorem mapFragments_succeeds {I : State → Prop} (hI : ∀ buf d rest s, I s → I (granted buf d rest (interleave s)))
    {fs : List Fragment} (hmaps : MappingsAllowed s maps) (hlen : maps.length = fs.length)
    (hdraws : s.draws.dmaMap = maps.map some ++ rest) (hs : I s) :
    ∃ t, mapFragments fs [] s = .ok (some (fragsWith fs maps)) t ∧
      Tracks t (mappingState s (fragsWith fs maps).reverse rest) ∧ I t := by
  obtain ⟨t, hrun, ht, hIt⟩ := mapFragments_granted hI maps fs [] s hlen.le (freshHandles_of_allowed hmaps)
    (addressesAllowed_of_allowed hmaps) (by rw [mappingState_nil hdraws]; exact Tracks.refl s) hs
  rw [List.append_nil] at hrun ht
  refine ⟨t, ?_, ht, hIt⟩
  rw [hrun, hlen, List.drop_length, mapFragments, List.reverse_reverse]
  rfl

theorem fragsWith_eq (hlen : maps.length = pkt.frags.length) :
    fragsWith pkt.frags maps = (List.range pkt.frags.length).map (fragAt pkt maps) := by
  refine List.ext_getElem (by simp [fragsWith, hlen]) fun j hj hj' => ?_
  have hjf : j < pkt.frags.length := by simpa using hj'
  have hjm : j < maps.length := hlen ▸ hjf
  simp only [fragsWith, List.getElem_map, List.getElem_zip, List.getElem_range, fragAt, List.getD_eq_getElem _ _ hjf,
    List.getD_eq_getElem _ _ hjm]

/-! ### The whole transmission -/

/-- The host may write the slots of the next packet, and no buffer has changed since `s`. -/
structure ReadyToPublish (s : State) (base : Nat) (pkt : Packet) (t : State) : Prop where
  writable : ∀ j, j < pkt.frags.length → HostWrites t .tx (fragmentSlot s j) base
  bufMem : t.bufMem = s.bufMem

theorem ReadyToPublish.granted {t : State} (h : ReadyToPublish s base pkt t) (buf : Nat) (d : Nat × Nat)
    (rest : List (Option (Nat × Nat))) : ReadyToPublish s base pkt (granted buf d rest (interleave t)) :=
  ⟨fun j hj => (h.writable j hj).interleave, (Rings.interleave_bufMem t).trans h.bufMem⟩

/-- The state in which publication begins: entered, with every fragment mapped. -/
def mappedPacket (s : State) (pkt : Packet) (maps : List (Nat × Nat)) (rest : List (Option (Nat × Nat))) : State :=
  mappingState (enter .process s) (fragsWith pkt.frags maps).reverse rest

theorem hostTrace_mappedPacket (s : State) (pkt : Packet) (maps : List (Nat × Nat)) (rest : List (Option (Nat × Nat))) :
    hostTrace (mappedPacket s pkt maps rest) =
      hostTrace s ++ (pkt.frags.zip maps).map fun fd => .map fd.1.buf fd.2.1 := by
  have hevents : (fragsWith pkt.frags maps).map (fun m => Event.map m.frag.buf m.handle) =
      (pkt.frags.zip maps).map fun fd => .map fd.1.buf fd.2.1 := List.map_map
  rw [hostTrace, mappedPacket, mappingState, List.reverse_reverse, hevents, List.filterMap_append, List.filterMap_map]
  exact congrArg _ (congrFun (List.filterMap_eq_map (f := fun fd : Fragment × Nat × Nat => Event.map fd.1.buf fd.2.1)) _)

/-- An accepted transmission ends, but for agent steps, as `sentFrom` says. -/
theorem transmit_accepted (hr : Ready s) (hp : Admits s pkt) (hv : Publishable s pkt) (hready : ReadyToPublish s base pkt s)
    (hmaps : MappingsAllowed s maps) (hlen : maps.length = pkt.frags.length) (hdraws : s.draws.dmaMap = maps.map some ++ rest) :
    ∃ t, exec (.transmit pkt) s = .next t ∧ Tracks t (sentFrom (mappedPacket s pkt maps rest) base pkt maps) ∧ t.wb = [] ∧
      t.bufMem = s.bufMem := by
  obtain ⟨hpos, -⟩ := hp.valid
  obtain ⟨t₁, hrun₁, htracks, hwritable, hbuf⟩ := mapFragments_succeeds (s := enter .process s)
    (I := ReadyToPublish s base pkt) (fun buf d rest _ h => h.granted buf d rest) hmaps hlen hdraws
    ⟨hready.writable, rfl⟩
  obtain ⟨t₂, hrun₂, hsent, hwb, hbuf'⟩ := sendOrDrop_sends (v := mappedPacket s pkt maps rest) (base := base) (maps := maps)
    ⟨hv.flags, hv.slots⟩ hpos ⟨htracks, fun i hi _ => hwritable i hi, hbuf⟩
  refine ⟨leave .accepted t₂, ?_, hsent, hwb, hbuf'⟩
  rw [exec_transmit hr, transmit_admitted (s := enter .process s) ⟨hp.valid, hp.adapter, hp.started, hp.room⟩, run_bind, hrun₁,
    fragsWith_eq hlen]
  exact congrArg (finish leave) hrun₂

end Accepted

/-- Settles O21: the host's side of the transmission is the same under every interleaving, and the descriptors are those of the run
with no agent step in between. -/
theorem transmitPublishesInOrder : Obligations.TransmitPublishesInOrder := by
  intro s base pkt maps rest hr hvalid hcursors hl hwb hbase hpkt hadapter hstarted hroom hown hmaps hlen hdraws
  obtain ⟨hhead, htail, -⟩ := hcursors
  have hd := Rings.descValid_of_paramsValid hvalid
  obtain ⟨-, hbits, -⟩ := Encoding.descValid_iff.mp hd
  have hal : base % 4 = 0 := LaidOut.aligned hl (r := .tx) hbase
  have hnofault : s.fault = none := hr.1.1
  have hpos : 1 ≤ pkt.frags.length := hpkt.1
  have hfit : occupied s + pkt.frags.length < s.params.nTx := by
    simp only [freeSlots] at hroom
    omega
  have hv : Publishable s pkt := ⟨fun j hj => owned_fragmentFlags hd hpkt hj, fun i j hi hj h =>
    add_mod_inj (by omega) (by omega) h⟩
  have hready : ReadyToPublish s base pkt s :=
    ⟨fun j hj => ⟨hd, hl, hwb, Nat.mod_lt _ (by omega), hbase, .inl (hown j hj)⟩, rfl⟩
  obtain ⟨t, hrun, htracks, htwb, hbuf⟩ := transmit_accepted hr ⟨hpkt, hadapter, hstarted, hroom⟩ hv hready hmaps hlen hdraws
  obtain ⟨hparams, hadapter', hirq, htx, hrx, hlink, htimer, hcounters, hint, htxOn, hrxOn, hmac, -, hbufs, hlive, hpkts, hfault,
    hlock, houtcome, hnext, -, -, htrace, hwindows, -⟩ := hostSide_fields (htracks.side.trans (hostSide_sentFrom ..))
  have htx' : t.tx = { s.tx with
      head := (s.tx.head + pkt.frags.length) % s.params.nTx
      shadow := shadowWith s pkt maps (publishOrder pkt)
      stopped := s.tx.stopped || stops (advanceHead pkt s) } := htx
  have hparams' : t.params = s.params := hparams
  have hstop : t.tx.stopped = stops (advanceHead pkt s) := by rw [htx', hstarted, Bool.false_or]
  have hocc : occupied t = occupied s + pkt.frags.length := by
    rw [occupied, hparams', htx']
    exact occupiedOf_advance hhead htail hfit
  have hfree : freeSlots t = freeSlots (advanceHead pkt s) := by
    rw [freeSlots, occupied, hparams', htx']
    rfl
  refine ⟨t, hrun, hfault.trans hnofault, hlock, houtcome, by rw [htx'], by rw [htx'], by rw [htx'], fun j hj => ?entries,
    fun i hi => ?others, ?maps, hpkts, hnext, hocc, ?room, ?stopped, htwb, ?trace, fun hs => ?words, hcounters, hlink, hrx, hadapter',
    htimer, hirq, hbufs, hmac, hbuf, hwindows.trans ?windows, hint, htxOn, hrxOn⟩
  case entries =>
    rw [htx']
    exact mapGet_shadowWith_same hv hpos hj
  case others =>
    rw [htx']
    exact mapGet_shadowWith_other hpos hi
  case maps =>
    rw [hlive]
    show withMaps (fragsWith pkt.frags maps).reverse s.liveMaps = _
    rw [withMaps, List.foldr_reverse, fragsWith, List.foldl_map]
  case room =>
    rw [freeSlots, hocc, hparams']
    simp only [freeSlots] at hroom
    omega
  case stopped => rw [hstop, hfree, stops, decide_eq_true_iff]; rfl
  case trace =>
    rw [htrace, hostTrace_sentSide, hostTrace_mappedPacket, hstop]
    rfl
  case words =>
    have htv := htracks.same ((sentFrom_sched ..).trans hs)
    have hview : ∀ a, a % 4 = 0 → deviceView t a =
        hostView (publishedAll (mappedPacket s pkt maps rest) base pkt maps (publishOrder pkt)) a := fun a ha => by
      rw [htv]
      exact deviceView_sentFrom (v := mappedPacket s pkt maps rest) hd hal hwb ha
    have hword : ∀ j, j < pkt.frags.length → ∀ w, deviceView t (descWordAddr s.params.desc base (fragmentSlot s j) w) =
        fragmentWord s pkt maps j w := fun j hj w =>
      (hview _ (descWordAddr_aligned hd hal _ w)).trans
        (hostView_publishedAll_same (v := mappedPacket s pkt maps rest) hd ⟨hv.flags, hv.slots⟩ hpos hj w)
    refine ⟨fun j hj => ⟨hword j hj .flags, hword j hj .addr⟩, fun a ha hne => ?_⟩
    have hother : ∀ j ∈ publishOrder pkt, ∀ w, descWordAddr s.params.desc base (fragmentSlot s j) w ≠ a := fun j hj w he => by
      obtain ⟨hflags, haddr⟩ := hne j ((mem_publishOrder hpos).mp hj)
      cases w with
      | flags => exact hflags he.symm
      | addr => exact haddr he.symm
    calc hostView t a = deviceView t a := by rw [hostView, htwb]; rfl
      _ = hostView (publishedAll (mappedPacket s pkt maps rest) base pkt maps (publishOrder pkt)) a := hview a ha
      _ = hostView s a := hostView_publishedAll_other (v := mappedPacket s pkt maps rest) hother
  case windows => exact windowsWith_eq (v := s) hpos hlen hbits (addressesAllowed_of_allowed hmaps)

end Sys2Proof.Transmit
end

section
/-! PROOFS. `TX_RECLAIM` with no agent step in between: the completed slots go one by one, and the queue is woken (R161, R162). -/

namespace Sys2Proof.Transmit

open Sys2Proof.Machine Sys2Proof.Laws

/-! ### The walk, slot by slot (R161) -/

/-- The packet whose last fragment `e` is has been counted and released. -/
def countedPacket (e : TxEntry) (s : State) : State :=
  removePkt e.pkt { s with counters := { s.counters with
    txPackets := s.counters.txPackets + 1, txBytes := s.counters.txBytes + inc e.pktLen } }

/-- With the last fragment of a packet, the packet is counted, released and reported. -/
def completed (e : TxEntry) (s : State) : State :=
  if e.eop then emitted (.txComplete e.pkt) (countedPacket e s) else s

/-- The slot at the tail, which holds `e`, mapped as `m`, is reclaimed. -/
def reclaimedOne (e : TxEntry) (m : MapEntry) (s : State) : State :=
  advanceTail s.tx.tail (clearTxSlot s.tx.tail (completed e (emitted (.unmap e.handle) (releaseMap e.handle m s))))

/-- The transmit ring lies where it may, and no agent acts. -/
structure CalmRing (base : Nat) (s : State) : Prop where
  sched : s.sched = []
  desc : descValid s.params.desc = true
  laidOut : LaidOut s
  base : s.tx.base = some base
  tail : s.tx.tail < s.params.nTx

section Walk

variable {base n : Nat} {s : State}

theorem CalmRing.tryReclaim (h : CalmRing base s) : ∃ d,
    ringTryReclaim .tx s.tx.tail s = .ok d s ∧ (d = none ↔ hostSeesOwned s base s.tx.tail = true) := by
  have hrun := run_ringTryReclaim (r := .tx) h.desc h.laidOut h.base h.tail
  rw [interleave_nil s h.sched, interleave_nil s h.sched] at hrun
  by_cases hown : hostSeesOwned s base s.tx.tail = true
  · exact ⟨_, hrun.trans (if_pos hown), by simp [hown]⟩
  · exact ⟨_, hrun.trans (if_neg hown), by simp [hown]⟩

/-- The walk ends where the ring is empty. -/
theorem reclaimWalk_empty (h : s.tx.tail = s.tx.head) : reclaimWalk (n + 1) s = .ok () s := by
  simp only [reclaimWalk, run_bind, run_getState, run_ite, h, if_true, run_pure]

/-- The walk ends at the first slot that the host sees as the device's. -/
theorem reclaimWalk_stops (hr : CalmRing base s) (h : hostSeesOwned s base s.tx.tail = true) :
    reclaimWalk (n + 1) s = .ok () s := by
  obtain ⟨d, hrun, hd⟩ := hr.tryReclaim
  obtain rfl := hd.mpr h
  by_cases hne : s.tx.tail = s.tx.head
  · exact reclaimWalk_empty hne
  · simp only [reclaimWalk, run_bind, run_getState, run_ite, hne, if_false, hrun, run_pure]

theorem run_completeFragment (hs : s.sched = []) (e : TxEntry) :
    Invariants.completeFragment e s = .ok () (completed e s) := by
  cases he : e.eop with
  | false => simp only [Invariants.completeFragment, completed, he, Bool.false_eq_true, if_false, run_pure]
  | true =>
    simp only [Invariants.completeFragment, completed, he, if_true, count, run_bind, run_update, run_emit]
    exact congrArg (fun u => EStateM.Result.ok () (emitted (.txComplete e.pkt) u)) (interleave_nil (countedPacket e s) hs)

theorem run_reclaimSlot (hs : s.sched = []) {e : TxEntry} {m : MapEntry} (hm : mapGet s.liveMaps e.handle = some m) :
    reclaimSlot s.tx.tail e s = .ok () (reclaimedOne e m s) := by
  have hunmap := run_dmaUnmap hm
  rw [interleave_nil s hs] at hunmap
  have hcomplete := run_completeFragment (s := emitted (.unmap e.handle) (releaseMap e.handle m s)) hs e
  simp only [Invariants.reclaimSlot_eq, run_bind, hunmap, hcomplete, run_update]
  rfl

/-- The walk takes a slot that the host sees as its own, and goes on. -/
theorem reclaimWalk_takes (hr : CalmRing base s) (hne : s.tx.tail ≠ s.tx.head) (hown : hostSeesOwned s base s.tx.tail = false)
    {e : TxEntry} {m : MapEntry} (he : mapGet s.tx.shadow s.tx.tail = some e) (hm : mapGet s.liveMaps e.handle = some m) :
    reclaimWalk (n + 1) s = reclaimWalk n (reclaimedOne e m s) := by
  obtain ⟨d, hrun, hd⟩ := hr.tryReclaim
  cases d with
  | none =>
    rw [hd.mp rfl] at hown
    cases hown
  | some x =>
    simp only [reclaimWalk, run_bind, run_getState, run_ite, hne, if_false, hrun, he, run_reclaimSlot hr.sched hm]

theorem run_queueWake (hs : s.sched = []) : queueWake s = .ok () (woken s) := by
  simp only [queueWake, run_bind, run_getState, run_ite, run_update, run_emit, run_pure, woken]
  rw [interleave_nil _ (show (setStopped false s).sched = [] from hs)]
  split <;> rfl

end Walk

/-! ### The entries reclaimed so far -/

section Progress

variable {base : Nat} {s : State} {done entries : List TxEntry} {e : TxEntry} {m : MapEntry}

theorem reclaimedSlots_snoc (s : State) (done : List TxEntry) (e : TxEntry) :
    reclaimedSlots s (done ++ [e]) = reclaimedSlots s done ++ [(s.tx.tail + done.length) % s.params.nTx] := by
  simp only [reclaimedSlots, List.length_append, List.length_singleton, List.range_succ, List.map_append, List.map_singleton]

theorem shownOnRelease_snoc (handles : List Nat) {h : Nat} (hm : mapGet s.liveMaps h = some m) :
    shownOnRelease s (handles ++ [h]) = showAll s.dmaMem m.buf (shownOnRelease s handles) := by
  rw [shownOnRelease, List.foldl_append, List.foldl_cons, List.foldl_nil, hm]
  rfl

theorem windowsOnRelease_snoc (handles : List Nat) {h : Nat} (hm : mapGet s.liveMaps h = some m) :
    windowsOnRelease s (handles ++ [h]) = mapErase (windowsOnRelease s handles) m.da := by
  rw [windowsOnRelease, List.foldl_append, List.foldl_cons, List.foldl_nil, hm]
  rfl

/-- One slot more: whether or not it ends a packet, every field comes to be as `reclaimed` says. -/
theorem reclaimedOne_reclaimed (hm : mapGet s.liveMaps e.handle = some m) :
    reclaimedOne e m (reclaimed s done) = reclaimed s (done ++ [e]) := by
  have htail : ((s.tx.tail + done.length) % s.params.nTx + 1) % s.params.nTx =
      (s.tx.tail + (done.length + 1)) % s.params.nTx := by rw [Nat.mod_add_mod, Nat.add_assoc]
  cases heop : e.eop <;>
    simp [reclaimedOne, completed, countedPacket, heop, reclaimed, advanceTail, clearTxSlot, emitted, releaseMap, removePkt, inc,
      htail, reclaimedSlots_snoc, shownOnRelease_snoc _ hm, windowsOnRelease_snoc _ hm, BitVec.ofNat_add, BitVec.add_assoc]

theorem mapGet_foldl_mapErase {β : Type} {k : Nat} : ∀ {ks : List Nat} (t : Table β), k ∉ ks →
    mapGet (ks.foldl mapErase t) k = mapGet t k
  | [], _, _ => rfl
  | x :: ks, t, h => by
    rw [List.mem_cons, not_or] at h
    obtain ⟨hne, hks⟩ := h
    exact (mapGet_foldl_mapErase (mapErase t x) hks).trans (mapGet_mapErase_other t hne)

/-- The tail has reached the head when, and only when, all that was occupied is reclaimed. -/
theorem tail_reaches_head {n head tail k : Nat} (hh : head < n) (ht : tail < n) (hk : k ≤ occupiedOf n head tail) :
    (tail + k) % n = head ↔ k = occupiedOf n head tail := by
  rw [Invariants.Ledger.occupiedOf_eq hh ht] at hk ⊢
  rw [Invariants.Ledger.mod_of_lt_double (by split_ifs at hk <;> omega)]
  split_ifs at hk ⊢ <;> omega

/-- What the walk rests on: the ring, the slots that it is to take, and their mappings. -/
structure Walkable (base : Nat) (s : State) (entries : List TxEntry) : Prop where
  ring : CalmRing base s
  head : s.tx.head < s.params.nTx
  takes : Reclaimable s base entries
  handles : (entries.map (·.handle)).Nodup
  mapped : ∀ e ∈ entries, mapHas s.liveMaps e.handle = true

theorem Walkable.calm (h : Walkable base s entries) (done : List TxEntry) : CalmRing base (reclaimed s done) :=
  ⟨h.ring.sched, h.ring.desc, h.ring.laidOut, h.ring.base, Nat.mod_lt _ (Nat.zero_lt_of_lt h.head)⟩

theorem Walkable.occupied_lt (h : Walkable base s entries) : occupied s < s.params.nTx := Nat.mod_lt _ (Nat.zero_lt_of_lt h.head)

theorem Walkable.length_le (h : Walkable base s entries) : entries.length ≤ occupied s := h.takes.1

/-- Before the walk takes `e`, the state holds what it needs of it. -/
theorem Walkable.next {todo : List TxEntry} (h : Walkable base s (done ++ e :: todo)) :
    (reclaimed s done).tx.tail ≠ (reclaimed s done).tx.head ∧
      hostSeesOwned (reclaimed s done) base (reclaimed s done).tx.tail = false ∧
      mapGet (reclaimed s done).tx.shadow (reclaimed s done).tx.tail = some e ∧
      ∃ m, mapGet s.liveMaps e.handle = some m ∧ mapGet (reclaimed s done).liveMaps e.handle = some m := by
  have hlen := h.length_le
  have hocc := h.occupied_lt
  simp only [List.length_append, List.length_cons] at hlen
  obtain ⟨-, htaken, -⟩ := h.takes
  obtain ⟨hown, hentry⟩ := htaken done.length e (by simp)
  refine ⟨fun heq => ?_, hown, ?_, ?_⟩
  · have := (tail_reaches_head (k := done.length) h.head h.ring.tail (by rw [occupied] at hlen; omega)).mp heq
    rw [occupied] at hlen
    omega
  · refine (mapGet_foldl_mapErase _ fun hmem => ?_).trans hentry
    obtain ⟨j, hj, heq⟩ := List.mem_map.mp hmem
    have hjd : j < done.length := List.mem_range.mp hj
    exact absurd (add_mod_inj (by omega) (by omega) heq) (by omega)
  · obtain ⟨m, hm⟩ := Option.isSome_iff_exists.mp (h.mapped e (by simp))
    refine ⟨m, hm, (mapGet_foldl_mapErase _ fun hmem => ?_).trans hm⟩
    have hnodup := h.handles
    rw [List.map_append, List.map_cons] at hnodup
    exact (List.nodup_append.mp hnodup).2.2 _ hmem _ List.mem_cons_self rfl

theorem Walkable.walk : ∀ {todo done : List TxEntry} {n : Nat}, Walkable base s (done ++ todo) → todo.length < n →
    reclaimWalk n (reclaimed s done) = .ok () (reclaimed s (done ++ todo))
  | _, _, 0, _, hn => absurd hn (Nat.not_lt_zero _)
  | [], done, n + 1, h, _ => by
    rw [List.append_nil] at h ⊢
    obtain ⟨hle, -, hend⟩ := h.takes
    rcases hend with hall | hown
    · exact reclaimWalk_empty ((tail_reaches_head h.head h.ring.tail hle).mpr hall)
    · exact reclaimWalk_stops (h.calm done) hown
  | e :: todo, done, n + 1, h, hn => by
    obtain ⟨hne, hown, hentry, m, hm, hm'⟩ := h.next
    have hsnoc : done ++ e :: todo = (done ++ [e]) ++ todo := by simp
    rw [reclaimWalk_takes (h.calm done) hne hown hentry hm', reclaimedOne_reclaimed hm, hsnoc]
    exact Walkable.walk (hsnoc ▸ h) (Nat.lt_of_succ_lt_succ hn)

theorem reclaimed_nil (ht : s.tx.tail < s.params.nTx) : reclaimed s [] = s := by
  simp only [reclaimed, reclaimedSlots, shownOnRelease, windowsOnRelease, List.length_nil, Nat.add_zero, Nat.mod_eq_of_lt ht,
    List.range_zero, List.map_nil, List.foldl_nil, List.filter_nil, List.sum_nil, BitVec.add_zero,
    List.flatMap_nil, List.append_nil]

theorem Walkable.txReclaim (h : Walkable base s entries) : txReclaim s = .ok () (woken (reclaimed s entries)) := by
  have hlen := h.length_le
  have hocc := h.occupied_lt
  have hwalk := Walkable.walk (todo := entries) (done := []) (n := s.params.nTx) h (by omega)
  rw [reclaimed_nil h.ring.tail, List.nil_append] at hwalk
  simp only [Machine.txReclaim, run_bind, run_getState, hwalk, run_queueWake (s := reclaimed s entries) h.ring.sched]

end Progress

/-- Settles O22: the walk takes the entries one by one up to the head or the first slot that is still the device's. -/
theorem txReclaimWalksInOrder : Obligations.TxReclaimWalksInOrder := by
  intro s base entries ha hp hs hcursors hl hbase htakes hhandles hmapped
  obtain ⟨hhead, htail, -⟩ := hcursors
  have hwalk : Walkable base s entries :=
    ⟨⟨hs, Rings.descValid_of_paramsValid hp, hl, hbase, htail⟩, hhead, htakes, hhandles, hmapped⟩
  have hexec : exec .txReclaim s = finish conclude ((do txReclaim; pure .ok : M OpOutcome) s) := internalOp_running ha _
  rw [hexec]
  simp only [run_bind, hwalk.txReclaim, run_pure, finish]
  rfl

end Sys2Proof.Transmit
end

section
/-! PROOFS. `RX_POST` and `RX_RECYCLE`: a receive slot is given to the device (R101, R180, R181). -/

namespace Sys2Proof.Receive

open Sys2Proof.Machine Sys2Proof.Laws Sys2Proof.Transmit

/-- The receive slot is given to the device with the device address `da` (R180). -/
def rxPosted (base slot da : Nat) (s : State) : State := posted s.params.desc base slot (encAddr da) (encRxPost s.params) s

theorem owned_encRxPost {p : Params} (hp : paramsValid p = true) : owned p.desc (encRxPost p) = true := by
  obtain ⟨⟨hown, -⟩, -⟩ := Encoding.receiveFlagsReadBack p hp
  exact hown

theorem exec_rxPost {s : State} (ha : Alive s) (slot h : Nat) :
    exec (.rxPost slot h) s = finish conclude ((do rxPost slot h; pure .ok : M OpOutcome) s) := internalOp_running ha _

theorem exec_rxRecycle {s : State} (ha : Alive s) (slot : Nat) :
    exec (.rxRecycle slot) s = finish conclude ((do rxRecycle slot; pure .ok : M OpOutcome) s) := internalOp_running ha _

theorem rxPost_dead {s : State} {h : Nat} (hm : mapHas s.liveMaps h = false) (slot : Nat) :
    rxPost slot h s = .error (.refused (.handleNotLive h)) s := by
  have hnone : mapGet s.liveMaps h = none := by simpa [mapHas] using hm
  simp only [rxPost, run_bind, run_getState, hnone, run_refuse]

/-- The slot is posted again with the handle it holds (R181). -/
theorem rxRecycle_entry {s : State} {slot : Nat} {e : RxEntry} (he : mapGet s.rx.shadow slot = some e) :
    rxRecycle slot s = rxPost slot e.handle s := by simp only [rxRecycle, run_bind, run_getState, he]

section Post

variable {s : State} {base slot h buf da : Nat}

/-- `RX_POST` (R180) of a live mapping to a slot the host may write, whatever the environment does meanwhile. -/
theorem rxPost_posts (hp : paramsValid s.params = true) (hw : HostWrites s .rx slot base)
    (hm : mapGet s.liveMaps h = some ⟨buf, da⟩) : ∃ t, rxPost slot h s = .ok () t ∧ Tracks t (rxPosted base slot da s) := by
  obtain ⟨t, hrun, hside, hexact, -⟩ := run_ringPublish hw.interleave (encAddr da) (encRxPost s.params) (owned_encRxPost hp)
  refine ⟨t, ?_, ?_, hexact⟩
  · simp only [rxPost, run_bind, run_getState, hm, hrun]
  · rw [hside, rxPosted, hostSide_posted]

/-- `RX_POST` (R180) with no agent step in between. -/
theorem run_rxPost (hs : s.sched = []) (hp : paramsValid s.params = true) (hw : HostWrites s .rx slot base)
    (hm : mapGet s.liveMaps h = some ⟨buf, da⟩) : rxPost slot h s = .ok () (rxPosted base slot da s) := by
  obtain ⟨t, hrun, ht⟩ := rxPost_posts hp hw hm
  rw [hrun, ht.same hs]

theorem hostUpdate_conclude (o : OpOutcome) : HostUpdate (conclude o) := ⟨⟨conclude o, fun _ => rfl⟩, fun _ => rfl⟩

/-- An operation that posts a slot with a live mapping, and then returns, completes with the slot posted. -/
theorem completes_of_rxPost {i : Instr} (hexec : exec i s = finish conclude ((do rxPost slot h; pure .ok : M OpOutcome) s))
    (hp : paramsValid s.params = true) (hw : HostWrites s .rx slot base) (hm : mapGet s.liveMaps h = some ⟨buf, da⟩) :
    Completes i s (conclude .ok (rxPosted base slot da s)) := by
  obtain ⟨t, hrun, ht⟩ := rxPost_posts hp hw hm
  refine completes_of_tracks (t := conclude .ok t) ?_ (ht.update (hostUpdate_conclude .ok)) rfl
  simp only [hexec, run_bind, hrun, run_pure, finish]

end Post

/-- Settles O23: both operations publish the slot with the device address of the mapping and the posted FLAGS word. -/
theorem rxPostAndRecycleGiveTheSlotAway : Obligations.RxPostAndRecycleGiveTheSlotAway := by
  refine ⟨⟨fun s base slot h buf da ha hp hl hwb hbase hslot hfree hm => ?post, fun s slot h ha hm => ?dead⟩,
    fun s base slot da e ha hp hl hwb hbase hslot hfree he hm => ?recycle⟩
  case post =>
    exact completes_of_rxPost (exec_rxPost ha slot h) hp
      ⟨Rings.descValid_of_paramsValid hp, hl, hwb, hslot, hbase, hfree⟩ hm
  case dead => simp only [exec_rxPost ha, run_bind, rxPost_dead hm, finish]
  case recycle =>
    have hexec : exec (.rxRecycle slot) s = finish conclude ((do rxPost slot e.handle; pure .ok : M OpOutcome) s) := by
      simp only [exec_rxRecycle ha, run_bind, rxRecycle_entry he]
    exact completes_of_rxPost hexec hp ⟨Rings.descValid_of_paramsValid hp, hl, hwb, hslot, hbase, hfree⟩ hm

end Sys2Proof.Receive
end

section
/-! PROOFS. The visit of a receive slot with no agent step in between: what is dropped, copied out and handed up (R183 to R187). -/

namespace Sys2Proof.Receive

open Sys2Proof.Machine Sys2Proof.Laws Sys2Proof.Transmit

/-! ### What leaves the rings' memory alone -/

/-- No agent has acted between `s` and `t`, and the host has written no descriptor. -/
structure SameRings (s t : State) : Prop where
  sched : t.sched = s.sched
  params : t.params = s.params
  dev : t.dev = s.dev
  txBase : t.tx.base = s.tx.base
  rxBase : t.rx.base = s.rx.base
  mem : t.mem = s.mem
  wb : t.wb = s.wb

theorem SameRings.refl (s : State) : SameRings s s := ⟨rfl, rfl, rfl, rfl, rfl, rfl, rfl⟩

theorem SameRings.trans {s t u : State} (h : SameRings s t) (h' : SameRings t u) : SameRings s u :=
  ⟨h'.sched.trans h.sched, h'.params.trans h.params, h'.dev.trans h.dev, h'.txBase.trans h.txBase,
    h'.rxBase.trans h.rxBase, h'.mem.trans h.mem, h'.wb.trans h.wb⟩

section SameRings

variable {s t : State} (h : SameRings s t)

include h

theorem SameRings.laidOut (hl : LaidOut s) : LaidOut t := by
  simpa only [LaidOut, h.params, h.txBase, h.rxBase] using hl

theorem SameRings.hostSeesOwned (base slot : Nat) : hostSeesOwned t base slot = Machine.hostSeesOwned s base slot := by
  simp only [Machine.hostSeesOwned, hostView, deviceView, h.params, h.mem, h.wb]

theorem SameRings.hostWrites {slot base : Nat} (hw : HostWrites s .rx slot base) : HostWrites t .rx slot base := by
  obtain ⟨hd, hl, hwb, hslot, hbase, hown⟩ := hw
  refine ⟨?_, h.laidOut hl, ?_, ?_, h.rxBase.trans hbase, ?_⟩
  · rwa [h.params]
  · rwa [h.wb]
  · rwa [h.params]
  · rwa [h.hostSeesOwned, dmaOn, h.dev]

end SameRings

/-! ### Buffers (R79) -/

section Buffers

variable {s : State} {b size : Nat} {mode : AllocMode} {rest : List (Option Nat)}

/-- A fresh buffer is granted. -/
def bufferTaken (b : Nat) (rest : List (Option Nat)) (s : State) : State :=
  emitted (.allocOk b)
    { s with
      draws := { s.draws with alloc := rest }
      liveBuffers := mapSet s.liveBuffers b ()
      bufMem := mapErase s.bufMem b
      dmaMem := mapErase s.dmaMem b }

/-- No buffer is granted. -/
def bufferDenied (rest : List (Option Nat)) (s : State) : State :=
  emitted .allocFail { s with draws := { s.draws with alloc := rest } }

/-- A buffer is given back. -/
def bufferFreed (b : Nat) (s : State) : State :=
  emitted (.freeBuf b)
    { s with
      liveBuffers := mapErase s.liveBuffers b
      bufMem := mapErase s.bufMem b
      dmaMem := mapErase s.dmaMem b }

theorem run_alloc_taken (hs : s.sched = []) (h : s.draws.alloc = some b :: rest) (hb : mapHas s.liveBuffers b = false) :
    alloc size mode s = .ok (some b) (bufferTaken b rest s) := by
  rw [run_alloc_ok h hb, interleave_nil s hs, bufferTaken]

theorem run_alloc_denied (hs : s.sched = []) (h : s.draws.alloc = none :: rest) :
    alloc size mode s = .ok none (bufferDenied rest s) := by
  rw [run_alloc_fail h, interleave_nil s hs, bufferDenied]

theorem run_freeBuf_freed (hs : s.sched = []) (b : Nat) : freeBuf b s = .ok () (bufferFreed b s) := by
  rw [run_freeBuf, interleave_nil s hs, bufferFreed]

/-- A packet is delivered in buffer `b` and counted (R185, R186, R193). -/
def delivered (b len csum : Nat) (s : State) : State :=
  emitted (.deliver b len csum)
    { releaseBuf b s with
      counters := { s.counters with rxPackets := s.counters.rxPackets + 1, rxBytes := s.counters.rxBytes + inc len } }

theorem run_deliver (hs : s.sched = []) (b len csum : Nat) : deliver b len csum s = .ok () (delivered b len csum s) := by
  simp only [deliver, run_bind, run_update, run_emit, count, interleave_nil (releaseBuf b s) hs]
  rfl

theorem sameRings_delivered (b len csum : Nat) (s : State) : SameRings s (delivered b len csum s) :=
  ⟨rfl, rfl, rfl, rfl, rfl, rfl, rfl⟩

end Buffers

/-! ### The slot visited -/

/-- No agent acts, and the host may write the receive slot, which is posted with `e`, whose mapping is live at `da`. -/
structure Visitable (base c : Nat) (e : RxEntry) (da : Nat) (s : State) : Prop where
  sched : s.sched = []
  params : paramsValid s.params = true
  writes : HostWrites s .rx c base
  entry : mapGet s.rx.shadow c = some e
  mapped : mapGet s.liveMaps e.handle = some ⟨e.buf, da⟩

/-- A drop for want of memory is counted (R187). -/
def dropCounted (s : State) : State := { s with counters := { s.counters with rxDropped := s.counters.rxDropped + 1 } }

/-- An error and its drop are counted (R184). -/
def errorCounted (s : State) : State :=
  { s with counters := { s.counters with rxErrors := s.counters.rxErrors + 1, rxDropped := s.counters.rxDropped + 1 } }

/-- The first `len` bytes of the slot's buffer are copied into buffer `b`, between the two synchronisations (R186). -/
def copiedOut (b len : Nat) (e : RxEntry) (s : State) : State :=
  emitted (.syncDev e.handle len) (returnWindow e.handle (copyPayload b e.handle len
    (emitted (.syncCpu e.handle len) (openWindow e.handle len s))))

/-- The slot is posted with buffer `b`, mapped at `(h, da')`, in place of the buffer of `e`, which is unmapped from `da` (R185). -/
def replaced (base c : Nat) (e : RxEntry) (da b h da' : Nat) (s : State) : State :=
  emitted (.unmap e.handle) (releaseMap e.handle ⟨e.buf, da⟩ (rxPosted base c da' (setRxSlot c ⟨b, h⟩ s)))

section Visit

variable {s t : State} {base c da len csum b h da' : Nat} {ov : Bool} {e : RxEntry} {rest : List (Option Nat)}
  {rest' : List (Option (Nat × Nat))}

/-- What leaves the rings' memory, the slot's entry and its mapping alone leaves the slot to be visited. -/
theorem Visitable.kept (hv : Visitable base c e da s) (hst : SameRings s t) (hrx : t.rx.shadow = s.rx.shadow)
    (hmap : mapGet t.liveMaps e.handle = mapGet s.liveMaps e.handle) : Visitable base c e da t :=
  ⟨hst.sched.trans hv.sched, hst.params ▸ hv.params, hst.hostWrites hv.writes, hrx ▸ hv.entry, hmap.trans hv.mapped⟩

theorem sameRings_taken (b : Nat) (rest : List (Option Nat)) (s : State) : SameRings s (bufferTaken b rest s) :=
  ⟨rfl, rfl, rfl, rfl, rfl, rfl, rfl⟩

theorem sameRings_denied (rest : List (Option Nat)) (s : State) : SameRings s (bufferDenied rest s) :=
  ⟨rfl, rfl, rfl, rfl, rfl, rfl, rfl⟩

theorem sameRings_freed (b : Nat) (s : State) : SameRings s (bufferFreed b s) := ⟨rfl, rfl, rfl, rfl, rfl, rfl, rfl⟩

theorem sameRings_withMapDraws (rest' : List (Option (Nat × Nat))) (s : State) : SameRings s (withMapDraws rest' s) :=
  ⟨rfl, rfl, rfl, rfl, rfl, rfl, rfl⟩

theorem sameRings_granted (b : Nat) (d : Nat × Nat) (rest' : List (Option (Nat × Nat))) (s : State) :
    SameRings s (granted b d rest' s) := ⟨rfl, rfl, rfl, rfl, rfl, rfl, rfl⟩

theorem sameRings_errorCounted (s : State) : SameRings s (errorCounted s) := ⟨rfl, rfl, rfl, rfl, rfl, rfl, rfl⟩

theorem sameRings_dropCounted (s : State) : SameRings s (dropCounted s) := ⟨rfl, rfl, rfl, rfl, rfl, rfl, rfl⟩

theorem sameRings_setRxSlot (c : Nat) (e : RxEntry) (s : State) : SameRings s (setRxSlot c e s) :=
  ⟨rfl, rfl, rfl, rfl, rfl, rfl, rfl⟩

theorem sameRings_releaseMap (h : Nat) (m : MapEntry) (s : State) : SameRings s (releaseMap h m s) :=
  ⟨rfl, rfl, rfl, rfl, rfl, rfl, rfl⟩

theorem sameRings_emitted (ev : Event) (s : State) : SameRings s (emitted ev s) := ⟨rfl, rfl, rfl, rfl, rfl, rfl, rfl⟩

theorem sameRings_openWindow (h n : Nat) (s : State) : SameRings s (openWindow h n s) := ⟨rfl, rfl, rfl, rfl, rfl, rfl, rfl⟩

theorem sameRings_returnWindow (h : Nat) (s : State) : SameRings s (returnWindow h s) := ⟨rfl, rfl, rfl, rfl, rfl, rfl, rfl⟩

theorem sameRings_copyPayload (b h n : Nat) (s : State) : SameRings s (copyPayload b h n s) :=
  ⟨rfl, rfl, rfl, rfl, rfl, rfl, rfl⟩

theorem sameRings_opened (h n : Nat) (s : State) : SameRings s (emitted (.syncCpu h n) (openWindow h n s)) :=
  (sameRings_openWindow h n s).trans (sameRings_emitted _ _)

theorem sameRings_copiedOut (b len : Nat) (e : RxEntry) (s : State) : SameRings s (copiedOut b len e s) :=
  (((sameRings_opened e.handle len s).trans (sameRings_copyPayload b e.handle len _)).trans
    (sameRings_returnWindow e.handle _)).trans (sameRings_emitted _ _)

theorem Visitable.taken (hv : Visitable base c e da s) : Visitable base c e da (bufferTaken b rest s) :=
  hv.kept (sameRings_taken b rest s) rfl rfl

/-- A new mapping leaves that of the slot's buffer as it is. -/
theorem Visitable.granted (hv : Visitable base c e da s) {d : Nat × Nat} (hfresh : mapHas s.liveMaps d.1 = false) :
    Visitable base c e da (granted b d rest' s) := by
  refine hv.kept (sameRings_granted b d rest' s) rfl (mapGet_mapSet_other _ _ fun heq => ?_)
  rw [← heq, mapHas, hv.mapped] at hfresh
  cases hfresh

theorem Visitable.post (hv : Visitable base c e da s) : rxPost c e.handle s = .ok () (rxPosted base c da s) :=
  run_rxPost hv.sched hv.params hv.writes hv.mapped

/-- The slot is posted again with the buffer it holds (R181). -/
theorem Visitable.recycle (hv : Visitable base c e da s) : rxRecycle c s = .ok () (rxPosted base c da s) := by
  rw [rxRecycle_entry hv.entry, hv.post]

theorem Visitable.dropNoMemory (hv : Visitable base c e da s) :
    dropNoMemory c s = .ok () (rxPosted base c da (dropCounted s)) := by
  simp only [Machine.dropNoMemory, count, run_bind, run_update]
  exact (hv.kept (sameRings_dropCounted s) rfl rfl).recycle

theorem Visitable.dropError (hv : Visitable base c e da s) :
    dropError c s = .ok () (rxPosted base c da (errorCounted s)) := by
  simp only [Machine.dropError, count, run_bind, run_update]
  exact (hv.kept (sameRings_errorCounted s) rfl rfl).recycle

/-! ### Which visit it is (R183) -/

theorem visit_oversize (h : s.params.rxBufSize < len) :
    visit c len false csum s = .error .faulted { s with fault := some (.rxLengthExceedsBuffer c len) } := by
  simp only [visit, run_bind, run_getState, run_ite, h, and_self, if_true, run_raise]

theorem visit_short (hp : paramsValid s.params = true) (h : len < s.params.rxMinFrame ∨ ov = true) :
    visit c len ov csum s = dropError c s := by
  obtain ⟨-, -, -, -, -, hmin, -⟩ := Encoding.paramsValid_iff.mp hp
  have hfits : ¬ (s.params.rxBufSize < len ∧ ov = false) := by
    rintro ⟨hlong, rfl⟩
    rcases h with h | h
    · omega
    · cases h
  simp only [visit, run_bind, run_getState, run_ite, hfits, h, if_false, if_true]

/-- A packet of fit length is handed up or copied out, as the threshold says. -/
theorem visit_fits (he : mapGet s.rx.shadow c = some e) (hmin : s.params.rxMinFrame ≤ len) (hmax : len ≤ s.params.rxBufSize) :
    visit c len false csum s = if s.params.rxCopyThreshold < len then zeroCopy c len csum e s else copyOut c len csum e s := by
  simp only [visit, run_bind, run_getState, run_ite, Nat.not_lt.mpr hmax, Nat.not_lt.mpr hmin, Bool.false_eq_true, false_and,
    or_self, if_false, he]

/-! ### No memory, or no mapping (R187) -/

theorem Visitable.zeroCopy_denied (hv : Visitable base c e da s) (h : s.draws.alloc = none :: rest) :
    zeroCopy c len csum e s = .ok () (rxPosted base c da (dropCounted (bufferDenied rest s))) := by
  simp only [zeroCopy, run_bind, run_getState, run_alloc_denied hv.sched h]
  exact (hv.kept (sameRings_denied rest s) rfl rfl).dropNoMemory

theorem Visitable.copyOut_denied (hv : Visitable base c e da s) (h : s.draws.alloc = none :: rest) :
    copyOut c len csum e s = .ok () (rxPosted base c da (dropCounted (bufferDenied rest s))) := by
  simp only [copyOut, run_bind, run_alloc_denied hv.sched h]
  exact (hv.kept (sameRings_denied rest s) rfl rfl).dropNoMemory

/-- Either way, the packet is dropped when no buffer is granted. -/
theorem Visitable.visit_denied (hv : Visitable base c e da s) (hmin : s.params.rxMinFrame ≤ len) (hmax : len ≤ s.params.rxBufSize)
    (h : s.draws.alloc = none :: rest) :
    visit c len false csum s = .ok () (rxPosted base c da (dropCounted (bufferDenied rest s))) := by
  rw [visit_fits hv.entry hmin hmax, hv.zeroCopy_denied h, hv.copyOut_denied h, ite_self]

theorem Visitable.zeroCopy_unmapped (hv : Visitable base c e da s) (h : s.draws.alloc = some b :: rest)
    (hb : mapHas s.liveBuffers b = false) (hm : s.draws.dmaMap = none :: rest') :
    zeroCopy c len csum e s =
      .ok () (rxPosted base c da (dropCounted (bufferFreed b (withMapDraws rest' (bufferTaken b rest s))))) := by
  have hmap : dmaMap b (bufferTaken b rest s) = .ok none (withMapDraws rest' (bufferTaken b rest s)) := by
    rw [run_dmaMap_fail (s := bufferTaken b rest s) hm, interleave_nil _ hv.taken.sched, withMapDraws]
  have hunmapped : Visitable base c e da (withMapDraws rest' (bufferTaken b rest s)) :=
    hv.taken.kept (sameRings_withMapDraws rest' _) rfl rfl
  simp only [zeroCopy, run_bind, run_getState, run_alloc_taken hv.sched h hb, hmap, run_freeBuf_freed hunmapped.sched]
  exact (hunmapped.kept (sameRings_freed b _) rfl rfl).dropNoMemory

/-! ### Copying out (R186) -/

theorem copiedOut_rx (b len : Nat) (e : RxEntry) (s : State) : (copiedOut b len e s).rx = s.rx := by
  simp only [copiedOut, emitted_rx, returnWindow_rx, copyPayload_rx, openWindow_rx]

theorem copiedOut_liveMaps (b len : Nat) (e : RxEntry) (s : State) : (copiedOut b len e s).liveMaps = s.liveMaps := by
  simp only [copiedOut, emitted_liveMaps, returnWindow_liveMaps, copyPayload_liveMaps, openWindow_liveMaps]

theorem Visitable.copyOut (hv : Visitable base c e da s) (h : s.draws.alloc = some b :: rest)
    (hb : mapHas s.liveBuffers b = false) :
    copyOut c len csum e s = .ok () (delivered b len csum (rxPosted base c da (copiedOut b len e (bufferTaken b rest s)))) := by
  have htaken : Visitable base c e da (bufferTaken b rest s) := hv.taken
  simp only [Machine.copyOut, run_bind, run_alloc_taken hv.sched h hb]
  generalize bufferTaken b rest s = u at htaken
  have hread : (copyPayload b e.handle len (emitted (.syncCpu e.handle len) (openWindow e.handle len u))).sched = [] :=
    ((sameRings_opened e.handle len u).trans (sameRings_copyPayload b e.handle len _)).sched.trans htaken.sched
  have hcopied : Visitable base c e da (copiedOut b len e u) := htaken.kept (sameRings_copiedOut b len e u)
    (by rw [copiedOut_rx]) (by rw [copiedOut_liveMaps])
  have hposted : (rxPosted base c da (copiedOut b len e u)).sched = [] := hcopied.sched
  simp only [run_dmaSyncForCpu, interleave_nil u htaken.sched, run_update, run_dmaSyncForDevice, interleave_nil _ hread]
  have hpost := hcopied.post
  simp only [copiedOut] at hpost hposted ⊢
  simp only [hpost, run_deliver hposted]

/-! ### Handing up (R185) -/

theorem Visitable.zeroCopy (hv : Visitable base c e da s) (halloc : s.draws.alloc = some b :: rest)
    (hb : mapHas s.liveBuffers b = false) (hmaps : s.draws.dmaMap = some (h, da') :: rest') (hok : MappingsAllowed s [(h, da')]) :
    zeroCopy c len csum e s = .ok () (delivered e.buf len csum (replaced base c e da b h da'
      (Transmit.granted b (h, da') rest' (bufferTaken b rest s)))) := by
  obtain ⟨hfresh, hda⟩ := hok.2 (h, da') (List.mem_singleton_self _)
  have hmap : dmaMap b (bufferTaken b rest s) =
      .ok (some (h, da')) (Transmit.granted b (h, da') rest' (bufferTaken b rest s)) := by
    rw [run_dmaMap_granted (s := bufferTaken b rest s) hmaps (if_pos ⟨hfresh, hda⟩), interleave_nil _ hv.taken.sched]
  have hgranted : Visitable base c e da (Transmit.granted b (h, da') rest' (bufferTaken b rest s)) := hv.taken.granted hfresh
  have hnew : mapGet (Transmit.granted b (h, da') rest' (bufferTaken b rest s)).liveMaps h = some ⟨b, da'⟩ :=
    mapGet_mapSet_same _ _ _
  simp only [Machine.zeroCopy, run_bind, run_getState, run_alloc_taken hv.sched halloc hb, hmap, run_update]
  generalize Transmit.granted b (h, da') rest' (bufferTaken b rest s) = u at hgranted hnew
  have hentered := sameRings_setRxSlot c ⟨b, h⟩ u
  have hpost := run_rxPost (hentered.sched.trans hgranted.sched) hgranted.params (hentered.hostWrites hgranted.writes) hnew
  have hunmap : dmaUnmap e.handle (rxPosted base c da' (setRxSlot c ⟨b, h⟩ u)) = .ok () (replaced base c e da b h da' u) := by
    have hm : mapGet (rxPosted base c da' (setRxSlot c ⟨b, h⟩ u)).liveMaps e.handle = some ⟨e.buf, da⟩ := hgranted.mapped
    have hs : (rxPosted base c da' (setRxSlot c ⟨b, h⟩ u)).sched = [] := hgranted.sched
    rw [run_dmaUnmap hm, interleave_nil _ hs, replaced]
  have hreplaced : (replaced base c e da b h da' u).sched = [] := hgranted.sched
  simp only [hpost, hunmap, run_deliver hreplaced]

end Visit

end Sys2Proof.Receive
end

section
/-! PROOFS. `RX_RECLAIM` that finds nothing, or one completed slot with no agent step in between (R182 to R188, R191, R301). -/

namespace Sys2Proof.Receive

open Sys2Proof.Machine Sys2Proof.Laws Sys2Proof.Transmit

section Walk

variable {s t u v : State} {base len da da' csum n b : Nat} {ov : Bool} {e : RxEntry}

/-! ### The operation and its walk -/

theorem exec_rxReclaim (ha : Alive s) :
    exec .rxReclaim s = finish conclude ((do rxReclaim; pure .ok : M OpOutcome) s) := internalOp_running ha _

theorem exec_rxReclaim_ok (ha : Alive s) (h : rxReclaim s = .ok () t) : exec .rxReclaim s = .next (conclude .ok t) := by
  simp only [exec_rxReclaim ha, run_bind, h, run_pure, finish]

theorem run_rxReclaim (s : State) : rxReclaim s = receiveWalk s.params.nRx s := by
  simp only [rxReclaim, run_bind, run_getState]

/-- The walk ends at a slot that the host sees as the device's (R182). -/
theorem receiveWalk_stops (hd : descValid s.params.desc = true) (hl : LaidOut s) (hbase : s.rx.base = some base)
    (hc : s.rx.cursor < s.params.nRx) (hown : hostSeesOwned (interleave s) base s.rx.cursor = true) :
    receiveWalk (n + 1) s = .ok () (interleave s) := by
  simp only [receiveWalk, run_bind, run_getState, run_ringTryReclaim (r := .rx) hd hl hbase hc, hown, if_true, run_pure]

/-- Settles O24: the walk reads the FLAGS word of the first slot and stops. -/
theorem rxReclaimIdle : Obligations.RxReclaimIdle := by
  intro s base ha hp hl hbase hc hown
  obtain ⟨n, hn⟩ : ∃ n, s.params.nRx = n + 1 := ⟨s.params.nRx - 1, by omega⟩
  have hrun : rxReclaim s = .ok () (interleave s) := by
    rw [run_rxReclaim, hn, receiveWalk_stops (Rings.descValid_of_paramsValid hp) hl hbase hc hown]
  exact exec_rxReclaim_ok ha hrun

/-! ### One completed slot -/

theorem visitable_of_oneCompleted (h : OneCompleted s base len ov csum e da) (hs : s.sched = []) :
    Visitable base s.rx.cursor e da s := by
  obtain ⟨hp, hl, ⟨-, hwb⟩, hbase, hc, he, hm, hown, -⟩ := h
  exact ⟨hs, hp, ⟨Rings.descValid_of_paramsValid hp, hl, fun w hw => (hwb w hw).2, hc, hbase, .inl hown⟩, he, hm⟩

/-- The walk visits the completed slot with what its FLAGS word says (R182). -/
theorem receiveWalk_visits (h : OneCompleted s base len ov csum e da) (hs : s.sched = []) :
    receiveWalk (n + 1) s = (do
      visit s.rx.cursor len ov csum
      update (advanceCursor s.rx.cursor)
      receiveWalk n : M Unit) s := by
  obtain ⟨hp, hl, -, hbase, hc, -, -, hown, -, rfl, rfl, rfl⟩ := h
  have hread := run_ringTryReclaim (r := .rx) (Rings.descValid_of_paramsValid hp) hl hbase hc
  rw [interleave_nil s hs, interleave_nil s hs, hown] at hread
  simp only [receiveWalk, run_bind, run_getState, hread, Bool.false_eq_true, if_false]

/-- A slot given to the device leaves the host's view of every other slot's owner as it is. -/
theorem hostSeesOwned_rxPosted_other {c c' : Nat} (hd : descValid s.params.desc = true) (hne : c' ≠ c) :
    hostSeesOwned (rxPosted base c da s) base c' = hostSeesOwned s base c' := by
  have hflags : descWordAddr s.params.desc base c .flags ≠ descWordAddr s.params.desc base c' .flags := fun heq =>
    hne (descWordAddr_inj hd heq).1.symm
  have haddr : descWordAddr s.params.desc base c .addr ≠ descWordAddr s.params.desc base c' .flags := fun heq =>
    hne (descWordAddr_inj hd heq).1.symm
  have hview := hostView_posted s.params.desc base c (encAddr da) (encRxPost s.params) s (descWordAddr s.params.desc base c' .flags)
  rw [if_neg hflags, if_neg haddr] at hview
  exact congrArg (owned s.params.desc) hview

/-- What a visit ends in that gives the slot, and no other, to the device at some address. -/
def GaveBack (s : State) (base c : Nat) (u : State) : Prop := ∃ v da, SameRings s v ∧ SameRings (rxPosted base c da v) u

section GaveBack

variable {c c' : Nat} (hu : GaveBack s base c u)

include hu

theorem GaveBack.sched : u.sched = s.sched := by
  obtain ⟨v, da, hsv, hvu⟩ := hu
  exact hvu.sched.trans hsv.sched

theorem GaveBack.params : u.params = s.params := by
  obtain ⟨v, da, hsv, hvu⟩ := hu
  exact hvu.params.trans hsv.params

theorem GaveBack.rxBase : u.rx.base = s.rx.base := by
  obtain ⟨v, da, hsv, hvu⟩ := hu
  exact hvu.rxBase.trans hsv.rxBase

theorem GaveBack.laidOut (hl : LaidOut s) : LaidOut u := by
  obtain ⟨v, da, hsv, hvu⟩ := hu
  exact hvu.laidOut (s := rxPosted base c da v) (hsv.laidOut hl)

theorem GaveBack.hostSeesOwned_other (hd : descValid s.params.desc = true) (hne : c' ≠ c) :
    hostSeesOwned u base c' = hostSeesOwned s base c' := by
  obtain ⟨v, da, hsv, hvu⟩ := hu
  calc hostSeesOwned u base c'
      = hostSeesOwned (rxPosted base c da v) base c' := hvu.hostSeesOwned _ _
    _ = hostSeesOwned v base c' := hostSeesOwned_rxPosted_other (by rwa [hsv.params]) hne
    _ = hostSeesOwned s base c' := hsv.hostSeesOwned _ _

end GaveBack

/-- After the one visit, the walk stops at the slot after it (R182). -/
theorem receiveWalk_stops_after (h : OneCompleted s base len ov csum e da) (hs : s.sched = [])
    (hu : GaveBack s base s.rx.cursor u) :
    receiveWalk (n + 1) (advanceCursor s.rx.cursor u) = .ok () (advanceCursor s.rx.cursor u) := by
  obtain ⟨hp, hl, -, hbase, hc, -, -, hown, hnext, -⟩ := h
  have hd := Rings.descValid_of_paramsValid hp
  have hne : (s.rx.cursor + 1) % s.params.nRx ≠ s.rx.cursor := fun heq => by
    rw [heq, hown] at hnext
    cases hnext
  have hparams : (advanceCursor s.rx.cursor u).params = s.params := hu.params
  have hcursor : (advanceCursor s.rx.cursor u).rx.cursor = (s.rx.cursor + 1) % s.params.nRx :=
    congrArg (fun p : Params => (s.rx.cursor + 1) % p.nRx) hu.params
  have hsees : hostSeesOwned (advanceCursor s.rx.cursor u) base ((s.rx.cursor + 1) % s.params.nRx) = true :=
    (hu.hostSeesOwned_other hd hne).trans hnext
  have hcalm : interleave (advanceCursor s.rx.cursor u) = advanceCursor s.rx.cursor u := interleave_nil _ (hu.sched.trans hs)
  have hstops := receiveWalk_stops (n := n) (s := advanceCursor s.rx.cursor u) (base := base) (by rwa [hparams])
    (show LaidOut u from hu.laidOut hl) (hu.rxBase.trans hbase)
    (by rw [hcursor, hparams]; exact Nat.mod_lt _ (Nat.zero_lt_of_lt hc)) (by rwa [hcalm, hcursor])
  rwa [hcalm] at hstops

/-- The walk makes the one visit, moves the cursor on, and stops at the slot after it (R182, R188). -/
theorem rxReclaim_of_visit (h : OneCompleted s base len ov csum e da) (hs : s.sched = [])
    (hvisit : visit s.rx.cursor len ov csum s = .ok () u) (hu : GaveBack s base s.rx.cursor u) :
    rxReclaim s = .ok () (advanceCursor s.rx.cursor u) := by
  obtain ⟨n, hn⟩ : ∃ n, s.params.nRx = n + 1 + 1 := by
    obtain ⟨hp, -⟩ := h
    obtain ⟨-, -, -, htwo, -⟩ := Encoding.paramsValid_iff.mp hp
    exact ⟨s.params.nRx - 2, by omega⟩
  rw [run_rxReclaim, hn, receiveWalk_visits h hs]
  simp only [run_bind, hvisit, run_update, receiveWalk_stops_after h hs hu]

end Walk

end Sys2Proof.Receive
end

section
/-! PROOFS. `RX_RECLAIM` of one completed slot, by what becomes of the packet: a fault, a drop, a copy, or the buffer itself
(R183 to R188, R193). -/

namespace Sys2Proof.Receive

open Sys2Proof.Machine Sys2Proof.Laws Sys2Proof.Transmit

/-- Settles O28: the visit faults on its first look at the length, and nothing precedes the look. -/
theorem rxFaultsOnOversize : Obligations.RxFaultsOnOversize := by
  intro s base len da csum e ha hs h hlong
  have hvisits := receiveWalk_visits (n := s.params.nRx - 1) h hs
  obtain ⟨-, -, -, -, hc, -⟩ := h
  rw [show s.params.nRx - 1 + 1 = s.params.nRx by omega] at hvisits
  simp only [exec_rxReclaim ha, run_bind, run_rxReclaim, hvisits, visit_oversize hlong, finish]

theorem exec_of_visit {s u : State} {base len da csum : Nat} {ov : Bool} {e : RxEntry} (ha : Alive s) (hs : s.sched = [])
    (h : OneCompleted s base len ov csum e da) (hvisit : visit s.rx.cursor len ov csum s = .ok () u)
    (hu : GaveBack s base s.rx.cursor u) : exec .rxReclaim s = .next (conclude .ok (advanceCursor s.rx.cursor u)) :=
  exec_rxReclaim_ok ha (rxReclaim_of_visit h hs hvisit hu)

/-- Settles O25: each kind of drop counts, and posts the slot again with the buffer it holds. -/
theorem rxDropsWhatItCannotDeliver : Obligations.RxDropsWhatItCannotDeliver := by
  refine ⟨fun s base len da csum ov e ha hs h hshort => ?short, fun s base len da csum e rest ha hs h hmin hmax halloc => ?denied,
    fun s base len da csum b e rest rest' ha hs h hmin hlong hmax halloc hb hwf hmap => ?unmapped⟩
  case short =>
    have hv := visitable_of_oneCompleted h hs
    have hvisit := (visit_short (csum := csum) hv.params hshort).trans hv.dropError
    rw [exec_of_visit ha hs h hvisit ⟨_, da, sameRings_errorCounted s, .refl _⟩]
    rfl
  case denied =>
    have hv := visitable_of_oneCompleted h hs
    have hvisit := hv.visit_denied (csum := csum) hmin hmax halloc
    rw [exec_of_visit ha hs h hvisit ⟨_, da, (sameRings_denied rest s).trans (sameRings_dropCounted _), .refl _⟩]
    rfl
  case unmapped =>
    have hv := visitable_of_oneCompleted h hs
    have hvisit := (visit_fits hv.entry hmin hmax).trans ((if_pos hlong).trans (hv.zeroCopy_unmapped (csum := csum) halloc hb hmap))
    have hrings := (((sameRings_taken b rest s).trans (sameRings_withMapDraws rest' _)).trans (sameRings_freed b _)).trans
      (sameRings_dropCounted _)
    rw [exec_of_visit ha hs h hvisit ⟨_, da, hrings, .refl _⟩]
    simp only [conclude, advanceCursor, rxPosted, posted, dropCounted, bufferFreed, withMapDraws, bufferTaken, emitted,
      republished, mapErase_mapSet_fresh _ _ _ hwf hb, List.append_assoc, List.cons_append, List.nil_append]
    rfl

/-! ### The copy (R186) -/

section Copy

variable {s : State} {base len da csum b : Nat} {e : RxEntry} {rest : List (Option Nat)}

theorem mapErase_mapSet {β : Type} (t : Table β) (k : Nat) (v : β) : mapErase (mapSet t k v) k = mapErase t k := by
  induction t with
  | nil => simp [mapSet, mapErase]
  | cons x t ih =>
    obtain ⟨k', v'⟩ := x
    simp only [mapSet]
    split_ifs with hlt heq <;> simp_all [mapErase]

/-- The synchronisations and the copy between them write the host's bytes of the two buffers, the window and the trace. -/
theorem copiedOut_eq (hm : mapGet s.liveMaps e.handle = some ⟨e.buf, da⟩) : copiedOut b len e s = { s with
    bufMem := mapSet (showBytes s.dmaMem e.buf len s.bufMem) b
      (((mapGet (showBytes s.dmaMem e.buf len s.bufMem) e.buf).getD []).take len)
    syncWindows := mapErase s.syncWindows da
    trace := s.trace ++ [.syncCpu e.handle len, .syncDev e.handle len] } := by
  have hread : readPayload e.handle len (emitted (.syncCpu e.handle len) (openWindow e.handle len s)) =
      ((mapGet (showBytes s.dmaMem e.buf len s.bufMem) e.buf).getD []).take len :=
    (readPayload_openWindow hm len len).trans (by rw [Nat.min_self])
  rw [copiedOut, copyPayload, hread]
  simp only [returnWindow, openWindow, emitted, hm, mapErase_mapSet, List.append_assoc,
    List.cons_append, List.nil_append]

/-- The state after a packet has been copied into buffer `b` and delivered. -/
def copyDelivered (s : State) (base len da csum b : Nat) (e : RxEntry) (rest : List (Option Nat)) : State :=
  let shown := showBytes (mapErase s.dmaMem b) e.buf len (mapErase s.bufMem b)
  { republished s base da with
    draws := { s.draws with alloc := rest }
    bufMem := mapSet shown b (((mapGet shown e.buf).getD []).take len)
    dmaMem := mapErase s.dmaMem b
    syncWindows := mapErase (mapErase s.syncWindows da) (BitVec.ofNat 32 da).toNat
    counters := { s.counters with
      rxPackets := s.counters.rxPackets + 1, rxBytes := s.counters.rxBytes + BitVec.ofNat 64 len }
    trace := s.trace ++ [.allocOk b, .syncCpu e.handle len, .syncDev e.handle len] ++
      [.descW (base + 8 * s.rx.cursor + s.params.desc.addrOffset) (BitVec.ofNat 32 da), .barrier,
        .descW (base + 8 * s.rx.cursor + s.params.desc.flagsOffset) (encRxPost s.params)] ++ [.deliver b len csum]
    outcome := some .ok }

theorem copyDelivered_eq (hm : mapGet s.liveMaps e.handle = some ⟨e.buf, da⟩) (hwf : mapWf s.liveBuffers = true)
    (hb : mapHas s.liveBuffers b = false) :
    conclude .ok (advanceCursor s.rx.cursor
      (delivered b len csum (rxPosted base s.rx.cursor da (copiedOut b len e (bufferTaken b rest s))))) =
      copyDelivered s base len da csum b e rest := by
  rw [copiedOut_eq (s := bufferTaken b rest s) hm]
  simp only [conclude, advanceCursor, delivered, releaseBuf, rxPosted, posted, bufferTaken, emitted, copyDelivered, republished,
    mapErase_mapSet_fresh _ _ _ hwf hb, List.append_assoc, List.cons_append, List.nil_append]
  rfl

end Copy

/-- Settles O26: the visit copies what the device has written, posts the slot again and delivers the copy. -/
theorem rxCopiesSmallPacketsOut : Obligations.RxCopiesSmallPacketsOut := by
  intro s base len da csum b e rest ha hs h hmin hsmall hmax halloc hb hne hwf
  have hv := visitable_of_oneCompleted h hs
  have hvisit := (visit_fits hv.entry hmin hmax).trans
    ((if_neg (Nat.not_lt.mpr hsmall)).trans (hv.copyOut (csum := csum) halloc hb))
  have hexec := exec_of_visit ha hs h hvisit ⟨_, da, (sameRings_taken b rest s).trans (sameRings_copiedOut b len e _),
    sameRings_delivered _ _ _ _⟩
  rw [copyDelivered_eq hv.mapped hwf hb] at hexec
  obtain ⟨hfault, -⟩ := ha
  refine ⟨_, hexec, rfl, hfault, rfl, ?copy, ?shown, fun x hxb hxe => ?others, rfl, rfl, rfl, rfl, rfl, rfl, rfl, rfl, rfl, rfl, rfl,
    rfl, rfl, rfl, rfl⟩
  case copy =>
    refine (mapGet_mapSet_same _ _ _).trans ?_
    rw [mapGet_showBytes_same, mapGet_mapErase_other _ hne.symm, mapGet_mapErase_other _ hne.symm]
  case shown =>
    refine (mapGet_mapSet_other _ _ hne.symm).trans ?_
    simp only [showBytes, mapGet_mapErase_other _ hne.symm]
    cases mapGet s.dmaMem e.buf with
    | none => exact mapGet_mapErase_other _ hne.symm
    | some bytes => simp only [mapGet_mapSet_same]
  case others =>
    refine (mapGet_mapSet_other _ _ hxb).trans ?_
    rw [mapGet_showBytes_other _ hxe, mapGet_mapErase_other _ hxb]

/-! ### The buffer handed up (R185) -/

section HandUp

variable {s : State} {base len da csum b h da' : Nat} {e : RxEntry} {rest : List (Option Nat)} {rest' : List (Option (Nat × Nat))}

/-- The state after the slot's buffer has been replaced by `b`, mapped at `(h, da')`, and delivered. -/
def bufferDelivered (s : State) (base len da csum b h da' : Nat) (e : RxEntry) (rest : List (Option Nat))
    (rest' : List (Option (Nat × Nat))) : State :=
  { republished s base da' with
    rx := { s.rx with cursor := (s.rx.cursor + 1) % s.params.nRx, shadow := mapSet s.rx.shadow s.rx.cursor ⟨b, h⟩ }
    draws := { s.draws with alloc := rest, dmaMap := rest' }
    liveMaps := mapErase (mapSet s.liveMaps h ⟨b, da'⟩) e.handle
    liveBuffers := mapErase (mapSet s.liveBuffers b ()) e.buf
    bufMem := showAll (mapErase s.dmaMem b) e.buf (mapErase s.bufMem b)
    dmaMem := mapErase s.dmaMem b
    syncWindows := mapErase (mapErase s.syncWindows da') da
    counters := { s.counters with
      rxPackets := s.counters.rxPackets + 1, rxBytes := s.counters.rxBytes + BitVec.ofNat 64 len }
    trace := s.trace ++ [.allocOk b, .map b h] ++
      [.descW (base + 8 * s.rx.cursor + s.params.desc.addrOffset) (BitVec.ofNat 32 da'), .barrier,
        .descW (base + 8 * s.rx.cursor + s.params.desc.flagsOffset) (encRxPost s.params)] ++
      [.unmap e.handle, .deliver e.buf len csum]
    outcome := some .ok }

theorem bufferDelivered_eq (hda : (encAddr da').toNat = da') :
    conclude .ok (advanceCursor s.rx.cursor (delivered e.buf len csum
      (replaced base s.rx.cursor e da b h da' (granted b (h, da') rest' (bufferTaken b rest s))))) =
      bufferDelivered s base len da csum b h da' e rest rest' := by
  simp only [conclude, advanceCursor, delivered, releaseBuf, replaced, releaseMap, rxPosted, posted, setRxSlot, granted,
    bufferTaken, emitted, bufferDelivered, republished, hda, List.append_assoc, List.cons_append, List.nil_append]
  rfl

/-- A device address that `DmaMap` may answer reads back from the ADDR word (R105). -/
theorem toNat_encAddr {p : Params} (hp : paramsValid p = true) (hlt : da < 2 ^ p.desc.addrBits) : (encAddr da).toNat = da := by
  obtain ⟨-, hbits, -⟩ := Encoding.descValid_iff.mp (Rings.descValid_of_paramsValid hp)
  have hpow := Nat.pow_le_pow_right (n := 2) (by omega) hbits
  rw [encAddr, BitVec.toNat_ofNat, Nat.mod_eq_of_lt (by omega)]

theorem gaveBack_replaced {v : State} (hv : SameRings s v) :
    GaveBack s base s.rx.cursor (delivered e.buf len csum (replaced base s.rx.cursor e da b h da' v)) :=
  ⟨setRxSlot s.rx.cursor ⟨b, h⟩ v, da', hv.trans (sameRings_setRxSlot _ _ v),
    ((sameRings_releaseMap _ _ _).trans (sameRings_emitted _ _)).trans (sameRings_delivered _ _ _ _)⟩

end HandUp

/-- Settles O27: the visit posts the slot with the replacement, and then unmaps and delivers the buffer it held. -/
theorem rxHandsLargePacketsUp : Obligations.RxHandsLargePacketsUp := by
  intro s base len da csum b h da' e rest rest' ha hs hone hmin hlong hmax halloc hb hmaps hok
  have hv := visitable_of_oneCompleted hone hs
  have hvisit := (visit_fits hv.entry hmin hmax).trans ((if_pos hlong).trans (hv.zeroCopy (csum := csum) halloc hb hmaps hok))
  have hexec := exec_of_visit ha hs hone hvisit (gaveBack_replaced ((sameRings_taken b rest s).trans (sameRings_granted b _ rest' _)))
  obtain ⟨-, hlt, -⟩ := hok.2 (h, da') (List.mem_singleton_self _)
  rw [bufferDelivered_eq (toNat_encAddr hv.params hlt)] at hexec
  obtain ⟨hfault, -⟩ := ha
  exact ⟨_, hexec, rfl, hfault, rfl, rfl, rfl, rfl, rfl, rfl, rfl, rfl, rfl, rfl, rfl, rfl, rfl, rfl, rfl, rfl, rfl⟩

end Sys2Proof.Receive
end

section
/-! PROOFS. Every receive walk, under every interleaving: each visit counts one packet or one drop and keeps the slot posted
(R188, R189, R192, R193). -/

namespace Sys2Proof.Receive

open Sys2Proof.Machine Sys2Proof.Laws Sys2Proof.Invariants

/-! ### Programs that leave the account alone -/

/-- What the walk gives account of, and the state it must not touch, are the same in `s` and `t`. -/
structure SameAccount (s t : State) : Prop where
  params : t.params = s.params
  tx : t.tx = s.tx
  rx : t.rx = s.rx
  link : t.link = s.link
  counters : t.counters = s.counters

theorem sameAccount_closed : Closed SameAccount SameAccount where
  refl _ := ⟨rfl, rfl, rfl, rfl, rfl⟩
  trans h h' := ⟨h'.params.trans h.params, h'.tx.trans h.tx, h'.rx.trans h.rx, h'.link.trans h.link,
    h'.counters.trans h.counters⟩
  step h := h

theorem sameAccount_interleave (s : State) : SameAccount s (interleave s) := by
  have hfields := hostSide_fields (interleave_hostSide s)
  constructor <;> simp only [hfields]

theorem boundary_sameAccount : Follows SameAccount boundary :=
  Follows.update sameAccount_interleave fun s => hostSide_fault (interleave_hostSide s)

/-- A micro-step that leaves the account alone, with the agent steps before it. -/
theorem step_sameAccount {f : State → State} (h : ∀ s, SameAccount s (f s)) (hf : ∀ s, (f s).fault = s.fault := by intros; rfl) :
    Follows SameAccount (do boundary; update f) :=
  Follows.bind sameAccount_closed boundary_sameAccount fun _ => Follows.update h hf

theorem emit_sameAccount (e : Event) : Follows SameAccount (emit e) := step_sameAccount fun _ => ⟨rfl, rfl, rfl, rfl, rfl⟩

theorem wmb_sameAccount : Follows SameAccount wmb := step_sameAccount fun _ => ⟨rfl, rfl, rfl, rfl, rfl⟩

theorem freeBuf_sameAccount (b : Nat) : Follows SameAccount (freeBuf b) := step_sameAccount fun _ => ⟨rfl, rfl, rfl, rfl, rfl⟩

theorem dmaSyncForCpu_sameAccount (h n : Nat) : Follows SameAccount (dmaSyncForCpu h n) :=
  step_sameAccount fun _ => ⟨rfl, rfl, rfl, rfl, rfl⟩

theorem dmaSyncForDevice_sameAccount (h n : Nat) : Follows SameAccount (dmaSyncForDevice h n) :=
  step_sameAccount fun _ => ⟨rfl, rfl, rfl, rfl, rfl⟩

theorem drawAlloc_sameAccount (mode : AllocMode) (size : Nat) : Follows SameAccount (drawAlloc mode size) := by
  intro s hs
  unfold drawAlloc
  cases s.draws.alloc <;> exact ⟨⟨rfl, rfl, rfl, rfl, rfl⟩, hs⟩

theorem drawDmaMap_sameAccount (buf : Nat) : Follows SameAccount (drawDmaMap buf) := by
  intro s hs
  unfold drawDmaMap
  cases s.draws.dmaMap <;> exact ⟨⟨rfl, rfl, rfl, rfl, rfl⟩, hs⟩

theorem alloc_sameAccount (size : Nat) (mode : AllocMode) : Follows SameAccount (alloc size mode) := by
  refine Follows.bind sameAccount_closed boundary_sameAccount fun _ =>
    Follows.bind sameAccount_closed (drawAlloc_sameAccount mode size) fun raw =>
      Follows.bind sameAccount_closed (Follows.getState sameAccount_closed) fun s => ?_
  cases raw.bind (checkAlloc s) <;>
    exact Follows.bind sameAccount_closed (Follows.update fun _ => ⟨rfl, rfl, rfl, rfl, rfl⟩) fun _ =>
      Follows.pure sameAccount_closed _

theorem dmaMap_sameAccount (buf : Nat) : Follows SameAccount (dmaMap buf) := by
  refine Follows.bind sameAccount_closed boundary_sameAccount fun _ =>
    Follows.bind sameAccount_closed (drawDmaMap_sameAccount buf) fun raw =>
      Follows.bind sameAccount_closed (Follows.getState sameAccount_closed) fun s => ?_
  cases raw.bind (checkMap s) with
  | none => exact Follows.pure sameAccount_closed _
  | some d =>
    exact Follows.bind sameAccount_closed (Follows.update fun _ => ⟨rfl, rfl, rfl, rfl, rfl⟩) fun _ =>
      Follows.pure sameAccount_closed _

theorem dmaUnmap_sameAccount (h : Nat) : Follows SameAccount (dmaUnmap h) := by
  refine Follows.bind sameAccount_closed boundary_sameAccount fun _ =>
    Follows.bind sameAccount_closed (Follows.getState sameAccount_closed) fun s => ?_
  cases mapGet s.liveMaps h with
  | none => exact Follows.raise _ fun _ => ⟨rfl, rfl, rfl, rfl, rfl⟩
  | some m => exact Follows.update fun _ => ⟨rfl, rfl, rfl, rfl, rfl⟩

theorem memRead_sameAccount (r : Ring) (slot : Nat) (w : DescWord) : Follows SameAccount (memRead r slot w) := by
  refine Follows.bind sameAccount_closed boundary_sameAccount fun _ => Follows.bind sameAccount_closed (fun s hs => ?_) fun _ =>
    Follows.bind sameAccount_closed (Follows.getState sameAccount_closed) fun _ => Follows.pure sameAccount_closed _
  rcases descAddr_cases r slot w s with ⟨e, he⟩ | ⟨base, -, -, -, he⟩ <;> rw [he]
  · trivial
  · exact ⟨sameAccount_closed.refl s, hs⟩

theorem memWrite_sameAccount (r : Ring) (slot : Nat) (w : DescWord) (v : Word32) : Follows SameAccount (memWrite r slot w v) := by
  intro s hs
  have hi := sameAccount_interleave s
  rcases memWrite_cases r slot w v s with ⟨e, he⟩ | he | ⟨base, -, -, -, he⟩ <;> rw [he]
  · trivial
  · exact ⟨sameAccount_closed.trans hi ⟨rfl, rfl, rfl, rfl, rfl⟩, Option.some_ne_none _⟩
  · exact ⟨sameAccount_closed.trans hi ⟨rfl, rfl, rfl, rfl, rfl⟩, (hostSide_fault (interleave_hostSide s)).trans hs⟩

theorem ringPublish_sameAccount (r : Ring) (slot : Nat) (a f : Word32) : Follows SameAccount (ringPublish r slot a f) :=
  Follows.bind sameAccount_closed (Follows.getState sameAccount_closed) fun _ => Follows.ite
    (Follows.bind sameAccount_closed (memWrite_sameAccount r slot .addr a) fun _ =>
      Follows.bind sameAccount_closed wmb_sameAccount fun _ =>
        Follows.bind sameAccount_closed (memWrite_sameAccount r slot .flags f) fun _ =>
          Follows.update fun _ => ⟨rfl, rfl, rfl, rfl, rfl⟩)
    (Follows.refuse _)

theorem ringTryReclaim_sameAccount (r : Ring) (slot : Nat) : Follows SameAccount (ringTryReclaim r slot) :=
  Follows.bind sameAccount_closed (memRead_sameAccount r slot .flags) fun _ =>
    Follows.bind sameAccount_closed (Follows.getState sameAccount_closed) fun _ => Follows.ite (Follows.pure sameAccount_closed _)
      (Follows.bind sameAccount_closed (memRead_sameAccount r slot .addr) fun _ => Follows.pure sameAccount_closed _)

theorem rxPost_sameAccount (slot h : Nat) : Follows SameAccount (rxPost slot h) := by
  refine Follows.bind sameAccount_closed (Follows.getState sameAccount_closed) fun s => ?_
  cases mapGet s.liveMaps h with
  | none => exact Follows.refuse _
  | some m => exact ringPublish_sameAccount _ _ _ _

theorem rxRecycle_sameAccount (slot : Nat) : Follows SameAccount (rxRecycle slot) := by
  refine Follows.bind sameAccount_closed (Follows.getState sameAccount_closed) fun s => ?_
  cases mapGet s.rx.shadow slot with
  | none => exact Follows.ite (Follows.refuse _) (Follows.refuse _)
  | some e => exact rxPost_sameAccount slot e.handle

/-! ### The account of a walk -/

/-- On the way from `s` to `t` a walk has moved the cursor on by `moved` slots and counted `counted` packets and drops; what was
posted still is, and what is not the walk's is as it was. -/
structure Walked (s : State) (moved counted : Nat) (t : State) : Prop where
  params : t.params = s.params
  tx : t.tx = s.tx
  link : t.link = s.link
  txPackets : t.counters.txPackets = s.counters.txPackets
  cursor : t.rx.cursor = (s.rx.cursor + moved) % s.params.nRx
  tally : t.counters.rxPackets + t.counters.rxDropped =
    s.counters.rxPackets + s.counters.rxDropped + BitVec.ofNat 64 counted
  posted : ∀ i, mapHas s.rx.shadow i = true → mapHas t.rx.shadow i = true

section Walked

variable {s t u : State} {moved counted : Nat}

theorem Walked.start (hc : s.rx.cursor < s.params.nRx) : Walked s 0 0 s :=
  ⟨rfl, rfl, rfl, rfl, (Nat.mod_eq_of_lt hc).symm, (BitVec.add_zero _).symm, fun _ h => h⟩

theorem Walked.same (h : Walked s moved counted t) (hu : SameAccount t u) : Walked s moved counted u := by
  obtain ⟨hp, htx, hrx, hl, hk⟩ := hu
  refine ⟨hp.trans h.params, htx.trans h.tx, hl.trans h.link, ?_, ?_, ?_, ?_⟩
  · rw [hk, h.txPackets]
  · rw [hrx, h.cursor]
  · rw [hk, h.tally]
  · rw [hrx]
    exact h.posted

/-- One more packet or drop is counted. -/
theorem Walked.counts (h : Walked s moved counted t) {k : Counters}
    (hsum : k.rxPackets + k.rxDropped = t.counters.rxPackets + t.counters.rxDropped + 1)
    (htx : k.txPackets = t.counters.txPackets) : Walked s moved (counted + 1) { t with counters := k } := by
  refine ⟨h.params, h.tx, h.link, htx.trans h.txPackets, h.cursor, ?_, h.posted⟩
  rw [show ({ t with counters := k } : State).counters = k from rfl, hsum, h.tally, BitVec.add_assoc, BitVec.ofNat_add]
  rfl

theorem Walked.setRxSlot (h : Walked s moved counted t) (c : Nat) (e : RxEntry) : Walked s moved counted (setRxSlot c e t) := by
  refine ⟨h.params, h.tx, h.link, h.txPackets, h.cursor, h.tally, fun i hi => ?_⟩
  rw [setRxSlot_rx]
  exact (mapHas_mapSet ..).trans (by rw [h.posted i hi, Bool.or_true])

theorem Walked.advance (h : Walked s moved counted t) {c : Nat} (hc : c = (s.rx.cursor + moved) % s.params.nRx) :
    Walked s (moved + 1) counted (advanceCursor c t) := by
  refine ⟨h.params, h.tx, h.link, h.txPackets, ?_, h.tally, h.posted⟩
  show (c + 1) % t.params.nRx = _
  rw [h.params, hc, Nat.mod_add_mod, Nat.add_assoc]

theorem Walked.difference (h : Walked s moved counted t) :
    t.counters.rxPackets - s.counters.rxPackets + (t.counters.rxDropped - s.counters.rxDropped) = BitVec.ofNat 64 counted := by
  have htally := h.tally
  linear_combination htally

end Walked

/-! ### What each program of the walk adds to the account -/

section Contracts

variable {s : State} {moved counted : Nat} {α : Type}

theorem walked_of_sameAccount {m : M α} (h : Follows SameAccount m) :
    Ensures (Walked s moved counted) m (fun _ => Walked s moved counted) anyEnd :=
  h.ensures (fun _ _ ht hu => ht.same hu) fun _ _ _ _ => trivial

theorem count_walked {f : Counters → Counters} (hsum : ∀ k, (f k).rxPackets + (f k).rxDropped = k.rxPackets + k.rxDropped + 1)
    (htx : ∀ k, (f k).txPackets = k.txPackets) :
    Ensures (Walked s moved counted) (count f) (fun _ => Walked s moved (counted + 1)) anyEnd :=
  Ensures.update fun t h => h.counts (hsum t.counters) (htx t.counters)

theorem dropError_walked (c : Nat) : Ensures (Walked s moved counted) (dropError c) (fun _ => Walked s moved (counted + 1)) anyEnd :=
  Ensures.bind (count_walked (fun _ => by ring) fun _ => rfl) fun _ => walked_of_sameAccount (rxRecycle_sameAccount c)

theorem dropNoMemory_walked (c : Nat) :
    Ensures (Walked s moved counted) (dropNoMemory c) (fun _ => Walked s moved (counted + 1)) anyEnd :=
  Ensures.bind (count_walked (fun _ => by ring) fun _ => rfl) fun _ => walked_of_sameAccount (rxRecycle_sameAccount c)

theorem deliver_walked (b len csum : Nat) :
    Ensures (Walked s moved counted) (deliver b len csum) (fun _ => Walked s moved (counted + 1)) anyEnd :=
  Ensures.bind (walked_of_sameAccount (Follows.update fun _ => ⟨rfl, rfl, rfl, rfl, rfl⟩)) fun _ =>
    Ensures.bind (walked_of_sameAccount (emit_sameAccount _)) fun _ => count_walked (fun _ => by ring) fun _ => rfl

theorem zeroCopy_walked (c len csum : Nat) (e : RxEntry) :
    Ensures (Walked s moved counted) (zeroCopy c len csum e) (fun _ => Walked s moved (counted + 1)) anyEnd := by
  refine Ensures.bind (walked_of_sameAccount (Follows.getState sameAccount_closed)) fun v =>
    Ensures.bind (walked_of_sameAccount (alloc_sameAccount v.params.rxBufSize .nonblocking)) fun nb => ?_
  cases nb with
  | none => exact dropNoMemory_walked c
  | some b =>
    refine Ensures.bind (walked_of_sameAccount (dmaMap_sameAccount b)) fun m => ?_
    cases m with
    | none => exact Ensures.bind (walked_of_sameAccount (freeBuf_sameAccount b)) fun _ => dropNoMemory_walked c
    | some d =>
      exact Ensures.bind (Ensures.update fun _ h => h.setRxSlot c ⟨b, d.1⟩) fun _ =>
        Ensures.bind (walked_of_sameAccount (rxPost_sameAccount c d.1)) fun _ =>
          Ensures.bind (walked_of_sameAccount (dmaUnmap_sameAccount e.handle)) fun _ => deliver_walked e.buf len csum

theorem copyOut_walked (c len csum : Nat) (e : RxEntry) :
    Ensures (Walked s moved counted) (copyOut c len csum e) (fun _ => Walked s moved (counted + 1)) anyEnd := by
  refine Ensures.bind (walked_of_sameAccount (alloc_sameAccount len .nonblocking)) fun nb => ?_
  cases nb with
  | none => exact dropNoMemory_walked c
  | some b =>
    exact Ensures.bind (walked_of_sameAccount (dmaSyncForCpu_sameAccount e.handle len)) fun _ =>
      Ensures.bind (walked_of_sameAccount (Follows.update fun _ => ⟨rfl, rfl, rfl, rfl, rfl⟩)) fun _ =>
        Ensures.bind (walked_of_sameAccount (dmaSyncForDevice_sameAccount e.handle len)) fun _ =>
          Ensures.bind (walked_of_sameAccount (rxPost_sameAccount c e.handle)) fun _ => deliver_walked b len csum

/-- Every visit that returns counts one packet or one drop. -/
theorem visit_walked (c len : Nat) (ov : Bool) (csum : Nat) :
    Ensures (Walked s moved counted) (visit c len ov csum) (fun _ => Walked s moved (counted + 1)) anyEnd := by
  refine Ensures.bind (walked_of_sameAccount (Follows.getState sameAccount_closed)) fun v =>
    Ensures.ite (fun _ => Ensures.raise fun _ _ => trivial) fun _ => Ensures.ite (fun _ => dropError_walked c) fun _ => ?_
  cases mapGet v.rx.shadow c with
  | none => exact Ensures.refuse
  | some e => exact Ensures.ite (fun _ => zeroCopy_walked c len csum e) fun _ => copyOut_walked c len csum e

/-- The walk moves the cursor on as often as it visits, and visits no more often than its budget says (R182, R189). -/
theorem receiveWalk_walked : ∀ n moved,
    Ensures (Walked s moved moved) (receiveWalk n) (fun _ t => ∃ k, k ≤ moved + n ∧ Walked s k k t) anyEnd
  | 0, moved => Ensures.pure fun _ h => ⟨moved, Nat.le_refl _, h⟩
  | n + 1, moved => by
    refine Ensures.read fun u hu => Ensures.bind (Q := fun _ => Walked s moved moved)
      ((walked_of_sameAccount (ringTryReclaim_sameAccount .rx u.rx.cursor)).before fun _ h => h ▸ hu) fun d => ?_
    cases d with
    | none => exact Ensures.pure fun _ h => ⟨moved, Nat.le_add_right _ _, h⟩
    | some x =>
      refine Ensures.bind (visit_walked _ _ _ _) fun _ => Ensures.bind (Q := fun _ => Walked s (moved + 1) (moved + 1))
        (Ensures.update fun _ h => h.advance hu.cursor) fun _ => ?_
      exact (receiveWalk_walked n (moved + 1)).after fun _ _ ⟨k, hk, h⟩ => ⟨k, by omega, h⟩

end Contracts

/-- Settles O29: a walk that does not fault gives account of each of its visits. -/
theorem rxWalkAccounts : Obligations.RxWalkAccounts := by
  intro s t ha _ hc hrun hfault
  obtain ⟨hs, habsent⟩ := ha
  have hends := receiveWalk_walked (s := s) s.params.nRx 0 s hs (.start hc)
  rw [exec_rxReclaim ⟨hs, habsent⟩, run_bind, run_rxReclaim] at hrun
  cases hwalk : receiveWalk s.params.nRx s with
  | ok a u =>
    rw [hwalk] at hends hrun
    obtain ⟨⟨k, hk, h⟩, -⟩ := hends
    obtain rfl : conclude .ok u = t := Host.Outcome.next.inj hrun
    exact ⟨k, by omega, h.cursor, h.difference, h.posted, h.tx, h.link, h.txPackets⟩
  | error e u =>
    rw [hwalk] at hends hrun
    cases e with
    | faulted =>
      obtain rfl : u = t := Host.Outcome.next.inj hrun
      obtain ⟨-, hfaulted⟩ := hends
      exact absurd hfault hfaulted
    | refused r => cases hrun

end Sys2Proof.Receive
end

section
/-! PROOFS. The interrupt handler by cases: what it does once the status is read; and an interrupt with nothing to do (R210 to R216, R286). -/

namespace Sys2Proof.Completion

open Sys2Proof.Machine Sys2Proof.Laws

/-! ### Taking the lock is not seen by the environment (R310) -/

section Enter

variable {s : State} {ctx : Context}

theorem nextDeviceOwned_enter (base : Nat) : ∀ n i, nextDeviceOwned (enter ctx s) base n i = nextDeviceOwned s base n i
  | 0, _ => rfl
  | n + 1, i => by
    simp only [nextDeviceOwned, nextDeviceOwned_enter base n]
    rfl

theorem txOrderAllows_enter (base slot : Nat) : txOrderAllows (enter ctx s) base slot = txOrderAllows s base slot := by
  simp only [txOrderAllows, nextDeviceOwned_enter]
  rfl

theorem map_ite_enter (c : Prop) [Decidable c] (u : State) :
    (if c then some u else none).map (enter ctx) = if c then some (enter ctx u) else none :=
  apply_ite (Option.map (enter ctx)) c (some u) none

theorem agentStep_enter (a : AgentStep) : agentStep a (enter ctx s) = (agentStep a s).map (enter ctx) := by
  cases a with
  | envVisible a =>
    simp only [agentStep, stepVisible, enter_wb]
    cases wbFirst s.wb a with
    | none => rfl
    | some e => simp only [map_ite_enter]; rfl
  | devTxDone slot =>
    simp only [agentStep, stepTxDone, txOrderAllows_enter, enter_tx]
    cases s.tx.base with
    | none => rfl
    | some base => simp only [map_ite_enter]; rfl
  | devRxDone slot len ov csum =>
    simp only [agentStep, stepRxDone, enter_rx]
    cases s.rx.base with
    | none => rfl
    | some base => simp only [map_ite_enter]; rfl
  | devStatus bits => simp only [agentStep, stepStatus, map_ite_enter]; rfl
  | macDrained => simp only [agentStep, stepMacDrained, map_ite_enter]; rfl

theorem agentSteps_enter : ∀ (l : List AgentStep) (s : State), agentSteps l (enter ctx s) = enter ctx (agentSteps l s)
  | [], _ => rfl
  | a :: l, s => by
    rw [agentSteps, agentSteps, agentStep_enter, ← agentSteps_enter l]
    cases agentStep a s <;> rfl

theorem interleave_enter (ctx : Context) (s : State) : interleave (enter ctx s) = enter ctx (interleave s) := by
  simp only [interleave, enter_sched]
  cases s.sched with
  | nil => rfl
  | cons steps rest => exact agentSteps_enter steps { s with sched := rest }

end Enter

/-! ### The handler by cases -/

/-- The status is read, and cleared by the read (R39, R71). -/
def statusRead (s : State) : State := emitted (.mmioR .status s.dev.status) { s with dev := { s.dev with status := 0 } }

section Handler

variable {s : State}

theorem exec_irq_notAcquired (ha : Alive s) (hi : s.irqAcquired = false) : exec .irq s = .refused .irqNotAcquired := by
  show execIrq s = _
  simp only [execIrq, running_alive ha, hi, Bool.false_eq_true, if_false]

theorem exec_irq (hr : Ready s) (hi : s.irqAcquired = true) :
    exec .irq s = finish leave (irqHandler (enter .interrupt s)) := by
  show execIrq s = _
  simp only [execIrq, running_alive hr.1, hi, if_true, hostOp_ready hr]

theorem irqHandler_notMine (h : (interleave s).dev.status = 0) : irqHandler s = .ok .notMine (statusRead (interleave s)) := by
  simp only [irqHandler, run_bind, run_mmioReadStatus, run_getState, h, if_true, run_pure, statusRead]

theorem irqHandler_notRunning (h : (interleave s).dev.status ≠ 0) (ha : s.adapter ≠ .running) :
    irqHandler s = .ok .handled (statusRead (interleave s)) := by
  have ha' : (interleave s).adapter ≠ .running := by simpa only [hostSide_fields (interleave_hostSide s)] using ha
  simp only [irqHandler, run_bind, run_mmioReadStatus, run_getState, run_ite, h, if_false, emitted_adapter, ha', ne_eq,
    not_false_eq_true, if_true, run_pure, statusRead]

/-- A fatal bit: the error is logged, and Device Reset/Init runs (R213). -/
theorem irqHandler_fatal (ha : s.adapter = .running) (hf : isFatal s.params.status (interleave s).dev.status = true) :
    irqHandler s = (do
      emit (.log .fatalError)
      resetAndReturn .interrupt
      pure .handled : M OpOutcome) (statusRead (interleave s)) := by
  have hfields := hostSide_fields (interleave_hostSide s)
  have hne : (interleave s).dev.status ≠ 0 := fun h => by simp [h, isFatal] at hf
  simp only [irqHandler, run_bind, run_mmioReadStatus, run_getState, run_ite, hne, if_false, emitted_adapter, emitted_params,
    hfields, ha, ne_eq, not_true_eq_false, hf, if_true, statusRead]

/-- No fatal bit: each ring is walked as its bits say (R214, R215). -/
theorem irqHandler_walks (h : (interleave s).dev.status ≠ 0) (ha : s.adapter = .running)
    (hf : isFatal s.params.status (interleave s).dev.status = false) :
    irqHandler s = Invariants.irqWalks (isTxDone s.params.status (interleave s).dev.status)
      (isRxDone s.params.status (interleave s).dev.status) (statusRead (interleave s)) := by
  have hfields := hostSide_fields (interleave_hostSide s)
  simp only [Invariants.irqHandler_eq, run_bind, run_mmioReadStatus, run_getState, run_ite, h, if_false, emitted_adapter,
    emitted_params, hfields, ha, ne_eq, not_true_eq_false, hf, Bool.false_eq_true, statusRead]

theorem irqWalks_none (s : State) : Invariants.irqWalks false false s = .ok .handled s := rfl

theorem irqWalks_tx {t : State} (h : txReclaim s = .ok () t) : Invariants.irqWalks true false s = .ok .handled t := by
  simp only [Invariants.irqWalks, run_bind, if_true, h, Bool.false_eq_true, if_false, run_pure]

theorem irqWalks_rx {t : State} (h : rxReclaim s = .ok () t) : Invariants.irqWalks false true s = .ok .handled t := by
  simp only [Invariants.irqWalks, run_bind, if_true, h, Bool.false_eq_true, if_false, run_pure]

theorem irqWalks_both {t u : State} (htx : txReclaim s = .ok () t) (hrx : rxReclaim t = .ok () u) :
    Invariants.irqWalks true true s = .ok .handled u := by
  simp only [Invariants.irqWalks, run_bind, if_true, htx, hrx, run_pure]

end Handler

/-- What an interrupt that reads the status and returns leaves: the lock, free before, is free again. -/
theorem leave_statusRead_enter {u : State} (hl : u.lock = none) (ctx : Context) (o : OpOutcome) :
    leave o (statusRead (enter ctx u)) = { u with
      dev := { u.dev with status := 0 }
      trace := u.trace ++ [.mmioR .status u.dev.status]
      outcome := some o } := by
  cases u
  cases hl
  rfl

/-- Settles O41: the entry is refused, or the handler ends with the read of the status. -/
theorem irqWithNothingToDo : Obligations.IrqWithNothingToDo := by
  have hlock : ∀ {s : State}, Ready s → (interleave s).lock = none := fun {s} hr => by
    simp only [hostSide_fields (interleave_hostSide s), hr.2]
  refine ⟨fun s ha hi => exec_irq_notAcquired ha hi, ?notMine, ?discarded⟩
  case notMine =>
    rintro s _ hr hi rfl hzero
    have hrun := irqHandler_notMine (s := enter .interrupt s) (by rw [interleave_enter]; exact hzero)
    rw [exec_irq hr hi, hrun, interleave_enter, finish, leave_statusRead_enter (hlock hr), hzero]
    congr 1
    rw [← hzero]
  case discarded =>
    rintro s _ hr hi rfl hne hidle
    have hne' : (interleave (enter .interrupt s)).dev.status ≠ 0 := by rwa [interleave_enter]
    have hrun : irqHandler (enter .interrupt s) = .ok .handled (statusRead (interleave (enter .interrupt s))) := by
      by_cases ha : s.adapter = .running
      · obtain ⟨hf, htx, hrx⟩ := hidle.resolve_left (not_not_intro ha)
        rw [← enter_dev (interleave s) .interrupt, ← interleave_enter] at hf htx hrx
        rw [irqHandler_walks hne' ha hf, enter_params, htx, hrx, irqWalks_none]
      · exact irqHandler_notRunning hne' ha
    rw [exec_irq hr hi, hrun, interleave_enter, finish, leave_statusRead_enter (hlock hr)]

end Sys2Proof.Completion
end

section
/-! PROOFS. An interrupt with completion bits: the transmit ring is reclaimed, then the receive ring is walked (R214, R215, R307). -/

namespace Sys2Proof.Completion

open Sys2Proof.Machine Sys2Proof.Laws Sys2Proof.Transmit Sys2Proof.Receive

section Walks

variable {s t : State} {base rbase len da csum : Nat} {ov tx rx : Bool} {e : RxEntry} {entries : List TxEntry}

theorem status_ne_zero_of_isTxDone {p : StatusProfile} {v : Word32} (h : isTxDone p v = true) : v ≠ 0 := fun h0 => by
  simp [h0, isTxDone] at h

theorem status_ne_zero_of_isRxDone {p : StatusProfile} {v : Word32} (h : isRxDone p v = true) : v ≠ 0 := fun h0 => by
  simp [h0, isRxDone] at h

/-- With no agent step in between, the interrupt is the walks that its bits ask for. -/
theorem exec_irq_walks (hr : Ready s) (hi : s.irqAcquired = true) (ha : s.adapter = .running) (hs : s.sched = [])
    (hf : isFatal s.params.status s.dev.status = false) (htx : isTxDone s.params.status s.dev.status = tx)
    (hrx : isRxDone s.params.status s.dev.status = rx) (hsome : tx = true ∨ rx = true)
    (hrun : Invariants.irqWalks tx rx (statusRead (enter .interrupt s)) = .ok .handled t) :
    exec .irq s = .next (leave .handled t) := by
  have hcalm : interleave (enter .interrupt s) = enter .interrupt s := interleave_nil _ hs
  have hne : s.dev.status ≠ 0 := by
    rcases hsome with rfl | rfl
    · exact status_ne_zero_of_isTxDone htx
    · exact status_ne_zero_of_isRxDone hrx
  have hwalks := irqHandler_walks (s := enter .interrupt s) (by rw [hcalm]; exact hne) ha (by rw [hcalm]; exact hf)
  rw [hcalm, enter_params, enter_dev, htx, hrx, hrun] at hwalks
  rw [exec_irq hr hi, hwalks, finish]

/-- What a walk of the transmit ring rests on is not touched by the entry and the read of the status. -/
theorem walkable_statusRead (hp : paramsValid s.params = true) (hs : s.sched = []) (hc : CursorsInRange s) (hl : LaidOut s)
    (hbase : s.tx.base = some base) (htakes : Reclaimable s base entries) (hnodup : (entries.map (·.handle)).Nodup)
    (hmapped : ∀ e ∈ entries, mapHas s.liveMaps e.handle = true) : Walkable base (statusRead (enter .interrupt s)) entries :=
  have ⟨hhead, htail, _⟩ := hc
  ⟨⟨hs, Rings.descValid_of_paramsValid hp, hl, hbase, htail⟩, hhead, htakes, hnodup, hmapped⟩

/-- The walk drops the one short or overflowed packet and posts its slot again (R184, R188). -/
theorem rxReclaim_drops (h : OneCompleted s base len ov csum e da) (hs : s.sched = [])
    (hshort : len < s.params.rxMinFrame ∨ ov = true) :
    rxReclaim s = .ok () (advanceCursor s.rx.cursor (rxPosted base s.rx.cursor da (errorCounted s))) := by
  have hv := visitable_of_oneCompleted h hs
  exact rxReclaim_of_visit h hs ((visit_short hv.params hshort).trans hv.dropError)
    ⟨_, da, sameRings_errorCounted s, .refl _⟩

/-- Whether the queue is woken (R162). -/
def wakes (s : State) : Bool := decide (s.tx.stopped = true ∧ s.adapter = .running ∧ s.params.txLowWater ≤ freeSlots s)

/-- What the wake writes: the stop flag and the trace. -/
theorem woken_eq (s : State) : woken s = { s with
    tx := { s.tx with stopped := s.tx.stopped && !wakes s }
    trace := s.trace ++ if wakes s then [.queueWake] else [] } := by
  by_cases h : s.tx.stopped = true ∧ s.adapter = .running ∧ s.params.txLowWater ≤ freeSlots s
  · simp only [woken, if_pos h, wakes, decide_eq_true h, if_true, Bool.not_true, Bool.and_false]
  · simp only [woken, if_neg h, wakes, decide_eq_false h, Bool.false_eq_true, if_false, Bool.not_false, Bool.and_true,
      List.append_nil]

/-- What a reclaim of the transmit ring leaves alone, as far as the receive walk looks. -/
theorem sameRings_wokenReclaimed (s : State) (entries : List TxEntry) : SameRings s (woken (reclaimed s entries)) := by
  rw [woken_eq]
  exact ⟨rfl, rfl, rfl, rfl, rfl, rfl, rfl⟩

theorem wokenReclaimed_rx (s : State) (entries : List TxEntry) : (woken (reclaimed s entries)).rx = s.rx := by
  rw [woken_eq]
  rfl

theorem wokenReclaimed_epoch (s : State) (entries : List TxEntry) : (woken (reclaimed s entries)).epoch = s.epoch := by
  rw [woken_eq]
  rfl

theorem wokenReclaimed_liveMaps (s : State) (entries : List TxEntry) :
    (woken (reclaimed s entries)).liveMaps = (entries.map (·.handle)).foldl mapErase s.liveMaps := by
  rw [woken_eq]
  rfl

theorem woken_enter (ctx : Context) (s : State) : woken (enter ctx s) = enter ctx (woken s) := by
  rw [woken_eq, woken_eq]
  rfl

/-- The reclaim after the read of the status differs from the reclaim without it by the read, and by the lock. -/
theorem woken_reclaimed_statusRead (ctx : Context) (s : State) (entries : List TxEntry) :
    woken (reclaimed (statusRead (enter ctx s)) entries) = { woken (reclaimed s entries) with
      dev := { s.dev with status := 0 }
      lock := some ctx
      trace := s.trace ++ [.mmioR .status s.dev.status] ++ (woken (reclaimed { s with trace := [] } entries)).trace } := by
  have hread : wakes (reclaimed (statusRead (enter ctx s)) entries) = wakes (reclaimed s entries) := rfl
  have hempty : wakes (reclaimed { s with trace := [] } entries) = wakes (reclaimed s entries) := rfl
  rw [woken_eq, woken_eq, woken_eq, hread, hempty]
  simp only [reclaimed, statusRead, emitted, enter, List.append_assoc, List.nil_append]
  rfl

/-- At the end of the handler the lock, free before, is free again. -/
theorem leave_enter (hl : s.lock = none) (ctx : Context) (o : OpOutcome) : leave o (enter ctx s) = { s with outcome := some o } := by
  cases s
  cases hl
  rfl

/-- The completed receive slot is as it was after the transmit ring is reclaimed. -/
theorem oneCompleted_wokenReclaimed (h : OneCompleted s base len ov csum e da) (hother : ∀ x ∈ entries, x.handle ≠ e.handle) :
    OneCompleted (woken (reclaimed s entries)) base len ov csum e da := by
  have hsame := sameRings_wokenReclaimed s entries
  have hnotin : e.handle ∉ entries.map (·.handle) := fun hmem => by
    obtain ⟨x, hx, heq⟩ := List.mem_map.mp hmem
    exact hother x hx heq
  obtain ⟨hp, hl, hwb, hbase, hc, he, hm, hown, hnext, hfields⟩ := h
  refine ⟨by rwa [hsame.params], hsame.laidOut hl, ?_, by rwa [hsame.rxBase], ?_, ?_, ?_, ?_, ?_, ?_⟩
  · simpa only [WritesOrdered, hsame.wb, wokenReclaimed_epoch] using hwb
  · rwa [wokenReclaimed_rx, hsame.params]
  · rwa [wokenReclaimed_rx]
  · rw [wokenReclaimed_liveMaps, mapGet_foldl_mapErase _ hnotin, hm]
  · rw [hsame.hostSeesOwned, wokenReclaimed_rx, hown]
  · rw [hsame.hostSeesOwned, wokenReclaimed_rx, hsame.params, hnext]
  · simpa only [hostView, deviceView, hsame.params, hsame.mem, hsame.wb, wokenReclaimed_rx] using hfields

end Walks

/-- Settles O43: the handler is the walks that the bits ask for, the transmit ring's first. -/
theorem irqReclaimsThenReceives : Obligations.IrqReclaimsThenReceives := by
  refine ⟨?tx, ?rx, ?both⟩
  case tx =>
    intro s base entries hr hi ha hp hs hc hl hbase htakes hnodup hmapped hf htx hrx
    have hwalk := walkable_statusRead hp hs hc hl hbase htakes hnodup hmapped
    have hlock : (woken (reclaimed (statusRead s) entries)).lock = none := by
      rw [woken_eq]
      exact hr.2
    rw [exec_irq_walks hr hi ha hs hf htx hrx (.inl rfl) (irqWalks_tx hwalk.txReclaim)]
    exact congrArg _ ((congrArg (leave .handled) (woken_enter .interrupt _)).trans (leave_enter hlock .interrupt .handled))
  case rx =>
    intro s base len da csum ov e hr hi ha hs h hshort hf htx hrx
    have hdrops := rxReclaim_drops (s := statusRead (enter .interrupt s)) h hs hshort
    rw [exec_irq_walks hr hi ha hs hf htx hrx (.inr rfl) (irqWalks_rx hdrops)]
    exact congrArg _ (leave_enter (s := advanceCursor s.rx.cursor (rxPosted base s.rx.cursor da (errorCounted (statusRead s))))
      hr.2 .interrupt .handled)
  case both =>
    intro s base rbase len da csum ov e entries hr hi ha hs hc hbase htakes hnodup hmapped h hshort hf htx hrx
    obtain ⟨hp, hl, -⟩ := id h
    have hone : OneCompleted (statusRead (enter .interrupt s)) rbase len ov csum e da := h
    have hwalk := walkable_statusRead hp hs hc hl hbase htakes hnodup (fun x hx => (hmapped x hx).1)
    have hdrops := rxReclaim_drops (oneCompleted_wokenReclaimed hone fun x hx => (hmapped x hx).2)
      ((sameRings_wokenReclaimed _ _).sched.trans hs) (by rwa [(sameRings_wokenReclaimed _ _).params])
    refine ⟨_, exec_irq_walks hr hi ha hs hf htx hrx (.inl rfl) (irqWalks_both hwalk.txReclaim hdrops), ?_⟩
    rw [woken_reclaimed_statusRead]
    generalize (woken (reclaimed { s with trace := [] } entries)).trace = woke
    rw [woken_eq]
    exact ⟨rfl, rfl, rfl, rfl, rfl, rfl, rfl, rfl, rfl, rfl, rfl, rfl, rfl, rfl, rfl, rfl, rfl, rfl⟩

end Sys2Proof.Completion
end

section
/-! PROOFS. Words of descriptor memory under every micro-step of the host and the environment: a word outside the rings stays as the host
sees it, and a word that reads 0 stays 0 while the host writes nothing else there (R62, R68, R104). -/

namespace Sys2Proof.Invariants

open Sys2Proof.Machine

theorem Geometry.pending {s : State} (h : Geometry s) : ∀ w ∈ s.wb, w.addr % 4 = 0 := fun w hw => (h.ordered.2 w hw).2

theorem Geometry.desc {s : State} (h : Geometry s) : descValid s.params.desc = true := Rings.descValid_of_paramsValid h.valid

end Sys2Proof.Invariants

namespace Sys2Proof.DeviceReset

open Sys2Proof.Machine Sys2Proof.Laws Sys2Proof.Invariants

section Views

variable {A : Writes} {s t : State} {a : Nat}

theorem hostView_drain (hw : ∀ w ∈ s.wb, w.addr % 4 = 0) (ha : a % 4 = 0) : hostView (drain s) a = hostView s a := by
  have hp : (drain s).params = s.params := Rings.params_of_hostSide (drain_hostSide s)
  have hread := readWord_drainList ha s.wb s hw
  simp only [hostView, deviceView, drain_wb, wbLast, Option.getD_none, hp]
  exact hread

theorem hostView_regEffect (reg : MmioReg) (v : RegVal) (s : State) (a : Nat) : hostView (regEffect reg v s) a = hostView s a := by
  unfold regEffect
  split <;> rfl

/-- What a micro-step is to the word at `a`: an agent's step, a descriptor write, or one that leaves the host's view of it alone. -/
theorem view_cases (hst : HostStep A s t) (hw : ∀ w ∈ s.wb, w.addr % 4 = 0) (ha : a % 4 = 0) :
    (∃ x, agentStep x s = some t) ∨
      (∃ r slot base w v, A r slot w v ∧ ringBase s r = some base ∧ slot < capacity s.params r ∧
        t = pushWrite (descWordAddr s.params.desc base slot w) v s) ∨
      hostView t a = hostView s a := by
  have hcalm : ∀ {t}, CalmStep A s t → _ := fun {t} hst => show (∃ x, agentStep x s = some t) ∨
      (∃ r slot base w v, A r slot w v ∧ ringBase s r = some base ∧ slot < capacity s.params r ∧
        t = pushWrite (descWordAddr s.params.desc base slot w) v s) ∨ hostView t a = hostView s a by
    cases hst with
    | agent h => exact .inl ⟨_, h⟩
    | write hA hb hs _ => exact .inr (.inl ⟨_, _, _, _, _, hA, hb, hs, rfl⟩)
    | register reg v => exact .inr (.inr ((hostView_regEffect reg v _ a).trans (hostView_drain hw ha)))
    | _ => exact .inr (.inr rfl)
  cases hst with
  | ring hst =>
    cases hst with
    | calm hst => exact hcalm hst
    | cursorsZeroed r => cases r <;> exact .inr (.inr rfl)
    | _ => exact .inr (.inr rfl)
  | control hst =>
    cases hst with
    | commit hst =>
      cases hst with
      | calm hst => exact hcalm hst
      | committed m => exact .inr (.inr rfl)
    | control l b c => exact .inr (.inr rfl)
  | adapter x => exact .inr (.inr rfl)

/-! ### Words outside the rings -/

/-- The rings lie as they must, and the word at `a` is in neither. -/
structure Apart (a : Nat) (s : State) : Prop where
  geometry : Geometry s
  word : a % 4 = 0
  outside : OutsideRings s a

theorem Apart.quiet (h : Apart a s) : Rings.Quiet s a :=
  ⟨h.geometry.desc, h.geometry.pending, h.word, fun r b hb _ => by
    cases r with
    | tx => exact h.outside.1 b hb
    | rx => exact h.outside.2 b hb⟩

theorem apart_closed (a : Nat) :
    Closed (HostStep anyWrite) fun s t => Apart a s → Apart a t ∧ hostView t a = hostView s a where
  refl _ h := ⟨h, rfl⟩
  trans h h' x := by
    obtain ⟨ht, hv⟩ := h x
    obtain ⟨hu, hv'⟩ := h' ht
    exact ⟨hu, hv'.trans hv⟩
  step {s t} hst h := by
    have hf := hst.frame
    refine ⟨⟨hst.geometry h.geometry, h.word, ?_⟩, ?_⟩
    · simpa only [OutsideRings, hf.params, hf.txBase, hf.rxBase] using h.outside
    rcases view_cases hst h.geometry.pending h.word with ⟨x, hx⟩ | ⟨r, slot, base, w, v, -, hb, hs, rfl⟩ | hv
    · exact h.quiet.agentStep_hostView hx
    · have hout : OutsideRing base (capacity s.params r) a := by
        cases r with
        | tx => exact h.outside.1 base hb
        | rx => exact h.outside.2 base hb
      have := Rings.descWordAddr_outside h.geometry.desc hout hs w
      rw [Rings.hostView_pushWrite, if_neg (by omega)]
    · exact hv

/-! ### Neutral words -/

/-- An engine that writes only a FLAGS word it owns leaves a word that reads 0 so: such a word shows no owner (R48, R62). -/
theorem hostView_zero_engine {b : Nat} (v : Word32) (hd : descValid s.params.desc = true) (hb : b % 4 = 0) (ha : a % 4 = 0)
    (hown : owned s.params.desc (deviceView s b) = true) (hz : hostView s a = 0) :
    hostView { s with mem := writeWord s.params.desc.byteOrder s.mem b v } a = 0 := by
  simp only [hostView, deviceView, readWord_writeWord_aligned _ _ _ _ _ hb ha] at hown hz ⊢
  split
  · rename_i hab
    subst hab
    cases hl : wbLast s.wb a with
    | none =>
      rw [hl, Option.getD_none] at hz
      rw [hz, owned_zero hd] at hown
      cases hown
    | some x => rwa [hl] at hz
  · exact hz

theorem agentStep_zero {x : AgentStep} (hg : Geometry s) (ha : a % 4 = 0) (ht : agentStep x s = some t) (hz : hostView s a = 0) :
    hostView t a = 0 := by
  have haligned : ∀ {r b}, ringBase s r = some b → ∀ slot, descWordAddr s.params.desc b slot .flags % 4 = 0 := fun hb slot =>
    descWordAddr_aligned hg.desc (LaidOut.aligned hg.laidOut hb) slot .flags
  cases x with
  | envVisible b => exact (hostView_stepVisible hg.pending ha ht).trans hz
  | devTxDone slot =>
    simp only [agentStep, stepTxDone] at ht
    split at ht
    · cases ht
    · rename_i b hb
      split at ht
      · rename_i hc
        cases ht
        simp only [Bool.and_eq_true] at hc
        obtain ⟨⟨-, hown⟩, -⟩ := hc
        exact hostView_zero_engine _ hg.desc (haligned (r := .tx) hb slot) ha hown hz
      · cases ht
  | devRxDone slot len ov csum =>
    simp only [agentStep, stepRxDone] at ht
    split at ht
    · cases ht
    · rename_i b hb
      split at ht
      · rename_i hc
        cases ht
        simp only [Bool.and_eq_true] at hc
        obtain ⟨⟨⟨-, hown⟩, -⟩, -⟩ := hc
        exact hostView_zero_engine (s := s) _ hg.desc (haligned (r := .rx) hb slot) ha hown hz
      · cases ht
  | devStatus bits =>
    simp only [agentStep, stepStatus] at ht
    split at ht <;> cases ht
    exact hz
  | macDrained =>
    simp only [agentStep, stepMacDrained] at ht
    split at ht <;> cases ht
    exact hz

/-- The word at `a` reads 0, and no write of `A` is to it. -/
structure Zeroed (A : Writes) (a : Nat) (s : State) : Prop where
  geometry : Geometry s
  word : a % 4 = 0
  spared : ∀ r slot base w v, A r slot w v → ringBase s r = some base → slot < capacity s.params r →
    descWordAddr s.params.desc base slot w ≠ a
  view : hostView s a = 0

theorem zeroed_closed (A : Writes) (a : Nat) : Closed (HostStep A) fun s t => Zeroed A a s → Zeroed A a t where
  refl _ h := h
  trans h h' x := h' (h x)
  step {s t} hst h := by
    have hf := hst.frame
    refine ⟨hst.geometry h.geometry, h.word, fun r slot base w v hA hb hs => ?_, ?_⟩
    · rw [hf.params] at hs ⊢
      refine h.spared r slot base w v hA ?_ hs
      cases r with
      | tx => exact hf.txBase.symm.trans hb
      | rx => exact hf.rxBase.symm.trans hb
    rcases view_cases hst h.geometry.pending h.word with ⟨x, hx⟩ | ⟨r, slot, base, w, v, hA, hb, hs, rfl⟩ | hv
    · exact agentStep_zero h.geometry h.word hx h.view
    · rw [Rings.hostView_pushWrite, if_neg (h.spared r slot base w v hA hb hs)]
      exact h.view
    · exact hv.trans h.view

end Views

end Sys2Proof.DeviceReset
end

section
/-! PROOFS. The release that begins a Device Reset/Init: timer and hardware are stopped, both rings emptied (R331 to R333). -/

namespace Sys2Proof.DeviceReset

open Sys2Proof.Machine Sys2Proof.Laws Sys2Proof.Invariants Sys2Proof.Rings Ledger

section Release

variable {s t : State} {r : Ring} {reg : MmioReg} {v : RegVal}

/-! ### What the rings' programs leave alone on the host's side -/

/-- The host's side without the rings' books, the trace, the draws, the fault and what a return sets. -/
def aside (s : State) : State :=
  { hostSide s with
    tx := { s.tx with head := 0, tail := 0, shadow := [] }
    rx := { s.rx with cursor := 0, shadow := [] }
    liveBuffers := [], liveMaps := [], pkts := [], syncWindows := [], epoch := 0
    trace := [], fault := none, lock := none, outcome := none, drawCount := 0
    draws := ⟨[], [], [], [], [], [], [], []⟩ }

theorem aside_of_hostSide (h : hostSide t = hostSide s) : aside t = aside s :=
  show aside (hostSide t) = aside (hostSide s) from congrArg aside h

theorem aside_interleave (s : State) : aside (interleave s) = aside s := aside_of_hostSide (interleave_hostSide s)

theorem aside_of_sameBeyond (h : SameBeyond r s t) : aside t = aside s := by
  have h' := congrArg aside h.eq
  cases r <;> exact h'

/-- The supplied answers to the draws of a reset. -/
structure SameDraws (s t : State) : Prop where
  alloc : t.draws.alloc = s.draws.alloc
  dmaMap : t.draws.dmaMap = s.draws.dmaMap
  tcvrKnown : t.draws.tcvrKnown = s.draws.tcvrKnown

theorem SameDraws.trans {u : State} (h : SameDraws s t) (h' : SameDraws t u) : SameDraws s u :=
  ⟨h'.alloc.trans h.alloc, h'.dmaMap.trans h.dmaMap, h'.tcvrKnown.trans h.tcvrKnown⟩

theorem sameDraws_of_hostSide (h : hostSide t = hostSide s) : SameDraws s t := by
  obtain ⟨-, -, halloc, hmap, -, hknown, -⟩ := Alike.draws h
  exact ⟨halloc, hmap, hknown⟩

theorem sameDraws_of_sameBeyond (h : SameBeyond r s t) : SameDraws s t := by
  have h' := h.eq
  cases r <;> exact ⟨congrArg (·.draws.alloc) h', congrArg (·.draws.dmaMap) h', congrArg (·.draws.tcvrKnown) h'⟩

/-! ### A register write (R67, R70) -/

/-- The state after a register write: the environment has acted, and what was pending is visible. -/
def written (reg : MmioReg) (v : RegVal) (s : State) : State := emitted (.mmioW reg v) (regEffect reg v (drain (interleave s)))

theorem written_wb : (written reg v s).wb = [] := regEffect_wb reg v _

theorem hostSide_drained (s : State) : hostSide (drain (interleave s)) = hostSide s :=
  (drain_hostSide _).trans (interleave_hostSide s)

theorem aside_written (hreg : reg ≠ .macTxcfg) : aside (written reg v s) = regEffect reg v (aside s) := by
  have hside : aside (drain (interleave s)) = aside s := aside_of_hostSide (hostSide_drained s)
  rw [← hside, written]
  generalize drain (interleave s) = u
  unfold regEffect
  split
  case h_5 => exact absurd rfl hreg
  all_goals rfl

theorem regEffect_draws (reg : MmioReg) (v : RegVal) (s : State) : (regEffect reg v s).draws = s.draws := by
  unfold regEffect
  split <;> rfl

theorem sameDraws_written : SameDraws s (written reg v s) := by
  have h := sameDraws_of_hostSide (hostSide_drained s)
  have hd : (written reg v s).draws = (drain (interleave s)).draws := regEffect_draws reg v _
  exact ⟨by rw [hd, h.alloc], by rw [hd, h.dmaMap], by rw [hd, h.tcvrKnown]⟩

theorem regEffect_sched (reg : MmioReg) (v : RegVal) (s : State) : (regEffect reg v s).sched = s.sched := by
  unfold regEffect
  split <;> rfl

theorem drain_sched (s : State) : (drain s).sched = s.sched := by
  have h : ∀ (l : List WbEntry) (s : State), (drainList l s).sched = s.sched := by
    intro l
    induction l with
    | nil => exact fun _ => rfl
    | cons e l ih => exact fun s => ih _
  exact h s.wb s

/-! ### Quiescing (R331, R332) -/

/-- Steps 1 and 2 of a reset. -/
def quiesce : M Unit := do
  cancelTimer
  updateLink fun l => { l with state := .idle, up := false }
  mmioWrite .txrxCtrl .quiesce
  mmioWrite .intMask .masked

theorem resetRelease_eq : resetRelease = (do
    quiesce
    ringReset .tx
    ringReset .rx
    update (setStopped true)) := by
  simp only [quiesce, bind_assoc]
  rfl

/-- Step 1: the timer is cancelled and the link down. -/
def idled (s : State) : State := { s with timerArmed := false, link := { s.link with state := .idle, up := false } }

/-- The state after steps 1 and 2. -/
def quieted (s : State) : State := written .intMask .masked (written .txrxCtrl .quiesce (idled s))

theorem run_quiesce (s : State) : quiesce s = .ok () (quieted s) := rfl

theorem aside_quieted (s : State) : aside (quieted s) = { aside s with
    timerArmed := false
    link := { s.link with state := .idle, up := false }
    dev := { (aside s).dev with intArmed := false, txDmaOn := false, rxDmaOn := false } } := by
  rw [quieted, aside_written (by simp), aside_written (by simp)]
  rfl

theorem quiesce_follows {A : Writes} {R : State → State → Prop} (hR : Closed (HostStep A) R) : Follows R quiesce :=
  Follows.bind hR (cancelTimer_follows hR.control_of_host) fun _ =>
    Follows.bind hR (updateLink_follows hR.control_of_host _) fun _ =>
      Follows.bind hR (mmioWrite_follows hR.calm_of_host (by simp) _) fun _ => mmioWrite_follows hR.calm_of_host (by simp) _

/-- Whatever the host's micro-steps keep, quiescing keeps. -/
theorem quieted_kept {A : Writes} {R : State → State → Prop} (hR : Closed (HostStep A) R) (hs : s.fault = none) : R s (quieted s) :=
  (Ends.of_ok (Q := fun _ => R s) (quiesce_follows hR s hs) (run_quiesce s)).1

theorem quieted_fault (hs : s.fault = none) : (quieted s).fault = none := by
  have hR : Closed (HostStep noWrite) fun _ _ => True := ⟨⟨fun _ => trivial, fun _ _ => trivial⟩, fun _ => trivial⟩
  exact (Ends.of_ok (quiesce_follows hR s hs) (run_quiesce s)).2

theorem quieted_book (hs : s.fault = none) : book (quieted s) = book s := by
  have h : Follows (fun s t => book t = book s) quiesce :=
    have hR := book_closed
    Follows.bind hR (cancelTimer_follows hR) fun _ => Follows.bind hR (updateLink_follows hR _) fun _ =>
      Follows.bind hR (mmioWrite_follows hR.calm_of_control (by simp) _) fun _ => mmioWrite_follows hR.calm_of_control (by simp) _
  exact (Ends.of_ok (Q := fun _ t => book t = book s) (h s hs) (run_quiesce s)).1

theorem sameDraws_quieted (s : State) : SameDraws s (quieted s) :=
  have hidled : SameDraws s (idled s) := ⟨rfl, rfl, rfl⟩
  (hidled.trans sameDraws_written).trans sameDraws_written

theorem written_sched (h : s.sched = []) : (written reg v s).sched = [] :=
  calc (written reg v s).sched = (drain (interleave s)).sched := regEffect_sched reg v _
    _ = [] := by rw [drain_sched, interleave_nil s h, h]

theorem quieted_sched (h : s.sched = []) : (quieted s).sched = [] := written_sched (written_sched h)

theorem geometry_quieted (hs : s.fault = none) (hg : Geometry s) : Geometry (quieted s) :=
  quieted_kept geometry_closed.host_of_op hs hg

/-! ### The reset of one ring, its engine off (R134) -/

theorem sched_resetStep (r : Ring) : Closed (ResetStep r) fun s t => s.sched = [] → t.sched = [] where
  refl _ h := h
  trans h h' x := h' (h x)
  step {s t} hst h := by
    cases hst with
    | unmap hst =>
      cases hst with
      | env => rwa [interleave_nil s h]
      | _ => exact h
    | zeroed => cases r <;> exact h
    | _ => exact h

/-- What the reset of a ring that began in `s` and ended in `t` leaves alone, and the ring's words, all neutral. -/
structure Emptied (r : Ring) (s t : State) : Prop where
  fault : t.fault = none
  beyond : SameBeyond r s t
  geometry : Geometry t
  sched : s.sched = [] → t.sched = []
  neutral : ∀ base i w, ringBase s r = some base → i < capacity s.params r →
    hostView t (descWordAddr s.params.desc base i w) = 0

theorem ringReset_emptied {base : Nat} (hs : s.fault = none) (hb : Booked s) (hg : Geometry s) (hbase : ringBase s r = some base)
    (hoff : dmaOn s r = false) : ∃ t, ringReset r s = .ok () t ∧ Emptied r s t := by
  have hw : Writable r s.params base s := ⟨rfl, hg.desc, hg.laidOut, hg.pending, hbase, hoff⟩
  obtain ⟨t, ht⟩ := ringReset_returns hs hb hw
  have hkept : ∀ {R : State → State → Prop}, Closed (ResetStep r) R → R s t ∧ t.fault = none := fun {R} hR =>
    Ends.of_ok (Q := fun _ => R s) (ringReset_resetStep hR s hs) ht
  obtain ⟨hbeyond, hfault⟩ := hkept (sameBeyond_closed r)
  have hgeometry : Geometry t :=
    (Ends.of_ok (Q := fun _ t => Geometry s → Geometry t) (ringReset_any geometry_closed.host_of_op r s hs) ht).1 hg
  refine ⟨t, ht, hfault, hbeyond, hgeometry, (hkept (sched_resetStep r)).1, fun b i w hb' hi => ?_⟩
  obtain rfl : base = b := Option.some.inj (hbase.symm.trans hb')
  exact (Ends.of_ok (ringReset_rewritten hi s hs ⟨rfl, hbase, .inr (hw.quiet hi w), False.elim⟩) ht).1.zero trivial

/-! ### Steps 1 to 3 (R331 to R333) -/

/-- The host's side, the rings' books apart, once timer and hardware are stopped and the queue with them. -/
def asideReleased (s : State) : State :=
  { aside s with
    timerArmed := false
    link := { s.link with state := .idle, up := false }
    dev := { (aside s).dev with intArmed := false, txDmaOn := false, rxDmaOn := false }
    tx := { (aside s).tx with stopped := true } }

/-- Device Reset/Init that began in `s` has released everything. -/
structure Released (s t : State) : Prop where
  fault : t.fault = none
  aside : aside t = asideReleased s
  draws : SameDraws s t
  geometry : Geometry t
  sched : s.sched = [] → t.sched = []
  sound : (book t).Sound False False
  empty : (book t).TxEmpty
  rxShadow : t.rx.shadow = []
  cursor : t.rx.cursor = 0
  pkts : t.pkts = []
  held : ∀ b, mapHas t.liveBuffers b = true ↔ mapHas s.liveBuffers b = true ∧ ¬RingBuffer s b
  txZero : ∀ base i w, s.tx.base = some base → i < s.params.nTx → Zeroed rxWrites (descWordAddr s.params.desc base i w) t

/-- No write of the receive ring is to a word of the transmit ring (R293). -/
theorem zeroed_tx {base i : Nat} {w : DescWord} (hg : Geometry s) (hbase : s.tx.base = some base) (hi : i < s.params.nTx)
    (hz : hostView s (descWordAddr s.params.desc base i w) = 0) : Zeroed rxWrites (descWordAddr s.params.desc base i w) s where
  geometry := hg
  word := descWordAddr_aligned hg.desc (LaidOut.aligned hg.laidOut (r := .tx) hbase) i w
  spared r slot b w' v hA hb hslot := by
    obtain rfl : r = .rx := hA
    exact (descWordAddr_apart hg.desc hi hslot (hg.laidOut.2.2 base b hbase hb)).symm
  view := hz

theorem resetRelease_releases (hs : s.fault = none) (h : RingsReady s) : ∃ t, resetRelease s = .ok () t ∧ Released s t := by
  have hsound := RingsReady.sound h
  obtain ⟨hp, htx, hrx, hl, hw, hcanon, hsh⟩ := h
  obtain ⟨txb, htxb⟩ := Option.isSome_iff_exists.mp htx
  obtain ⟨rxb, hrxb⟩ := Option.isSome_iff_exists.mp hrx
  have haside := aside_quieted s
  have hqbook := quieted_book hs
  have hqsound : (book (quieted s)).Sound (s.adapter = .running) False := hqbook.symm ▸ hsound
  obtain ⟨u, hu, hutx⟩ := ringReset_emptied (r := .tx) (base := txb) (quieted_fault hs) (hqsound.imp False.elim).toFair
    (geometry_quieted hs ⟨hp, hsh.1, hl, hw⟩) ((congrArg (·.tx.base) haside).trans htxb) (congrArg (·.dev.txDmaOn) haside)
  have huaside := (aside_of_sameBeyond hutx.beyond).trans haside
  obtain ⟨husound, -⟩ := (Ends.of_ok (ringResetTx_book _ (quieted_fault hs) (hqsound.imp False.elim)) hu).1
  obtain ⟨hubooked, hutxempty, -⟩ := ringReset_empties (quieted_fault hs) hqsound hu
  obtain ⟨hhead, htail, hshadow, hpkts⟩ := hutxempty rfl
  obtain ⟨-, hurx, hubufs⟩ := hutx.beyond.tx hhead htail hshadow
  obtain ⟨t, ht, htrx⟩ := ringReset_emptied (r := .rx) (base := rxb) hutx.fault hubooked hutx.geometry
    ((congrArg (·.rx.base) huaside).trans hrxb) (congrArg (·.dev.rxDmaOn) huaside)
  obtain ⟨htsound, htempty, -⟩ :=
    (Ends.of_ok (ringResetRx_book u hutx.fault ⟨husound, ⟨hshadow, hhead, htail⟩⟩) ht).1
  obtain ⟨-, -, htrxempty⟩ := ringReset_empties hutx.fault husound ht
  obtain ⟨hcursor, hrxshadow, hheld⟩ := htrxempty rfl
  obtain ⟨-, -, htpkts⟩ := htrx.beyond.rx hcursor hrxshadow
  refine ⟨setStopped true t, ?runs, htrx.fault, ?aside, ?draws, ?geometry, fun h => htrx.sched (hutx.sched (quieted_sched h)),
    htsound, htempty, hrxshadow, hcursor, htpkts.trans hpkts, fun b => ?held, fun b i w hb hi => ?zero⟩
  case runs => simp only [resetRelease_eq, run_bind, run_quiesce, hu, ht, run_update]
  case aside =>
    calc aside (setStopped true t) = setStopped true (aside t) := rfl
      _ = setStopped true (aside u) := by rw [aside_of_sameBeyond htrx.beyond]
      _ = asideReleased s := by rw [huaside]; rfl
  case draws =>
    have h := ((sameDraws_quieted s).trans (sameDraws_of_sameBeyond hutx.beyond)).trans (sameDraws_of_sameBeyond htrx.beyond)
    exact ⟨h.alloc, h.dmaMap, h.tcvrKnown⟩
  case geometry => exact geometry_closed.host_of_op.calm_of_host.step (.stopped true) htrx.geometry
  case held =>
    have hlive : (quieted s).liveBuffers = s.liveBuffers := congrArg Ledger.liveBuffers hqbook
    have hring : (quieted s).rx.shadow = s.rx.shadow := congrArg Ledger.rxShadow hqbook
    have h := hheld b
    rw [hubufs, hlive, RingBuffer, hurx, hring] at h
    exact h
  case zero =>
    have hparams : u.params = s.params := congrArg (·.params) huaside
    have hbase : u.tx.base = some b := (congrArg (·.tx.base) huaside).trans hb
    have hqparams : (quieted s).params = s.params := congrArg (·.params) haside
    have hview := hutx.neutral b i w ((congrArg (·.tx.base) haside).trans hb) (by rw [hqparams]; exact hi)
    rw [hqparams] at hview
    have hzero : Zeroed rxWrites (descWordAddr s.params.desc b i w) u := by
      rw [← hparams] at hi hview ⊢
      exact zeroed_tx hutx.geometry hbase hi hview
    have hR := zeroed_closed rxWrites (descWordAddr s.params.desc b i w)
    have hzero' := (Ends.of_ok (ringReset_follows hR.ring_of_host (fun _ _ => rfl) u hutx.fault) ht).1 hzero
    exact hR.calm_of_host.step (.stopped true) hzero'

end Release

end Sys2Proof.DeviceReset
end

section
/-! PROOFS. The micro-steps of the refill of the receive ring, and what each keeps (R334). -/

namespace Sys2Proof.DeviceReset

open Sys2Proof.Machine Sys2Proof.Laws Sys2Proof.Invariants Sys2Proof.Rings Ledger

/-! ### The micro-steps -/

/-- The micro-steps of `RX_POST` (R180), the descriptor writes among them those of `A`. -/
inductive PostStep (A : Writes) (s : State) : State → Prop
  | env : PostStep A s (interleave s)
  | event (e : Event) : PostStep A s (emitted e s)
  | faulted (f : Fault) : PostStep A s { s with fault := some f }
  | pushed {r : Ring} {slot base : Nat} {w : DescWord} {v : Word32} (hA : A r slot w v) (hb : ringBase s r = some base)
      (hs : slot < capacity s.params r) (ha : descWordAddr s.params.desc base slot w % 4 = 0) :
      PostStep A s (pushWrite (descWordAddr s.params.desc base slot w) v s)
  | barrier : PostStep A s { s with epoch := s.epoch + 1 }
  | windowClosed (da : Nat) : PostStep A s (closeWindow da s)

/-- The micro-steps of the refill of one receive slot (R334). -/
inductive FillStep (A : Writes) (s : State) : State → Prop
  | post {t : State} (h : PostStep A s t) : FillStep A s t
  | draws {d : Draws} (n : Nat) (h : d.tcvrKnown = s.draws.tcvrKnown) : FillStep A s { s with draws := d, drawCount := n }
  | mapped (h : Nat) (m : MapEntry) : FillStep A s { s with liveMaps := mapSet s.liveMaps h m }
  | allocated (b : Nat) : FillStep A s
      { s with
        liveBuffers := mapSet s.liveBuffers b ()
        bufMem := mapErase s.bufMem b
        dmaMem := mapErase s.dmaMem b }
  | freed (b : Nat) : FillStep A s
      { s with
        liveBuffers := mapErase s.liveBuffers b
        bufMem := mapErase s.bufMem b
        dmaMem := mapErase s.dmaMem b }
  | entered (slot : Nat) (e : RxEntry) : FillStep A s (setRxSlot slot e s)

/-- The descriptor writes to receive slot `i`. -/
def slotWrites (i : Nat) : Writes := fun r slot _ _ => r = .rx ∧ slot = i

section Programs

variable {A : Writes} {R : State → State → Prop}

theorem Closed.post_of_fill (hR : Closed (FillStep A) R) : Closed (PostStep A) R := hR.mono fun _ _ => .post

/-- What ring micro-steps keep, those of a refill keep. -/
theorem Closed.fill_of_ring (hR : Closed (RingStep A) R) : Closed (FillStep A) R where
  toCarried := hR.toCarried
  step h := by
    cases h with
    | post h =>
      cases h with
      | env => exact interleave_kept hR.calm_of_ring _
      | event e => exact hR.step (.calm (.event e))
      | faulted f => exact hR.step (.faulted f)
      | pushed hA hb hs ha => exact hR.step (.calm (.write hA hb hs ha))
      | barrier => exact hR.step (.calm .barrier)
      | windowClosed da => exact hR.step (.calm (.windowClosed da))
    | draws n _ => exact hR.step (.calm (.draws _ n))
    | mapped h m => exact hR.step (.mapped h m)
    | allocated b => exact hR.step (.allocated b)
    | freed b => exact hR.step (.freed b)
    | entered slot e => exact hR.step (.rxEntered slot e)

theorem boundary_postStep (hR : Closed (PostStep A) R) : Follows R boundary :=
  Follows.update (fun _ => hR.step .env) fun s => hostSide_fault (interleave_hostSide s)

theorem memWrite_postStep (hR : Closed (PostStep A) R) {r : Ring} {slot : Nat} {w : DescWord} {v : Word32} (hA : A r slot w v) :
    Follows R (memWrite r slot w v) := by
  intro s hs
  have hi : R s (interleave s) := hR.step .env
  rcases memWrite_cases r slot w v s with ⟨e, he⟩ | he | ⟨base, hb, hc, ha, he⟩ <;> rw [he]
  · trivial
  · exact ⟨hR.trans hi (hR.step (.faulted _)), Option.some_ne_none _⟩
  · exact ⟨hR.trans hi (hR.step (.pushed hA hb hc ha)), (hostSide_fault (interleave_hostSide s)).trans hs⟩

theorem wmb_postStep (hR : Closed (PostStep A) R) : Follows R wmb :=
  Follows.bind hR (boundary_postStep hR) fun _ => Follows.update fun _ => hR.trans (hR.step .barrier) (hR.step (.event _))

theorem ringPublish_postStep (hR : Closed (PostStep A) R) {r : Ring} {slot : Nat} (a f : Word32) (hA : ∀ w v, A r slot w v) :
    Follows R (ringPublish r slot a f) :=
  Follows.bind hR (Follows.getState hR) fun _ => Follows.ite
    (Follows.bind hR (memWrite_postStep hR (hA _ _)) fun _ => Follows.bind hR (wmb_postStep hR) fun _ =>
      Follows.bind hR (memWrite_postStep hR (hA _ _)) fun _ => Follows.update fun _ => hR.step (.windowClosed _))
    (Follows.refuse _)

theorem rxPost_postStep (hR : Closed (PostStep A) R) {slot : Nat} (hA : ∀ w v, A .rx slot w v) (h : Nat) :
    Follows R (rxPost slot h) := by
  refine Follows.bind hR (Follows.getState hR) fun s => ?_
  cases mapGet s.liveMaps h with
  | none => exact Follows.refuse _
  | some m => exact ringPublish_postStep hR _ _ hA

theorem alloc_fillStep (hR : Closed (FillStep A) R) (size : Nat) (mode : AllocMode) : Follows R (alloc size mode) := by
  refine Follows.bind hR (boundary_postStep (Closed.post_of_fill hR)) fun _ =>
    Follows.bind hR (fun s hs => ?draw) fun raw => Follows.bind hR (Follows.getState hR) fun s => ?_
  case draw =>
    unfold drawAlloc
    cases s.draws.alloc with
    | nil => exact ⟨hR.step (.draws (d := s.draws) _ rfl), hs⟩
    | cons v rest => exact ⟨hR.step (.draws (d := { s.draws with alloc := rest }) s.drawCount rfl), hs⟩
  cases raw.bind (checkAlloc s) with
  | none => exact Follows.bind hR (Follows.update fun _ => hR.step (.post (.event _))) fun _ => Follows.pure hR _
  | some b =>
    exact Follows.bind hR (Follows.update fun _ => hR.trans (hR.step (.allocated b)) (hR.step (.post (.event _))))
      fun _ => Follows.pure hR _

theorem dmaMap_fillStep (hR : Closed (FillStep A) R) (buf : Nat) : Follows R (dmaMap buf) := by
  refine Follows.bind hR (boundary_postStep (Closed.post_of_fill hR)) fun _ =>
    Follows.bind hR (fun s hs => ?draw) fun raw => Follows.bind hR (Follows.getState hR) fun s => ?_
  case draw =>
    unfold drawDmaMap
    cases s.draws.dmaMap with
    | nil => exact ⟨hR.step (.draws (d := s.draws) _ rfl), hs⟩
    | cons v rest => exact ⟨hR.step (.draws (d := { s.draws with dmaMap := rest }) s.drawCount rfl), hs⟩
  cases raw.bind (checkMap s) with
  | none => exact Follows.pure hR _
  | some d =>
    exact Follows.bind hR (Follows.update fun _ => hR.trans (hR.step (.mapped d.1 ⟨buf, d.2⟩)) (hR.step (.post (.event _))))
      fun _ => Follows.pure hR _

theorem freeBuf_fillStep (hR : Closed (FillStep A) R) (b : Nat) : Follows R (freeBuf b) :=
  Follows.bind hR (boundary_postStep (Closed.post_of_fill hR)) fun _ => Follows.update fun _ =>
    hR.trans (hR.step (.freed b)) (hR.step (.post (.event _)))

/-- The refill of receive slot `i`: whether it is posted. -/
def fillSlot (mode : AllocMode) (i : Nat) : M Bool := do
  let s ← getState
  let b ← alloc s.params.rxBufSize mode
  match b with
  | none => pure false
  | some buf => do
    let m ← dmaMap buf
    match m with
    | none => do
      freeBuf buf
      pure false
    | some d => do
      update (setRxSlot i ⟨buf, d.1⟩)
      rxPost i d.1
      pure true

theorem refill_succ (mode : AllocMode) (n i : Nat) (s : State) : refill mode (n + 1) i s =
    (do let filled ← fillSlot mode i
        if filled then refill mode n (i + 1) else pure false) s := by
  simp only [refill, fillSlot, run_bind, run_getState]
  cases alloc s.params.rxBufSize mode s with
  | error e t => rfl
  | ok b t =>
    cases b with
    | none => rfl
    | some buf =>
      simp only [run_bind]
      cases dmaMap buf t with
      | error e u => rfl
      | ok m u =>
        cases m with
        | none => rfl
        | some d =>
          simp only [run_bind, run_update]
          cases rxPost i d.1 (setRxSlot i ⟨buf, d.1⟩ u) <;> rfl

theorem fillSlot_fillStep (hR : Closed (FillStep A) R) {i : Nat} (hA : ∀ w v, A .rx i w v) (mode : AllocMode) :
    Follows R (fillSlot mode i) := by
  refine Follows.bind hR (Follows.getState hR) fun s => Follows.bind hR (alloc_fillStep hR _ _) fun b => ?_
  cases b with
  | none => exact Follows.pure hR _
  | some buf =>
    refine Follows.bind hR (dmaMap_fillStep hR buf) fun m => ?_
    cases m with
    | none => exact Follows.bind hR (freeBuf_fillStep hR buf) fun _ => Follows.pure hR _
    | some d =>
      exact Follows.bind hR (Follows.update fun _ => hR.step (.entered i _)) fun _ =>
        Follows.bind hR (rxPost_postStep (Closed.post_of_fill hR) hA _) fun _ => Follows.pure hR _

theorem refill_fillStep (hR : Closed (FillStep A) R) (hA : ∀ slot w v, A .rx slot w v) (mode : AllocMode) :
    ∀ n i, Follows R (refill mode n i)
  | 0, _ => Follows.pure hR true
  | n + 1, i => by
    intro s hs
    rw [refill_succ]
    exact Follows.bind hR (fillSlot_fillStep hR (hA i) mode)
      (fun _ => Follows.ite (refill_fillStep hR hA mode n (i + 1)) (Follows.pure hR false)) s hs

end Programs

/-! ### What every one of them keeps -/

section Kept

variable {A : Writes} {s t : State}

theorem aside_fillStep : Closed (FillStep A) fun s t => aside t = aside s where
  refl _ := rfl
  trans h h' := h'.trans h
  step {s t} h := by
    cases h with
    | post h =>
      cases h with
      | env => exact aside_interleave s
      | _ => rfl
    | _ => rfl

theorem tcvrKnown_fillStep : Closed (FillStep A) fun s t => t.draws.tcvrKnown = s.draws.tcvrKnown where
  refl _ := rfl
  trans h h' := h'.trans h
  step {s t} h := by
    cases h with
    | post h =>
      cases h with
      | env => exact (sameDraws_of_hostSide (interleave_hostSide s)).tcvrKnown
      | _ => rfl
    | draws n h => exact h
    | _ => rfl

theorem sched_fillStep : Closed (FillStep A) fun s t => s.sched = [] → t.sched = [] where
  refl _ h := h
  trans h h' x := h' (h x)
  step {s t} hst h := by
    cases hst with
    | post hst =>
      cases hst with
      | env => rwa [interleave_nil s h]
      | _ => exact h
    | _ => exact h

/-- The receive ring of a block with parameters `p` lies at `base`, and its engine is off. -/
structure Fillable (p : Params) (base : Nat) (s : State) : Prop where
  geometry : Geometry s
  params : s.params = p
  base : s.rx.base = some base
  off : s.dev.rxDmaOn = false

theorem Fillable.writable {p : Params} {base : Nat} (h : Fillable p base s) : Writable .rx p base s :=
  ⟨h.params, h.geometry.desc, h.geometry.laidOut, h.geometry.pending, h.base, h.off⟩

theorem Fillable.of_aside {p : Params} {base : Nat} (h : Fillable p base s) (hg : Geometry t) (ha : aside t = aside s) :
    Fillable p base t where
  geometry := hg
  params := (congrArg (·.params) ha).trans h.params
  base := (congrArg (·.rx.base) ha).trans h.base
  off := (congrArg (·.dev.rxDmaOn) ha).trans h.off

theorem geometry_fillStep : Closed (FillStep A) fun s t => Geometry s → Geometry t :=
  ⟨⟨fun _ h => h, fun h h' x => h' (h x)⟩, fun hst =>
    (Closed.fill_of_ring (A := A) ⟨⟨fun _ h => h, fun h h' x => h' (h x)⟩, fun hst => hst.geometry⟩).step hst⟩

theorem fillable_fillStep (p : Params) (base : Nat) : Closed (FillStep A) fun s t => Fillable p base s → Fillable p base t :=
  ⟨⟨fun _ h => h, fun h h' x => h' (h x)⟩, fun hst h =>
    h.of_aside (geometry_fillStep.step hst h.geometry) (aside_fillStep.step hst)⟩

end Kept

end Sys2Proof.DeviceReset
end

section
/-! PROOFS. The refill of the receive ring (R334): what it posts, and when it fails. -/

namespace Sys2Proof.DeviceReset

open Sys2Proof.Machine Sys2Proof.Laws Sys2Proof.Invariants Sys2Proof.Rings Ledger

section Refill

variable {s t : State} {p : Params} {base i : Nat} {l l₀ : Ledger}

/-! ### The words given to the device (R180) -/

theorem Fillable.desc (h : Fillable p base s) : descValid p.desc = true := h.params ▸ h.geometry.desc

/-- The refill of slot `i` writes no word of another slot, and no engine does. -/
theorem spared_fillStep {j : Nat} (hj : j < p.nRx) (hij : j ≠ i) : Closed (FillStep (slotWrites i)) fun s t =>
    Fillable p base s →
      Fillable p base t ∧ hostView t (descWordAddr p.desc base j .flags) = hostView s (descWordAddr p.desc base j .flags) where
  refl _ h := ⟨h, rfl⟩
  trans h h' x := by
    obtain ⟨ht, hv⟩ := h x
    obtain ⟨hu, hv'⟩ := h' ht
    exact ⟨hu, hv'.trans hv⟩
  step {s t} hst h := by
    refine ⟨(fillable_fillStep p base).step hst h, ?_⟩
    cases hst with
    | post hst =>
      cases hst with
      | env => exact (h.writable.quiet hj .flags).interleave.2
      | @pushed r slot b w v hA hb hs ha =>
        obtain ⟨rfl, rfl⟩ := hA
        obtain rfl : base = b := Option.some.inj (h.base.symm.trans hb)
        rw [hostView_pushWrite, if_neg]
        rw [h.params]
        exact fun e => hij (descWordAddr_inj h.desc e).1.symm
      | _ => rfl
    | _ => rfl

theorem memWrite_gives (hi : i < p.nRx) (v : Word32) : Ensures (Fillable p base) (memWrite .rx i .flags v)
    (fun _ s => hostView s (descWordAddr p.desc base i .flags) = v) anyEnd := by
  intro s hs h
  have hw := h.writable.interleave
  rw [run_memWrite (hw.hostWrites hi) .flags v]
  have hview := hostView_pushWrite (interleave s) (descWordAddr p.desc base i .flags) (descWordAddr p.desc base i .flags) v
  rw [if_pos rfl] at hview
  exact ⟨by rw [h.params]; exact hview, (hostSide_fault (interleave_hostSide s)).trans hs⟩

theorem rxPost_gives (hi : i < p.nRx) (h : Nat) : Ensures (Fillable p base) (rxPost i h)
    (fun _ s => hostView s (descWordAddr p.desc base i .flags) = encRxPost p) anyEnd := by
  have hkeep : Closed (PostStep anyWrite) fun s t => Fillable p base s → Fillable p base t :=
    Closed.post_of_fill (fillable_fillStep p base)
  refine Ensures.read fun u hu => ?_
  cases mapGet u.liveMaps h with
  | none => exact Ensures.refuse
  | some m =>
    refine Ensures.read fun u' hu' => Ensures.ite (fun _ => ?_) fun _ => Ensures.refuse
    refine Ensures.before (P := Fillable p base) ?_ fun s hs => hs ▸ hu' ▸ hu
    refine Ensures.bind (memWrite_postStep hkeep trivial).keeps fun _ => Ensures.bind (wmb_postStep hkeep).keeps fun _ =>
      Ensures.bind (memWrite_gives hi _) fun _ => Ensures.update fun s hs => ?_
    rw [hu.params] at hs
    exact hs

/-! ### The books of a refill -/

/-- A refill from the books `l₀`, the slots before `i` posted: each stands with a live mapping of its own buffer, and the buffers held are
those of before and those of the slots. -/
structure Refilled (l₀ : Ledger) (i : Nat) (l : Ledger) : Prop extends Filling False i l where
  same : l = { l₀ with rxShadow := l.rxShadow, liveMaps := l.liveMaps, liveBuffers := l.liveBuffers }
  mapped : ∀ j e, mapGet l.rxShadow j = some e → ∃ m, mapGet l.liveMaps e.handle = some m ∧ m.buf = e.buf
  held : ∀ b, mapHas l.liveBuffers b = true ↔
    mapHas l₀.liveBuffers b = true ∨ ∃ j e, mapGet l.rxShadow j = some e ∧ e.buf = b
  fresh : ∀ j e, mapGet l.rxShadow j = some e → mapHas l₀.liveBuffers e.buf = false

theorem Refilled.begin (h : l₀.Sound False False) (htx : l₀.TxEmpty) (hrx : l₀.rxShadow = []) : Refilled l₀ 0 l₀ :=
  { h with
    empty := htx
    filled := fun j => by simp [hrx, mapHas]
    same := rfl
    mapped := fun j e he => by simp [hrx] at he
    held := fun b => by simp [hrx]
    fresh := fun j e he => by simp [hrx] at he }

theorem Refilled.post (hl : Refilled l₀ i l) {b h da : Nat} (hi : i < l.params.nRx) (hh : mapHas l.liveMaps h = false)
    (hb : mapHas l.liveBuffers b = false) : Refilled l₀ (i + 1) (postRx i b h da l) := by
  have hnew : mapGet l.rxShadow i = none := by
    have := hl.filled i
    simpa [mapHas] using this
  have hentry : ∀ j e, mapGet (mapSet l.rxShadow i ⟨b, h⟩) j = some e ↔
      j = i ∧ e = ⟨b, h⟩ ∨ mapGet l.rxShadow j = some e := fun j e => by
    rw [mapGet_mapSet]
    split
    · rename_i hj
      subst hj
      simp [hnew, eq_comm]
    · rename_i hj
      simp [hj]
  refine
    { hl.toFilling.post hi hh hb with
      same := by rw [hl.same]; rfl
      mapped := fun j e he => ?_
      held := fun x => ?_
      fresh := fun j e he => ?_ }
  · rcases (hentry j e).mp he with ⟨-, rfl⟩ | he
    · exact ⟨⟨b, da⟩, mapGet_mapSet_same _ _ _, rfl⟩
    · obtain ⟨m, hm, hbuf⟩ := hl.mapped j e he
      refine ⟨m, (mapGet_mapSet_other _ _ fun e' => ?_).trans hm, hbuf⟩
      rw [← e', mapHas, hm] at hh
      cases hh
  · simp only [postRx, mapHas_mapSet, Bool.or_eq_true, decide_eq_true_eq, hl.held, hentry]
    constructor
    · rintro (rfl | h | ⟨j, e, he, rfl⟩)
      · exact .inr ⟨i, _, .inl ⟨rfl, rfl⟩, rfl⟩
      · exact .inl h
      · exact .inr ⟨j, e, .inr he, rfl⟩
    · rintro (h | ⟨j, e, ⟨-, rfl⟩ | he, rfl⟩)
      · exact .inr (.inl h)
      · exact .inl rfl
      · exact .inr (.inr ⟨j, e, he, rfl⟩)
  · rcases (hentry j e).mp he with ⟨-, rfl⟩ | he
    · cases hx : mapHas l₀.liveBuffers b with
      | false => rfl
      | true => rw [(hl.held b).mpr (.inl hx)] at hb; cases hb
    · exact hl.fresh j e he

/-- What the refill of slot `i` does to the books (R334). -/
def SlotBooks (i : Nat) (l l' : Ledger) (filled : Bool) : Prop :=
  if filled then ∃ b h da, mapHas l.liveMaps h = false ∧ mapHas l.liveBuffers b = false ∧ l' = postRx i b h da l else l' = l

theorem fillSlot_book (mode : AllocMode) (hwf : mapWf l.liveBuffers = true) :
    Ensures (book · = l) (fillSlot mode i) (fun r s => SlotBooks i l (book s) r) anyEnd := by
  refine Ensures.read fun u hu => ?_
  subst hu
  refine Ensures.bind (Ensures.opened (alloc_book _ _)) fun b => ?_
  cases b with
  | none => exact Ensures.pure fun s h => h
  | some buf =>
    refine Ensures.each (P := (Allocation (book u) · (some buf))) ?_
    rintro _ ⟨hb, rfl⟩
    refine Ensures.bind (dmaMap_book buf) fun m => ?_
    cases m with
    | none =>
      refine Ensures.each (P := (Mapping buf _ · none)) ?_
      rintro _ rfl
      refine Ensures.bind (freeBuf_book buf) fun _ => Ensures.pure fun s h => ?_
      rw [h, take_giveBack hwf hb]
      rfl
    | some d =>
      refine Ensures.each (P := (Mapping buf _ · (some d))) ?_
      rintro _ ⟨hh, rfl⟩
      refine Ensures.bind (Q := fun _ s => book s = postRx i buf d.1 d.2 (book u)) (Ensures.update fun s h => ?_) fun _ =>
        Ensures.bind (rxPost_book i d.1) fun _ => Ensures.pure fun s h => ⟨buf, d.1, d.2, hh, hb, h⟩
      simp only [book, Ledger.mk.injEq] at h
      obtain ⟨hp, ha, hh, ht, hcur, htx, hrx, hm, hl, hk, hn⟩ := h
      simp only [book, setRxSlot, postRx, hp, ha, hh, ht, hcur, htx, hrx, hm, hl, hk, hn]

/-! ### One slot -/

theorem alloc_returns (size : Nat) (mode : AllocMode) (s : State) : ∃ r t, alloc size mode s = .ok r t := by
  have hdraw : ∃ r t, drawAlloc mode size (interleave s) = .ok r t := by
    unfold drawAlloc
    split <;> exact ⟨_, _, rfl⟩
  obtain ⟨r, t, ht⟩ := hdraw
  simp only [alloc, run_bind, run_boundary, ht, run_getState]
  cases r.bind (checkAlloc t) <;> exact ⟨_, _, rfl⟩

theorem dmaMap_returns (buf : Nat) (s : State) : ∃ r t, dmaMap buf s = .ok r t := by
  have hdraw : ∃ r t, drawDmaMap buf (interleave s) = .ok r t := by
    unfold drawDmaMap
    split <;> exact ⟨_, _, rfl⟩
  obtain ⟨r, t, ht⟩ := hdraw
  simp only [dmaMap, run_bind, run_boundary, ht, run_getState]
  cases r.bind (checkMap t) <;> exact ⟨_, _, rfl⟩

/-- A slot with a granted buffer and mapping is posted. -/
theorem rxPost_returns (h : Fillable p base s) (hi : i < p.nRx) {hd : Nat} {m : MapEntry}
    (hm : mapGet s.liveMaps hd = some m) (e : RxEntry) : ∃ t, rxPost i hd (setRxSlot i e s) = .ok () t := by
  have h' : Fillable p base (setRxSlot i e s) := (fillable_fillStep (A := anyWrite) p base).step (.entered i e) h
  obtain ⟨t, ht, -⟩ := Receive.rxPost_posts (buf := m.buf) (da := m.da) h'.geometry.valid (h'.writable.hostWrites hi) hm
  exact ⟨t, ht⟩

theorem fillSlot_returns (hs : s.fault = none) (h : Fillable p base s) (hi : i < p.nRx) (mode : AllocMode) :
    ∃ r t, fillSlot mode i s = .ok r t := by
  have hkeep : Closed (FillStep anyWrite) _ := fillable_fillStep p base
  obtain ⟨b, u, hu⟩ := alloc_returns s.params.rxBufSize mode s
  obtain ⟨hfu, hsu⟩ := Ends.of_ok (alloc_fillStep hkeep _ _ s hs) hu
  simp only [fillSlot, run_bind, run_getState, hu]
  cases b with
  | none => exact ⟨_, _, rfl⟩
  | some buf =>
    obtain ⟨m, v, hv⟩ := dmaMap_returns buf u
    obtain ⟨hfv, -⟩ := Ends.of_ok (dmaMap_fillStep hkeep buf u hsu) hv
    obtain ⟨hmap, -⟩ := Ends.of_ok (dmaMap_book buf u hsu rfl) hv
    simp only [run_bind, hv]
    cases m with
    | none => exact ⟨_, _, rfl⟩
    | some d =>
      obtain ⟨-, hbook⟩ := hmap
      have hlive : mapGet v.liveMaps d.1 = some ⟨buf, d.2⟩ := by
        rw [show v.liveMaps = mapSet (book u).liveMaps d.1 ⟨buf, d.2⟩ from congrArg Ledger.liveMaps hbook, mapGet_mapSet_same]
      obtain ⟨t, ht⟩ := rxPost_returns (hfv (hfu h)) hi hlive ⟨buf, d.1⟩
      simp only [run_bind, run_update, ht]
      exact ⟨_, _, rfl⟩

/-- The receive ring is being refilled from the books `l₀`, and the slots before `i` are the device's. -/
structure Feeding (p : Params) (base : Nat) (l₀ : Ledger) (i : Nat) (s : State) : Prop where
  fault : s.fault = none
  fillable : Fillable p base s
  books : Refilled l₀ i (book s)
  given : ∀ j, j < i → hostView s (descWordAddr p.desc base j .flags) = encRxPost p

theorem fillSlot_true_gives (hi : i < p.nRx) (mode : AllocMode) : Ensures (Fillable p base) (fillSlot mode i)
    (fun r s => r = true → hostView s (descWordAddr p.desc base i .flags) = encRxPost p) anyEnd := by
  have hkeep : Closed (FillStep anyWrite) _ := fillable_fillStep p base
  refine Ensures.read fun u hu => ?_
  refine (Ensures.bind (alloc_fillStep hkeep _ _).keeps fun b => ?_).before fun s hs => hs ▸ hu
  cases b with
  | none => exact Ensures.pure fun _ _ => nofun
  | some buf =>
    refine Ensures.bind (dmaMap_fillStep hkeep buf).keeps fun m => ?_
    cases m with
    | none => exact Ensures.bind (freeBuf_fillStep hkeep buf).keeps fun _ => Ensures.pure fun _ _ => nofun
    | some d =>
      exact Ensures.bind (Q := fun _ => Fillable p base)
        (Ensures.update fun s h => hkeep.step (.entered i _) h) fun _ =>
          Ensures.bind (rxPost_gives hi d.1) fun _ => Ensures.pure fun _ h _ => h

/-- The refill of a slot returns; the slot is posted, or the refill has failed. -/
theorem fillSlot_feeds (h : Feeding p base l₀ i s) (hi : i < p.nRx) (mode : AllocMode) : ∃ r t, fillSlot mode i s = .ok r t ∧
    if r then Feeding p base l₀ (i + 1) t else t.fault = none ∧ Refilled l₀ i (book t) := by
  obtain ⟨r, t, ht⟩ := fillSlot_returns h.fault h.fillable hi mode
  obtain ⟨hbook, hfault⟩ := Ends.of_ok (fillSlot_book (i := i) mode h.books.buffersWf s h.fault rfl) ht
  obtain ⟨hgiven, -⟩ := Ends.of_ok (fillSlot_true_gives hi mode s h.fault h.fillable) ht
  refine ⟨r, t, ht, ?_⟩
  cases r with
  | false =>
    have hsame : book t = book s := hbook
    exact ⟨hfault, hsame ▸ h.books⟩
  | true =>
    obtain ⟨b, hd, da, hmap, hbuf, hbook⟩ := hbook
    have hslots : ∀ j, j < p.nRx → j ≠ i → Fillable p base t ∧ hostView t (descWordAddr p.desc base j .flags) =
        hostView s (descWordAddr p.desc base j .flags) := fun j hj hij =>
      (Ends.of_ok (fillSlot_fillStep (spared_fillStep hj hij) (fun _ _ => ⟨rfl, rfl⟩) mode s h.fault) ht).1 h.fillable
    refine ⟨hfault, (Ends.of_ok (fillSlot_fillStep (A := anyWrite) (fillable_fillStep p base) (fun _ _ => trivial) mode s h.fault)
      ht).1 h.fillable, hbook ▸ h.books.post (show i < s.params.nRx by rw [h.fillable.params]; exact hi) hmap hbuf, fun j hj => ?_⟩
    rcases Nat.lt_succ_iff_lt_or_eq.mp hj with hj | rfl
    · exact (hslots j (by omega) (by omega)).2.trans (h.given j hj)
    · exact hgiven rfl

/-! ### The whole refill -/

/-- The refill returns: every slot is posted and the device's, or the books are those of the slots posted before it failed. -/
theorem refill_feeds (mode : AllocMode) : ∀ n i s, i + n = p.nRx → Feeding p base l₀ i s → ∃ r t, refill mode n i s = .ok r t ∧
    if r then Feeding p base l₀ p.nRx t else t.fault = none ∧ ∃ j, Refilled l₀ j (book t)
  | 0, i, s, hi, h => by
    obtain rfl : i = p.nRx := by omega
    exact ⟨true, s, rfl, h⟩
  | n + 1, i, s, hi, h => by
    obtain ⟨r, t, ht, hr⟩ := fillSlot_feeds h (by omega) mode
    simp only [refill_succ, run_bind, ht]
    cases r with
    | false => exact ⟨false, t, rfl, hr.1, i, hr.2⟩
    | true => exact refill_feeds mode n (i + 1) t (by omega) hr

/-! ### What the supplied draws decide -/

/-- The supplied draws grant these buffers and mappings, all fresh, and then go on with `as` and `ms`. -/
structure Supplied (bufs : List Nat) (maps : List (Nat × Nat)) (as : List (Option Nat)) (ms : List (Option (Nat × Nat)))
    (s : State) : Prop where
  alloc : s.draws.alloc = bufs.map some ++ as
  dmaMap : s.draws.dmaMap = maps.map some ++ ms
  bufsNodup : bufs.Nodup
  bufsFresh : ∀ b ∈ bufs, mapHas s.liveBuffers b = false
  handlesNodup : (maps.map (·.1)).Nodup
  handlesFresh : ∀ d ∈ maps, mapHas s.liveMaps d.1 = false
  addresses : ∀ d ∈ maps, d.2 < 2 ^ s.params.desc.addrBits ∧ d.2 % 4 = 0

variable {bufs : List Nat} {maps : List (Nat × Nat)} {as : List (Option Nat)} {ms : List (Option (Nat × Nat))} {b : Nat}
  {d : Nat × Nat}

theorem sameDraws_postStep {A : Writes} : Closed (PostStep A) SameDraws where
  refl _ := ⟨rfl, rfl, rfl⟩
  trans h h' := h.trans h'
  step {s t} h := by
    cases h with
    | env => exact sameDraws_of_hostSide (interleave_hostSide s)
    | _ => exact ⟨rfl, rfl, rfl⟩

theorem fillSlot_denied (h : s.draws.alloc = none :: as) (mode : AllocMode) : ∃ t, fillSlot mode i s = .ok false t := by
  simp only [fillSlot, run_bind, run_getState, run_alloc_fail h, run_pure]
  exact ⟨_, rfl⟩

theorem alloc_grants (ha : s.draws.alloc = some b :: as) (hb : mapHas s.liveBuffers b = false) (size : Nat) (mode : AllocMode) :
    ∃ u, alloc size mode s = .ok (some b) u ∧ u.draws.alloc = as ∧ u.draws.dmaMap = s.draws.dmaMap ∧ u.params = s.params ∧
      u.liveMaps = s.liveMaps :=
  have hside := interleave_hostSide s
  have hparams : (interleave s).params = s.params := params_of_hostSide hside
  have hmaps : (interleave s).liveMaps = s.liveMaps := congrArg (·.liveMaps) hside
  ⟨_, run_alloc_ok ha hb size mode, rfl, (sameDraws_of_hostSide hside).dmaMap, hparams, hmaps⟩

theorem dmaMap_grants (hm : s.draws.dmaMap = some d :: ms) (hok : checkMap s d = some d) (buf : Nat) :
    ∃ u, dmaMap buf s = .ok (some d) u ∧ u.draws.alloc = s.draws.alloc ∧ u.draws.dmaMap = ms :=
  have hallocs := (sameDraws_of_hostSide (interleave_hostSide s)).alloc
  ⟨_, run_dmaMap_ok hm hok buf, hallocs, rfl⟩

theorem fillSlot_unmapped (ha : s.draws.alloc = some b :: as) (hb : mapHas s.liveBuffers b = false)
    (hm : s.draws.dmaMap = none :: ms) (mode : AllocMode) : ∃ t, fillSlot mode i s = .ok false t := by
  obtain ⟨u, hu, -, hmu, -⟩ := alloc_grants ha hb s.params.rxBufSize mode
  simp only [fillSlot, run_bind, run_getState, hu, run_dmaMap_fail (hmu.trans hm)]
  exact ⟨_, rfl⟩

theorem fillSlot_granted (hs : s.fault = none) (h : Fillable p base s) (hi : i < p.nRx)
    (hsup : Supplied (b :: bufs) (d :: maps) as ms s) (mode : AllocMode) :
    ∃ t, fillSlot mode i s = .ok true t ∧ Supplied bufs maps as ms t := by
  have hkeep : Closed (FillStep anyWrite) _ := fillable_fillStep p base
  obtain ⟨hbfresh, hbufs⟩ := List.forall_mem_cons.mp hsup.bufsFresh
  obtain ⟨hdfresh, hmaps⟩ := List.forall_mem_cons.mp hsup.handlesFresh
  obtain ⟨hdaddr, haddrs⟩ := List.forall_mem_cons.mp hsup.addresses
  obtain ⟨hbnew, hbnodup⟩ := List.nodup_cons.mp hsup.bufsNodup
  obtain ⟨hdnew, hdnodup⟩ := List.nodup_cons.mp hsup.handlesNodup
  obtain ⟨u, hu, hau, hmu, hpu, hlu⟩ := alloc_grants hsup.alloc hbfresh s.params.rxBufSize mode
  obtain ⟨⟨-, hbooku⟩, hsu⟩ := Ends.of_ok (alloc_book _ _ s hs rfl) hu
  have hfu := (Ends.of_ok (alloc_fillStep hkeep _ _ s hs) hu).1 h
  have hcheck : checkMap u d = some d := by
    rw [checkMap, hpu, hlu, if_pos ⟨hdfresh, hdaddr⟩]
  obtain ⟨v, hv, hav, hmv⟩ := dmaMap_grants (hmu.trans hsup.dmaMap) hcheck b
  obtain ⟨⟨-, hbookv⟩, hsv⟩ := Ends.of_ok (dmaMap_book b u hsu rfl) hv
  have hfv := (Ends.of_ok (dmaMap_fillStep hkeep b u hsu) hv).1 hfu
  have hlive : mapGet v.liveMaps d.1 = some ⟨b, d.2⟩ := by
    rw [show v.liveMaps = mapSet (book u).liveMaps d.1 ⟨b, d.2⟩ from congrArg Ledger.liveMaps hbookv, mapGet_mapSet_same]
  obtain ⟨t, ht⟩ := rxPost_returns hfv hi hlive ⟨b, d.1⟩
  have hsd := (Ends.of_ok
    (rxPost_postStep (A := anyWrite) sameDraws_postStep (fun _ _ => trivial) d.1 (setRxSlot i ⟨b, d.1⟩ v) hsv) ht).1
  obtain ⟨hbookt, -⟩ := Ends.of_ok (rxPost_book i d.1 (setRxSlot i ⟨b, d.1⟩ v) hsv rfl) ht
  have hbufst : t.liveBuffers = mapSet s.liveBuffers b () := calc
    t.liveBuffers = v.liveBuffers := congrArg Ledger.liveBuffers hbookt
    _ = u.liveBuffers := congrArg Ledger.liveBuffers hbookv
    _ = mapSet s.liveBuffers b () := congrArg Ledger.liveBuffers hbooku
  have hmapst : t.liveMaps = mapSet s.liveMaps d.1 ⟨b, d.2⟩ := calc
    t.liveMaps = v.liveMaps := congrArg Ledger.liveMaps hbookt
    _ = mapSet u.liveMaps d.1 ⟨b, d.2⟩ := congrArg Ledger.liveMaps hbookv
    _ = mapSet s.liveMaps d.1 ⟨b, d.2⟩ := by rw [hlu]
  have hparamst : t.params = s.params := calc
    t.params = v.params := congrArg Ledger.params hbookt
    _ = u.params := congrArg Ledger.params hbookv
    _ = s.params := hpu
  refine ⟨t, by simp only [fillSlot, run_bind, run_getState, hu, hv, run_update, ht, run_pure],
    hsd.alloc.trans (hav.trans hau), hsd.dmaMap.trans hmv, hbnodup, fun x hx => ?_, hdnodup, fun x hx => ?_, fun x hx => ?_⟩
  · rw [hbufst, mapHas_mapSet, hbufs x hx, Bool.or_false, decide_eq_false_iff_not]
    rintro rfl
    exact hbnew hx
  · rw [hmapst, mapHas_mapSet, hmaps x hx, Bool.or_false, decide_eq_false_iff_not]
    exact fun e => hdnew (List.mem_map.mpr ⟨x, hx, e⟩)
  · rw [hparamst]
    exact haddrs x hx

/-- How a refill of `n` slots answers these draws (R334). -/
def RefillAnswer (n : Nat) (bufs : List Nat) (maps : List (Nat × Nat)) (as : List (Option Nat)) (ms : List (Option (Nat × Nat))) :
    Bool → Prop
  | true => bufs.length = n ∧ maps.length = n
  | false => bufs.length < n ∧ maps.length = bufs.length ∧ as.head? = some none ∨
      bufs.length ≤ n ∧ bufs.length = maps.length + 1 ∧ ms.head? = some none

/-- The supplied draws decide whether the refill fails. -/
theorem refill_answers (mode : AllocMode) {r : Bool} : ∀ n i s bufs maps, i + n = p.nRx → Feeding p base l₀ i s →
    Supplied bufs maps as ms s → RefillAnswer n bufs maps as ms r → ∃ t, refill mode n i s = .ok r t
  | 0, i, s, bufs, maps, _, _, _, hr => by
    cases r with
    | true => exact ⟨s, rfl⟩
    | false =>
      simp only [RefillAnswer] at hr
      omega
  | n + 1, i, s, bufs, maps, hi, h, hsup, hr => by
    simp only [refill_succ, run_bind]
    rcases bufs with - | ⟨b, bufs⟩ <;> rcases maps with - | ⟨d, maps⟩
    case nil.nil =>
      cases r with
      | true => simp [RefillAnswer] at hr
      | false =>
        obtain ⟨rest, rfl⟩ : ∃ rest, as = none :: rest := by simpa [RefillAnswer, List.head?_eq_some_iff] using hr
        obtain ⟨t, ht⟩ := fillSlot_denied (i := i) hsup.alloc mode
        exact ⟨t, by rw [ht]; rfl⟩
    case nil.cons => cases r <;> simp [RefillAnswer] at hr
    case cons.nil =>
      cases r with
      | true => simp [RefillAnswer] at hr
      | false =>
        obtain ⟨rest, rfl⟩ : ∃ rest, ms = none :: rest := by
          have h' : bufs.length ≤ n ∧ bufs = [] ∧ ∃ rest, ms = none :: rest := by
            simpa [RefillAnswer, List.head?_eq_some_iff] using hr
          obtain ⟨-, -, hrest⟩ := h'
          exact hrest
        obtain ⟨t, ht⟩ := fillSlot_unmapped (i := i) hsup.alloc (hsup.bufsFresh b List.mem_cons_self) hsup.dmaMap mode
        exact ⟨t, by rw [ht]; rfl⟩
    case cons.cons =>
      have hslot : i < p.nRx := by omega
      obtain ⟨u, hu, hsup'⟩ := fillSlot_granted h.fault h.fillable hslot hsup mode
      obtain ⟨x, u', hu', hfeed⟩ := fillSlot_feeds h hslot mode
      obtain ⟨rfl, rfl⟩ : true = x ∧ u = u' := by
        rw [hu] at hu'
        cases hu'
        exact ⟨rfl, rfl⟩
      have hr' : RefillAnswer n bufs maps as ms r := by
        cases r <;> simpa [RefillAnswer] using hr
      obtain ⟨t, ht⟩ := refill_answers mode n (i + 1) u bufs maps (by omega) hfeed hsup' hr'
      exact ⟨t, by rw [hu]; exact ht⟩

end Refill

end Sys2Proof.DeviceReset
end

section
/-! PROOFS. The restart that ends a Device Reset/Init: MAC, DMA, interrupts, queue and link, under every schedule (R339 to R342). -/

namespace Sys2Proof.DeviceReset

open Sys2Proof.Machine Sys2Proof.Laws Sys2Proof.Invariants Sys2Proof.Rings

section Restart

/-! ### Programs that return -/

/-- From a state of `P` the program returns, and ends as `Q` says. -/
def Returns {α : Type} (P : State → Prop) (m : M α) (Q : α → State → Prop) : Prop := ∀ s, P s → ∃ a t, m s = .ok a t ∧ Q a t

variable {α β : Type} {P : State → Prop}

theorem Returns.bind {m : M α} {f : α → M β} {Q : α → State → Prop} {Q' : β → State → Prop} (hm : Returns P m Q)
    (hf : ∀ a, Returns (Q a) (f a) Q') : Returns P (m >>= f) Q' := by
  intro s hs
  obtain ⟨a, t, ht, hQ⟩ := hm s hs
  rw [run_bind, ht]
  exact hf a t hQ

theorem Returns.pure {a : α} {Q : α → State → Prop} (h : ∀ s, P s → Q a s) : Returns P (pure a) Q :=
  fun s hs => ⟨a, s, rfl, h s hs⟩

theorem Returns.update {f : State → State} {Q : Unit → State → Prop} (h : ∀ s, P s → Q () (f s)) : Returns P (Machine.update f) Q :=
  fun s hs => ⟨(), f s, rfl, h s hs⟩

theorem Returns.read {f : State → M β} {Q : β → State → Prop} (h : ∀ u, P u → Returns (· = u) (f u) Q) :
    Returns P (Machine.getState >>= f) Q := fun s hs => h s hs s rfl

theorem Returns.before {P' : State → Prop} {m : M α} {Q : α → State → Prop} (h : Returns P m Q) (hP : ∀ s, P' s → P s) :
    Returns P' m Q := fun s hs => h s (hP s hs)

theorem Returns.after {m : M α} {Q Q' : α → State → Prop} (h : Returns P m Q) (hQ : ∀ a s, Q a s → Q' a s) : Returns P m Q' :=
  fun s hs => by
    obtain ⟨a, t, ht, h⟩ := h s hs
    exact ⟨a, t, ht, hQ a t h⟩

theorem Returns.ite {c : Prop} [Decidable c] {m n : M α} {Q : α → State → Prop} (hm : c → Returns P m Q) (hn : ¬c → Returns P n Q) :
    Returns P (if c then m else n) Q := by
  split
  · exact hm ‹_›
  · exact hn ‹_›

/-! ### What the restart leaves of the state it begins in -/

variable {u s t A : State} {reg : MmioReg} {v : RegVal}

/-- The host reads in `s` what it read in `u`, as long as no agent step is scheduled. -/
structure Undisturbed (u s : State) : Prop where
  pending : ∀ w ∈ s.wb, w.addr % 4 = 0
  calm : u.sched = [] → s.sched = [] ∧ ∀ a, a % 4 = 0 → hostView s a = hostView u a

theorem Undisturbed.interleave (h : Undisturbed u s) : Undisturbed u (interleave s) where
  pending := interleave_aligned h.pending
  calm hu := by
    rw [interleave_nil s (h.calm hu).1]
    exact h.calm hu

theorem Undisturbed.written (h : Undisturbed u s) : Undisturbed u (written reg v s) where
  pending := by simp [written_wb]
  calm hu := by
    obtain ⟨hs, hview⟩ := h.calm hu
    refine ⟨written_sched hs, fun a ha => ?_⟩
    calc hostView (DeviceReset.written reg v s) a = hostView (drain (Machine.interleave s)) a := hostView_regEffect reg v _ a
      _ = hostView (Machine.interleave s) a := hostView_drain (interleave_aligned h.pending) ha
      _ = hostView u a := by rw [interleave_nil s hs, hview a ha]

theorem Undisturbed.same (h : Undisturbed u s) (hp : t.params = s.params) (hm : t.mem = s.mem) (hw : t.wb = s.wb)
    (hs : t.sched = s.sched) : Undisturbed u t where
  pending := hw ▸ h.pending
  calm hu := by
    simp only [hostView, deviceView, hp, hm, hw, hs]
    exact h.calm hu

/-- The restart that began in `u` has come to a state with the host's side `A`, the rings' books apart. -/
structure Stage (u A s : State) : Prop extends Undisturbed u s where
  aside : aside s = A

theorem Stage.interleave (h : Stage u A s) : Stage u A (interleave s) :=
  ⟨h.toUndisturbed.interleave, (aside_interleave s).trans h.aside⟩

theorem Stage.written (hreg : reg ≠ .macTxcfg) (h : Stage u A s) : Stage u (regEffect reg v A) (written reg v s) :=
  ⟨h.toUndisturbed.written, (aside_written hreg).trans (h.aside ▸ rfl)⟩

/-- The MAC is enabled as the register says, and no write is pending: the environment changes neither. -/
structure Enabled (u A s : State) : Prop extends Stage u A s where
  settled : s.wb = []
  seen : s.dev.macEnableSeen = true
  enabled : macTxEnable A.params A.dev.macTxcfg = true

/-- What an agent step does to the device's registers: status bits come up, a disabled transmitter drains, or nothing changes
(R43, R281, R284). -/
theorem agentStep_dev {a : AgentStep} (ht : agentStep a s = some t) : t.dev = s.dev ∨
    (∃ bits, t.dev = { s.dev with status := s.dev.status ||| bits }) ∨
    macTxEnable s.params s.dev.macTxcfg = false ∧ t.dev = { s.dev with macEnableSeen := false } := by
  cases a with
  | envVisible a =>
    simp only [agentStep, stepVisible] at ht
    split at ht
    · cases ht
    · split at ht <;> cases ht
      exact .inl rfl
  | devTxDone slot =>
    simp only [agentStep, stepTxDone] at ht
    split at ht
    · cases ht
    · split at ht <;> cases ht
      exact .inl rfl
  | devRxDone slot len ov csum =>
    simp only [agentStep, stepRxDone] at ht
    split at ht
    · cases ht
    · split at ht <;> cases ht
      exact .inl rfl
  | devStatus bits =>
    simp only [agentStep, stepStatus] at ht
    split at ht <;> cases ht
    exact .inr (.inl ⟨bits, rfl⟩)
  | macDrained =>
    simp only [agentStep, stepMacDrained] at ht
    split at ht
    · rename_i hc
      cases ht
      simp only [Bool.and_eq_true, Bool.not_eq_true'] at hc
      exact .inr (.inr ⟨hc.1, rfl⟩)
    · cases ht

/-- The transmitter is enabled, and was seen so. -/
def SeenEnabled (s : State) : Prop := macTxEnable s.params s.dev.macTxcfg = true ∧ s.dev.macEnableSeen = true

/-- While the transmitter is enabled it does not drain (R43). -/
theorem seen_agentStep {a : AgentStep} (ht : agentStep a s = some t) (h : SeenEnabled s) : SeenEnabled t := by
  obtain ⟨hen, hseen⟩ := h
  have hp : t.params = s.params := params_of_hostSide (agentStep_hostSide ht)
  rcases agentStep_dev ht with hdev | ⟨bits, hdev⟩ | ⟨hdis, -⟩
  · exact ⟨by rw [hp, hdev]; exact hen, by rw [hdev]; exact hseen⟩
  · exact ⟨by rw [hp, hdev]; exact hen, by rw [hdev]; exact hseen⟩
  · rw [hen] at hdis
    cases hdis

theorem seen_interleave (h : SeenEnabled s) : SeenEnabled (interleave s) :=
  interleave_carries (R := fun s t => SeenEnabled s → SeenEnabled t) ⟨fun _ h => h, fun h h' x => h' (h x)⟩
    (fun _ _ _ => seen_agentStep) (fun _ _ h => h) s h

theorem Enabled.interleave (h : Enabled u A s) : Enabled u A (interleave s) where
  toStage := h.toStage.interleave
  settled := List.sublist_nil.mp (h.settled ▸ interleave_wb s)
  seen := by
    have hen := h.enabled
    rw [← h.aside] at hen
    have hs : SeenEnabled s := ⟨hen, h.seen⟩
    exact (seen_interleave hs).2
  enabled := h.enabled

theorem regEffect_seen (hreg : reg ≠ .macTxcfg) (s : State) : (regEffect reg v s).dev.macEnableSeen = s.dev.macEnableSeen := by
  unfold regEffect
  split
  case h_5 => exact absurd rfl hreg
  all_goals rfl

/-- A register other than the MAC's is written. -/
theorem Enabled.written (hreg : reg ≠ .macTxcfg) (hen : macTxEnable (regEffect reg v A).params (regEffect reg v A).dev.macTxcfg = true)
    (h : Enabled u A s) : Enabled u (regEffect reg v A) (written reg v s) where
  toStage := h.toStage.written hreg
  settled := written_wb
  seen :=
    calc (DeviceReset.written reg v s).dev.macEnableSeen = (drain (Machine.interleave s)).dev.macEnableSeen := regEffect_seen hreg _
      _ = (Machine.interleave s).dev.macEnableSeen := by rw [drain_dev]
      _ = true := h.interleave.seen
  enabled := hen

/-- Host state changes that the environment's side does not see. -/
theorem Enabled.same {B : State} (h : Enabled u A s) (hside : aside t = B) (hp : t.params = s.params) (hm : t.mem = s.mem)
    (hw : t.wb = s.wb) (hs : t.sched = s.sched) (hd : t.dev = s.dev) (hB : B.params = A.params) (hBd : B.dev = A.dev) :
    Enabled u B t where
  toUndisturbed := h.toUndisturbed.same hp hm hw hs
  aside := hside
  settled := hw.trans h.settled
  seen := hd ▸ h.seen
  enabled := by rw [hB, hBd]; exact h.enabled

/-! ### Steps 6 and 7: fixed parameters and MAC (R339, R340) -/

theorem writeGroup_stage (ws : List RegWrite) : Returns (Stage u A) (writeGroup .fixedParams ws) fun _ => Stage u A := by
  induction ws with
  | nil => exact Returns.pure fun _ h => h
  | cons w ws ih =>
    have hwrite : Returns (Stage u A) (mmioWrite (.fixedParams w.1) (.word w.2)) fun _ => Stage u A := fun s h =>
      ⟨(), _, run_mmioWrite _ _ s, h.written (reg := .fixedParams w.1) (by simp)⟩
    exact Returns.bind hwrite fun _ => ih

/-- The MAC's register after a reset: enabled, half duplex, and otherwise as it was (R340). -/
def MacRestarted (A : State) (w : Word32) : Prop := ∀ b, w.getLsbD b =
  if b = A.params.mac.txEnable then true else if b = A.params.mac.fullDuplex then false else A.dev.macTxcfg.getLsbD b

theorem getLsbD_putBit_same {n : Nat} (hn : n < 32) (x : Word32) (b : Bool) : (putBit n x b).getLsbD n = b := by
  rw [putBit, getLsbD_putField _ _ _ _ (show n + 1 ≤ 32 by omega)]
  cases b <;> simp [bitField]

theorem macRestarted_written (hp : paramsValid A.params = true) (v : Bool) : MacRestarted A
    (putFullDuplex A.params (putTxEnable A.params (putTxEnable A.params A.dev.macTxcfg v) true) false) := by
  obtain ⟨-, -, -, -, -, -, -, -, -, -, -, -, -, -, hne, htx, hfd⟩ := Encoding.paramsValid_iff.mp hp
  intro b
  simp only [putFullDuplex, putTxEnable]
  split
  · subst b
    rw [getLsbD_putBit_other hne, getLsbD_putBit_same htx]
  · rename_i hb
    split
    · subst b
      rw [getLsbD_putBit_same hfd]
    · rename_i hb'
      rw [getLsbD_putBit_other hb', getLsbD_putBit_other hb, getLsbD_putBit_other hb]

theorem MacRestarted.enabled {w : Word32} (hp : paramsValid A.params = true) (h : MacRestarted A w) :
    macTxEnable A.params w = true := by
  obtain ⟨-, -, -, -, -, -, -, -, -, -, -, -, -, -, -, htx, -⟩ := Encoding.paramsValid_iff.mp hp
  rw [macTxEnable, getBit_eq _ _ htx, h, if_pos rfl]

/-- The MAC's register in a host's side. -/
def macSet (w : Word32) (A : State) : State := { A with dev := { A.dev with macTxcfg := w } }

theorem aside_written_mac (w : Word32) (s : State) : aside (written .macTxcfg (.word w) s) = macSet w (aside s) := by
  rw [← aside_of_hostSide (hostSide_drained s), written]
  rfl

theorem resetMac_enables (hp : paramsValid A.params = true) :
    Returns (Stage u A) resetMac fun _ s => ∃ w, MacRestarted A w ∧ Enabled u (macSet w A) s := by
  refine Returns.read fun x hx => Returns.bind ((writeGroup_stage (u := u) (A := A) _).before fun s hs => hs ▸ hx) fun _ s h => ?_
  have hi := h.interleave
  have hpx : x.params = A.params := congrArg (·.params) hx.aside
  have hps : (Machine.interleave s).params = A.params := congrArg (·.params) hi.aside
  have hmac : (Machine.interleave s).dev.macTxcfg = A.dev.macTxcfg := congrArg (·.dev.macTxcfg) hi.aside
  have hw : MacRestarted A (putFullDuplex x.params (putTxEnable x.params (macReadValue (Machine.interleave s)) true) false) := by
    rw [hpx, macReadValue, hps, hmac]
    exact macRestarted_written hp _
  simp only [run_bind, run_mmioReadMac]
  generalize putFullDuplex x.params _ _ = w at hw ⊢
  have hread : Stage u A (emitted (.mmioR .macTxcfg (macReadValue (Machine.interleave s))) (Machine.interleave s)) :=
    ⟨hi.same rfl rfl rfl rfl, hi.aside⟩
  generalize emitted _ (Machine.interleave s) = r at hread ⊢
  have hr := hread.interleave
  have hpr : (drain (Machine.interleave r)).params = A.params :=
    congrArg (·.params) ((aside_of_hostSide (drain_hostSide _)).trans hr.aside)
  have hen : macTxEnable A.params w = true := hw.enabled hp
  refine ⟨(), _, run_mmioWrite _ _ _, w, hw, ⟨hread.toUndisturbed.written, ?aside⟩, written_wb, ?seen, hen⟩
  case aside =>
    rw [← hread.aside]
    exact aside_written_mac w r
  case seen =>
    show (macTxEnable (drain (Machine.interleave r)).params w || _) = true
    rw [hpr, hen, Bool.true_or]

/-! ### Step 9: the link (R342, R223) -/

theorem emit_enabled (e : Event) : Returns (Enabled u A) (emit e) fun _ => Enabled u A :=
  fun s h => ⟨(), _, run_emit e s, h.interleave.same h.interleave.aside rfl rfl rfl rfl rfl rfl rfl⟩

theorem mgmtRead_enabled (reg : Nat) : Returns (Enabled u A) (mgmtRead reg) fun _ => Enabled u A := by
  refine Returns.bind (Q := fun _ => Enabled u A) (Returns.update fun s h => h.interleave) fun _ =>
    Returns.bind (Q := fun _ => Enabled u A) ?draw fun raw => Returns.read fun x hx => ?rest
  case draw =>
    intro s h
    unfold drawMgmtRead
    split
    · exact ⟨_, _, rfl, h.same h.aside rfl rfl rfl rfl rfl rfl rfl⟩
    · exact ⟨_, _, rfl, h.same h.aside rfl rfl rfl rfl rfl rfl rfl⟩
  case rest =>
    exact Returns.bind (Q := fun _ => Enabled u A)
      (Returns.update fun s hs => (hs ▸ hx : Enabled u A s).same (hs ▸ hx : Enabled u A s).aside rfl rfl rfl rfl rfl rfl rfl)
      fun _ => Returns.pure fun _ h => h

theorem ackPoll_enabled : ∀ n, Returns (Enabled u A) (ackPoll n) fun _ => Enabled u A
  | 0 => Returns.pure fun _ h => h
  | n + 1 => Returns.read fun _ hx => Returns.bind ((mgmtRead_enabled _).before fun _ hs => hs ▸ hx) fun _ =>
      Returns.ite (fun _ => Returns.pure fun _ h => h) fun _ => ackPoll_enabled n

/-- A host's side with this link and timer. -/
def linkSet (l : LinkState) (armed : Bool) (A : State) : State := { A with link := l, timerArmed := armed }

theorem link_of_enabled (h : Enabled u A s) : s.link = A.link := congrArg (·.link) h.aside

theorem updateLink_enabled (f : LinkState → LinkState) :
    Returns (Enabled u A) (updateLink f) fun _ => Enabled u (linkSet (f A.link) A.timerArmed A) :=
  Returns.update fun s h => h.same (by rw [link_of_enabled h, ← h.aside]; rfl) rfl rfl rfl rfl rfl rfl rfl

theorem enterWait_enabled (st : LinkFsm) :
    Returns (Enabled u A) (update (enterWait st)) fun _ => Enabled u (linkSet { A.link with state := st, tick := 0 } true A) :=
  Returns.update fun s h => h.same (by rw [← link_of_enabled h, ← h.aside]; rfl) rfl rfl rfl rfl rfl rfl rfl

theorem linkForce_enabled (p : Fin 4) : Returns (Enabled u A) (linkForce p) fun _ =>
    Enabled u (linkSet { A.link with perm := p, state := .forcedTryWait, tick := 0 } true A) := by
  refine Returns.bind (updateLink_enabled _) fun _ => Returns.read fun x hx => ?_
  exact Returns.bind ((emit_enabled _).before fun s hs => hs ▸ hx) fun _ => enterWait_enabled _

/-- Where negotiation stands once it is begun (R223). -/
inductive LinkBegun (l : LinkState) : LinkState → Prop
  | negotiating (h : l.autoneg = true) : LinkBegun l { l with state := .arbitrationWait, tick := 0 }
  | unacknowledged (h : l.autoneg = true) : LinkBegun l { l with perm := 0, state := .forcedTryWait, tick := 0 }
  | requested (h : l.autoneg = false) :
      LinkBegun l { l with perm := modeIndex ⟨l.speedReq, l.duplexReq⟩, state := .forcedTryWait, tick := 0 }

theorem linkBegin_enabled (hidle : A.link.state = .idle) :
    Returns (Enabled u A) linkBegin fun _ s => ∃ l, LinkBegun A.link l ∧ Enabled u (linkSet l true A) s := by
  refine Returns.read fun x hx => ?_
  have hlink := link_of_enabled hx
  rw [hlink]
  refine Returns.ite (fun h => absurd hidle h) fun _ => ?_
  refine Returns.bind ((updateLink_enabled fun l => { l with tick := 0 }).before fun s hs => hs ▸ hx) fun _ =>
    Returns.ite (fun han => ?_) fun han => ?_
  · refine Returns.bind (emit_enabled _) fun _ => Returns.bind (emit_enabled _) fun _ => Returns.bind (ackPoll_enabled _) fun acked =>
      Returns.ite (fun _ => ?_) fun _ => ?_
    · exact (enterWait_enabled .arbitrationWait).after fun _ _ h => ⟨_, .negotiating han, h⟩
    · exact Returns.bind (emit_enabled _) fun _ => (linkForce_enabled 0).after fun _ _ h => ⟨_, .unacknowledged han, h⟩
  · exact (linkForce_enabled _).after fun _ _ h => ⟨_, .requested (by simpa using han), h⟩

/-! ### Steps 7 to 9 (R340 to R342) -/

/-- A host's side once DMA, interrupts, queue and adapter are on. -/
def switchedOn (A : State) : State :=
  { A with
    dev := { A.dev with txDmaOn := true, rxDmaOn := true, intArmed := true }
    tx := { A.tx with stopped := false }
    adapter := .running }

theorem resetRun_enabled (hidle : A.link.state = .idle) (hdown : A.link.up = false) :
    Returns (Enabled u A) resetRun fun _ s => ∃ l, LinkBegun A.link l ∧ Enabled u (linkSet l true (switchedOn A)) s := by
  have hdma : Returns (Enabled u A) (mmioWrite .txrxCtrl .enable) fun _ => Enabled u (regEffect .txrxCtrl .enable A) :=
    fun s h => ⟨(), _, run_mmioWrite _ _ s, h.written (by simp) h.enabled⟩
  have harm : Returns (Enabled u (regEffect .txrxCtrl .enable A)) (mmioWrite .intMask .armed) fun _ =>
      Enabled u (regEffect .intMask .armed (regEffect .txrxCtrl .enable A)) :=
    fun s h => ⟨(), _, run_mmioWrite _ _ s, h.written (by simp) h.enabled⟩
  refine Returns.bind hdma fun _ => Returns.bind harm fun _ => ?_
  refine Returns.bind (Q := fun _ => Enabled u (setStopped false (regEffect .intMask .armed (regEffect .txrxCtrl .enable A))))
    (Returns.update fun s h => h.same (show setStopped false (aside s) = _ by rw [h.aside]) rfl rfl rfl rfl rfl rfl rfl) fun _ =>
    Returns.bind (emit_enabled _) fun _ => ?_
  refine Returns.bind (Q := fun _ => Enabled u (switchedOn A)) (Returns.update fun s h =>
    h.same (show { aside s with adapter := .running } = _ by rw [h.aside]; rfl) rfl rfl rfl rfl rfl rfl rfl) fun _ => ?_
  refine Returns.bind (Q := fun _ => Enabled u (linkSet A.link false (switchedOn A)))
    (Returns.update fun s h =>
      h.same (show { aside s with timerArmed := false } = _ by rw [h.aside]; rfl) rfl rfl rfl rfl rfl rfl rfl) fun _ => ?_
  refine Returns.bind (updateLink_enabled _) fun _ => (linkBegin_enabled rfl).after fun _ s ⟨l, hl, h⟩ => ⟨l, ?_, h⟩
  have hsame : ({ A.link with up := false, state := .idle } : LinkState) = A.link := by rw [← hdown, ← hidle]
  rw [← hsame]
  exact hl

/-- Steps 6 to 9 return (R339 to R342). -/
theorem resetStart_enabled (hp : paramsValid A.params = true) (hidle : A.link.state = .idle) (hdown : A.link.up = false) :
    Returns (Stage u A) resetStart fun _ s => ∃ w l, MacRestarted A w ∧ LinkBegun A.link l ∧
      Enabled u (linkSet l true (switchedOn (macSet w A))) s := by
  rw [resetStart_eq]
  refine Returns.bind (resetMac_enables hp) fun _ s ⟨w, hw, h⟩ => ?_
  obtain ⟨_, t, ht, l, hl, h'⟩ := resetRun_enabled (A := macSet w A) hidle hdown s h
  exact ⟨(), t, ht, w, l, hw, hl, h'⟩

end Restart

end Sys2Proof.DeviceReset
end

section
/-! PROOFS. What a Device Reset/Init leaves behind, step by step to each of its three endings (R334 to R342, R346). -/

namespace Sys2Proof.DeviceReset

open Sys2Proof.Machine Sys2Proof.Laws Sys2Proof.Invariants Sys2Proof.Rings Ledger

section Endings

variable {s t u x : State} {A B : State} {base : Nat}

/-! ### The rings restarted -/

/-- A reset that began in `s` has restarted the rings: their books are in order, the transmit ring is neutral, and the host's side is
`A`, the books apart. -/
structure Restored (A s t : State) : Prop where
  fault : t.fault = none
  side : aside t = A
  geometry : Geometry t
  sound : (book t).Sound False False
  empty : (book t).TxEmpty
  cursor : t.rx.cursor = 0
  pkts : t.pkts = []
  held : ∀ b, mapHas t.liveBuffers b = true ↔ mapHas s.liveBuffers b = true ∧ ¬RingBuffer s b ∨ RingBuffer t b
  txZero : ∀ base i w, s.tx.base = some base → i < s.params.nTx → Zeroed rxWrites (descWordAddr s.params.desc base i w) t

theorem Sound.withAdapter {full tracked : Prop} {l : Ledger} (h : l.Sound full tracked) (a : AdapterState) :
    ({ l with adapter := a } : Ledger).Sound full tracked := { h with }

/-- What follows leaves the books alone, but for the adapter's state, and the transmit ring. -/
theorem Restored.next {a : AdapterState} (h : Restored A s x) (hfault : t.fault = none) (haside : aside t = B)
    (hgeometry : Geometry t) (hbook : book t = { book x with adapter := a })
    (hzero : ∀ a, Zeroed rxWrites a x → Zeroed rxWrites a t) : Restored B s t where
  fault := hfault
  side := haside
  geometry := hgeometry
  sound := hbook ▸ Sound.withAdapter h.sound a
  empty := hbook ▸ h.empty.mono rfl rfl rfl
  cursor := (congrArg Ledger.cursor hbook).trans h.cursor
  pkts := (congrArg Ledger.pkts hbook).trans h.pkts
  held b := by
    have hbufs : t.liveBuffers = x.liveBuffers := congrArg Ledger.liveBuffers hbook
    have hrx : t.rx.shadow = x.rx.shadow := congrArg Ledger.rxShadow hbook
    rw [RingBuffer, RingBuffer, hbufs, hrx]
    exact h.held b
  txZero base i w hb hi := hzero _ (h.txZero base i w hb hi)

/-- No mapping is live where no shadow entry holds one. -/
theorem liveMaps_nil (h : (book t).Sound False False) (hempty : (book t).TxEmpty) (hrx : t.rx.shadow = []) : t.liveMaps = [] := by
  refine eq_nil_of_mapHas fun k => ?_
  have hperm : (keys t.liveMaps).Perm [] := by
    have := h.handles
    rwa [Ledger.handles, hempty.shadow, show (book t).rxShadow = [] from hrx] at this
  rw [← Bool.not_eq_true, mapHas_iff_mem_keys, hperm.eq_nil]
  exact List.not_mem_nil

/-! ### After the refill (R334) -/

/-- The refill of the reset that began in `s` has ended in `t`. -/
structure RefillEnded (s t : State) : Prop extends Restored (asideReleased s) s t where
  known : t.draws.tcvrKnown = s.draws.tcvrKnown
  sched : s.sched = [] → t.sched = []
  fresh : ∀ b, RingBuffer t b → ¬(mapHas s.liveBuffers b = true ∧ ¬RingBuffer s b)

/-- Every receive slot is posted with a live mapping of its buffer. -/
def SlotsPosted (p : Params) (t : State) : Prop :=
  ∀ i, i < p.nRx → ∃ e m, mapGet t.rx.shadow i = some e ∧ mapGet t.liveMaps e.handle = some m ∧ m.buf = e.buf

/-- Every receive slot is the device's in the host's view. -/
def SlotsGiven (p : Params) (base : Nat) (t : State) : Prop :=
  ∀ i, i < p.nRx → hostView t (descWordAddr p.desc base i .flags) = encRxPost p

theorem Refilled.slotsPosted {l₀ : Ledger} {p : Params} (h : Refilled l₀ p.nRx (book t)) : SlotsPosted p t := fun i hi => by
  obtain ⟨e, he⟩ := (mapHas_iff _ _).mp ((h.filled i).mpr hi)
  obtain ⟨m, hm, hbuf⟩ := h.mapped i e he
  exact ⟨e, m, he, hm, hbuf⟩

theorem refillEnded_of_refilled {i : Nat} (hu : Released s u) (hs : t.fault = none) (haside : aside t = aside u)
    (hgeometry : Geometry t) (hknown : t.draws.tcvrKnown = u.draws.tcvrKnown) (hsched : u.sched = [] → t.sched = [])
    (hbook : Refilled (book u) i (book t)) (hzero : ∀ a, Zeroed rxWrites a u → Zeroed rxWrites a t) : RefillEnded s t where
  fault := hs
  side := haside.trans hu.aside
  geometry := hgeometry
  sound := hbook.toSound
  empty := hbook.empty
  cursor := (congrArg Ledger.cursor hbook.same).trans hu.cursor
  pkts := (congrArg Ledger.pkts hbook.same).trans hu.pkts
  held b := (hbook.held b).trans (or_congr (hu.held b) Iff.rfl)
  txZero base i w hb hi := hzero _ (hu.txZero base i w hb hi)
  known := hknown.trans hu.draws.tcvrKnown
  sched h := hsched (hu.sched h)
  fresh b hb hheld := by
    obtain ⟨i, e, he, rfl⟩ := hb
    have hfresh : mapHas u.liveBuffers e.buf = false := hbook.fresh i e he
    rw [(hu.held e.buf).mpr hheld] at hfresh
    cases hfresh

/-- The supplied draws are those of the refill that follows the release. -/
theorem supplied_of_granted (hu : Released s u) {bufs : List Nat} {maps : List (Nat × Nat)} {as : List (Option Nat)}
    {ms : List (Option (Nat × Nat))} (ha : s.draws.alloc = bufs.map some ++ as) (hm : s.draws.dmaMap = maps.map some ++ ms)
    (hg : RefillGranted s bufs maps) : Supplied bufs maps as ms u := by
  obtain ⟨hbufs, hfresh, hmaps, haddr⟩ := hg
  have hparams : u.params = s.params := congrArg (·.params) hu.aside
  refine ⟨hu.draws.alloc.trans ha, hu.draws.dmaMap.trans hm, hbufs, fun b hb => ?_, hmaps, fun d _ => ?_, hparams ▸ haddr⟩
  · rw [← Bool.not_eq_true, hu.held b]
    exact fun ⟨hlive, hring⟩ => hring (hfresh b hb hlive)
  · rw [liveMaps_nil hu.sound hu.empty hu.rxShadow]
    rfl

/-- The refill that follows the release returns, and its answer is the one the supplied draws decide. -/
theorem refill_ends (hu : Released s u) (hbase : s.rx.base = some base) (mode : AllocMode) :
    ∃ r t, refill mode u.params.nRx 0 u = .ok r t ∧ RefillEnded s t ∧
      (r = true → SlotsPosted s.params t ∧ SlotsGiven s.params base t) ∧
      ∀ bufs maps as ms r', s.draws.alloc = bufs.map some ++ as → s.draws.dmaMap = maps.map some ++ ms →
        RefillGranted s bufs maps → RefillAnswer s.params.nRx bufs maps as ms r' → r = r' := by
  have hparams : u.params = s.params := congrArg (·.params) hu.aside
  have hfill : Fillable s.params base u :=
    ⟨hu.geometry, hparams, (congrArg (·.rx.base) hu.aside).trans hbase, congrArg (·.dev.rxDmaOn) hu.aside⟩
  have hfeed : Feeding s.params base (book u) 0 u := ⟨hu.fault, hfill, Refilled.begin hu.sound hu.empty hu.rxShadow, nofun⟩
  obtain ⟨r, t, ht, hr⟩ := refill_feeds mode s.params.nRx 0 u (Nat.zero_add _) hfeed
  have hkept : ∀ {R : State → State → Prop}, Closed (FillStep rxWrites) R → R u t ∧ t.fault = none := fun {R} hR =>
    Ends.of_ok (Q := fun _ => R u) (refill_fillStep hR (fun _ _ _ => rfl) mode s.params.nRx 0 u hu.fault) ht
  obtain ⟨haside, hfault⟩ := hkept aside_fillStep
  have hended : ∀ {i}, Refilled (book u) i (book t) → RefillEnded s t := fun h =>
    refillEnded_of_refilled hu hfault haside ((hkept geometry_fillStep).1 hu.geometry) (hkept tcvrKnown_fillStep).1
      (hkept sched_fillStep).1 h fun a => (hkept (Closed.fill_of_ring (zeroed_closed rxWrites a).ring_of_host)).1
  refine ⟨r, t, hparams.symm ▸ ht, ?_, fun hr' => ?_, fun bufs maps as ms r' ha hm hg hans => ?_⟩
  · cases r with
    | true => exact hended hr.books
    | false =>
      obtain ⟨-, i, hi⟩ := hr
      exact hended hi
  · subst hr'
    exact ⟨hr.books.slotsPosted, hr.given⟩
  · obtain ⟨t', ht'⟩ := refill_answers mode s.params.nRx 0 u bufs maps (Nat.zero_add _) hfeed (supplied_of_granted hu ha hm hg) hans
    rw [ht] at ht'
    cases ht'
    rfl

/-! ### The probe and the failures (R335, R336, R344) -/

/-- The host's side, the rings' books apart, after a reset that failed. -/
def asideFailed (s : State) : State := { asideReleased s with adapter := .notReady, timerArmed := true }

/-- The state once a failure of the reset is logged and the adapter not ready. -/
def failedAt (k : LogKind) (s : State) : State :=
  let t := emitted (.log k) (interleave s)
  { t with adapter := .notReady, link := { t.link with state := .idle }, timerArmed := true }

/-- A failed reset logs why, and leaves the adapter not ready. -/
def logFailure (k : LogKind) : M Unit := do
  emit (.log k)
  notReady

theorem run_logFailure (k : LogKind) (s : State) : logFailure k s = .ok () (failedAt k s) := rfl

theorem logFailure_follows {A : Writes} {R : State → State → Prop} (hR : Closed (HostStep A) R) (k : LogKind) :
    Follows R (logFailure k) :=
  Follows.bind hR (emit_follows hR.calm_of_host _) fun _ => notReady_follows hR

theorem failedAt_kept {A : Writes} {R : State → State → Prop} (hR : Closed (HostStep A) R) (hs : s.fault = none) (k : LogKind) :
    R s (failedAt k s) := (Ends.of_ok (Q := fun _ => R s) (logFailure_follows hR k s hs) (run_logFailure k s)).1

theorem aside_failedAt (k : LogKind) (h : aside x = asideReleased s) : aside (failedAt k x) = asideFailed s := by
  have hi := (aside_interleave x).trans h
  have hset := congrArg (fun y : State => { y with adapter := .notReady, link := { y.link with state := .idle }, timerArmed := true }) hi
  exact hset

theorem failedAt_book (k : LogKind) (s : State) : book (failedAt k s) = { book s with adapter := .notReady } := by
  have h : book (interleave s) = book s := (calmFrame_of_hostSide (interleave_hostSide s)).book
  exact congrArg (fun l : Ledger => { l with adapter := .notReady }) h

theorem Restored.failedAt (h : Restored (asideReleased s) s x) (k : LogKind) : Restored (asideFailed s) s (failedAt k x) :=
  h.next ((hostSide_fault (interleave_hostSide x)).trans h.fault) (aside_failedAt k h.side)
    (failedAt_kept geometry_closed.host_of_op h.fault k h.geometry) (failedAt_book k x)
    fun a => failedAt_kept (zeroed_closed rxWrites a) h.fault k

theorem resetFinish_known : resetFinish true = (do
    let known ← drawTcvrKnown
    if known then do
      resetStart
      pure .ok
    else do
      logFailure .linkTypeUnknown
      pure .linkTypeUnknown) := rfl

theorem resetFinish_exhausted : resetFinish false = (do
    ringReset .rx
    logFailure .rxRefillFailed
    pure .resourceExhausted) := rfl

/-! ### Success (R339 to R342) -/

/-- A Device Reset/Init that began in `s` has succeeded. -/
structure Succeeded (base : Nat) (s t : State) : Prop where
  restored : ∃ w l, MacRestarted (asideReleased s) w ∧ LinkBegun (asideReleased s).link l ∧
    Restored (linkSet l true (switchedOn (macSet w (asideReleased s)))) s t
  posted : SlotsPosted s.params t
  settled : t.wb = []
  seen : t.dev.macEnableSeen = true
  given : s.sched = [] → t.sched = [] ∧ SlotsGiven s.params base t

/-- A Device Reset/Init that began in `s` has failed, its receive ring posted or not. -/
structure Failed (base : Nat) (posted : Bool) (s t : State) : Prop where
  restored : Restored (asideFailed s) s t
  rx : if posted then SlotsPosted s.params t ∧ SlotsGiven s.params base t else t.rx.shadow = [] ∧
    ∀ i w, i < s.params.nRx → Zeroed noWrite (descWordAddr s.params.desc base i w) t

/-- How a Device Reset/Init that began in `s` ends. -/
def Finished (base : Nat) (o : OpOutcome) (s t : State) : Prop :=
  o = .ok ∧ Succeeded base s t ∨ o = .resourceExhausted ∧ Failed base false s t ∨ o = .linkTypeUnknown ∧ Failed base true s t

theorem Restored.params (h : Restored A s t) : t.params = A.params := congrArg (·.params) h.side

theorem Restored.fillable {p : Params} (h : Restored A s t) (hp : A.params = p) (hbase : A.rx.base = some base)
    (hoff : A.dev.rxDmaOn = false) : Fillable p base t :=
  ⟨h.geometry, h.params.trans hp, (congrArg (·.rx.base) h.side).trans hbase, (congrArg (·.dev.rxDmaOn) h.side).trans hoff⟩

theorem SlotsPosted.of_book {p : Params} {a : AdapterState} (h : SlotsPosted p x) (hbook : book t = { book x with adapter := a }) :
    SlotsPosted p t := by
  have hmaps : t.liveMaps = x.liveMaps := congrArg Ledger.liveMaps hbook
  have hrx : t.rx.shadow = x.rx.shadow := congrArg Ledger.rxShadow hbook
  rw [SlotsPosted, hmaps, hrx]
  exact h

/-- The state once the transceiver is probed (R289). -/
def probed (d : Draws) (n : Nat) (s : State) : State := { interleave s with draws := d, drawCount := n }

/-- The probe returns, with the answer a supplied draw gives. -/
theorem drawTcvrKnown_returns (s : State) : ∃ k d n, drawTcvrKnown s = .ok k (probed d n s) ∧
    ∀ k', s.draws.tcvrKnown.head? = some k' → k = k' := by
  cases hd : s.draws.tcvrKnown with
  | nil =>
    have hnone := (sameDraws_of_hostSide (interleave_hostSide s)).tcvrKnown.trans hd
    have hrun : drawTcvrKnown s = match (interleave s).draws.tcvrKnown with
      | v :: rest => .ok v { interleave s with draws := { (interleave s).draws with tcvrKnown := rest } }
      | [] => .ok (Config.freeTcvrKnown (interleave s).drawCount) (countDraw (interleave s)) := rfl
    rw [hnone] at hrun
    exact ⟨_, _, _, hrun, nofun⟩
  | cons v rest => exact ⟨_, _, _, run_drawTcvrKnown hd, fun k' h => Option.some.inj h⟩

section Known

variable {d : Draws} {n : Nat}

theorem restored_probed (h : Restored A s x) : Restored A s (probed d n x) :=
  have hkept : ∀ {A : Writes} {R : State → State → Prop}, Closed (CalmStep A) R → R x (probed d n x) :=
    fun hR => hR.trans (interleave_kept hR x) (hR.step (.draws d n))
  have hbook : book (interleave x) = book x := (calmFrame_of_hostSide (interleave_hostSide x)).book
  h.next (a := x.adapter) ((hostSide_fault (interleave_hostSide x)).trans h.fault) ((aside_interleave x).trans h.side)
    (hkept geometry_closed.host_of_op.calm_of_host h.geometry) hbook fun a => hkept (zeroed_closed rxWrites a).calm_of_host

/-- An unknown transceiver leaves the posted ring as it is (R336). -/
theorem failed_unknown (hbase : s.rx.base = some base) (h : Restored (asideReleased s) s x) (hposted : SlotsPosted s.params x)
    (hgiven : SlotsGiven s.params base x) :
    Failed base true s (failedAt .linkTypeUnknown (probed d n x)) where
  restored := (restored_probed h).failedAt _
  rx := by
    have hbook : book (interleave x) = book x := (calmFrame_of_hostSide (interleave_hostSide x)).book
    refine ⟨(SlotsPosted.of_book (x := x) (a := x.adapter) hposted hbook).of_book (failedAt_book _ _), fun i hi => ?_⟩
    have hquiet := ((h.fillable rfl hbase rfl).writable.quiet hi .flags)
    have hquiet' : Quiet (probed d n x) (descWordAddr s.params.desc base i .flags) :=
      hquiet.interleave.1.mono rfl (fun r => by cases r <;> rfl) (fun r => by cases r <;> rfl) hquiet.interleave.1.pending
    exact hquiet'.interleave.2.trans (hquiet.interleave.2.trans (hgiven i hi))

/-- With the transceiver known, the restart returns (R339 to R342). -/
theorem succeeded_known (hbase : s.rx.base = some base) (h : Restored (asideReleased s) s x) (hsched : s.sched = [] → x.sched = [])
    (hposted : SlotsPosted s.params x) (hgiven : SlotsGiven s.params base x) :
    ∃ t, resetStart (probed d n x) = .ok () t ∧ Succeeded base s t := by
  have hy := restored_probed (d := d) (n := n) h
  have hpar : (asideReleased s).params = s.params := rfl
  have hp : paramsValid (asideReleased s).params = true := h.params ▸ h.geometry.valid
  have hstart : Undisturbed x x := ⟨h.geometry.pending, fun hx => ⟨hx, fun _ _ => rfl⟩⟩
  have hstage : Stage x (asideReleased s) (probed d n x) :=
    ⟨hstart.interleave.same rfl rfl rfl rfl, hy.side⟩
  obtain ⟨⟨⟩, t, ht, w, l, hw, hl, hen⟩ := resetStart_enabled hp rfl rfl _ hstage
  have hkept : ∀ {A : Writes} {R : State → State → Prop}, Closed (HostStep A) R →
      R (probed d n x) t ∧ t.fault = none := fun {A R} hR =>
    Ends.of_ok (Q := fun _ => R (probed d n x)) (resetStart_follows hR _ hy.fault) ht
  obtain ⟨hgeometry, hfault⟩ := hkept geometry_closed.host_of_op
  obtain ⟨hbook, -⟩ := Ends.of_ok (resetStart_book _ hy.fault rfl) ht
  have hbookx : book t = { book x with adapter := .running } :=
    hbook.trans (congrArg (fun l : Ledger => { l with adapter := .running }) (calmFrame_of_hostSide (interleave_hostSide x)).book)
  refine ⟨t, ht, ⟨w, l, hw, hl, hy.next hfault hen.aside (hgeometry hy.geometry) hbook fun a => (hkept (zeroed_closed rxWrites a)).1⟩,
    hposted.of_book hbookx, hen.settled, hen.seen, fun hs => ?_⟩
  obtain ⟨htsched, hview⟩ := hen.calm (hsched hs)
  refine ⟨htsched, fun i hi => (hview _ ?_).trans (hgiven i hi)⟩
  exact ((h.fillable hpar hbase rfl).writable.quiet hi .flags).word

/-- A reset whose refill is complete succeeds or fails as the transceiver is known or not. -/
theorem resetFinish_filled (hbase : s.rx.base = some base) (h : RefillEnded s x) (hposted : SlotsPosted s.params x)
    (hgiven : SlotsGiven s.params base x) : ∃ k t, resetFinish true x = .ok (if k then .ok else .linkTypeUnknown) t ∧
      (if k then Succeeded base s t else Failed base true s t) ∧ ∀ k', s.draws.tcvrKnown.head? = some k' → k = k' := by
  obtain ⟨k, d, n, hdraw, hk⟩ := drawTcvrKnown_returns x
  rw [h.known] at hk
  cases k with
  | true =>
    obtain ⟨t, ht, hsucc⟩ := succeeded_known (d := d) (n := n) hbase h.toRestored h.sched hposted hgiven
    refine ⟨true, t, ?_, hsucc, hk⟩
    rw [resetFinish_known, run_bind, hdraw]
    simp only [if_true, run_bind, ht, run_pure]
  | false =>
    refine ⟨false, failedAt .linkTypeUnknown (probed d n x), ?_, failed_unknown hbase h.toRestored hposted hgiven, hk⟩
    rw [resetFinish_known, run_bind, hdraw]
    rfl

end Known

/-- A reset whose refill has failed empties the receive ring again (R335). -/
theorem resetFinish_unfilled (hbase : s.rx.base = some base) (h : RefillEnded s x) :
    ∃ t, resetFinish false x = .ok .resourceExhausted t ∧ Failed base false s t := by
  have hfill := h.toRestored.fillable (p := s.params) (base := base) rfl hbase rfl
  have hbooked : Booked x := (h.sound.imp False.elim).toFair
  obtain ⟨v, hv, hrx⟩ := ringReset_emptied (r := .rx) (base := base) h.fault hbooked h.geometry hfill.base hfill.off
  obtain ⟨hsound, hempty, -⟩ := (Ends.of_ok (ringResetRx_book x h.fault ⟨h.sound, h.empty⟩) hv).1
  obtain ⟨-, -, hrxempty⟩ := ringReset_empties h.fault h.sound hv
  obtain ⟨hcursor, hshadow, hheld⟩ := hrxempty rfl
  obtain ⟨-, -, hpkts⟩ := hrx.beyond.rx hcursor hshadow
  have hzero : ∀ a, Zeroed rxWrites a x → Zeroed rxWrites a v := fun a =>
    (Ends.of_ok (ringReset_follows (zeroed_closed rxWrites a).ring_of_host (fun _ _ => rfl) x h.fault) hv).1
  have hrest : Restored (asideReleased s) s v :=
    { fault := hrx.fault
      side := (aside_of_sameBeyond hrx.beyond).trans h.side
      geometry := hrx.geometry
      sound := hsound
      empty := hempty
      cursor := hcursor
      pkts := hpkts.trans h.pkts
      held := fun b => by
        have hnone : ¬ RingBuffer v b := by simp [RingBuffer, hshadow]
        rw [hheld b, h.held b, or_iff_left hnone]
        exact ⟨fun ⟨hor, hn⟩ => hor.resolve_right hn, fun hb => ⟨.inl hb, fun hr => h.fresh b hr hb⟩⟩
      txZero := fun b i w hb hi => hzero _ (h.txZero b i w hb hi) }
  refine ⟨failedAt .rxRefillFailed v, ?_, hrest.failedAt _,
    (congrArg Ledger.rxShadow (failedAt_book .rxRefillFailed v)).trans hshadow,
    fun i w hi => failedAt_kept (zeroed_closed noWrite _) hrx.fault _ ?_⟩
  · rw [resetFinish_exhausted, run_bind, hv]
    rfl
  · refine ⟨hrx.geometry, ((hfill.writable.quiet hi w).word), fun _ _ _ _ _ => False.elim, ?_⟩
    have hview := hrx.neutral base i w hfill.base (by rw [hfill.params]; exact hi)
    rw [hfill.params] at hview
    exact hview

end Endings

end Sys2Proof.DeviceReset
end

section
/-! PROOFS. A Device Reset/Init ends in a column of R346, whatever the environment does. -/

namespace Sys2Proof.DeviceReset

open Sys2Proof.Machine Sys2Proof.Laws Sys2Proof.Invariants Sys2Proof.Rings Ledger

section Ended

variable {s t u A : State} {base : Nat} {o : OpOutcome}

/-! ### The columns of R346 -/

/-- What a reset keeps of the host's side. -/
structure HostKept (s t : State) : Prop where
  params : t.params = s.params
  txBase : t.tx.base = s.tx.base
  rxBase : t.rx.base = s.rx.base
  counters : t.counters = s.counters
  autoneg : t.link.autoneg = s.link.autoneg
  speedReq : t.link.speedReq = s.link.speedReq
  duplexReq : t.link.duplexReq = s.link.duplexReq
  committed : t.link.committed = s.link.committed
  down : t.link.up = false
  nextPkt : t.nextPkt = s.nextPkt
  acquired : t.irqAcquired = s.irqAcquired

theorem HostKept.of_aside (h : HostKept s A) (ht : aside t = A) : HostKept s t := by
  subst ht
  exact ⟨h.params, h.txBase, h.rxBase, h.counters, h.autoneg, h.speedReq, h.duplexReq, h.committed, h.down, h.nextPkt, h.acquired⟩

theorem hostKept_failed (s : State) : HostKept s (asideFailed s) := ⟨rfl, rfl, rfl, rfl, rfl, rfl, rfl, rfl, rfl, rfl, rfl⟩

theorem hostKept_started {l : LinkState} (w : Word32) (hl : LinkBegun (asideReleased s).link l) :
    HostKept s (linkSet l true (switchedOn (macSet w (asideReleased s)))) := by
  cases hl <;> exact ⟨rfl, rfl, rfl, rfl, rfl, rfl, rfl, rfl, rfl, rfl, rfl⟩

/-- The words outside the rings read as before. -/
def OutsideKept (s t : State) : Prop := ∀ a, a % 4 = 0 → OutsideRings s a → hostView t a = hostView s a

theorem HostKept.resetKeeps (h : HostKept s t) (hout : OutsideKept s t) : ResetKeeps s t :=
  ⟨h.params, h.txBase, h.rxBase, h.counters, h.autoneg, h.speedReq, h.duplexReq, h.committed, h.down, h.nextPkt, hout⟩

theorem Restored.ringsRestarted (h : Restored A s t) (hk : HostKept s t) : RingsRestarted t := by
  obtain ⟨hnodup, hmem⟩ := (perm_keys_iff h.sound.mapsWf _).mp h.sound.handles
  refine ⟨h.empty.head, h.empty.tail, h.empty.shadow, h.cursor, h.pkts, fun b i w hb hi => ?_, hnodup, hmem⟩
  rw [hk.params] at hi ⊢
  exact (h.txZero b i w (hk.txBase.symm.trans hb) hi).view

theorem SlotsPosted.rxPosted (h : SlotsPosted s.params t) (hp : t.params = s.params) : RxPosted t := fun i hi => h i (hp ▸ hi)

theorem SlotsGiven.rxGiven (h : SlotsGiven s.params base t) (hp : t.params = s.params) (hbase : t.rx.base = some base) :
    RxGiven t := fun b i hb hi => by
  obtain rfl : base = b := Option.some.inj (hbase.symm.trans hb)
  rw [hp] at hi ⊢
  exact h i hi

theorem permMode_modeIndex (m : Mode) : permMode (modeIndex m) = m := by
  obtain ⟨speed, duplex⟩ := m
  cases speed <;> cases duplex <;> rfl

/-- Where the link stands after a reset (R223). -/
theorem LinkBegun.stands {l l' : LinkState} (h : LinkBegun l l') : l'.tick = 0 ∧
    (l.autoneg = true ∧ l'.state = .arbitrationWait ∧ l'.perm = l.perm ∨
      l.autoneg = true ∧ l'.state = .forcedTryWait ∧ l'.perm = 0 ∨
      l.autoneg = false ∧ l'.state = .forcedTryWait ∧ permMode l'.perm = ⟨l.speedReq, l.duplexReq⟩) := by
  cases h with
  | negotiating h => exact ⟨rfl, .inl ⟨h, rfl, rfl⟩⟩
  | unacknowledged h => exact ⟨rfl, .inr (.inl ⟨h, rfl, rfl⟩)⟩
  | requested h => exact ⟨rfl, .inr (.inr ⟨h, rfl, permMode_modeIndex _⟩)⟩

theorem Succeeded.resetSucceeded (hbase : s.rx.base = some base) (h : Succeeded base s t) (hout : OutsideKept s t) :
    ResetSucceeded s t := by
  obtain ⟨w, l, hw, hl, hr⟩ := h.restored
  have hk := (hostKept_started w hl).of_aside hr.side
  have hlink : t.link = l := congrArg (·.link) hr.side
  have hmac : t.dev.macTxcfg = w := congrArg (·.dev.macTxcfg) hr.side
  obtain ⟨htick, hstands⟩ := hl.stands
  refine ⟨hk.resetKeeps hout, hr.ringsRestarted hk, h.posted.rxPosted hk.params,
    fun hs => (h.given hs).2.rxGiven hk.params (hk.rxBase.trans hbase), congrArg (·.adapter) hr.side, hk.acquired,
    congrArg (·.tx.stopped) hr.side, hlink ▸ htick, congrArg (·.timerArmed) hr.side, hlink ▸ hstands,
    congrArg (·.dev.intArmed) hr.side, congrArg (·.dev.txDmaOn) hr.side, congrArg (·.dev.rxDmaOn) hr.side, hmac ▸ hw, h.seen,
    h.settled, hr.held⟩

theorem Failed.resetFailed {posted : Bool} (hbase : s.rx.base = some base) (h : Failed base posted s t) (hout : OutsideKept s t) :
    ResetFailed posted s t := by
  have hr := h.restored
  have hk := (hostKept_failed s).of_aside hr.side
  refine ⟨hk.resetKeeps hout, hr.ringsRestarted hk, congrArg (·.adapter) hr.side, hk.acquired, congrArg (·.tx.stopped) hr.side,
    congrArg (·.link.state) hr.side, congrArg (·.link.tick) hr.side, congrArg (·.link.perm) hr.side,
    congrArg (·.timerArmed) hr.side, congrArg (·.dev.intArmed) hr.side, congrArg (·.dev.txDmaOn) hr.side,
    congrArg (·.dev.rxDmaOn) hr.side, congrArg (·.dev.macTxcfg) hr.side, hr.held, ?_⟩
  have hrx := h.rx
  cases posted with
  | true => exact ⟨hrx.1.rxPosted hk.params, hrx.2.rxGiven hk.params (hk.rxBase.trans hbase)⟩
  | false =>
    obtain ⟨hshadow, hzero⟩ := hrx
    refine ⟨hshadow, liveMaps_nil hr.sound hr.empty hshadow, fun b i w hb hi => ?_⟩
    obtain rfl : base = b := Option.some.inj ((hk.rxBase.trans hbase).symm.trans hb)
    rw [hk.params] at hi ⊢
    exact (hzero i w hi).view

theorem Finished.resetEnded (hbase : s.rx.base = some base) (h : Finished base o s t) (hout : OutsideKept s t)
    (hdraws : ∀ o', DrawsDecide s o' → o = o') : ResetEnded o s t :=
  ⟨h.imp (.imp_right fun h => h.resetSucceeded hbase hout)
    (.imp (.imp_right fun h => h.resetFailed hbase hout) (.imp_right fun h => h.resetFailed hbase hout)), hdraws⟩

/-! ### The run of a Device Reset/Init (R330) -/

/-- A Device Reset/Init returns, in the ending that the supplied draws decide. -/
theorem resetInit_finishes (ctx : Context) (hs : s.fault = none) (h : RingsReady s) (hbase : s.rx.base = some base) :
    ∃ o t, resetInit ctx s = .ok o t ∧ Finished base o s t ∧ ∀ o', DrawsDecide s o' → o = o' := by
  obtain ⟨u, hu, hrel⟩ := resetRelease_releases hs h
  obtain ⟨r, x, hx, hended, hfull, hanswer⟩ := refill_ends hrel hbase (allocMode ctx)
  have hrun : ∀ {o t}, resetFinish r x = .ok o t → resetInit ctx s = .ok o t := fun {o t} ht => by
    simp only [resetInit_eq, run_bind, hu, run_getState, hx, ht]
  cases r with
  | false =>
    obtain ⟨t, ht, hfailed⟩ := resetFinish_unfilled hbase hended
    refine ⟨_, t, hrun ht, .inr (.inl ⟨rfl, hfailed⟩), fun o' ⟨bufs, maps, as, ms, ha, hm, hg, hans⟩ => ?_⟩
    rcases hans with ⟨hb, hm', -⟩ | ⟨rfl, -⟩
    · cases hanswer bufs maps as ms true ha hm hg ⟨hb, hm'⟩
    · rfl
  | true =>
    obtain ⟨hposted, hgiven⟩ := hfull rfl
    obtain ⟨k, t, ht, hend, hk⟩ := resetFinish_filled hbase hended hposted hgiven
    refine ⟨_, t, hrun ht, ?_, fun o' ⟨bufs, maps, as, ms, ha, hm, hg, hans⟩ => ?_⟩
    · cases k with
      | true => exact .inl ⟨rfl, hend⟩
      | false => exact .inr (.inr ⟨rfl, hend⟩)
    · rcases hans with ⟨-, -, ⟨rfl, hknown⟩ | ⟨rfl, hknown⟩⟩ | ⟨-, hfail⟩
      · rw [hk true hknown]
        rfl
      · rw [hk false hknown]
        rfl
      · cases hanswer bufs maps as ms false ha hm hg hfail

end Ended

end Sys2Proof.DeviceReset
end

section
/-! PROOFS. The interrupt with a fatal bit: Device Reset/Init as the last thing the handler does (R213, R344). -/

namespace Sys2Proof.DeviceReset

open Sys2Proof.Machine Sys2Proof.Laws Sys2Proof.Invariants Sys2Proof.Rings Ledger

section Return

variable {s t u A : State} {base : Nat} {o : OpOutcome}

/-! ### The wait for the transmit ring (R55 item 3) -/

/-- The state in which an operation that has reset the rings returns. -/
def awaited (s : State) : State := freeSlotsShown (interleave s)

theorem awaited_carries {R : State → State → Prop} (hR : Carried R) (ha : ∀ a s t, agentStep a s = some t → R s t)
    (hs : ∀ s l, R s { s with sched := l }) (s : State) : R s (awaited s) :=
  hR.trans (interleave_carries hR ha hs s) (freeSlotsShown_carries hR (fun a s t h => ha (.envVisible a) s t h) _)

theorem awaited_hostSide (s : State) : hostSide (awaited s) = hostSide s :=
  (freeSlotsShown_hostSide _).trans (interleave_hostSide s)

theorem awaited_book (s : State) : book (awaited s) = book s := (calmFrame_of_hostSide (awaited_hostSide s)).book

theorem awaited_kept {W : Writes} {R : State → State → Prop} (hR : Closed (HostStep W) R) (hs : s.fault = none) : R s (awaited s) :=
  (Ends.of_ok (Q := fun _ => R s) (awaitFreeSlots_follows hR.calm_of_host s hs) (run_awaitFreeSlots s)).1

theorem awaited_settled (h : s.wb = []) : (awaited s).wb = [] := by
  have hsub : (awaited s).wb.Sublist s.wb :=
    awaited_carries (R := fun s t => t.wb.Sublist s.wb) ⟨fun _ => List.Sublist.refl _, fun h h' => h'.trans h⟩
      (fun _ _ _ h => agentStep_wb h) (fun _ _ => List.Sublist.refl _) s
  exact List.sublist_nil.mp (h ▸ hsub)

theorem awaited_seen (h : SeenEnabled s) : SeenEnabled (awaited s) :=
  awaited_carries (R := fun s t => SeenEnabled s → SeenEnabled t) ⟨fun _ h => h, fun h h' x => h' (h x)⟩
    (fun _ _ _ => seen_agentStep) (fun _ _ h => h) s h

theorem freeSlotsShown_sched (s : State) : (freeSlotsShown s).sched = s.sched := by
  refine freeSlotsShown_carries (R := fun s t => t.sched = s.sched) ⟨fun _ => rfl, fun h h' => h'.trans h⟩ (fun a s t h => ?_) s
  simp only [stepVisible] at h
  split at h
  · cases h
  · split at h <;> cases h
    rfl

theorem awaited_calm (hw : ∀ w ∈ s.wb, w.addr % 4 = 0) (h : s.sched = []) :
    (awaited s).sched = [] ∧ ∀ a, a % 4 = 0 → hostView (awaited s) a = hostView s a := by
  rw [awaited, interleave_nil s h, freeSlotsShown_sched]
  exact ⟨h, fun a ha => hostView_freeSlotsShown hw ha⟩

theorem awaited_quiet {a : Nat} (h : Quiet s a) : hostView (awaited s) a = hostView s a :=
  (hostView_freeSlotsShown h.interleave.1.pending h.word).trans h.interleave.2

theorem Restored.awaited (h : Restored A s t) : Restored A s (awaited t) :=
  h.next (a := t.adapter) ((hostSide_fault (awaited_hostSide t)).trans h.fault) ((aside_of_hostSide (awaited_hostSide t)).trans h.side)
    (awaited_kept geometry_closed.host_of_op h.fault h.geometry) (awaited_book t) fun a => awaited_kept (zeroed_closed rxWrites a) h.fault

theorem SlotsPosted.awaited {p : Params} (h : SlotsPosted p t) : SlotsPosted p (awaited t) := h.of_book (a := t.adapter) (awaited_book t)

theorem Succeeded.awaited (hbase : s.rx.base = some base) (h : Succeeded base s t) : Succeeded base s (awaited t) := by
  obtain ⟨w, l, hw, hl, hr⟩ := h.restored
  have hk := (hostKept_started w hl).of_aside hr.side
  have hmac : t.dev.macTxcfg = w := congrArg (·.dev.macTxcfg) hr.side
  have hvalid : paramsValid (asideReleased s).params = true := hk.params ▸ hr.geometry.valid
  have hen : macTxEnable t.params t.dev.macTxcfg = true := by
    rw [hmac, hk.params]
    exact hw.enabled hvalid
  refine ⟨⟨w, l, hw, hl, hr.awaited⟩, h.posted.awaited, awaited_settled h.settled, (awaited_seen ⟨hen, h.seen⟩).2, fun hs => ?_⟩
  obtain ⟨hsched, hgiven⟩ := h.given hs
  obtain ⟨hsched', hview⟩ := awaited_calm hr.geometry.pending hsched
  refine ⟨hsched', fun i hi => (hview _ ?_).trans (hgiven i hi)⟩
  have haligned := descWordAddr_aligned hr.geometry.desc
    (LaidOut.aligned hr.geometry.laidOut (r := .rx) (hk.rxBase.trans hbase)) i .flags
  rwa [hk.params] at haligned

theorem Failed.awaited {posted : Bool} (hbase : s.rx.base = some base) (h : Failed base posted s t) : Failed base posted s (awaited t) where
  restored := h.restored.awaited
  rx := by
    have hrx := h.rx
    have hfill := h.restored.fillable (p := s.params) (base := base) rfl hbase rfl
    cases posted with
    | true => exact ⟨hrx.1.awaited, fun i hi => (awaited_quiet (hfill.writable.quiet hi .flags)).trans (hrx.2 i hi)⟩
    | false =>
      exact ⟨(congrArg Ledger.rxShadow (awaited_book t)).trans hrx.1, fun i w hi =>
        awaited_kept (zeroed_closed noWrite _) h.restored.fault (hrx.2 i w hi)⟩

theorem Finished.awaited (hbase : s.rx.base = some base) (h : Finished base o s t) : Finished base o s (awaited t) :=
  h.imp (.imp_right (Succeeded.awaited hbase)) (.imp (.imp_right (Failed.awaited hbase)) (.imp_right (Failed.awaited hbase)))

theorem Finished.fault (h : Finished base o s t) : t.fault = none := by
  rcases h with ⟨-, h⟩ | ⟨-, h⟩ | ⟨-, h⟩
  · obtain ⟨w, l, -, -, hr⟩ := h.restored
    exact hr.fault
  · exact h.restored.fault
  · exact h.restored.fault

/-! ### An operation that begins with something else -/

/-- The host's side without the trace and what entry and return set. -/
def hostCore (s : State) : State := { hostSide s with trace := [], lock := none, outcome := none }

/-- An operation that began in `s` has come to `u`, nothing of the host's side changed. -/
structure Begun (s u : State) : Prop where
  same : hostCore u = hostCore s
  sched : s.sched = [] → u.sched = []

theorem Begun.asideReleased (h : Begun s u) : asideReleased u = asideReleased s :=
  show DeviceReset.asideReleased (hostCore u) = DeviceReset.asideReleased (hostCore s) from congrArg DeviceReset.asideReleased h.same

theorem Begun.restored (h : Begun s u) (hr : Restored A u t) : Restored A s t :=
  { hr with
    held := fun b => by
      have hbufs : u.liveBuffers = s.liveBuffers := congrArg (·.liveBuffers) h.same
      have hrx : u.rx = s.rx := congrArg (·.rx) h.same
      have hb := hr.held b
      rwa [RingBuffer, hbufs, hrx] at hb
    txZero := fun b i w hb hi => by
      have htx : u.tx = s.tx := congrArg (·.tx) h.same
      have hp : u.params = s.params := congrArg (·.params) h.same
      have hz := hr.txZero b i w
      rw [htx, hp] at hz
      exact hz hb hi }

theorem Begun.finished (h : Begun s u) (hf : Finished base o u t) : Finished base o s t := by
  have hp : u.params = s.params := congrArg (·.params) h.same
  have hfailed : ∀ {posted}, Failed base posted u t → Failed base posted s t := fun {posted} hf =>
    ⟨by
      have hr := h.restored hf.restored
      rwa [asideFailed, h.asideReleased] at hr,
    hp ▸ hf.rx⟩
  refine hf.imp (.imp_right fun hf => ?_) (.imp (.imp_right hfailed) (.imp_right hfailed))
  obtain ⟨w, l, hw, hl, hr⟩ := hf.restored
  have hr' := h.restored hr
  rw [h.asideReleased] at hw hl hr'
  refine ⟨⟨w, l, hw, hl, hr'⟩, hp ▸ hf.posted, hf.settled, hf.seen, fun hs => ?_⟩
  obtain ⟨hsched, hgiven⟩ := hf.given (h.sched hs)
  exact ⟨hsched, hp ▸ hgiven⟩

theorem Begun.drawsDecide (h : Begun s u) (hd : DrawsDecide s o) : DrawsDecide u o := by
  show DrawsDecide (hostCore u) o
  rw [h.same]
  exact hd

theorem Begun.ringsReady (h : Begun s u) (hg : Geometry u) (hc : Canonical u) (hr : RingsReady s) : RingsReady u := by
  obtain ⟨-, htx, hrx, -, -, -, hsh⟩ := hr
  have htx' : u.tx = s.tx := congrArg (·.tx) h.same
  have hrx' : u.rx = s.rx := congrArg (·.rx) h.same
  refine ⟨hg.valid, htx'.symm ▸ htx, hrx'.symm ▸ hrx, hg.laidOut, hg.ordered, hc, ?_⟩
  show ShadowsConsistent (hostCore u)
  rw [h.same]
  exact hsh

/-- Device Reset/Init as the last thing an operation does returns, in the ending that the supplied draws decide (R344). -/
theorem resetAndReturn_finishes (ctx : Context) (hs : s.fault = none) (h : RingsReady s) (hbase : s.rx.base = some base) :
    ∃ o t, resetAndReturn ctx s = .ok () t ∧ Finished base o s t ∧ ∀ o', DrawsDecide s o' → o = o' := by
  obtain ⟨o, t, ht, hend, hdraws⟩ := resetInit_finishes ctx hs h hbase
  exact ⟨o, awaited t, by rw [resetAndReturn, run_bind, ht]; exact run_awaitFreeSlots t, hend.awaited hbase, hdraws⟩

end Return

end Sys2Proof.DeviceReset

namespace Sys2Proof.Completion

open Sys2Proof.Machine Sys2Proof.Laws Sys2Proof.Invariants Sys2Proof.Rings Sys2Proof.DeviceReset

section Fatal

variable {s : State}

/-! ### The handler up to the reset -/

/-- The state in which the handler begins the reset. -/
def fatalLogged (s : State) : State := emitted (.log .fatalError) (interleave (statusRead (interleave (enter .interrupt s))))

theorem hostCore_interleave (s : State) : hostCore (interleave s) = hostCore s :=
  show hostCore (hostSide (interleave s)) = hostCore (hostSide s) from congrArg hostCore (interleave_hostSide s)

theorem fatalLogged_begun (s : State) : Begun s (fatalLogged s) where
  same :=
    calc hostCore (fatalLogged s) = hostCore (interleave (statusRead (interleave (enter .interrupt s)))) := rfl
      _ = hostCore (interleave (enter .interrupt s)) := hostCore_interleave _
      _ = hostCore s := hostCore_interleave _
  sched h := by
    have hentered : (interleave (enter .interrupt s)).sched = [] := by rw [interleave_nil (enter .interrupt s) h]; exact h
    have hread : (statusRead (interleave (enter .interrupt s))).sched = [] := hentered
    show (interleave (statusRead (interleave (enter .interrupt s)))).sched = []
    rw [interleave_nil _ hread]
    exact hread

/-- The handler reads the status, which acknowledges it, and logs the error (R211, R213). -/
theorem fatalLogged_kept {W : Writes} {R : State → State → Prop} (hR : Closed (HostStep W) R) (hs : s.fault = none) :
    R (enter .interrupt s) (fatalLogged s) ∧ (fatalLogged s).fault = none :=
  have hcalm := hR.calm_of_host
  Ends.of_ok (Q := fun _ => R (enter .interrupt s))
    (Follows.bind hcalm (mmioReadStatus_follows hcalm) (fun _ => emit_follows hcalm (.log .fatalError)) (enter .interrupt s) hs) rfl

theorem and_eq_zero_of_or_and {x y m : Word32} (h : (x ||| y) &&& m = 0) : x &&& m = 0 :=
  calc x &&& m = x &&& ((x ||| y) &&& m) := by
        ext i hi
        simp only [BitVec.getElem_and, BitVec.getElem_or]
        cases x[i] <;> simp
    _ = 0 := by rw [h]; exact BitVec.and_zero

/-- Status bits once set stay until they are read (R39, R284). -/
theorem isFatal_agentStep {a : AgentStep} {t : State} (ht : agentStep a s = some t) (h : isFatal s.params.status s.dev.status = true) :
    isFatal t.params.status t.dev.status = true := by
  rw [params_of_hostSide (agentStep_hostSide ht)]
  rcases agentStep_dev ht with hdev | ⟨bits, hdev⟩ | ⟨-, hdev⟩ <;> rw [hdev]
  · exact h
  · rw [isFatal, bne_iff_ne] at h ⊢
    exact fun hzero => h (and_eq_zero_of_or_and hzero)
  · exact h

theorem isFatal_interleave (h : isFatal s.params.status s.dev.status = true) :
    isFatal s.params.status (interleave s).dev.status = true := by
  have hkept := interleave_carries (R := fun s t => isFatal s.params.status s.dev.status = true →
    isFatal t.params.status t.dev.status = true) ⟨fun _ h => h, fun h h' x => h' (h x)⟩
    (fun _ _ _ ht h => isFatal_agentStep ht h) (fun _ _ h => h) s h
  rwa [params_of_hostSide (interleave_hostSide s)] at hkept

theorem irqHandler_resets (ha : s.adapter = .running) (hf : isFatal s.params.status s.dev.status = true) {t : State}
    (ht : resetAndReturn .interrupt (fatalLogged s) = .ok () t) : irqHandler (enter .interrupt s) = .ok .handled t := by
  rw [irqHandler_fatal (s := enter .interrupt s) ha (isFatal_interleave (s := enter .interrupt s) hf), run_bind, run_emit]
  show (do resetAndReturn .interrupt; pure .handled : M OpOutcome) (fatalLogged s) = _
  rw [run_bind, ht]
  rfl

/-! ### What is left in the trace -/

theorem hostTrace_mono {s t : State} (h : s.trace <+: t.trace) : hostTrace s <+: hostTrace t := h.filterMap _

theorem hostTrace_interleave (s : State) : hostTrace (interleave s) = hostTrace s := by
  simp only [hostSide_fields (interleave_hostSide s)]

theorem hostTrace_fatalLogged (s : State) : hostTrace (fatalLogged s) = hostTrace s ++ [.mmioR .status 0, .log .fatalError] := by
  have hentered : hostTrace (enter .interrupt s) = hostTrace s := rfl
  have hread : ∀ u, hostTrace (statusRead u) = hostTrace u ++ [.mmioR .status 0] := fun u => hostTrace_emitted _ _
  rw [fatalLogged, hostTrace_emitted, hostTrace_interleave, hread, hostTrace_interleave, hentered, List.append_assoc]
  rfl

/-- The status read stands in the trace with its value. -/
theorem statusRead_mem (s : State) : Event.mmioR .status (interleave (enter .interrupt s)).dev.status ∈ (fatalLogged s).trace := by
  have hkept := config_closed.host_of_op.calm_of_host
  have hread : Event.mmioR .status (interleave (enter .interrupt s)).dev.status ∈ (statusRead (interleave (enter .interrupt s))).trace :=
    List.mem_append_right _ List.mem_cons_self
  exact List.mem_append_left _ ((interleave_kept hkept _).trace.subset hread)

end Fatal

/-- Settles O42: with a fatal bit the handler runs the reset and returns, and the reset ends as R346 says. -/
theorem irqFatalDominates : Obligations.IrqFatalDominates := by
  intro s hr hready hacq hrun hf
  have hfault : s.fault = none := hr.1.1
  obtain ⟨base, hbase⟩ := Option.isSome_iff_exists.mp hready.2.2.1
  have hbegun := fatalLogged_begun s
  obtain ⟨hp, -, -, hl, hw, hcanon, hsh⟩ := id hready
  have hgeometry : Geometry (enter .interrupt s) := ⟨hp, hsh.1, hl, hw⟩
  obtain ⟨hglogged, hflogged⟩ := fatalLogged_kept geometry_closed.host_of_op hfault
  have hclogged := (fatalLogged_kept canonical_closed.host_of_op hfault).1
  have hlogged := hbegun.ringsReady (hglogged hgeometry) (hclogged hcanon) hready
  obtain ⟨o, t, ht, hend, hdraws⟩ := resetAndReturn_finishes .interrupt hflogged hlogged
    ((congrArg (·.rx.base) hbegun.same).trans hbase)
  have hrest : ∀ {R : State → State → Prop}, Closed (HostStep anyWrite) R → R (fatalLogged s) t := fun {R} hR =>
    (Ends.of_ok (Q := fun _ => R (fatalLogged s)) (resetAndReturn_follows hR _ _ hflogged) ht).1
  have hout : OutsideKept s t := fun a ha hout => by
    obtain ⟨hapart, hview⟩ := (fatalLogged_kept (apart_closed a) hfault).1 ⟨hgeometry, ha, hout⟩
    exact (hrest (apart_closed a) hapart).2.trans hview
  have htrace := (hrest config_closed.host_of_op).trace
  have hended : ResetEnded o s t :=
    (hbegun.finished hend).resetEnded hbase hout fun o' h => hdraws o' (hbegun.drawsDecide h)
  refine ⟨leave .handled t, o, (interleave (enter .interrupt s)).dev.status, ?_, hend.fault, rfl, rfl, hended,
    isFatal_interleave (s := enter .interrupt s) hf, ?_, htrace.subset (statusRead_mem s)⟩
  · rw [exec_irq hr hacq, irqHandler_resets hrun hf ht]
    rfl
  · rw [← hostTrace_fatalLogged]
    exact hostTrace_mono htrace

end Sys2Proof.Completion
end

section
/-! PROOFS. Exact runs of the link machine: a program that asks the environment only for supplied draws ends in one known state, but for
what agent steps do meanwhile (R14, R74). Forcing a mode and starting negotiation (R223 to R225). -/

namespace Sys2Proof.Transmit

open Sys2Proof.Machine Sys2Proof.Laws

section Tracks

variable {t u : State}

theorem Tracks.link (h : Tracks t u) : t.link = u.link := by simp only [hostSide_fields h.side]

theorem Tracks.adapter (h : Tracks t u) : t.adapter = u.adapter := by simp only [hostSide_fields h.side]

theorem Tracks.mgmtRead (h : Tracks t u) : t.draws.mgmtRead = u.draws.mgmtRead := by
  obtain ⟨-, -, -, -, hdraws, -⟩ := Alike.draws h.side
  exact hdraws

end Tracks

end Sys2Proof.Transmit

namespace Sys2Proof.Link

open Sys2Proof.Machine Sys2Proof.Laws Sys2Proof.Transmit Sys2Proof.DeviceReset

/-! ### Link programs and the environment -/

/-- The state `t` is `u` but for what agent steps have done while a link program ran. No such program touches the buffers' bytes or
the pending writes, and agent steps leave the first alone and take only from the second. -/
structure Alongside (t u : State) : Prop extends Tracks t u where
  bufMem : t.bufMem = u.bufMem
  pending : (∀ w ∈ u.wb, w.addr % 4 = 0) → ∀ w ∈ t.wb, w.addr % 4 = 0

/-- An update of the host's side that touches neither. -/
structure LinkUpdate (f : State → State) : Prop extends HostUpdate f where
  bufMem : ∀ s, (f s).bufMem = s.bufMem
  wb : ∀ s, (f s).wb = s.wb

theorem LinkUpdate.comp {f g : State → State} (hf : LinkUpdate f) (hg : LinkUpdate g) : LinkUpdate fun s => f (g s) :=
  ⟨hf.toHostUpdate.comp hg.toHostUpdate, fun s => (hf.bufMem _).trans (hg.bufMem s), fun s => (hf.wb _).trans (hg.wb s)⟩

theorem linkUpdate_emitted (e : Event) : LinkUpdate (emitted e) := ⟨hostUpdate_emitted e, fun _ => rfl, fun _ => rfl⟩

section Alongside

variable {t u : State}

theorem Alongside.refl (s : State) : Alongside s s := ⟨Tracks.refl s, rfl, id⟩

theorem Alongside.interleave (h : Alongside t u) : Alongside (interleave t) u :=
  ⟨h.toTracks.interleave, (Rings.interleave_bufMem t).trans h.bufMem, fun hu => interleave_aligned (h.pending hu)⟩

theorem Alongside.update {f : State → State} (hf : LinkUpdate f) (h : Alongside t u) : Alongside (f t) (f u) :=
  ⟨h.toTracks.update hf.toHostUpdate, ((hf.bufMem t).trans h.bufMem).trans (hf.bufMem u).symm, by
    rw [hf.wb, hf.wb]
    exact h.pending⟩

/-- A micro-step: the environment acts, and then the host. -/
theorem Alongside.step {f : State → State} (hf : LinkUpdate f) (h : Alongside t u) : Alongside (f (Machine.interleave t)) (f u) :=
  h.interleave.update hf

end Alongside

/-! ### Runs to a known state -/

/-- Begun in `u`, or where agent steps have taken `u`, the program answers `a` and ends in `u'`, or where agent steps take it. -/
abbrev Reaches {α : Type} (m : M α) (u : State) (a : α) (u' : State) : Prop :=
  Returns (Alongside · u) m fun b t => b = a ∧ Alongside t u'

section Reaches

variable {α β : Type} {u u' : State} {a : α} {Q : β → State → Prop}

theorem Reaches.pure (a : α) (u : State) : Reaches (pure a) u a u := Returns.pure fun _ h => ⟨rfl, h⟩

theorem Reaches.bind {m : M α} {f : α → M β} (hm : Reaches m u a u') (hf : Returns (Alongside · u') (f a) Q) :
    Returns (Alongside · u) (m >>= f) Q := Returns.bind hm fun _ t ⟨ha, ht⟩ => ha ▸ hf t ht

/-- What follows a read of the state is the same program wherever agent steps have taken it. -/
theorem Reaches.read {f : State → M β} (hf : ∀ t, Alongside t u → f t = f u) (h : Returns (Alongside · u) (f u) Q) :
    Returns (Alongside · u) (getState >>= f) Q := Returns.read fun t ht => (hf t ht ▸ h).before fun _ hs => hs ▸ ht

theorem update_reaches {f : State → State} (hf : LinkUpdate f) (u : State) : Reaches (update f) u () (f u) :=
  fun t h => ⟨(), f t, rfl, rfl, h.update hf⟩

theorem emit_reaches (e : Event) (u : State) : Reaches (emit e) u () (emitted e u) :=
  fun t h => ⟨(), _, run_emit e t, rfl, h.step (linkUpdate_emitted e)⟩

theorem mgmtWrite_reaches (reg : Nat) (v : Word32) (u : State) : Reaches (mgmtWrite reg v) u () (emitted (.mgmtW reg v) u) :=
  emit_reaches _ u

theorem updateLink_reaches (f : LinkState → LinkState) (u : State) : Reaches (updateLink f) u () { u with link := f u.link } :=
  update_reaches (f := fun s => { s with link := f s.link })
    ⟨⟨⟨fun u => { u with link := f u.link }, fun _ => rfl⟩, fun _ => rfl⟩, fun _ => rfl, fun _ => rfl⟩ u

theorem linkUpdate_timer (b : Bool) : LinkUpdate fun s => { s with timerArmed := b } :=
  ⟨⟨⟨fun u => { u with timerArmed := b }, fun _ => rfl⟩, fun _ => rfl⟩, fun _ => rfl, fun _ => rfl⟩

theorem armTimer_reaches (u : State) : Reaches armTimer u () { u with timerArmed := true } := update_reaches (linkUpdate_timer true) u

theorem cancelTimer_reaches (u : State) : Reaches cancelTimer u () { u with timerArmed := false } :=
  update_reaches (linkUpdate_timer false) u

theorem enterWait_reaches (st : LinkFsm) (u : State) : Reaches (update (enterWait st)) u () (enterWait st u) :=
  update_reaches (f := enterWait st) ⟨⟨⟨enterWait st, fun _ => rfl⟩, fun _ => rfl⟩, fun _ => rfl, fun _ => rfl⟩ u

end Reaches

/-! ### Management reads (R74) -/

/-- Management reads of one register have answered `xs`, and `rest` is what is still supplied. -/
def polled (reg : Nat) (xs rest : List Word32) (s : State) : State :=
  { s with
    draws := { s.draws with mgmtRead := rest }
    trace := s.trace ++ xs.map fun x => .mgmtR reg (mgmtTrunc s.params.mgmt x) }

@[simp] theorem polled_sched (reg : Nat) (xs rest : List Word32) (s : State) : (polled reg xs rest s).sched = s.sched := rfl

theorem polled_cons (reg : Nat) (x : Word32) (xs rest' rest : List Word32) (s : State) :
    polled reg xs rest (polled reg [x] rest' s) = polled reg (x :: xs) rest s := by
  simp only [polled, List.map_cons, List.map_nil, List.append_assoc, List.singleton_append]

theorem linkUpdate_withMgmtDraws (rest : List Word32) :
    LinkUpdate fun s => { s with draws := { s.draws with mgmtRead := rest } } :=
  ⟨⟨⟨fun u => { u with draws := { u.draws with mgmtRead := rest } }, fun _ => rfl⟩, fun _ => rfl⟩, fun _ => rfl, fun _ => rfl⟩

theorem mgmtRead_reaches {u : State} {v : Word32} {rest : List Word32} (h : u.draws.mgmtRead = v :: rest) (reg : Nat) :
    Reaches (mgmtRead reg) u (mgmtTrunc u.params.mgmt v) (polled reg [v] rest u) := fun t ht => by
  have hupdate := (linkUpdate_emitted (.mgmtR reg (mgmtTrunc u.params.mgmt v))).comp (linkUpdate_withMgmtDraws rest)
  have htracks := ht.step hupdate
  refine ⟨_, _, ?_, rfl, htracks⟩
  rw [run_mgmtRead (ht.mgmtRead.trans h), ht.params]

/-! ### Forcing a mode (R225) -/

/-- The machine waits in forced mode `p`, which `CONTROL` has been written with. -/
def forced (p : Fin 4) (s : State) : State :=
  enterWait .forcedTryWait (emitted (.mgmtW s.params.mgmt.control (encForced s.params.mgmt (permMode p)))
    { s with link := { s.link with perm := p } })

@[simp] theorem forced_sched (p : Fin 4) (s : State) : (forced p s).sched = s.sched := rfl

theorem linkForce_reaches (p : Fin 4) (u : State) : Reaches (linkForce p) u () (forced p u) :=
  (updateLink_reaches _ u).bind <| Reaches.read (fun t h => by rw [h.params]) <|
    (mgmtWrite_reaches _ _ _).bind (enterWait_reaches _ _)

/-- The fall through to forced mode 0 (R224, R231, R232). -/
theorem fallToForced_reaches (k : LogKind) (u : State) : Reaches (fallToForced k) u () (forced 0 (emitted (.log k) u)) :=
  (emit_reaches _ u).bind (linkForce_reaches 0 _)

/-! ### The acknowledge poll (R224) -/

/-- One read of the poll. -/
theorem ackPoll_succ {u : State} {x : Word32} {rest : List Word32} {Q : Bool → State → Prop} {n : Nat}
    (h : u.draws.mgmtRead = x :: rest)
    (hrest : Returns (Alongside · (polled u.params.mgmt.control [x] rest u))
      (if restartAcked u.params.mgmt (mgmtTrunc u.params.mgmt x) then pure true else ackPoll n) Q) :
    Returns (Alongside · u) (ackPoll (n + 1)) Q :=
  Reaches.read (fun t ht => by rw [ht.params]) ((mgmtRead_reaches h _).bind hrest)

/-- The poll ends with the first acknowledge. -/
theorem ackPoll_acked {v : Word32} {rest : List Word32} (nacks : List Word32) : ∀ {n : Nat} {u : State},
    u.draws.mgmtRead = nacks ++ v :: rest → nacks.length < n →
    (∀ x ∈ nacks, restartAcked u.params.mgmt (mgmtTrunc u.params.mgmt x) = false) →
    restartAcked u.params.mgmt (mgmtTrunc u.params.mgmt v) = true →
    Reaches (ackPoll n) u true (polled u.params.mgmt.control (nacks ++ [v]) rest u) := by
  induction nacks with
  | nil =>
    intro n u hd hlen _ hack
    obtain ⟨n, rfl⟩ := Nat.exists_eq_succ_of_ne_zero (Nat.ne_of_gt hlen)
    refine ackPoll_succ hd ?_
    rw [if_pos hack]
    exact Reaches.pure true _
  | cons x nacks ih =>
    intro n u hd hlen hnack hack
    obtain ⟨n, rfl⟩ := Nat.exists_eq_succ_of_ne_zero (Nat.ne_of_gt (Nat.zero_lt_of_lt hlen))
    refine ackPoll_succ hd ?_
    have hrun : Reaches (ackPoll n) (polled u.params.mgmt.control [x] (nacks ++ v :: rest) u) true
        (polled u.params.mgmt.control (nacks ++ [v]) rest (polled u.params.mgmt.control [x] (nacks ++ v :: rest) u)) :=
      ih rfl (Nat.lt_of_succ_lt_succ hlen) (fun y hy => hnack y (List.mem_cons_of_mem x hy)) hack
    rw [polled_cons] at hrun
    rw [hnack x List.mem_cons_self]
    exact hrun

/-- A poll without an acknowledge reads as often as the budget says. -/
theorem ackPoll_unacked {rest : List Word32} (nacks : List Word32) : ∀ {u : State}, u.draws.mgmtRead = nacks ++ rest →
    (∀ x ∈ nacks, restartAcked u.params.mgmt (mgmtTrunc u.params.mgmt x) = false) →
    Reaches (ackPoll nacks.length) u false (polled u.params.mgmt.control nacks rest u) := by
  induction nacks with
  | nil =>
    intro u hd _
    have hsame : polled u.params.mgmt.control [] rest u = u := by
      rw [polled, List.map_nil, List.append_nil, ← List.nil_append rest, ← hd]
    rw [hsame]
    exact Reaches.pure false u
  | cons x nacks ih =>
    intro u hd hnack
    refine ackPoll_succ hd ?_
    have hrun : Reaches (ackPoll nacks.length) (polled u.params.mgmt.control [x] (nacks ++ rest) u) false
        (polled u.params.mgmt.control nacks rest (polled u.params.mgmt.control [x] (nacks ++ rest) u)) :=
      ih rfl fun y hy => hnack y (List.mem_cons_of_mem x hy)
    rw [polled_cons] at hrun
    rw [hnack x List.mem_cons_self]
    exact hrun

/-! ### Starting negotiation (R223) -/

/-- The advertisement and the restart are written (R224). -/
def advertised (s : State) : State :=
  emitted (.mgmtW s.params.mgmt.control (encAnStart s.params.mgmt))
    (emitted (.mgmtW s.params.mgmt.advertise (encAdv s.params.mgmt s.params.advertised)) { s with link := { s.link with tick := 0 } })

@[simp] theorem advertised_sched (s : State) : (advertised s).sched = s.sched := rfl

section Begin

variable {u : State}

theorem linkBegin_refused (h : u.link.state ≠ .idle) : linkBegin u = .error (.refused .linkBeginNotIdle) u := by
  simp only [linkBegin, run_bind, run_getState, run_ite, ne_eq, h, not_false_eq_true, if_true, run_refuse]

/-- Out of idle, negotiation begins as `AUTONEG` says. -/
theorem linkBegin_idle {Q : Unit → State → Prop} (hidle : u.link.state = .idle)
    (h : Returns (Alongside · { u with link := { u.link with tick := 0 } }) (if u.link.autoneg then (do
        mgmtWrite u.params.mgmt.advertise (encAdv u.params.mgmt u.params.advertised)
        mgmtWrite u.params.mgmt.control (encAnStart u.params.mgmt)
        let acked ← ackPoll u.params.anRestartPollBudget
        if acked then update (enterWait .arbitrationWait)
        else fallToForced .anRestartNoAck)
      else linkForce (modeIndex ⟨u.link.speedReq, u.link.duplexReq⟩)) Q) :
    Returns (Alongside · u) linkBegin Q := by
  refine Reaches.read (fun t ht => by rw [ht.params, ht.link]) ?_
  rw [if_neg (not_not_intro hidle)]
  exact (updateLink_reaches _ u).bind h

/-- With autonegotiation disabled the requested mode is forced. -/
theorem linkBegin_requested (hidle : u.link.state = .idle) (han : u.link.autoneg = false) :
    Reaches linkBegin u () (forced (modeIndex ⟨u.link.speedReq, u.link.duplexReq⟩) u) :=
  linkBegin_idle hidle (by
    rw [han, if_neg Bool.false_ne_true]
    exact linkForce_reaches _ _)

variable {nacks rest : List Word32}

theorem linkBegin_acked {v : Word32} (hidle : u.link.state = .idle) (han : u.link.autoneg = true)
    (hd : u.draws.mgmtRead = nacks ++ v :: rest) (hlen : nacks.length < u.params.anRestartPollBudget)
    (hnack : ∀ x ∈ nacks, restartAcked u.params.mgmt (mgmtTrunc u.params.mgmt x) = false)
    (hack : restartAcked u.params.mgmt (mgmtTrunc u.params.mgmt v) = true) :
    Reaches linkBegin u () (enterWait .arbitrationWait (polled u.params.mgmt.control (nacks ++ [v]) rest (advertised u))) :=
  linkBegin_idle hidle (by
    rw [han, if_pos rfl]
    have hpoll := ackPoll_acked nacks (u := advertised u) hd hlen hnack hack
    exact (mgmtWrite_reaches _ _ _).bind ((mgmtWrite_reaches _ _ _).bind (hpoll.bind (enterWait_reaches _ _))))

theorem linkBegin_unacked (hidle : u.link.state = .idle) (han : u.link.autoneg = true)
    (hd : u.draws.mgmtRead = nacks ++ rest) (hlen : nacks.length = u.params.anRestartPollBudget)
    (hnack : ∀ x ∈ nacks, restartAcked u.params.mgmt (mgmtTrunc u.params.mgmt x) = false) :
    Reaches linkBegin u () (forced 0 (emitted (.log .anRestartNoAck) (polled u.params.mgmt.control nacks rest (advertised u)))) :=
  linkBegin_idle hidle (by
    rw [han, if_pos rfl, ← hlen]
    have hpoll := ackPoll_unacked nacks (u := advertised u) hd hnack
    exact (mgmtWrite_reaches _ _ _).bind ((mgmtWrite_reaches _ _ _).bind (hpoll.bind (fallToForced_reaches _ _))))

end Begin

theorem modeIndex_permMode : ∀ p : Fin 4, modeIndex (permMode p) = p := by decide

/-! ### Whole operations -/

section Operations

variable {s u : State} {o : OpOutcome}

/-- An internal operation that runs to a known state completes there. -/
theorem completes_of_reaches_internal {i : Instr} {body : M OpOutcome} (hi : exec i s = internalOp body s)
    (ha : Alive s) (h : Reaches body s o u) (hs : u.sched = s.sched) : Completes i s { u with outcome := some o } := by
  obtain ⟨_, t, ht, ho, htu⟩ := h s (Alongside.refl s)
  have hu : HostUpdate (conclude o) := ⟨⟨conclude o, fun _ => rfl⟩, fun _ => rfl⟩
  refine completes_of_tracks ?_ (htu.toTracks.update hu) hs
  rw [hi, internalOp_running ha, ht, ho]
  rfl

/-- A host operation that runs to a known state completes there, the lock free again. -/
theorem completes_of_reaches_host {i : Instr} {ctx : Context} {body : M OpOutcome} (hi : exec i s = hostOp ctx body s)
    (hr : Ready s) (h : Reaches body (enter ctx s) o u) (hs : u.sched = s.sched) : Completes i s (leave o u) := by
  obtain ⟨_, t, ht, ho, htu⟩ := h (enter ctx s) (Alongside.refl _)
  have hu : HostUpdate (leave o) := ⟨⟨leave o, fun _ => rfl⟩, fun _ => rfl⟩
  refine completes_of_tracks ?_ (htu.toTracks.update hu) hs
  rw [hi, hostOp_ready hr, ht, ho]
  rfl

end Operations

/-- Settles O30: the three micro-steps of a force, whatever agent steps fall between them. -/
theorem linkForceEntersForcedMode : Obligations.LinkForceEntersForcedMode := fun p s ha =>
  completes_of_reaches_internal (i := .linkForce p) (o := .ok) (u := forced p s) rfl ha
    ((linkForce_reaches p s).bind (Reaches.pure _ _)) rfl

/-- Settles O31: negotiation begins in one of four ways, and each runs to the state the statement names. -/
theorem linkBeginStartsNegotiation : Obligations.LinkBeginStartsNegotiation := by
  have hcompletes : ∀ {s u : State}, Alive s → Reaches linkBegin s () u → u.sched = s.sched →
      Completes .linkBegin s { u with outcome := some .ok } := fun ha h hs =>
    completes_of_reaches_internal rfl ha (h.bind (Reaches.pure OpOutcome.ok _)) hs
  refine ⟨?refused, ?requested, ?acked, ?unacked⟩
  case refused =>
    intro s ha hidle
    have hrun : exec .linkBegin s = internalOp (do linkBegin; pure .ok) s := rfl
    rw [hrun, internalOp_running ha, run_bind, linkBegin_refused hidle]
    rfl
  case requested =>
    intro s p ha hidle han hp
    have hrun := linkBegin_requested hidle han
    rw [← hp, modeIndex_permMode] at hrun
    rw [← hp]
    exact hcompletes ha hrun rfl
  case acked =>
    intro s nacks rest v ha hidle han hd hlen hnack hack
    have h := hcompletes ha (linkBegin_acked hidle han hd hlen hnack hack) rfl
    simpa only [polled, advertised, emitted, enterWait, List.append_assoc, List.cons_append, List.nil_append] using h
  case unacked =>
    intro s nacks rest ha hidle han hd hlen hnack
    have h := hcompletes ha (linkBegin_unacked hidle han hd hlen hnack) rfl
    simpa only [polled, advertised, emitted, enterWait, forced, permMode, List.append_assoc, List.cons_append,
      List.nil_append] using h

end Sys2Proof.Link
end

section
/-! PROOFS. Reconfiguration of the link, and the ticks that commit nothing (R228 to R236, R238, R240, R241). -/

namespace Sys2Proof.Link

open Sys2Proof.Machine Sys2Proof.Laws Sys2Proof.Transmit Sys2Proof.DeviceReset

/-! ### Restart and reconfiguration (R228, R229) -/

/-- What a restart does before it begins negotiation: the timer is cancelled, the link is down and idle. -/
def restarted (s : State) : State := { s with timerArmed := false, link := { s.link with up := false, state := .idle } }

@[simp] theorem restarted_sched (s : State) : (restarted s).sched = s.sched := rfl

section Reconfigure

variable {s u : State} {an : AutonegArg} {sp : Nat} {dx : DuplexArg} {l : LinkState}

theorem restartNegotiation_reaches (h : Reaches linkBegin (restarted s) () u) : Reaches restartNegotiation s () u :=
  (cancelTimer_reaches s).bind ((updateLink_reaches _ _).bind h)

theorem validRequest_bad (h : an = .other ∨ an = .disabled ∧ (sp ≠ 10 ∧ sp ≠ 100 ∨ dx = .other)) (l : LinkState) :
    validRequest an sp dx l = none := by
  rcases h with rfl | ⟨rfl, ⟨h10, h100⟩ | rfl⟩
  · rfl
  · simp only [validRequest, validSpeed, if_neg h10, if_neg h100]
  · cases h : validSpeed sp <;> simp only [validRequest, h, validDuplex]

theorem validRequest_good (h : an = .enabled ∨ an = .disabled ∧ (sp = 10 ∨ sp = 100) ∧ dx ≠ .other) (l : LinkState) :
    ∃ l', validRequest an sp dx l = some l' := by
  rcases h with rfl | ⟨rfl, hsp, hdx⟩
  · exact ⟨_, rfl⟩
  · obtain ⟨speed, hspeed⟩ : ∃ speed, validSpeed sp = some speed := by
      rcases hsp with rfl | rfl
      · exact ⟨.s10, rfl⟩
      · exact ⟨.s100, rfl⟩
    obtain ⟨duplex, hduplex⟩ : ∃ duplex, validDuplex dx = some duplex := by
      cases dx with
      | half => exact ⟨.half, rfl⟩
      | full => exact ⟨.full, rfl⟩
      | other => exact absurd rfl hdx
    exact ⟨_, by simp only [validRequest, hspeed, hduplex]; rfl⟩

/-- The request for the mode of a permutation is valid, and asks for that mode. -/
theorem validRequest_permMode (p : Fin 4) (l : LinkState) :
    validRequest .disabled (if (permMode p).speed = .s10 then 10 else 100) (if (permMode p).duplex = .half then .half else .full) l =
      some { l with autoneg := false, speedReq := (permMode p).speed, duplexReq := (permMode p).duplex } := by
  match p with
  | 0 => rfl
  | 1 => rfl
  | 2 => rfl
  | 3 => rfl

/-- A request that is turned away changes nothing but the outcome. -/
theorem exec_reconfigureLink_pure {o : OpOutcome} (hr : Ready s)
    (h : reconfigureLink an sp dx (enter .process s) = .ok o (enter .process s)) :
    exec (.reconfigureLink an sp dx) s = .next { s with outcome := some o } := by
  have hrun : exec (.reconfigureLink an sp dx) s = hostOp .process (reconfigureLink an sp dx) s := rfl
  rw [hrun, hostOp_ready hr, h, finish, Completion.leave_enter hr.2]

theorem reconfigureLink_invalid (h : validRequest an sp dx s.link = none) : reconfigureLink an sp dx s = .ok .validationError s := by
  simp only [reconfigureLink, run_bind, run_getState, h, run_pure]

theorem reconfigureLink_notReady (h : validRequest an sp dx s.link = some l) (ha : s.adapter ≠ .running) :
    reconfigureLink an sp dx s = .ok .notReady s := by
  simp only [reconfigureLink, run_bind, run_getState, h, run_ite, ne_eq, ha, not_false_eq_true, if_true, run_pure]

/-- A valid request on a running adapter is stored, and negotiation restarts. -/
theorem reconfigureLink_reaches (h : validRequest an sp dx s.link = some l) (ha : s.adapter = .running)
    (hbegin : Reaches linkBegin (restarted { s with link := l }) () u) : Reaches (reconfigureLink an sp dx) s .ok u := by
  refine Reaches.read (fun t ht => by rw [ht.link, ht.adapter]) ?_
  simp only [h, ha, ne_eq, not_true_eq_false, if_false]
  exact (updateLink_reaches _ _).bind ((restartNegotiation_reaches hbegin).bind (Reaches.pure _ _))

theorem reconfigureLink_completes (hr : Ready s) (ha : s.adapter = .running) (h : validRequest an sp dx s.link = some l)
    (hbegin : Reaches linkBegin (restarted (enter .process { s with link := l })) () u) (hs : u.sched = s.sched) :
    Completes (.reconfigureLink an sp dx) s (leave .ok u) :=
  completes_of_reaches_host rfl hr (reconfigureLink_reaches (s := enter .process s) h ha hbegin) hs

end Reconfigure

/-- Settles O39: the request is turned away unchanged, or stored, and negotiation then begins as in O31. -/
theorem reconfigureValidatesThenRestarts : Obligations.ReconfigureValidatesThenRestarts := by
  refine ⟨?invalid, ?notReady, ?forced, ?acked, ?unacked⟩
  case invalid =>
    intro s an sp dx hr hbad
    exact exec_reconfigureLink_pure hr (reconfigureLink_invalid (validRequest_bad hbad _))
  case notReady =>
    intro s an sp dx hr hgood ha
    obtain ⟨l, hl⟩ := validRequest_good hgood s.link
    exact exec_reconfigureLink_pure hr (reconfigureLink_notReady (s := enter .process s) hl ha)
  case forced =>
    intro s p hr ha
    have hbegin := linkBegin_requested (u := restarted (enter .process { s with
      link := { s.link with autoneg := false, speedReq := (permMode p).speed, duplexReq := (permMode p).duplex } })) rfl rfl
    have h := reconfigureLink_completes hr ha (validRequest_permMode p _) hbegin (by simp)
    have hmode : modeIndex ⟨(permMode p).speed, (permMode p).duplex⟩ = p := modeIndex_permMode p
    simpa only [restarted, forced, enterWait, emitted, enter, leave, hmode, hr.2] using h
  case acked =>
    intro s sp dx nacks rest v hr ha hd hlen hnack hack
    have hbegin := linkBegin_acked (u := restarted (enter .process { s with link := { s.link with autoneg := true } })) rfl rfl
      hd hlen hnack hack
    have h := reconfigureLink_completes (an := .enabled) (sp := sp) (dx := dx) hr ha rfl hbegin (by simp)
    simpa only [restarted, advertised, polled, enterWait, emitted, enter, leave, hr.2, List.append_assoc, List.cons_append,
      List.nil_append] using h
  case unacked =>
    intro s sp dx nacks rest hr ha hd hlen hnack
    have hbegin := linkBegin_unacked (u := restarted (enter .process { s with link := { s.link with autoneg := true } })) rfl rfl
      hd hlen hnack
    have h := reconfigureLink_completes (an := .enabled) (sp := sp) (dx := dx) hr ha rfl hbegin (by simp)
    simpa only [restarted, advertised, polled, forced, permMode, enterWait, emitted, enter, leave, hr.2, List.append_assoc,
      List.cons_append, List.nil_append] using h

end Sys2Proof.Link
end

section
/-! PROOFS. The tick by the state of the machine, and the ticks that commit nothing (R230 to R236, R238, R240, R241). -/

namespace Sys2Proof.Link

open Sys2Proof.Machine Sys2Proof.Laws Sys2Proof.Transmit Sys2Proof.DeviceReset

/-! ### The tick by the state of the machine (R230) -/

/-- What a tick of a running adapter runs in each state of the machine. -/
def tickIn : LinkFsm → M Unit
  | .idle => pure ()
  | .asleep => pure ()
  | .arbitrationWait => do countTick; tickArbitration
  | .linkUpWait => do countTick; tickLinkUp
  | .forcedTryWait => do countTick; tickForced

/-- The timer has fired, which disarms it (R230, R287). -/
def fired (s : State) : State := { s with timerArmed := false }

/-- The tick is counted (R230). -/
def ticked (s : State) : State := { s with link := { s.link with tick := s.link.tick + 1 } }

@[simp] theorem fired_sched (s : State) : (fired s).sched = s.sched := rfl

@[simp] theorem ticked_sched (s : State) : (ticked s).sched = s.sched := rfl

section Tick

variable {s u : State} {Q : Unit → State → Prop}

theorem timerFiring_running (ha : s.adapter = .running) :
    timerFiring s = (do tickIn s.link.state; pure .ok : M OpOutcome) (fired s) := by
  have htick : linkTick (fired s) = tickIn s.link.state (fired s) := by
    have hadapter : (fired s).adapter = .running := ha
    have hlink : (fired s).link = s.link := rfl
    simp only [linkTick, run_bind, run_getState, hadapter, hlink]
    cases s.link.state <;> rfl
  have hcancel : timerFiring s = (do linkTick; pure .ok : M OpOutcome) (fired s) := rfl
  rw [hcancel, run_bind, run_bind, htick]

theorem exec_linkTick (hr : Ready s) : exec .linkTick s = finish leave (timerFiring (enter .timer s)) := hostOp_ready hr _ _

theorem exec_linkTick_of_run {t : State} (hr : Ready s) (ha : s.adapter = .running)
    (h : tickIn s.link.state (fired (enter .timer s)) = .ok () t) : exec .linkTick s = .next (leave .ok t) := by
  rw [exec_linkTick hr, timerFiring_running (s := enter .timer s) ha, run_bind, enter_link, h]
  rfl

/-- A tick of a running adapter that returns. -/
theorem exec_linkTick_returns {P : State → Prop} (hr : Ready s) (ha : s.adapter = .running)
    (h : Returns (Alongside · (fired (enter .timer s))) (tickIn s.link.state) fun _ t => P (leave .ok t)) :
    ∃ t, exec .linkTick s = .next t ∧ P t := by
  obtain ⟨_, t, ht, hP⟩ := h _ (Alongside.refl _)
  exact ⟨_, exec_linkTick_of_run hr ha ht, hP⟩

/-- A tick of a running adapter that runs to a known state completes there. -/
theorem linkTick_completes (hr : Ready s) (ha : s.adapter = .running)
    (h : Reaches (tickIn s.link.state) (fired (enter .timer s)) () u) (hs : u.sched = s.sched) :
    Completes .linkTick s (leave .ok u) := by
  refine completes_of_reaches_host (o := .ok) (ctx := .timer) rfl hr ?_ hs
  intro t ht
  rw [timerFiring_running (s := t) (ht.adapter.trans ha), ht.link]
  have hrun : Reaches (do tickIn s.link.state; pure .ok : M OpOutcome) (fired (enter .timer s)) .ok u :=
    Reaches.bind h (Reaches.pure _ _)
  exact hrun _ (ht.update (linkUpdate_timer false))

/-- The state in which a tick that counts does its work. -/
def tickStart (s : State) : State := ticked (fired (enter .timer s))

@[simp] theorem tickStart_sched (s : State) : (tickStart s).sched = s.sched := rfl

/-- The same in a state of the machine in which ticks are counted. -/
theorem countedTick_completes {m : M Unit} (hm : tickIn s.link.state = (do countTick; m)) (hr : Ready s)
    (ha : s.adapter = .running) (h : Reaches m (tickStart s) () u) (hs : u.sched = s.sched) : Completes .linkTick s (leave .ok u) :=
  linkTick_completes hr ha (hm ▸ (updateLink_reaches _ _).bind h) hs

/-! ### Arbitration-wait (R231, R232) -/

variable {v pv : Word32} {rest : List Word32}

/-- Negotiation is not complete: the tick waits, or times out. -/
theorem tickArbitration_incomplete (hd : u.draws.mgmtRead = v :: rest)
    (hv : anComplete u.params.mgmt (mgmtTrunc u.params.mgmt v) = false)
    (h : Returns (Alongside · (polled u.params.mgmt.status [v] rest u))
      (if u.params.arbTicks ≤ u.link.tick then fallToForced .anTimeout else armTimer) Q) :
    Returns (Alongside · u) tickArbitration Q := by
  refine Reaches.read (fun t ht => by rw [ht.params, ht.link]) ((mgmtRead_reaches hd _).bind ?_)
  rw [hv]
  exact h

/-- Negotiation is complete: the partner's modes are read, and the best common mode is tried. -/
theorem tickArbitration_complete (hd : u.draws.mgmtRead = v :: pv :: rest)
    (hv : anComplete u.params.mgmt (mgmtTrunc u.params.mgmt v) = true)
    (h : Returns (Alongside · (polled u.params.mgmt.partner [pv] rest (polled u.params.mgmt.status [v] (pv :: rest) u))) (do
      let done ← commitResolved (resolveMode u.params (mgmtTrunc u.params.mgmt pv))
      if done then update (enterWait .linkUpWait) else fallToForced .anCommitFailed) Q) :
    Returns (Alongside · u) tickArbitration Q := by
  refine Reaches.read (fun t ht => by rw [ht.params, ht.link]) ((mgmtRead_reaches hd _).bind ?_)
  rw [hv, if_pos rfl]
  exact (mgmtRead_reaches (u := polled u.params.mgmt.status [v] (pv :: rest) u) rfl _).bind h

theorem tickArbitration_waits (hd : u.draws.mgmtRead = v :: rest)
    (hv : anComplete u.params.mgmt (mgmtTrunc u.params.mgmt v) = false) (ht : u.link.tick < u.params.arbTicks) :
    Reaches tickArbitration u () { polled u.params.mgmt.status [v] rest u with timerArmed := true } :=
  tickArbitration_incomplete hd hv (by
    rw [if_neg (Nat.not_le.mpr ht)]
    exact armTimer_reaches _)

theorem tickArbitration_timesOut (hd : u.draws.mgmtRead = v :: rest)
    (hv : anComplete u.params.mgmt (mgmtTrunc u.params.mgmt v) = false) (ht : u.params.arbTicks ≤ u.link.tick) :
    Reaches tickArbitration u () (forced 0 (emitted (.log .anTimeout) (polled u.params.mgmt.status [v] rest u))) :=
  tickArbitration_incomplete hd hv (by
    rw [if_pos ht]
    exact fallToForced_reaches _ _)

theorem resolveMode_none {p : Params} (h : ∀ m ∈ p.advertised, partnerHas p.mgmt pv m = false) : resolveMode p pv = none := by
  refine List.find?_eq_none.mpr fun m _ => ?_
  rw [Bool.and_eq_true, not_and]
  intro hm
  rw [h m (List.contains_iff_mem.mp hm)]
  exact Bool.false_ne_true

theorem tickArbitration_noMode (hd : u.draws.mgmtRead = v :: pv :: rest)
    (hv : anComplete u.params.mgmt (mgmtTrunc u.params.mgmt v) = true)
    (hnone : ∀ m ∈ u.params.advertised, partnerHas u.params.mgmt (mgmtTrunc u.params.mgmt pv) m = false) :
    Reaches tickArbitration u () (forced 0 (emitted (.log .anCommitFailed)
      (polled u.params.mgmt.partner [pv] rest (polled u.params.mgmt.status [v] (pv :: rest) u)))) :=
  tickArbitration_complete hd hv (by
    rw [resolveMode_none hnone]
    exact (Reaches.pure false _).bind (fallToForced_reaches _ _))

/-! ### Link-up-wait (R233, R234) -/

theorem tickLinkUp_reports (hd : u.draws.mgmtRead = v :: rest) (hv : linkOk u.params.mgmt (mgmtTrunc u.params.mgmt v) = true) :
    Reaches tickLinkUp u () { emitted (.linkUp u.link.committed) (polled u.params.mgmt.status [v] rest u) with
      link := { u.link with up := true, state := .asleep } } := by
  refine Reaches.read (fun t ht => by rw [ht.params, ht.link]) ((mgmtRead_reaches hd _).bind ?_)
  rw [hv]
  exact (updateLink_reaches _ _).bind ((emit_reaches _ _).bind (updateLink_reaches _ _))

theorem tickLinkUp_down (hd : u.draws.mgmtRead = v :: rest) (hv : linkOk u.params.mgmt (mgmtTrunc u.params.mgmt v) = false)
    (h : Returns (Alongside · (polled u.params.mgmt.status [v] rest u))
      (if u.params.lupDiagTicks ≤ u.link.tick then do
        emit (.log .linkStillDown)
        updateLink fun l => { l with tick := 0 }
        armTimer
      else armTimer) Q) : Returns (Alongside · u) tickLinkUp Q := by
  refine Reaches.read (fun t ht => by rw [ht.params, ht.link]) ((mgmtRead_reaches hd _).bind ?_)
  rw [hv]
  exact h

theorem tickLinkUp_waits (hd : u.draws.mgmtRead = v :: rest) (hv : linkOk u.params.mgmt (mgmtTrunc u.params.mgmt v) = false)
    (ht : u.link.tick < u.params.lupDiagTicks) :
    Reaches tickLinkUp u () { polled u.params.mgmt.status [v] rest u with timerArmed := true } :=
  tickLinkUp_down hd hv (by
    rw [if_neg (Nat.not_le.mpr ht)]
    exact armTimer_reaches _)

theorem tickLinkUp_stillDown (hd : u.draws.mgmtRead = v :: rest) (hv : linkOk u.params.mgmt (mgmtTrunc u.params.mgmt v) = false)
    (ht : u.params.lupDiagTicks ≤ u.link.tick) :
    Reaches tickLinkUp u () { emitted (.log .linkStillDown) (polled u.params.mgmt.status [v] rest u) with
      link := { u.link with tick := 0 }, timerArmed := true } :=
  tickLinkUp_down hd hv (by
    rw [if_pos ht]
    exact (emit_reaches _ _).bind ((updateLink_reaches _ _).bind (armTimer_reaches _)))

/-! ### Forced-try-wait (R235 to R239) -/

/-- A settle tick writes the transceiver's disable bit and keeps the register's other bits. -/
theorem toggleTransceiver_reaches (hd : u.draws.mgmtRead = v :: rest) (b : Bool) :
    Reaches (toggleTransceiver b) u () { emitted (.mgmtW u.params.mgmt.tcvrConfig
      (encTcvr u.params.mgmt (mgmtTrunc u.params.mgmt v) b)) (polled u.params.mgmt.tcvrConfig [v] rest u) with timerArmed := true } :=
  Reaches.read (fun t ht => by rw [ht.params])
    ((mgmtRead_reaches hd _).bind ((mgmtWrite_reaches _ _ _).bind (armTimer_reaches _)))

theorem tickForced_settle {b : Bool} (h : Returns (Alongside · u) (toggleTransceiver b) Q)
    (hoff : b = true → u.link.tick = u.params.ftwSettleOffTick)
    (hon : b = false → u.link.tick ≠ u.params.ftwSettleOffTick ∧ u.link.tick = u.params.ftwSettleOnTick) :
    Returns (Alongside · u) tickForced Q := by
  refine Reaches.read (fun t ht => by rw [ht.params, ht.link]) ?_
  cases b with
  | true =>
    rw [if_pos (hoff rfl)]
    exact h
  | false =>
    rw [if_neg (hon rfl).1, if_pos (hon rfl).2]
    exact h

/-- Past the settle ticks the link is looked at. -/
theorem tickForced_look (hd : u.draws.mgmtRead = v :: rest) (hoff : u.link.tick ≠ u.params.ftwSettleOffTick)
    (hon : u.link.tick ≠ u.params.ftwSettleOnTick)
    (h : Returns (Alongside · (polled u.params.mgmt.status [v] rest u))
      (if linkOk u.params.mgmt (mgmtTrunc u.params.mgmt v) then forcedUp else forcedDown) Q) :
    Returns (Alongside · u) tickForced Q := by
  refine Reaches.read (fun t ht => by rw [ht.params, ht.link]) ?_
  rw [if_neg hoff, if_neg hon]
  exact (mgmtRead_reaches hd _).bind h

theorem tickForced_up (hd : u.draws.mgmtRead = v :: rest) (hoff : u.link.tick ≠ u.params.ftwSettleOffTick)
    (hon : u.link.tick ≠ u.params.ftwSettleOnTick) (hv : linkOk u.params.mgmt (mgmtTrunc u.params.mgmt v) = true)
    (h : Returns (Alongside · (polled u.params.mgmt.status [v] rest u)) forcedUp Q) : Returns (Alongside · u) tickForced Q :=
  tickForced_look hd hoff hon (by rwa [hv, if_pos rfl])

theorem tickForced_down (hd : u.draws.mgmtRead = v :: rest) (hoff : u.link.tick ≠ u.params.ftwSettleOffTick)
    (hon : u.link.tick ≠ u.params.ftwSettleOnTick) (hv : linkOk u.params.mgmt (mgmtTrunc u.params.mgmt v) = false)
    (h : Returns (Alongside · (polled u.params.mgmt.status [v] rest u)) forcedDown Q) : Returns (Alongside · u) tickForced Q :=
  tickForced_look hd hoff hon (by rwa [hv, if_neg Bool.false_ne_true])

theorem forcedDown_waits (h : u.link.tick < u.params.ftwLimitTick) :
    Reaches forcedDown u () { u with timerArmed := true } := by
  refine Reaches.read (fun t ht => by rw [ht.params, ht.link]) ?_
  rw [if_neg (Nat.not_le.mpr h)]
  exact armTimer_reaches u

theorem forcedDown_steps {p : Fin 4} (h : u.params.ftwLimitTick ≤ u.link.tick) (hp : p.val = u.link.perm.val + 1) :
    Reaches forcedDown u () (forced p u) := by
  have hlast : u.link.perm ≠ 3 := fun h3 => by
    have := p.isLt
    have h3' : u.link.perm.val = 3 := congrArg Fin.val h3
    omega
  have hnext : u.link.perm + 1 = p := Fin.ext (by
    have := p.isLt
    rw [Fin.val_add, Nat.mod_eq_of_lt (by simpa using (by omega : u.link.perm.val + 1 < 4)), hp]
    rfl)
  refine Reaches.read (fun t ht => by rw [ht.params, ht.link]) ?_
  rw [if_pos h, if_neg hlast, hnext]
  exact linkForce_reaches p u

end Tick

/-! ### The statements -/

/-- Settles O33: the three runs of a tick in arbitration-wait that commits nothing. -/
theorem arbitrationTickWaitsOrFallsThrough : Obligations.ArbitrationTickWaitsOrFallsThrough := by
  have hin : ∀ {s : State}, s.link.state = .arbitrationWait → tickIn s.link.state = (do countTick; tickArbitration) :=
    fun hst => by rw [hst]; rfl
  refine ⟨?waits, ?timesOut, ?noMode⟩
  case waits =>
    intro s v rest hr ha hst hd hv htick
    have hrun := tickArbitration_waits (u := tickStart s) hd hv htick
    have h := countedTick_completes (hin hst) hr ha hrun (by simp)
    simpa only [tickStart, ticked, fired, polled, enter, leave, hr.2, List.map_cons, List.map_nil] using h
  case timesOut =>
    intro s v rest hr ha hst hd hv htick
    have hrun := tickArbitration_timesOut (u := tickStart s) hd hv htick
    have h := countedTick_completes (hin hst) hr ha hrun (by simp)
    simpa only [tickStart, ticked, fired, polled, forced, permMode, enterWait, emitted, enter, leave, hr.2, List.map_cons,
      List.map_nil, List.append_assoc, List.cons_append, List.nil_append] using h
  case noMode =>
    intro s v pv rest hr ha hst hd hv hnone
    have hrun := tickArbitration_noMode (u := tickStart s) hd hv hnone
    have h := countedTick_completes (hin hst) hr ha hrun (by simp)
    simpa only [tickStart, ticked, fired, polled, forced, permMode, enterWait, emitted, enter, leave, hr.2, List.map_cons,
      List.map_nil, List.append_assoc, List.cons_append, List.nil_append] using h

/-- A tick of a closed, idle or sleeping adapter does nothing but disarm the timer (R230, R240). -/
theorem timerFiring_ignored {s : State}
    (h : s.adapter = .closed ∨ s.adapter = .running ∧ (s.link.state = .idle ∨ s.link.state = .asleep)) :
    timerFiring s = .ok .ok (fired s) := by
  rcases h with ha | ⟨ha, hst | hst⟩
  · have hcancel : timerFiring s = (do linkTick; pure .ok : M OpOutcome) (fired s) := rfl
    have hclosed : (fired s).adapter = .closed := ha
    simp only [hcancel, linkTick, run_bind, run_getState, hclosed, run_pure]
  · rw [timerFiring_running ha, hst]
    rfl
  · rw [timerFiring_running ha, hst]
    rfl

/-- Settles O35: the tick that is ignored, and the three runs of a tick in link-up-wait. -/
theorem linkUpTickReportsOrWaits : Obligations.LinkUpTickReportsOrWaits := by
  have hin : ∀ {s : State}, s.link.state = .linkUpWait → tickIn s.link.state = (do countTick; tickLinkUp) :=
    fun hst => by rw [hst]; rfl
  refine ⟨?ignored, ?up, ?down, ?stillDown⟩
  case ignored =>
    intro s hr hs
    have hleft := Completion.leave_enter (s := fired s) hr.2 .timer .ok
    rw [exec_linkTick hr, timerFiring_ignored (s := enter .timer s) hs]
    exact congrArg _ hleft
  case up =>
    intro s v rest hr ha hst hd hv
    have hrun := tickLinkUp_reports (u := tickStart s) hd hv
    have h := countedTick_completes (hin hst) hr ha hrun (by simp)
    simpa only [tickStart, ticked, fired, polled, emitted, enter, leave, hr.2, List.map_cons, List.map_nil, List.append_assoc,
      List.cons_append, List.nil_append] using h
  case down =>
    intro s v rest hr ha hst hd hv htick
    have hrun := tickLinkUp_waits (u := tickStart s) hd hv htick
    have h := countedTick_completes (hin hst) hr ha hrun (by simp)
    simpa only [tickStart, ticked, fired, polled, enter, leave, hr.2, List.map_cons, List.map_nil] using h
  case stillDown =>
    intro s v rest hr ha hst hd hv htick
    have hrun := tickLinkUp_stillDown (u := tickStart s) hd hv htick
    have h := countedTick_completes (hin hst) hr ha hrun (by simp)
    simpa only [tickStart, ticked, fired, polled, emitted, enter, leave, hr.2, List.map_cons, List.map_nil, List.append_assoc,
      List.cons_append, List.nil_append] using h

/-- Settles O36: the settle ticks, the wait, and the step to the next permutation. -/
theorem forcedTickSettlesThenSteps : Obligations.ForcedTickSettlesThenSteps := by
  have hin : ∀ {s : State}, s.link.state = .forcedTryWait → tickIn s.link.state = (do countTick; tickForced) :=
    fun hst => by rw [hst]; rfl
  refine ⟨?settles, ?waits, ?steps⟩
  case settles =>
    intro s v rest b hr ha hst hd hoff hon
    have hrun := tickForced_settle (toggleTransceiver_reaches (u := tickStart s) hd b) hoff hon
    have h := countedTick_completes (hin hst) hr ha hrun (by simp)
    simpa only [tickStart, ticked, fired, polled, encTcvr, emitted, enter, leave, hr.2, List.map_cons, List.map_nil,
      List.append_assoc, List.cons_append, List.nil_append] using h
  case waits =>
    intro s v rest hr ha hst hd hoff hon hv htick
    have hrun := tickForced_down (u := tickStart s) hd hoff hon hv (forcedDown_waits htick)
    have h := countedTick_completes (hin hst) hr ha hrun (by simp)
    simpa only [tickStart, ticked, fired, polled, enter, leave, hr.2, List.map_cons, List.map_nil] using h
  case steps =>
    intro s v rest p hr ha hst hd hoff hon hv htick hp
    have hrun := tickForced_down (u := tickStart s) hd hoff hon hv (forcedDown_steps htick hp)
    have h := countedTick_completes (hin hst) hr ha hrun (by simp)
    simpa only [tickStart, ticked, fired, polled, forced, enterWait, emitted, enter, leave, hr.2, hst, List.map_cons, List.map_nil,
      List.append_assoc, List.cons_append, List.nil_append] using h

end Sys2Proof.Link
end

section
/-! PROOFS. The commit of a mode to the MAC: disable, drain, reconfigure, enable, or fail disabled, whatever the MAC does meanwhile (R226,
R42, R43, R115). -/

namespace Sys2Proof.Link

open Sys2Proof.Machine Sys2Proof.Laws Sys2Proof.Invariants Sys2Proof.Transmit Sys2Proof.DeviceReset

/-! ### One-bit fields (R98) -/

section Bits

variable {n m : Nat} (x : Word32) (b c : Bool)

theorem getBit_putBit_same (hn : n < 32) : getBit n (putBit n x b) = b := by
  rw [getBit_eq _ _ hn, getLsbD_putBit_same hn]

theorem getBit_putBit_other (hn : n < 32) (h : n ≠ m) : getBit n (putBit m x b) = getBit n x := by
  rw [getBit_eq _ _ hn, getBit_eq _ _ hn, getLsbD_putBit_other h]

theorem putBit_putBit (hn : n < 32) : putBit n (putBit n x b) c = putBit n x c := by
  refine BitVec.eq_of_getLsbD_eq fun i _ => ?_
  by_cases hi : i = n
  · rw [hi, getLsbD_putBit_same hn, getLsbD_putBit_same hn]
  · rw [getLsbD_putBit_other hi, getLsbD_putBit_other hi, getLsbD_putBit_other hi]

end Bits

/-- The two bits of the MAC's register that the block writes are two bits of a word (R12, R115). -/
structure MacBits (p : Params) : Prop where
  ne : p.mac.txEnable ≠ p.mac.fullDuplex
  tx : p.mac.txEnable < 32
  fd : p.mac.fullDuplex < 32

theorem macBits_of_valid {p : Params} (hp : paramsValid p = true) : MacBits p := by
  obtain ⟨-, -, -, -, -, -, -, -, -, -, -, -, -, -, hne, htx, hfd⟩ := Encoding.paramsValid_iff.mp hp
  exact ⟨hne, htx, hfd⟩

theorem drainBudget_of_valid {p : Params} (hp : paramsValid p = true) : 0 < p.macDrainPollBudget := by
  obtain ⟨-, -, -, -, -, -, -, -, hbudget, -⟩ := Encoding.paramsValid_iff.mp hp
  exact hbudget

/-! ### What a link operation leaves alone -/

/-- The host's side without what a link operation writes: the link, the timer, the MAC's register, the trace and the bookkeeping. -/
def linkAside (s : State) : State :=
  { hostSide s with
    link := ⟨.idle, 0, false, .s10, .half, 0, none, false⟩
    timerArmed := false
    dev := { (hostSide s).dev with macTxcfg := 0 }
    trace := [], lock := none, outcome := none, drawCount := 0
    draws := ⟨[], [], [], [], [], [], [], []⟩ }

theorem linkAside_of_hostSide {s t : State} (h : hostSide t = hostSide s) : linkAside t = linkAside s :=
  show linkAside (hostSide t) = linkAside (hostSide s) from congrArg linkAside h

/-- From `s` to `t` nothing but that has changed; and with no agent step in between the host reads the same descriptor words. -/
structure LinkKept (s t : State) : Prop where
  side : linkAside t = linkAside s
  bufMem : t.bufMem = s.bufMem
  sched : s.sched = [] → t.sched = []
  calm : (∀ w ∈ s.wb, w.addr % 4 = 0) → Undisturbed s t

section LinkKept

variable {s t u : State}

theorem LinkKept.refl (s : State) : LinkKept s s := ⟨rfl, rfl, id, fun h => ⟨h, fun hs => ⟨hs, fun _ _ => rfl⟩⟩⟩

theorem LinkKept.trans (h : LinkKept s t) (h' : LinkKept t u) : LinkKept s u where
  side := h'.side.trans h.side
  bufMem := h'.bufMem.trans h.bufMem
  sched hs := h'.sched (h.sched hs)
  calm hw := by
    have hst := h.calm hw
    have htu := h'.calm hst.pending
    refine ⟨htu.pending, fun hs => ?_⟩
    obtain ⟨ht, hview⟩ := hst.calm hs
    obtain ⟨hu, hview'⟩ := htu.calm ht
    exact ⟨hu, fun a ha => (hview' a ha).trans (hview a ha)⟩

theorem LinkKept.interleave (h : LinkKept s t) : LinkKept s (interleave t) :=
  ⟨(linkAside_of_hostSide (interleave_hostSide t)).trans h.side, (Rings.interleave_bufMem t).trans h.bufMem,
    fun hs => by rw [interleave_nil t (h.sched hs)]; exact h.sched hs, fun hw => (h.calm hw).interleave⟩

/-- A change of what the relation leaves open. -/
theorem LinkKept.same (h : LinkKept s t) (hside : linkAside u = linkAside t) (hb : u.bufMem = t.bufMem) (hp : u.params = t.params)
    (hm : u.mem = t.mem) (hw : u.wb = t.wb) (hs : u.sched = t.sched) : LinkKept s u :=
  ⟨hside.trans h.side, hb.trans h.bufMem, fun hnil => hs.trans (h.sched hnil), fun ha => (h.calm ha).same hp hm hw hs⟩

theorem LinkKept.event (h : LinkKept s t) (e : Event) : LinkKept s (emitted e t) := h.same rfl rfl rfl rfl rfl rfl

theorem LinkKept.polled (h : LinkKept s t) (reg : Nat) (xs rest : List Word32) : LinkKept s (polled reg xs rest t) :=
  h.same rfl rfl rfl rfl rfl rfl

theorem linkKept_tickStart (s : State) : LinkKept s (tickStart s) := (LinkKept.refl s).same rfl rfl rfl rfl rfl rfl

theorem drain_bufMem (s : State) : (drain s).bufMem = s.bufMem := by
  have h : ∀ (l : List WbEntry) (s : State), (drainList l s).bufMem = s.bufMem := by
    intro l
    induction l with
    | nil => exact fun _ => rfl
    | cons e l ih => exact fun s => ih _
  exact h s.wb s

theorem LinkKept.written_mac (h : LinkKept s t) (w : Word32) : LinkKept s (written .macTxcfg (.word w) t) where
  side :=
    calc linkAside (written .macTxcfg (.word w) t) = linkAside (drain (Machine.interleave t)) := rfl
      _ = linkAside t := linkAside_of_hostSide (hostSide_drained t)
      _ = linkAside s := h.side
  bufMem := (drain_bufMem _).trans ((Rings.interleave_bufMem t).trans h.bufMem)
  sched hs := written_sched (h.sched hs)
  calm hw := (h.calm hw).written

/-- The relation does not see what agent steps have done to the state that `u` stands for. -/
theorem LinkKept.alongside (h : LinkKept s u) (ht : Alongside t u) (hs : u.sched = s.sched) : LinkKept s t where
  side := (linkAside_of_hostSide ht.side).trans h.side
  bufMem := ht.bufMem.trans h.bufMem
  sched hnil := ht.same (hs.trans hnil) ▸ hs.trans hnil
  calm ha := ⟨ht.pending (h.calm ha).pending, fun hnil => ht.same (hs.trans hnil) ▸ (h.calm ha).calm hnil⟩

theorem LinkKept.params (h : LinkKept s t) : t.params = s.params := congrArg (·.params) h.side

theorem LinkKept.fault (h : LinkKept s t) : t.fault = s.fault := congrArg (·.fault) h.side

theorem LinkKept.frame (h : LinkKept s t) : LinkFrame s t :=
  ⟨h.params, congrArg (·.adapter) h.side, congrArg (·.irqAcquired) h.side, congrArg (·.tx) h.side, congrArg (·.rx) h.side,
    congrArg (·.counters) h.side, congrArg (·.dev.intArmed) h.side, congrArg (·.dev.txDmaOn) h.side, congrArg (·.dev.rxDmaOn) h.side,
    congrArg (·.liveBuffers) h.side, congrArg (·.liveMaps) h.side, congrArg (·.pkts) h.side, congrArg (·.nextPkt) h.side, h.bufMem,
    congrArg (·.syncWindows) h.side, fun hs hw => ((h.calm hw).calm hs).2⟩

end LinkKept

/-! ### The course of a commit (R226) -/

/-- A commit that began in `u` has come to `s`, where the MAC's register holds `w`. -/
structure Committing (u : State) (w : Word32) (s : State) : Prop where
  kept : LinkKept u s
  link : s.link = u.link
  timer : s.timerArmed = u.timerArmed
  mac : s.dev.macTxcfg = w

/-- A MAC that had drained in `u` has, with no agent step in between. -/
def StillDrained (u s : State) : Prop := u.sched = [] → u.dev.macEnableSeen = false → s.dev.macEnableSeen = false

section Commit

variable {u s t : State} {w : Word32}

theorem committing_start (h : Alongside t u) : Committing u u.dev.macTxcfg t ∧ StillDrained u t := by
  have hf := hostSide_fields h.side
  exact ⟨⟨(LinkKept.refl u).alongside h rfl, by simp only [hf], by simp only [hf], by simp only [hf]⟩,
    fun hs hseen => h.same hs ▸ hseen⟩

theorem Committing.interleave (h : Committing u w s) : Committing u w (interleave s) := by
  have hf := hostSide_fields (interleave_hostSide s)
  exact ⟨h.kept.interleave, by simp only [hf, h.link], by simp only [hf, h.timer], by simp only [hf, h.mac]⟩

theorem Committing.event (h : Committing u w s) (e : Event) : Committing u w (emitted e s) := ⟨h.kept.event e, h.link, h.timer, h.mac⟩

theorem Committing.written (h : Committing u w s) (v : Word32) : Committing u v (written MmioReg.macTxcfg (RegVal.word v) s) := by
  have hf := hostSide_fields (hostSide_drained s)
  have hlink : (DeviceReset.written .macTxcfg (.word v) s).link = (drain (Machine.interleave s)).link := rfl
  have htimer : (DeviceReset.written .macTxcfg (.word v) s).timerArmed = (drain (Machine.interleave s)).timerArmed := rfl
  exact ⟨h.kept.written_mac v, by rw [hlink]; simp only [hf, h.link], by rw [htimer]; simp only [hf, h.timer], rfl⟩

theorem StillDrained.interleave (hd : StillDrained u s) (h : LinkKept u s) : StillDrained u (interleave s) := fun hs hseen => by
  rw [interleave_nil s (h.sched hs)]
  exact hd hs hseen

/-- The register write shows the transmitter enabled if it enables it, and else as it was seen before (R43). -/
theorem written_mac_seen (v : Word32) (s : State) : (written .macTxcfg (.word v) s).dev.macEnableSeen =
    (macTxEnable s.params v || (interleave s).dev.macEnableSeen) := by
  have hp : (drain (interleave s)).params = s.params := Rings.params_of_hostSide (hostSide_drained s)
  have hseen : (written .macTxcfg (.word v) s).dev.macEnableSeen =
      (macTxEnable (drain (interleave s)).params v || (drain (interleave s)).dev.macEnableSeen) := rfl
  rw [hseen, hp, drain_dev]

theorem StillDrained.written {v : Word32} (hd : StillDrained u s) (h : LinkKept u s) (hv : macTxEnable u.params v = false) :
    StillDrained u (written MmioReg.macTxcfg (RegVal.word v) s) := fun hs hseen => by
  rw [written_mac_seen, h.params, hv, Bool.false_or]
  exact hd.interleave h hs hseen

theorem mmioReadMac_committing : Returns (fun s => Committing u w s ∧ StillDrained u s) mmioReadMac fun v s =>
    (Committing u w s ∧ StillDrained u s) ∧ v = putTxEnable u.params w s.dev.macEnableSeen := fun s ⟨h, hd⟩ => by
  refine ⟨_, _, run_mmioReadMac s, ⟨h.interleave.event _, hd.interleave h.kept⟩, ?_⟩
  rw [macReadValue, h.interleave.kept.params, h.interleave.mac]
  rfl

/-- The drain poll answers the register, disabled, or gives up; it does not give up on a MAC that has drained. -/
theorem drainPoll_committing (hb : MacBits u.params) (hw : putTxEnable u.params w false = w) : ∀ n,
    Returns (fun s => Committing u w s ∧ StillDrained u s) (drainPoll n) fun r s => Committing u w s ∧ (∀ v, r = some v → v = w) ∧
      (0 < n → u.sched = [] → u.dev.macEnableSeen = false → r ≠ none)
  | 0 => Returns.pure fun _ h => ⟨h.1, nofun, nofun⟩
  | n + 1 => by
    refine Returns.bind mmioReadMac_committing fun v => Returns.read fun x ⟨⟨hx, hd⟩, hv⟩ => ?_
    have hseen : macTxEnable x.params v = x.dev.macEnableSeen := by
      rw [hx.kept.params, hv]
      exact getBit_putBit_same w _ hb.tx
    have hpoll := drainPoll_committing hb hw n x ⟨hx, hd⟩
    rw [hseen]
    refine Returns.ite (fun hon => ?_) fun hoff => ?_
    · rintro s rfl
      obtain ⟨r, t, ht, h, hr, -⟩ := hpoll
      refine ⟨r, t, ht, h, hr, fun _ hs h0 => absurd (hd hs h0) ?_⟩
      rw [hon]
      exact Bool.true_eq_false.mp
    · have hvw : v = w := by rw [hv, Bool.eq_false_of_not_eq_true hoff, hw]
      refine Returns.pure ?_
      rintro s rfl
      exact ⟨hx, fun y hy => Option.some.inj hy ▸ hvw, fun _ _ _ => Option.some_ne_none v⟩

/-- The register after a commit that found it disabled, as `w`. -/
def macCommitted (p : Params) (m : Mode) (w : Word32) : Word32 := putTxEnable p (putFullDuplex p w (m.duplex == .full)) true

/-- The mode is committed: latched, the register written, the MAC enabled, and nothing done since. -/
structure Committed (m : Mode) (u : State) (w : Word32) (t : State) : Prop where
  kept : LinkKept u t
  timer : t.timerArmed = u.timerArmed
  link : t.link = { u.link with committed := some m }
  mac : t.dev.macTxcfg = macCommitted u.params m w
  seen : t.dev.macEnableSeen = true
  last : ∃ l, hostTrace t = l ++ [.mmioW .macTxcfg (.word t.dev.macTxcfg)]

/-- The end of a commit, once the MAC has drained and the register is `w` (R226). -/
def commitWrites (p : Params) (m : Mode) (w : Word32) : M Bool := do
  mmioWrite .macTxcfg (.word (putFullDuplex p w (m.duplex == .full)))
  mmioWrite .macTxcfg (.word (macCommitted p m w))
  updateLink fun l => { l with committed := some m }
  pure true

theorem commitWrites_returns (hb : MacBits u.params) (m : Mode) (w : Word32) :
    Returns (Committing u w) (commitWrites u.params m w) fun done t => done = true ∧ Committed m u w t := by
  intro s h
  have h' := (h.written (putFullDuplex u.params w (m.duplex == .full))).written (macCommitted u.params m w)
  have hlast := written_mac_seen (macCommitted u.params m w) (written .macTxcfg (.word (putFullDuplex u.params w (m.duplex == .full))) s)
  refine ⟨true, _, rfl, rfl, h'.kept.same rfl rfl rfl rfl rfl rfl, h'.timer, ?_, h'.mac, ?_, _, hostTrace_emitted _ _⟩
  · exact congrArg (fun l : LinkState => { l with committed := some m }) h'.link
  · refine hlast.trans ?_
    rw [(h.written _).kept.params, macTxEnable, macCommitted, putTxEnable, getBit_putBit_same _ _ hb.tx, Bool.true_or]

/-- A commit that began in `u` ended in `t`: done, or failed with the transmitter disabled; done if the MAC had drained and nothing
came in between. -/
def CommitEnded (m : Mode) (u : State) (done : Bool) (t : State) : Prop :=
  (done = true ∧ Committed m u (putTxEnable u.params u.dev.macTxcfg false) t ∨
      done = false ∧ Committing u (putTxEnable u.params u.dev.macTxcfg false) t) ∧
    (u.sched = [] → u.dev.macEnableSeen = false → done = true)

/-- `LINK_COMMIT` returns (R226). -/
theorem linkCommit_returns (hp : paramsValid u.params = true) (m : Mode) :
    Returns (Alongside · u) (linkCommit m) (CommitEnded m u) := by
  have hb := macBits_of_valid hp
  refine (Returns.bind mmioReadMac_committing fun v => Returns.read fun x ⟨⟨hx, hd⟩, hv⟩ => ?_).before fun _ => committing_start
  have hoff : putTxEnable x.params v false = putTxEnable u.params u.dev.macTxcfg false := by
    rw [hx.kept.params, hv]
    exact putBit_putBit _ _ _ hb.tx
  rw [hoff, hx.kept.params]
  refine Returns.bind (Q := fun _ s => Committing u (putTxEnable u.params u.dev.macTxcfg false) s ∧ StillDrained u s) ?disable
    fun _ => Returns.bind (drainPoll_committing hb (putBit_putBit _ _ _ hb.tx) _) fun r => ?_
  case disable =>
    rintro s rfl
    have hdis : macTxEnable u.params (putTxEnable u.params u.dev.macTxcfg false) = false := getBit_putBit_same _ _ hb.tx
    exact ⟨(), _, run_mmioWrite _ _ s, hx.written _, hd.written hx.kept hdis⟩
  cases r with
  | none =>
    exact Returns.pure fun s ⟨h, _, hdone⟩ =>
      ⟨.inr ⟨rfl, h⟩, fun hs hseen => absurd rfl (hdone (drainBudget_of_valid hp) hs hseen)⟩
  | some w =>
    intro s ⟨h, hw, _⟩
    obtain rfl := hw w rfl
    exact ((commitWrites_returns hb m _).after fun _ _ h => ⟨.inl h, fun _ _ => h.1⟩) s h

/-! ### The MAC's bits after a commit -/

theorem macCommitted_txEnable (hb : MacBits u.params) (m : Mode) (w : Word32) :
    getBit u.params.mac.txEnable (macCommitted u.params m w) = true := getBit_putBit_same _ _ hb.tx

theorem macCommitted_fullDuplex (hb : MacBits u.params) (m : Mode) (w : Word32) :
    getBit u.params.mac.fullDuplex (macCommitted u.params m w) = decide (m.duplex = .full) :=
  (getBit_putBit_other _ _ hb.fd hb.ne.symm).trans (getBit_putBit_same _ _ hb.fd)

/-- Operations write the MAC's opaque bits as they read them. -/
theorem exec_opaqueBits {i : Instr} (h : exec i s = .next t) : OpaqueBitsKept s t :=
  (exec_kept opaqueBits_closed (fun _ _ => ⟨opaqueBits_of_eq rfl, rfl⟩) (fun _ _ => ⟨opaqueBits_of_eq rfl, rfl⟩)
    (fun _ _ => ⟨opaqueBits_of_eq rfl, rfl⟩) h).1

/-! ### Commits with no agent step in between and no write pending -/

/-- The outcome of a commit (R226, R300). -/
theorem exec_linkCommit (ha : Alive s) {m : Mode} {done : Bool} (h : linkCommit m s = .ok done t) :
    exec (.linkCommit m) s = .next (conclude (if done then .commitOk else .commitFailed) t) := by
  have hrun : exec (.linkCommit m) s = internalOp (do
      let done ← linkCommit m
      if done then pure .commitOk else pure .commitFailed) s := rfl
  rw [hrun, internalOp_running ha, run_bind, h]
  cases done <;> rfl

theorem mmioReadMac_calm (hs : s.sched = []) {v : Word32} (hv : macReadValue s = v) :
    mmioReadMac s = .ok v (emitted (.mmioR .macTxcfg v) s) := by
  rw [run_mmioReadMac, interleave_nil s hs, hv]

theorem mmioWriteMac_calm (hs : s.sched = []) (hw : s.wb = []) (v : Word32) : mmioWrite .macTxcfg (.word v) s =
    .ok () { s with
      dev := { s.dev with macTxcfg := v, macEnableSeen := macTxEnable s.params v || s.dev.macEnableSeen }
      trace := s.trace ++ [.mmioW .macTxcfg (.word v)] } := by
  have hdrain : drain s = s := by
    rw [drain, hw, drainList, ← hw]
  rw [run_mmioWrite, interleave_nil s hs, hdrain]
  rfl

/-- The poll of a MAC that has drained. -/
theorem drainPoll_drained {n : Nat} (hn : 0 < n) (hs : s.sched = []) {v : Word32} (hv : macReadValue s = v)
    (hoff : macTxEnable s.params v = false) : drainPoll n s = .ok (some v) (emitted (.mmioR .macTxcfg v) s) := by
  obtain ⟨n, rfl⟩ := Nat.exists_eq_succ_of_ne_zero (Nat.ne_of_gt hn)
  simp only [drainPoll, run_bind, mmioReadMac_calm hs hv, run_getState, run_ite, emitted_params, hoff, Bool.false_eq_true, if_false,
    run_pure]

/-- The poll of a MAC that does not drain. -/
theorem drainPoll_stuck {v : Word32} : ∀ n {s : State}, s.sched = [] → macReadValue s = v → macTxEnable s.params v = true →
    drainPoll n s = .ok none { s with trace := s.trace ++ List.replicate n (.mmioR .macTxcfg v) }
  | 0, s, _, _, _ => by rw [List.replicate_zero, List.append_nil]; rfl
  | n + 1, s, hs, hv, hon => by
    have hrest := drainPoll_stuck n (s := emitted (.mmioR .macTxcfg v) s) hs hv hon
    simp only [drainPoll, run_bind, mmioReadMac_calm hs hv, run_getState, run_ite, emitted_params, hon, if_true, hrest]
    rw [List.replicate_succ, emitted_trace, List.append_assoc, List.singleton_append]
    rfl

/-- The register disabled, by a write of `x` after a read of `v`. -/
def disabled (v x : Word32) (s : State) : State :=
  { s with
    dev := { s.dev with macTxcfg := x }
    trace := s.trace ++ [.mmioR .macTxcfg v, .mmioW .macTxcfg (.word x)] }

/-- A commit up to its poll. -/
theorem linkCommit_calm (hb : MacBits s.params) (hs : s.sched = []) (hw : s.wb = []) {v x : Word32} (hv : macReadValue s = v)
    (hx : putTxEnable s.params v false = x) (m : Mode) {r : Option Word32} {t : State}
    (hpoll : drainPoll s.params.macDrainPollBudget (disabled v x s) = .ok r t) :
    linkCommit m s = r.elim (pure false) (commitWrites s.params m) t := by
  have hoff : macTxEnable s.params x = false := by
    rw [← hx]
    exact getBit_putBit_same _ _ hb.tx
  have hwrite : mmioWrite .macTxcfg (.word x) (emitted (.mmioR .macTxcfg v) s) = .ok () (disabled v x s) := by
    rw [mmioWriteMac_calm (s := emitted (.mmioR .macTxcfg v) s) hs hw]
    simp only [hoff, Bool.false_or, emitted, disabled, List.append_assoc, List.cons_append, List.nil_append]
  simp only [linkCommit, run_bind, mmioReadMac_calm hs hv, run_getState, emitted_params, hx, hwrite, hpoll]
  cases r <;> rfl

theorem commitWrites_calm (hb : MacBits s.params) (hs : s.sched = []) (hw : s.wb = []) (m : Mode) (w : Word32) :
    commitWrites s.params m w s = .ok true { s with
        dev := { s.dev with macTxcfg := macCommitted s.params m w, macEnableSeen := true }
        link := { s.link with committed := some m }
        trace := s.trace ++ [.mmioW .macTxcfg (.word (putFullDuplex s.params w (m.duplex == .full))),
          .mmioW .macTxcfg (.word (macCommitted s.params m w))] } := by
  have hon : macTxEnable s.params (macCommitted s.params m w) = true := macCommitted_txEnable hb m w
  rw [commitWrites, run_bind, mmioWriteMac_calm hs hw]
  simp only [run_bind]
  rw [mmioWriteMac_calm (by exact hs) (by exact hw)]
  simp only [hon, Bool.true_or, List.append_assoc, List.cons_append, List.nil_append]
  rfl

end Commit

/-- Settles O32: every commit ends as `CommitEnded` says; the two strict sequences are runs with nothing in between. -/
theorem linkCommitIsAllOrNothing : Obligations.LinkCommitIsAllOrNothing := by
  refine ⟨?ends, ?drained, ?stuck⟩
  case ends =>
    intro s m ha hp
    have hb := macBits_of_valid hp
    obtain ⟨done, t, ht, hend, -⟩ := linkCommit_returns hp m s (Alongside.refl s)
    have hrun := exec_linkCommit ha ht
    have hopaque := exec_opaqueBits hrun
    rcases hend with ⟨rfl, h⟩ | ⟨rfl, h⟩
    · refine ⟨_, hrun, h.kept.fault.trans ha.1, hopaque, .inl ⟨rfl, h.link, ?_, ?_, h.seen⟩, h.timer, h.kept.frame⟩
      · exact (congrArg _ h.mac).trans (macCommitted_txEnable hb m _)
      · exact (congrArg _ h.mac).trans (macCommitted_fullDuplex hb m _)
    · refine ⟨_, hrun, h.kept.fault.trans ha.1, hopaque, .inr ⟨rfl, h.link, ?_, ?_⟩, h.timer, h.kept.frame⟩
      · exact (congrArg _ h.mac).trans (getBit_putBit_same _ _ hb.tx)
      · exact (congrArg _ h.mac).trans (getBit_putBit_other _ _ hb.fd hb.ne.symm)
  case drained =>
    rintro s m v ha hp hs hw hseen hv
    have hb := macBits_of_valid hp
    have hread : macReadValue s = v := by rw [macReadValue, hseen, hv]; rfl
    have hoff : putTxEnable s.params v false = v := by rw [hv]; exact putBit_putBit _ _ _ hb.tx
    have hdis : macTxEnable s.params v = false := by rw [hv]; exact getBit_putBit_same _ _ hb.tx
    have hagain : macReadValue (disabled v v s) = v := by
      have hval : macReadValue (disabled v v s) = putTxEnable s.params v s.dev.macEnableSeen := rfl
      rw [hval, hseen, hoff]
    have hpoll := drainPoll_drained (s := disabled v v s) (drainBudget_of_valid hp) hs hagain hdis
    have hrun := linkCommit_calm hb hs hw hread hoff m hpoll
    have hwrites := commitWrites_calm (s := emitted (.mmioR .macTxcfg v) (disabled v v s)) hb hs hw m v
    rw [exec_linkCommit ha (hrun.trans hwrites)]
    simp only [disabled, emitted, List.append_assoc]
    rfl
  case stuck =>
    rintro s m v ha hp hs hw hseen hv
    have hb := macBits_of_valid hp
    have hread : macReadValue s = v := by rw [macReadValue, hseen, hv]; rfl
    have hon : macTxEnable s.params v = true := by rw [hv]; exact getBit_putBit_same _ _ hb.tx
    have hagain : macReadValue (disabled v (putTxEnable s.params v false) s) = v := by
      have hval : macReadValue (disabled v (putTxEnable s.params v false) s) =
        putTxEnable s.params (putTxEnable s.params v false) s.dev.macEnableSeen := rfl
      rw [hval, hseen, hv]
      simp only [putTxEnable, putBit_putBit _ _ _ hb.tx]
    have hpoll := drainPoll_stuck s.params.macDrainPollBudget (s := disabled v (putTxEnable s.params v false) s) hs hagain hon
    rw [exec_linkCommit ha (linkCommit_calm hb hs hw hread rfl m hpoll)]
    simp only [disabled, List.append_assoc]
    rfl

end Sys2Proof.Link
end

section
/-! PROOFS. The ticks that commit a mode: the best common one in arbitration-wait, the forced one once its link is up (R227, R231, R237,
R241). -/

namespace Sys2Proof.Link

open Sys2Proof.Machine Sys2Proof.Laws Sys2Proof.Invariants Sys2Proof.Transmit Sys2Proof.DeviceReset

/-! ### The negotiated mode (R227) -/

theorem permutations_split : ∀ p : Fin 4, ([0, 1, 2, 3] : List (Fin 4)) = [0, 1, 2, 3].take p ++ p :: [0, 1, 2, 3].drop (p + 1) := by
  decide

theorem lt_of_mem_permutations_take : ∀ p q : Fin 4, q ∈ ([0, 1, 2, 3] : List (Fin 4)).take p → q < p := by decide

/-- The negotiated mode is the first of the permutation list that both sides have. -/
theorem resolveMode_first {P : Params} {pv : Word32} {p : Fin 4} (hadv : permMode p ∈ P.advertised)
    (hpartner : partnerHas P.mgmt pv (permMode p) = true)
    (hfirst : ∀ q, q < p → permMode q ∈ P.advertised → partnerHas P.mgmt pv (permMode q) = false) :
    resolveMode P pv = some (permMode p) := by
  refine List.find?_eq_some_iff_append.mpr ⟨?_, ([0, 1, 2, 3].take p).map permMode, ([0, 1, 2, 3].drop (p + 1)).map permMode, ?_, ?_⟩
  · rw [hpartner, List.contains_iff_mem.mpr hadv]
    rfl
  · rw [← List.map_cons, ← List.map_append, ← permutations_split]
  · intro m hm
    obtain ⟨q, hq, rfl⟩ := List.mem_map.mp hm
    rw [Bool.not_eq_true', Bool.and_eq_false_iff, or_iff_not_imp_left, Bool.not_eq_false, List.contains_iff_mem]
    exact hfirst q (lt_of_mem_permutations_take p q hq)

/-! ### Arbitration-wait with a common mode (R231) -/

section Arbitration

variable {u : State} {m : Mode}

/-- The mode is committed and the machine waits for the link, or the commit failed and forced mode 0 is entered. -/
structure ArbitrationEnded (m : Mode) (u t : State) : Prop where
  kept : LinkKept u t
  timer : t.timerArmed = true
  ends : t.link = { u.link with state := .linkUpWait, tick := 0, committed := some m } ∧
      getBit u.params.mac.fullDuplex t.dev.macTxcfg = decide (m.duplex = .full) ∨
    t.link = { u.link with state := .forcedTryWait, tick := 0, perm := 0 }
  drained : u.sched = [] → u.dev.macEnableSeen = false → t.link.state = .linkUpWait

theorem arbitrationCommit_returns (hp : paramsValid u.params = true) (m : Mode) : Returns (Alongside · u) (do
      let done ← commitResolved (some m)
      if done then update (enterWait .linkUpWait) else fallToForced .anCommitFailed) fun _ => ArbitrationEnded m u := by
  have hb := macBits_of_valid hp
  refine Returns.bind (linkCommit_returns hp m) fun done => ?_
  intro t ⟨hend, hdone⟩
  rcases hend with ⟨rfl, h⟩ | ⟨rfl, h⟩
  · refine ⟨(), enterWait .linkUpWait t, rfl, h.kept.same rfl rfl rfl rfl rfl rfl, rfl, .inl ⟨?_, ?_⟩, fun _ _ => rfl⟩
    · rw [enterWait_link, h.link]
    · rw [enterWait_dev, h.mac]
      exact macCommitted_fullDuplex hb m _
  · obtain ⟨_, t', ht', -, hside⟩ := fallToForced_reaches .anCommitFailed t t (Alongside.refl t)
    have hf := hostSide_fields hside.side
    have hforced : LinkKept t (forced 0 (emitted (.log .anCommitFailed) t)) := (LinkKept.refl t).same rfl rfl rfl rfl rfl rfl
    have hlink : t'.link = { u.link with state := .forcedTryWait, tick := 0, perm := 0 } := by
      rw [← h.link]
      simp only [hf]
      rfl
    exact ⟨(), t', ht', h.kept.trans (hforced.alongside hside rfl), by simp only [hf]; rfl, .inr hlink,
      fun hs hseen => absurd (hdone hs hseen) Bool.false_ne_true⟩

/-- What a tick reads and counts before its commit, and the return after it, are not seen. -/
theorem ArbitrationEnded.of_tick {s t : State} (h : ArbitrationEnded m u t) (hu : LinkKept s u)
    (hlink : ∃ n, u.link = { s.link with tick := n }) (hseen : u.dev = s.dev) (hsched : u.sched = s.sched) : ArbitrationEnded m s (leave .ok t) := by
  obtain ⟨n, hlink⟩ := hlink
  refine ⟨(hu.trans h.kept).same rfl rfl rfl rfl rfl rfl, h.timer, ?_, fun hs hd => h.drained (hsched.trans hs) (hseen ▸ hd)⟩
  have hends := h.ends
  rwa [hlink, hu.params] at hends

theorem tickArbitration_commits {v pv : Word32} {rest : List Word32} (hp : paramsValid u.params = true)
    (hd : u.draws.mgmtRead = v :: pv :: rest) (hv : anComplete u.params.mgmt (mgmtTrunc u.params.mgmt v) = true)
    (hm : resolveMode u.params (mgmtTrunc u.params.mgmt pv) = some m) : Returns (Alongside · u) tickArbitration fun _ =>
      ArbitrationEnded m (polled u.params.mgmt.partner [pv] rest (polled u.params.mgmt.status [v] (pv :: rest) u)) :=
  tickArbitration_complete hd hv (by
    rw [hm]
    exact arbitrationCommit_returns (u := polled u.params.mgmt.partner [pv] rest (polled u.params.mgmt.status [v] (pv :: rest) u)) hp m)

end Arbitration

/-- Settles O34: the mode is the first common one, and its commit ends as `CommitEnded` says. -/
theorem arbitrationTickCommitsTheBestMode : Obligations.ArbitrationTickCommitsTheBestMode := by
  intro s v pv rest p hr hp ha hst hd hv hadv hpartner hfirst
  have hm : resolveMode s.params (mgmtTrunc s.params.mgmt pv) = some (permMode p) := resolveMode_first hadv hpartner hfirst
  have hwork := tickArbitration_commits (u := tickStart s) hp hd hv hm
  obtain ⟨t, hrun, hend, hlock, hout⟩ := exec_linkTick_returns (P := fun t => ArbitrationEnded (permMode p) s t ∧ t.lock = none ∧
    t.outcome = some .ok) hr ha (by
      rw [hst]
      exact (updateLink_reaches _ _).bind (hwork.after fun _ u hu =>
        ⟨hu.of_tick (((linkKept_tickStart s).polled _ _ _).polled _ _ _) ⟨_, rfl⟩ rfl rfl, rfl, rfl⟩))
  exact ⟨t, hrun, hend.kept.fault.trans hr.1.1, hlock, hout, hend.timer, hend.ends, hend.drained, exec_opaqueBits hrun,
    hend.kept.frame⟩

/-! ### Forced-try-wait with the link up (R237) -/

section Forced

variable {s t u : State} {m : Mode}

/-- A forced mode is reported, and the machine sleeps. -/
def reported (m : Mode) (s : State) : State :=
  { emitted (.forcedLinkUp m) s with link := { s.link with up := true, state := .asleep } }

theorem reportForced_done (m : Mode) (u : State) : Reaches (reportForced true m) u () (reported m u) :=
  (Reaches.pure () u).bind ((updateLink_reaches _ _).bind ((emit_reaches _ _).bind (updateLink_reaches _ _)))

theorem reportForced_failed (m : Mode) (u : State) :
    Reaches (reportForced false m) u () (reported m (emitted (.log .forcedCommitFailed) u)) :=
  (emit_reaches _ u).bind ((updateLink_reaches _ _).bind ((emit_reaches _ _).bind (updateLink_reaches _ _)))

/-- What a report changes. -/
structure ReportedAfter (m : Mode) (u t : State) : Prop where
  kept : LinkKept u t
  timer : t.timerArmed = u.timerArmed
  link : t.link = { u.link with up := true, state := .asleep }
  mac : t.dev.macTxcfg = u.dev.macTxcfg
  trace : hostTrace t = hostTrace u ++ [.forcedLinkUp m]

theorem reportedAfter (h : Alongside t (reported m u)) : ReportedAfter m u t := by
  have hf := hostSide_fields h.side
  have hkept : LinkKept u (reported m u) := (LinkKept.refl u).same rfl rfl rfl rfl rfl rfl
  have htrace : hostTrace (reported m u) = hostTrace u ++ [.forcedLinkUp m] := hostTrace_emitted _ _
  exact ⟨hkept.alongside h rfl, by simp only [hf]; rfl, by simp only [hf]; rfl, by simp only [hf]; rfl, by simp only [hf, htrace]⟩

/-- The tick reports mode `m` with the commit done, or with its failure logged; done if the MAC had drained and nothing came in between. -/
structure ForcedReported (m : Mode) (u t : State) : Prop where
  kept : LinkKept u t
  timer : t.timerArmed = u.timerArmed
  ends : (t.link = { u.link with up := true, state := .asleep, committed := some m } ∧
      t.dev.macTxcfg = macCommitted u.params m (putTxEnable u.params u.dev.macTxcfg false) ∧
      ∃ l, hostTrace t = l ++ [.mmioW .macTxcfg (.word t.dev.macTxcfg), .forcedLinkUp m]) ∨
    ¬(u.sched = [] ∧ u.dev.macEnableSeen = false) ∧ t.link = { u.link with up := true, state := .asleep } ∧
      t.dev.macTxcfg = putTxEnable u.params u.dev.macTxcfg false ∧
      ∃ l, hostTrace t = l ++ [.log .forcedCommitFailed, .forcedLinkUp m]

theorem forcedUp_returns (hp : paramsValid u.params = true) :
    Returns (Alongside · u) forcedUp fun _ => ForcedReported (permMode u.link.perm) u := by
  rw [forcedUp_eq]
  refine Reaches.read (fun t ht => by rw [ht.link]) (Returns.bind (linkCommit_returns hp _) fun done => ?_)
  generalize permMode u.link.perm = m
  intro t ⟨hend, hdone⟩
  rcases hend with ⟨rfl, h⟩ | ⟨rfl, h⟩
  · obtain ⟨_, t', ht', -, hside⟩ := reportForced_done m t t (Alongside.refl t)
    have hrep := reportedAfter hside
    obtain ⟨l, hl⟩ := h.last
    refine ⟨(), t', ht', h.kept.trans hrep.kept, hrep.timer.trans h.timer, .inl ⟨?_, hrep.mac.trans h.mac, l, ?_⟩⟩
    · rw [hrep.link, h.link]
    · rw [hrep.trace, hl, hrep.mac, List.append_assoc]
      rfl
  · obtain ⟨_, t', ht', -, hside⟩ := reportForced_failed m t t (Alongside.refl t)
    have hrep := reportedAfter hside
    have hlogged := h.event (.log .forcedCommitFailed)
    refine ⟨(), t', ht', hlogged.kept.trans hrep.kept, hrep.timer.trans h.timer, .inr ⟨?_, ?_, hrep.mac.trans h.mac, hostTrace t, ?_⟩⟩
    · exact fun ⟨hs, hseen⟩ => absurd (hdone hs hseen) Bool.false_ne_true
    · rw [hrep.link, emitted_link, h.link]
    · rw [hrep.trace, hostTrace_emitted, List.append_assoc]
      rfl

/-- What a tick reads and counts before its commit, and the return after it, are not seen. -/
theorem ForcedReported.of_tick {v : Word32} {rest : List Word32} (hb : MacBits s.params)
    (h : ForcedReported (permMode s.link.perm) (polled s.params.mgmt.status [v] rest (tickStart s)) t) :
    LinkKept s (leave .ok t) ∧ (leave .ok t).timerArmed = false ∧
      (ForcedCommitted s (leave .ok t) ∨ ForcedCommitFailed s (leave .ok t)) ∧
      (s.sched = [] → s.dev.macEnableSeen = false → ForcedCommitted s (leave .ok t)) := by
  refine ⟨(((linkKept_tickStart s).polled _ _ _).trans h.kept).same rfl rfl rfl rfl rfl rfl, h.timer, ?_⟩
  rcases h.ends with ⟨hlink, hmac, htrace⟩ | ⟨hnot, hlink, hmac, htrace⟩
  · have hdone : ForcedCommitted s (leave .ok t) := ⟨hlink, (congrArg _ hmac).trans (macCommitted_txEnable hb _ _),
      (congrArg _ hmac).trans (macCommitted_fullDuplex hb _ _), htrace⟩
    exact ⟨.inl hdone, fun _ _ => hdone⟩
  · exact ⟨.inr ⟨hlink, (congrArg _ hmac).trans (getBit_putBit_same _ _ hb.tx), htrace⟩, fun hs hseen => absurd ⟨hs, hseen⟩ hnot⟩

end Forced

/-- Settles O37: the link is seen up, the commit ends as `CommitEnded` says, and the mode is reported. -/
theorem forcedTickReportsTheMode : Obligations.ForcedTickReportsTheMode := by
  intro s v rest hr hp ha hst hd hoff hon hv
  have hup := forcedUp_returns (u := polled s.params.mgmt.status [v] rest (tickStart s)) hp
  have hwork := tickForced_up (u := tickStart s) hd hoff hon hv hup
  obtain ⟨t, hrun, ⟨hkept, htimer, hends⟩, hlock, hout⟩ := exec_linkTick_returns (P := fun t => (LinkKept s t ∧ t.timerArmed = false ∧
    (ForcedCommitted s t ∨ ForcedCommitFailed s t) ∧ (s.sched = [] → s.dev.macEnableSeen = false → ForcedCommitted s t)) ∧
    t.lock = none ∧ t.outcome = some .ok) hr ha (by
      rw [hst]
      exact (updateLink_reaches _ _).bind (hwork.after fun _ u hu => ⟨hu.of_tick (macBits_of_valid hp), rfl, rfl⟩))
  exact ⟨t, hrun, hkept.fault.trans hr.1.1, hlock, hout, htimer, hends.1, hends.2, exec_opaqueBits hrun, hkept.frame⟩

end Sys2Proof.Link
end

section
/-! PROOFS. The ticks that run Device Reset/Init: the delayed retry, and the restart after the last permutation (R230, R239, R304, R344). -/

namespace Sys2Proof.Link

open Sys2Proof.Machine Sys2Proof.Laws Sys2Proof.Invariants Sys2Proof.Transmit Sys2Proof.Rings Sys2Proof.DeviceReset

section Reset

variable {s t u : State}

/-! ### A reset as the last thing a tick does -/

/-- The state `u` that the host has come to from `s`, in which it begins a reset: every relation that micro-steps keep holds. -/
def Stepped (s u : State) : Prop := u.fault = none ∧ ∀ R : State → State → Prop, Closed (HostStep anyWrite) R → R s u

theorem Stepped.refl (h : s.fault = none) : Stepped s s := ⟨h, fun _ hR => hR.refl s⟩

/-- A program that follows every such relation, run from a state the host has come to. -/
theorem Stepped.run {α : Type} {m : M α} {a : α} (h : Stepped s u)
    (hm : ∀ R : State → State → Prop, Closed (HostStep anyWrite) R → Follows R m) (ht : m u = .ok a t) : Stepped s t :=
  ⟨(Ends.of_ok (hm _ config_closed.host_of_op u h.1) ht).2, fun R hR =>
    hR.trans (h.2 R hR) (Ends.of_ok (hm R hR u h.1) ht).1⟩

theorem Stepped.hostTrace (h : Stepped s u) : hostTrace s <+: Machine.hostTrace u :=
  Completion.hostTrace_mono (h.2 _ config_closed.host_of_op).trace

theorem geometry_of_ringsReady (h : RingsReady s) : Geometry s := by
  obtain ⟨hp, -, -, hl, hw, -, hsh⟩ := h
  exact ⟨hp, hsh.1, hl, hw⟩

/-- Whatever the host did from `s` to `u`, as long as nothing but its draws has changed on its side, a reset begun in `u` returns, and
ends as one that begins in `s` with those draws. -/
theorem resetAndReturn_ends {d : Draws} (hb : Begun { s with draws := d } u) (hst : Stepped s u) (h : RingsReady s) (ctx : Context) :
    ∃ o t, resetAndReturn ctx u = .ok () t ∧ Stepped u t ∧ ResetEnded o { s with draws := d } t := by
  obtain ⟨base, hbase⟩ := Option.isSome_iff_exists.mp h.2.2.1
  obtain ⟨-, -, -, -, -, hcanon, -⟩ := id h
  have hgeometry := geometry_of_ringsReady h
  have hready : RingsReady u :=
    hb.ringsReady (hst.2 _ geometry_closed.host_of_op hgeometry) (hst.2 _ canonical_closed.host_of_op hcanon) h
  obtain ⟨o, t, ht, hend, hdraws⟩ := resetAndReturn_finishes ctx hst.1 hready ((congrArg (·.rx.base) hb.same).trans hbase)
  have hfollows := fun R hR => resetAndReturn_follows (R := R) hR ctx
  have hout : OutsideKept s t := fun a ha hout => ((hst.run hfollows ht).2 _ (apart_closed a) ⟨hgeometry, ha, hout⟩).2
  exact ⟨o, t, ht, (Stepped.refl hst.1).run hfollows ht,
    (hb.finished hend).resetEnded hbase hout fun o' h => hdraws o' (hb.drawsDecide h)⟩

/-! ### The two ticks -/

theorem timerFiring_notReady (ha : s.adapter = .notReady) :
    timerFiring s = (do resetAndReturn .timer; pure .ok : M OpOutcome) (fired s) := by
  have hcancel : timerFiring s = (do linkTick; pure .ok : M OpOutcome) (fired s) := rfl
  have hadapter : (fired s).adapter = .notReady := ha
  rw [hcancel]
  simp only [linkTick, run_bind, run_getState, hadapter]

/-- The last permutation has failed: the cable is blamed and the process restarts (R239). -/
theorem forcedDown_resets (hlimit : s.params.ftwLimitTick ≤ s.link.tick) (hp : s.link.perm = 3) :
    forcedDown s = resetAndReturn .timer (emitted (.log .cableProblem) (interleave s)) := by
  simp only [forcedDown, run_bind, run_getState, run_ite, hlimit, hp, if_true, run_emit]

/-- The state in which that reset begins. -/
theorem tickForced_exhausted {v : Word32} {rest : List Word32} (hs : s.fault = none) (hd : s.draws.mgmtRead = v :: rest)
    (hoff : s.link.tick ≠ s.params.ftwSettleOffTick) (hon : s.link.tick ≠ s.params.ftwSettleOnTick)
    (hv : linkOk s.params.mgmt (mgmtTrunc s.params.mgmt v) = false) (hlimit : s.params.ftwLimitTick ≤ s.link.tick)
    (hp : s.link.perm = 3) : ∃ u, tickForced s = resetAndReturn .timer u ∧ Stepped s u ∧
      Alongside u (emitted (.log .cableProblem) (polled s.params.mgmt.status [v] rest s)) := by
  obtain ⟨_, t, ht, rfl, htrack⟩ := mgmtRead_reaches hd s.params.mgmt.status s (Alongside.refl s)
  have hread := (Stepped.refl hs).run (fun R hR => mgmtRead_follows hR.calm_of_host _) ht
  have hlogged := hread.run (fun R hR => emit_follows hR.calm_of_host (.log .cableProblem)) (run_emit _ t)
  refine ⟨_, ?_, hlogged, htrack.step (linkUpdate_emitted _)⟩
  have hdown : forcedDown t = resetAndReturn .timer (emitted (.log .cableProblem) (interleave t)) := by
    refine forcedDown_resets ?_ ?_
    · rw [htrack.params, htrack.link]
      exact hlimit
    · rw [htrack.link]
      exact hp
  rw [← hdown]
  simp only [tickForced, run_bind, run_getState, run_ite, hoff, hon, if_false, ht, hv, Bool.false_eq_true]

end Reset

/-- Settles O38: each tick comes to a reset whose books are those of the state before, and returns when it does. -/
theorem tickRunsTheReset : Obligations.TickRunsTheReset := by
  refine ⟨?retry, ?exhausted⟩
  case retry =>
    intro s hr hready ha
    have hbegin : RingsReady (fired (enter .timer s)) := hready
    obtain ⟨o, t, ht, hst, hend⟩ := resetAndReturn_ends (s := fired (enter .timer s)) (u := fired (enter .timer s)) (d := s.draws)
      ⟨rfl, id⟩ (Stepped.refl hr.1.1) hbegin .timer
    refine ⟨leave .ok t, o, ?_, hst.1, rfl, rfl, hend⟩
    rw [exec_linkTick hr, timerFiring_notReady (s := enter .timer s) ha, run_bind, ht]
    rfl
  case exhausted =>
    intro s v rest hr hready ha hst hd hoff hon hv hlimit hp
    obtain ⟨u, hrun, hstep, htrack⟩ := tickForced_exhausted (s := tickStart s) hr.1.1 hd hoff hon hv hlimit hp
    have hbegun : Begun { tickStart s with draws := { s.draws with mgmtRead := rest } } u :=
      ⟨show hostCore (hostSide u) = hostCore (hostSide _) from congrArg hostCore htrack.side, fun hs => htrack.same hs ▸ hs⟩
    have hbegin : RingsReady (tickStart s) := hready
    obtain ⟨o, t, ht, hst', hend⟩ := resetAndReturn_ends hbegun hstep hbegin .timer
    have hexec : exec .linkTick s = .next (leave .ok t) := exec_linkTick_of_run hr ha (by
      rw [hst]
      exact hrun.trans ht)
    have htrace : hostTrace u = hostTrace s ++ [.mgmtR s.params.mgmt.status (mgmtTrunc s.params.mgmt v), .log .cableProblem] := by
      have hread : hostTrace (polled s.params.mgmt.status [v] rest (tickStart s)) =
          hostTrace s ++ [.mgmtR s.params.mgmt.status (mgmtTrunc s.params.mgmt v)] :=
        hostTrace_emitted (.mgmtR s.params.mgmt.status (mgmtTrunc s.params.mgmt v)) (tickStart s)
      have hlogged : hostTrace u = hostTrace (emitted (.log .cableProblem) (polled s.params.mgmt.status [v] rest (tickStart s))) :=
        congrArg (·.trace) htrack.side
      rw [hlogged, hostTrace_emitted, hread, List.append_assoc]
      rfl
    refine ⟨leave .ok t, o, hexec, hst'.1, rfl, rfl, hend, ?_⟩
    rw [← htrace]
    exact hst'.hostTrace

end Sys2Proof.Link
end
